-- ==== Sys2Proof/Word.lean ====
section
/-! DEFINITION. The word types of the block (`00_scope.md` R13). -/

namespace Sys2Proof

/-- A byte, `u8` (R12, R13). -/
abbrev Byte := BitVec 8

/-- A 32-bit register, `u32` (R13): `range`, `code`, the distances, the cursors. -/
abbrev Word := BitVec 32

/-- A 64-bit register, `u64` (R13): `position`, `ipos`; `expectedLength` is the same width read as signed. -/
abbrev DWord := BitVec 64

/-- A probability slot, `u11` (`10_state.md` R36). -/
abbrev Slot := BitVec 11

end Sys2Proof
end

