-- ==== Sys2Proof/Config.lean ====
section
/-! DEFINITION. Constants (`00_scope.md` R10), parameters with the spec's defaults (R11), and the free values of the
registers the spec leaves unspecified (`10_state.md` R44, R45). -/

namespace Sys2Proof

/-! ### Constants "an implementation must reproduce exactly" (R10) -/

/-- `PROB_TOTAL`. -/
abbrev probTotal : Nat := 2048
/-- `PROB_BITS`. -/
abbrev probBits : Nat := 11
/-- `MOVE_BITS`. -/
abbrev moveBits : Nat := 5
/-- `MATCH_MIN_LEN`. -/
abbrev matchMinLen : Nat := 2
/-- `PB_MAX`. -/
abbrev pbMax : Nat := 4
/-- `LEN_CLASSES`. -/
abbrev lenClasses : Nat := 4
/-- `ALIGN_BITS`. -/
abbrev alignBits : Nat := 4
/-- `END_POS_MODEL_INDEX`. -/
abbrev endPosModelIndex : Nat := 14
/-- `FULL_DISTANCES`. -/
abbrev fullDistances : Nat := 128
/-- `TOP`. -/
abbrev top : Word := 0x1000000#32
/-- `NUM_STATES`. -/
abbrev numStates : Nat := 12
/-- `LIT_STATES`. -/
abbrev litStates : Nat := 7
/-- `LIT_SUB_SIZE`. -/
abbrev litSubSize : Nat := 0x300
/-- `WINDOW_MIN`. -/
abbrev windowMin : Nat := 4096
/-- `EOS_DISTANCE`. -/
abbrev eosDistance : Word := 0xFFFFFFFF#32

/-! ### Register addresses (`20_memory.md` R72) -/

/-- The names of the block's registers (`10_state.md` R20 to R35). They have no addresses of their own (R72). -/
inductive RegName where
  | range
  | code
  | state
  | rep0
  | rep1
  | rep2
  | rep3
  | position
  | prevByte
  | lc
  | lp
  | pb
  | dictionarySize
  | posStateMask
  | literalPosMask
  | dictionarySizeCheck
  | windowSize
  | ipos
  | expectedLength
  | phase
  | status
  | writeCursor
  | watermark
deriving DecidableEq, Repr

/-- `REG_MAP`, "left to the platform" (R72, `92_eei_decisions.md` D1): the spec names no default, so a free value (log 36). -/
opaque Free.regMap : List (RegName × Nat)

/-! ### Parameters (R11, R72), each with the default the spec takes (log 18) -/

/-- The configuration fields of R11, and `REG_MAP` of R72. -/
structure Config where
  /-- `PROB_INIT` (D2). -/
  probInit : Slot := 1024#11
  /-- `POS_SLOT_BITS` (D5). -/
  posSlotBits : Nat := 6
  /-- `POS_DEC_SIZE` (D8). -/
  posDecSize : Nat := 114
  /-- `STATE_INIT` (D3). -/
  stateInit : BitVec 4 := 0#4
  /-- `REP_INIT` (D3). -/
  repInit : Word := 0#32
  /-- `POSITION_INIT` (D3). -/
  positionInit : DWord := 0#64
  /-- `PREVBYTE_INIT` (D3). -/
  prevByteInit : Byte := 0#8
  /-- `DICT_MAX` (D18), OPEN below this value. -/
  dictMax : Nat := 2147483647
  /-- `LCLP_MAX` (D24), OPEN. -/
  lclpMax : Nat := 12
  /-- `AFTER_LITERAL`, for the states 0 to 11 (D4; `45_symbols.md` R221). -/
  afterLiteral : List (BitVec 4) := [0#4, 0#4, 0#4, 0#4, 1#4, 2#4, 3#4, 4#4, 5#4, 6#4, 4#4, 5#4]
  /-- `AFTER_MATCH` (D4; R222). -/
  afterMatch : List (BitVec 4) := [7#4, 7#4, 7#4, 7#4, 7#4, 7#4, 7#4, 10#4, 10#4, 10#4, 10#4, 10#4]
  /-- `AFTER_REP` (D4; R223). -/
  afterRep : List (BitVec 4) := [8#4, 8#4, 8#4, 8#4, 8#4, 8#4, 8#4, 11#4, 11#4, 11#4, 11#4, 11#4]
  /-- `AFTER_SHORTREP` (D4; R224). -/
  afterShortRep : List (BitVec 4) := [9#4, 9#4, 9#4, 9#4, 9#4, 9#4, 9#4, 11#4, 11#4, 11#4, 11#4, 11#4]
  /-- The code of `OK` (D17; `60_exceptions.md` R260). -/
  codeOk : Nat := 0
  /-- The code of `FormatError` (D17). -/
  codeFormatError : Nat := 1
  /-- The code of `StreamTruncated` (D17). -/
  codeStreamTruncated : Nat := 2
  /-- The code of `CorruptStream` (D17). -/
  codeCorruptStream : Nat := 3
  /-- The code of `IoError` (D17). -/
  codeIoError : Nat := 4
  /-- `REG_MAP` (D1, `93_implementation_defined.md` U16), OPEN: the bus address of each register that has one, read by no rule. -/
  regMap : List (RegName × Nat) := Free.regMap
deriving DecidableEq, Repr

/-- The configuration of this model: every default of R11, and a free `REG_MAP`. -/
def config : Config := {}

@[simp] theorem config_probInit : config.probInit = 1024#11 := rfl
@[simp] theorem config_posSlotBits : config.posSlotBits = 6 := rfl
@[simp] theorem config_posDecSize : config.posDecSize = 114 := rfl
@[simp] theorem config_stateInit : config.stateInit = 0#4 := rfl
@[simp] theorem config_repInit : config.repInit = 0#32 := rfl
@[simp] theorem config_positionInit : config.positionInit = 0#64 := rfl
@[simp] theorem config_prevByteInit : config.prevByteInit = 0#8 := rfl
@[simp] theorem config_dictMax : config.dictMax = 2147483647 := rfl
@[simp] theorem config_lclpMax : config.lclpMax = 12 := rfl
@[simp] theorem config_afterLiteral : config.afterLiteral = [0#4, 0#4, 0#4, 0#4, 1#4, 2#4, 3#4, 4#4, 5#4, 6#4, 4#4, 5#4] := rfl
@[simp] theorem config_afterMatch : config.afterMatch = List.replicate 7 7#4 ++ List.replicate 5 10#4 := rfl
@[simp] theorem config_afterRep : config.afterRep = List.replicate 7 8#4 ++ List.replicate 5 11#4 := rfl
@[simp] theorem config_afterShortRep : config.afterShortRep = List.replicate 7 9#4 ++ List.replicate 5 11#4 := rfl
@[simp] theorem config_codeOk : config.codeOk = 0 := rfl
@[simp] theorem config_codeFormatError : config.codeFormatError = 1 := rfl
@[simp] theorem config_codeStreamTruncated : config.codeStreamTruncated = 2 := rfl
@[simp] theorem config_codeCorruptStream : config.codeCorruptStream = 3 := rfl
@[simp] theorem config_codeIoError : config.codeIoError = 4 := rfl
@[simp] theorem config_regMap : config.regMap = Free.regMap := rfl

/-! ### Free values (log 6, log 27)

What an unspecified register holds (R44, R45, `60_exceptions.md` R266): a constant with no body, applied to the counter
`State.freeCount`, so nothing in Lean can tell its value. -/

namespace Free
opaque range : Nat → Word
opaque code : Nat → Word
opaque state : Nat → BitVec 4
opaque rep0 : Nat → Word
opaque rep1 : Nat → Word
opaque rep2 : Nat → Word
opaque rep3 : Nat → Word
opaque position : Nat → DWord
opaque prevByte : Nat → Byte
opaque lc : Nat → BitVec 4
opaque lp : Nat → BitVec 3
opaque pb : Nat → BitVec 3
opaque dictionarySize : Nat → Word
opaque posStateMask : Nat → BitVec 4
opaque literalPosMask : Nat → BitVec 4
opaque dictionarySizeCheck : Nat → Word
opaque windowSize : Nat → Word
opaque ipos : Nat → DWord
opaque expectedLength : Nat → DWord
opaque writeCursor : Nat → Word
opaque watermark : Nat → Word
/-- The contents of the probability slot with a given key, in the generation of unspecified contents with a given number. -/
opaque slot : Nat → Nat → Slot
/-- What `afterLiteral` gives for a value that is no state (log 27). -/
opaque afterLiteral : BitVec 4 → BitVec 4
/-- What `afterMatch` gives for a value that is no state (log 27). -/
opaque afterMatch : BitVec 4 → BitVec 4
/-- What `afterRep` gives for a value that is no state (log 27). -/
opaque afterRep : BitVec 4 → BitVec 4
/-- What `afterShortRep` gives for a value that is no state (log 27). -/
opaque afterShortRep : BitVec 4 → BitVec 4
end Free

end Sys2Proof
end

