-- ==== Sys2Proof/Names.lean ====
section
/-! DEFINITION. The names operands are made of: the probability groups (`10_state.md` R37) and the two length decoders
(`42_length_decoder.md` R160). -/

namespace Sys2Proof

/-- The probability groups, the address spaces `PROB.<group>` of `10_state.md` R37, in the order of its table. -/
inductive ProbGroup where
  | isMatch
  | isRep
  | isRepG0
  | isRepG1
  | isRepG2
  | isRep0Long
  | posSlot
  | posDec
  | align
  | mlenChoice
  | mlenLow
  | mlenMid
  | mlenHigh
  | rlenChoice
  | rlenLow
  | rlenMid
  | rlenHigh
  | lit
deriving DecidableEq, Repr

/-- The place of a group in R37's table; only used to keep the slots of different groups apart (R39). -/
def ProbGroup.index : ProbGroup → Nat
  | .isMatch => 0
  | .isRep => 1
  | .isRepG0 => 2
  | .isRepG1 => 3
  | .isRepG2 => 4
  | .isRep0Long => 5
  | .posSlot => 6
  | .posDec => 7
  | .align => 8
  | .mlenChoice => 9
  | .mlenLow => 10
  | .mlenMid => 11
  | .mlenHigh => 12
  | .rlenChoice => 13
  | .rlenLow => 14
  | .rlenMid => 15
  | .rlenHigh => 16
  | .lit => 17

/-- The two LengthDecoder instances, `MLEN` (match length) and `RLEN` (rep length) (R160). -/
inductive LenInst where
  | mlen
  | rlen
deriving DecidableEq, Repr

/-- `X_CHOICE` (R160). -/
def LenInst.choice : LenInst → ProbGroup
  | .mlen => .mlenChoice
  | .rlen => .rlenChoice

/-- `X_LOW` (R160). -/
def LenInst.low : LenInst → ProbGroup
  | .mlen => .mlenLow
  | .rlen => .rlenLow

/-- `X_MID` (R160). -/
def LenInst.mid : LenInst → ProbGroup
  | .mlen => .mlenMid
  | .rlen => .rlenMid

/-- `X_HIGH` (R160). -/
def LenInst.high : LenInst → ProbGroup
  | .mlen => .mlenHigh
  | .rlen => .rlenHigh

/-- Which of the four `POS_SLOT` trees a distance is decoded with, `lenClass` (`45_symbols.md` R204). -/
abbrev LenClass := Fin 4

end Sys2Proof
end

