-- ==== Sys2Proof/Syntax.lean ====
section
/-! DEFINITION. The instructions: one constructor for each row of `spec/opcode_table.json`.

The operands of a SYM row are those of the spec's notation (`30_encoding.md` R109), those of a LEN or DIST row the fields
of its bit pattern (R110) with, before them, the context the pattern does not carry (which length decoder, which
position-slot tree: log 4), those of an OP or CMD row the operands its rule gives it. -/

namespace Sys2Proof

/-- The instruction set of the block, row by row of the opcode table. -/
inductive Instr where
  /-- `LIT`: literal byte (R98, R202). -/
  | lit (b : Byte)
  /-- `MATCH`: new match of `len` bytes at zero-based distance `dist` (R99, R203). -/
  | matchNew (len : Nat) (dist : Word)
  /-- `EOS`: the end-of-stream marker, with the length its field carries (R103, R207). -/
  | eos (len : Nat)
  /-- `SHORTREP`: one byte from `rep0` (R104, R211). -/
  | shortrep
  /-- `LONGREP0` (R104, R212). -/
  | longrep0 (len : Nat)
  /-- `LONGREP1` (R104, R213). -/
  | longrep1 (len : Nat)
  /-- `LONGREP2` (R104, R214). -/
  | longrep2 (len : Nat)
  /-- `LONGREP3` (R104, R215). -/
  | longrep3 (len : Nat)
  /-- `LEN.low`: bits `0ttt` on the decoder `x` (R100, R161). -/
  | lenLow (x : LenInst) (t : BitVec 3)
  /-- `LEN.mid`: bits `10ttt` (R100, R161). -/
  | lenMid (x : LenInst) (t : BitVec 3)
  /-- `LEN.high`: bits `11tttttttt` (R100, R161). -/
  | lenHigh (x : LenInst) (t : BitVec 8)
  /-- `DIST.slot0`: distance 0 (R102, R206). -/
  | distSlot0 (c : LenClass)
  /-- `DIST.slot1`: distance 1 (R102, R206). -/
  | distSlot1 (c : LenClass)
  /-- `DIST.slot2`: distance 2 (R102, R206). -/
  | distSlot2 (c : LenClass)
  /-- `DIST.slot3`: distance 3 (R102, R206). -/
  | distSlot3 (c : LenClass)
  /-- `DIST.slot4`: distance 4 + `r` (R102, R206). -/
  | distSlot4 (c : LenClass) (r : BitVec 1)
  /-- `DIST.slot5`: distance 6 + `r` (R102, R206). -/
  | distSlot5 (c : LenClass) (r : BitVec 1)
  /-- `DIST.slot6`: distance 8 + `r` (R102, R206). -/
  | distSlot6 (c : LenClass) (r : BitVec 2)
  /-- `DIST.slot7`: distance 12 + `r` (R102, R206). -/
  | distSlot7 (c : LenClass) (r : BitVec 2)
  /-- `DIST.slot8`: distance 16 + `r` (R102, R206). -/
  | distSlot8 (c : LenClass) (r : BitVec 3)
  /-- `DIST.slot9`: distance 24 + `r` (R102, R206). -/
  | distSlot9 (c : LenClass) (r : BitVec 3)
  /-- `DIST.slot10`: distance 32 + `r` (R102, R206). -/
  | distSlot10 (c : LenClass) (r : BitVec 4)
  /-- `DIST.slot11`: distance 48 + `r` (R102, R206). -/
  | distSlot11 (c : LenClass) (r : BitVec 4)
  /-- `DIST.slot12`: distance 64 + `r` (R102, R206). -/
  | distSlot12 (c : LenClass) (r : BitVec 5)
  /-- `DIST.slot13`: distance 96 + `r` (R102, R206). -/
  | distSlot13 (c : LenClass) (r : BitVec 5)
  /-- `DIST.slot14`: distance 0x80 + `d` * 16 + `a` (R102, R206). -/
  | distSlot14 (c : LenClass) (d : BitVec 2) (a : BitVec 4)
  /-- `DIST.slot15`: distance 0xC0 + `d` * 16 + `a` (R102, R206). -/
  | distSlot15 (c : LenClass) (d : BitVec 2) (a : BitVec 4)
  /-- `DIST.slot16`: distance 0x100 + `d` * 16 + `a` (R102, R206). -/
  | distSlot16 (c : LenClass) (d : BitVec 3) (a : BitVec 4)
  /-- `DIST.slot17`: distance 0x180 + `d` * 16 + `a` (R102, R206). -/
  | distSlot17 (c : LenClass) (d : BitVec 3) (a : BitVec 4)
  /-- `DIST.slot18`: distance 0x200 + `d` * 16 + `a` (R102, R206). -/
  | distSlot18 (c : LenClass) (d : BitVec 4) (a : BitVec 4)
  /-- `DIST.slot19`: distance 0x300 + `d` * 16 + `a` (R102, R206). -/
  | distSlot19 (c : LenClass) (d : BitVec 4) (a : BitVec 4)
  /-- `DIST.slot20`: distance 0x400 + `d` * 16 + `a` (R102, R206). -/
  | distSlot20 (c : LenClass) (d : BitVec 5) (a : BitVec 4)
  /-- `DIST.slot21`: distance 0x600 + `d` * 16 + `a` (R102, R206). -/
  | distSlot21 (c : LenClass) (d : BitVec 5) (a : BitVec 4)
  /-- `DIST.slot22`: distance 0x800 + `d` * 16 + `a` (R102, R206). -/
  | distSlot22 (c : LenClass) (d : BitVec 6) (a : BitVec 4)
  /-- `DIST.slot23`: distance 0xC00 + `d` * 16 + `a` (R102, R206). -/
  | distSlot23 (c : LenClass) (d : BitVec 6) (a : BitVec 4)
  /-- `DIST.slot24`: distance 0x1000 + `d` * 16 + `a` (R102, R206). -/
  | distSlot24 (c : LenClass) (d : BitVec 7) (a : BitVec 4)
  /-- `DIST.slot25`: distance 0x1800 + `d` * 16 + `a` (R102, R206). -/
  | distSlot25 (c : LenClass) (d : BitVec 7) (a : BitVec 4)
  /-- `DIST.slot26`: distance 0x2000 + `d` * 16 + `a` (R102, R206). -/
  | distSlot26 (c : LenClass) (d : BitVec 8) (a : BitVec 4)
  /-- `DIST.slot27`: distance 0x3000 + `d` * 16 + `a` (R102, R206). -/
  | distSlot27 (c : LenClass) (d : BitVec 8) (a : BitVec 4)
  /-- `DIST.slot28`: distance 0x4000 + `d` * 16 + `a` (R102, R206). -/
  | distSlot28 (c : LenClass) (d : BitVec 9) (a : BitVec 4)
  /-- `DIST.slot29`: distance 0x6000 + `d` * 16 + `a` (R102, R206). -/
  | distSlot29 (c : LenClass) (d : BitVec 9) (a : BitVec 4)
  /-- `DIST.slot30`: distance 0x8000 + `d` * 16 + `a` (R102, R206). -/
  | distSlot30 (c : LenClass) (d : BitVec 10) (a : BitVec 4)
  /-- `DIST.slot31`: distance 0xC000 + `d` * 16 + `a` (R102, R206). -/
  | distSlot31 (c : LenClass) (d : BitVec 10) (a : BitVec 4)
  /-- `DIST.slot32`: distance 0x10000 + `d` * 16 + `a` (R102, R206). -/
  | distSlot32 (c : LenClass) (d : BitVec 11) (a : BitVec 4)
  /-- `DIST.slot33`: distance 0x18000 + `d` * 16 + `a` (R102, R206). -/
  | distSlot33 (c : LenClass) (d : BitVec 11) (a : BitVec 4)
  /-- `DIST.slot34`: distance 0x20000 + `d` * 16 + `a` (R102, R206). -/
  | distSlot34 (c : LenClass) (d : BitVec 12) (a : BitVec 4)
  /-- `DIST.slot35`: distance 0x30000 + `d` * 16 + `a` (R102, R206). -/
  | distSlot35 (c : LenClass) (d : BitVec 12) (a : BitVec 4)
  /-- `DIST.slot36`: distance 0x40000 + `d` * 16 + `a` (R102, R206). -/
  | distSlot36 (c : LenClass) (d : BitVec 13) (a : BitVec 4)
  /-- `DIST.slot37`: distance 0x60000 + `d` * 16 + `a` (R102, R206). -/
  | distSlot37 (c : LenClass) (d : BitVec 13) (a : BitVec 4)
  /-- `DIST.slot38`: distance 0x80000 + `d` * 16 + `a` (R102, R206). -/
  | distSlot38 (c : LenClass) (d : BitVec 14) (a : BitVec 4)
  /-- `DIST.slot39`: distance 0xC0000 + `d` * 16 + `a` (R102, R206). -/
  | distSlot39 (c : LenClass) (d : BitVec 14) (a : BitVec 4)
  /-- `DIST.slot40`: distance 0x100000 + `d` * 16 + `a` (R102, R206). -/
  | distSlot40 (c : LenClass) (d : BitVec 15) (a : BitVec 4)
  /-- `DIST.slot41`: distance 0x180000 + `d` * 16 + `a` (R102, R206). -/
  | distSlot41 (c : LenClass) (d : BitVec 15) (a : BitVec 4)
  /-- `DIST.slot42`: distance 0x200000 + `d` * 16 + `a` (R102, R206). -/
  | distSlot42 (c : LenClass) (d : BitVec 16) (a : BitVec 4)
  /-- `DIST.slot43`: distance 0x300000 + `d` * 16 + `a` (R102, R206). -/
  | distSlot43 (c : LenClass) (d : BitVec 16) (a : BitVec 4)
  /-- `DIST.slot44`: distance 0x400000 + `d` * 16 + `a` (R102, R206). -/
  | distSlot44 (c : LenClass) (d : BitVec 17) (a : BitVec 4)
  /-- `DIST.slot45`: distance 0x600000 + `d` * 16 + `a` (R102, R206). -/
  | distSlot45 (c : LenClass) (d : BitVec 17) (a : BitVec 4)
  /-- `DIST.slot46`: distance 0x800000 + `d` * 16 + `a` (R102, R206). -/
  | distSlot46 (c : LenClass) (d : BitVec 18) (a : BitVec 4)
  /-- `DIST.slot47`: distance 0xC00000 + `d` * 16 + `a` (R102, R206). -/
  | distSlot47 (c : LenClass) (d : BitVec 18) (a : BitVec 4)
  /-- `DIST.slot48`: distance 0x1000000 + `d` * 16 + `a` (R102, R206). -/
  | distSlot48 (c : LenClass) (d : BitVec 19) (a : BitVec 4)
  /-- `DIST.slot49`: distance 0x1800000 + `d` * 16 + `a` (R102, R206). -/
  | distSlot49 (c : LenClass) (d : BitVec 19) (a : BitVec 4)
  /-- `DIST.slot50`: distance 0x2000000 + `d` * 16 + `a` (R102, R206). -/
  | distSlot50 (c : LenClass) (d : BitVec 20) (a : BitVec 4)
  /-- `DIST.slot51`: distance 0x3000000 + `d` * 16 + `a` (R102, R206). -/
  | distSlot51 (c : LenClass) (d : BitVec 20) (a : BitVec 4)
  /-- `DIST.slot52`: distance 0x4000000 + `d` * 16 + `a` (R102, R206). -/
  | distSlot52 (c : LenClass) (d : BitVec 21) (a : BitVec 4)
  /-- `DIST.slot53`: distance 0x6000000 + `d` * 16 + `a` (R102, R206). -/
  | distSlot53 (c : LenClass) (d : BitVec 21) (a : BitVec 4)
  /-- `DIST.slot54`: distance 0x8000000 + `d` * 16 + `a` (R102, R206). -/
  | distSlot54 (c : LenClass) (d : BitVec 22) (a : BitVec 4)
  /-- `DIST.slot55`: distance 0xC000000 + `d` * 16 + `a` (R102, R206). -/
  | distSlot55 (c : LenClass) (d : BitVec 22) (a : BitVec 4)
  /-- `DIST.slot56`: distance 0x10000000 + `d` * 16 + `a` (R102, R206). -/
  | distSlot56 (c : LenClass) (d : BitVec 23) (a : BitVec 4)
  /-- `DIST.slot57`: distance 0x18000000 + `d` * 16 + `a` (R102, R206). -/
  | distSlot57 (c : LenClass) (d : BitVec 23) (a : BitVec 4)
  /-- `DIST.slot58`: distance 0x20000000 + `d` * 16 + `a` (R102, R206). -/
  | distSlot58 (c : LenClass) (d : BitVec 24) (a : BitVec 4)
  /-- `DIST.slot59`: distance 0x30000000 + `d` * 16 + `a` (R102, R206). -/
  | distSlot59 (c : LenClass) (d : BitVec 24) (a : BitVec 4)
  /-- `DIST.slot60`: distance 0x40000000 + `d` * 16 + `a` (R102, R206). -/
  | distSlot60 (c : LenClass) (d : BitVec 25) (a : BitVec 4)
  /-- `DIST.slot61`: distance 0x60000000 + `d` * 16 + `a` (R102, R206). -/
  | distSlot61 (c : LenClass) (d : BitVec 25) (a : BitVec 4)
  /-- `DIST.slot62`: distance 0x80000000 + `d` * 16 + `a` (R102, R206). -/
  | distSlot62 (c : LenClass) (d : BitVec 26) (a : BitVec 4)
  /-- `DIST.slot63`: distance 0xC0000000 + `d` * 16 + `a` (R102, R206). -/
  | distSlot63 (c : LenClass) (d : BitVec 26) (a : BitVec 4)
  /-- `InByte()` (R131). -/
  | inByte
  /-- `RC_INIT()` (R132). -/
  | rcInit
  /-- `RC_NORMALIZE()` (R133). -/
  | rcNormalize
  /-- `RC_BIT(G, i)` (R134). -/
  | rcBit (g : ProbGroup) (i : Nat)
  /-- `RC_DIRECT(n)` (R135). -/
  | rcDirect (n : Nat)
  /-- `BT_DECODE(G, B, d)` (R151). -/
  | btDecode (g : ProbGroup) (base : Int) (d : Nat)
  /-- `BT_REVERSE(G, B, d)`; `B` may be -1 (R150, R152). -/
  | btReverse (g : ProbGroup) (base : Int) (d : Nat)
  /-- `LEN_DECODE(X, ps)` (R161). -/
  | lenDecode (x : LenInst) (ps : Nat)
  /-- `LIT_SELECT()` (R170). -/
  | litSelect
  /-- `LIT_NORMAL(base)` (R171). -/
  | litNormal (base : Nat)
  /-- `LIT_MATCHED(base, matchByte)` (R172). -/
  | litMatched (base : Nat) (matchByte : Byte)
  /-- `WIN_PUT(b)` (R182). -/
  | winPut (b : Byte)
  /-- `WIN_GET(d)` (R183). -/
  | winGet (d : Word)
  /-- `WIN_COPY(d, len)` (R184). -/
  | winCopy (d : Word) (len : Nat)
  /-- `WIN_FLUSH()` (R186). -/
  | winFlush
  /-- `SinkWrite(bytes)` (`00_scope.md` R15, `20_memory.md` R62). -/
  | sinkWrite (bytes : List Byte)
  /-- `SYMBOL()` (R200). -/
  | symbol
  /-- `DIST_DECODE(len)` (R206). -/
  | distDecode (len : Nat)
  /-- `RANGE_CHECK`: the distance range check on `d` (R208). -/
  | rangeCheck (d : Word)
  /-- `COPY`: the common tail of the copying symbols, with the symbol's length (R209). -/
  | copy (len : Nat)
  /-- `afterLiteral(s)` (R221). -/
  | afterLiteral (st : BitVec 4)
  /-- `afterMatch(s)` (R222). -/
  | afterMatch (st : BitVec 4)
  /-- `afterRep(s)` (R223). -/
  | afterRep (st : BitVec 4)
  /-- `afterShortRep(s)` (R224). -/
  | afterShortRep (st : BitVec 4)
  /-- `RESET` (R241). -/
  | cmdReset
  /-- `SET_PROPERTIES(B)` (R242). -/
  | cmdSetProperties (bytes : List Byte)
  /-- `DECODE(expectedLength)`, an `i64` (R244). -/
  | cmdDecode (expectedLength : DWord)
deriving DecidableEq, Repr

end Sys2Proof
end

