-- ==== Sys2Proof/WellFormed.lean ====
section
/-! DEFINITION. Which instructions the encoding and the operand ranges of the rules admit. -/

namespace Sys2Proof

/-- The range of a length field, 2 to 273 (`30_encoding.md` R100). -/
def lenOk (len : Nat) : Bool := 2 ≤ len && len ≤ 273

/-- The number of slots a group has under the largest properties, `pb = 4`, `lc = 8`, `lp = 4` (`10_state.md` R37). -/
def ProbGroup.maxSize : ProbGroup → Nat
  | .isMatch => 192
  | .isRep => 12
  | .isRepG0 => 12
  | .isRepG1 => 12
  | .isRepG2 => 12
  | .isRep0Long => 192
  | .posSlot => 256
  | .posDec => 114
  | .align => 16
  | .mlenChoice => 2
  | .mlenLow => 128
  | .mlenMid => 128
  | .mlenHigh => 256
  | .rlenChoice => 2
  | .rlenLow => 128
  | .rlenMid => 128
  | .rlenHigh => 256
  | .lit => 3145728

/-- A tree of depth `d` at base `base` of group `g` has its slots `base + 1` to `base + 2^d - 1` inside the group
(`41_bit_tree.md` R150; the depths of R153 are 1 to 8). -/
def treeOk (g : ProbGroup) (base : Int) (d : Nat) : Bool :=
  1 ≤ d && d ≤ 8 && decide (-1 ≤ base) && decide (base + 2 ^ d ≤ g.maxSize)

/-- The operands of `i` are within the ranges the spec gives them. DESIGN CHOICE (log 32): `LIT_NORMAL` and `LIT_MATCHED` admit every
base whose block is inside `LIT`, though `LIT_SELECT` gives only multiples of `0x300` (`43_literal_decoder.md` R170, R171). -/
def Instr.wf : Instr → Bool
  | .lit _ => true
  | .matchNew len dist => lenOk len && dist != eosDistance
  | .eos len => lenOk len
  | .shortrep => true
  | .longrep0 len => lenOk len
  | .longrep1 len => lenOk len
  | .longrep2 len => lenOk len
  | .longrep3 len => lenOk len
  | .lenLow _ _ => true
  | .lenMid _ _ => true
  | .lenHigh _ _ => true
  | .distSlot0 _ => true
  | .distSlot1 _ => true
  | .distSlot2 _ => true
  | .distSlot3 _ => true
  | .distSlot4 _ _ => true
  | .distSlot5 _ _ => true
  | .distSlot6 _ _ => true
  | .distSlot7 _ _ => true
  | .distSlot8 _ _ => true
  | .distSlot9 _ _ => true
  | .distSlot10 _ _ => true
  | .distSlot11 _ _ => true
  | .distSlot12 _ _ => true
  | .distSlot13 _ _ => true
  | .distSlot14 _ _ _ => true
  | .distSlot15 _ _ _ => true
  | .distSlot16 _ _ _ => true
  | .distSlot17 _ _ _ => true
  | .distSlot18 _ _ _ => true
  | .distSlot19 _ _ _ => true
  | .distSlot20 _ _ _ => true
  | .distSlot21 _ _ _ => true
  | .distSlot22 _ _ _ => true
  | .distSlot23 _ _ _ => true
  | .distSlot24 _ _ _ => true
  | .distSlot25 _ _ _ => true
  | .distSlot26 _ _ _ => true
  | .distSlot27 _ _ _ => true
  | .distSlot28 _ _ _ => true
  | .distSlot29 _ _ _ => true
  | .distSlot30 _ _ _ => true
  | .distSlot31 _ _ _ => true
  | .distSlot32 _ _ _ => true
  | .distSlot33 _ _ _ => true
  | .distSlot34 _ _ _ => true
  | .distSlot35 _ _ _ => true
  | .distSlot36 _ _ _ => true
  | .distSlot37 _ _ _ => true
  | .distSlot38 _ _ _ => true
  | .distSlot39 _ _ _ => true
  | .distSlot40 _ _ _ => true
  | .distSlot41 _ _ _ => true
  | .distSlot42 _ _ _ => true
  | .distSlot43 _ _ _ => true
  | .distSlot44 _ _ _ => true
  | .distSlot45 _ _ _ => true
  | .distSlot46 _ _ _ => true
  | .distSlot47 _ _ _ => true
  | .distSlot48 _ _ _ => true
  | .distSlot49 _ _ _ => true
  | .distSlot50 _ _ _ => true
  | .distSlot51 _ _ _ => true
  | .distSlot52 _ _ _ => true
  | .distSlot53 _ _ _ => true
  | .distSlot54 _ _ _ => true
  | .distSlot55 _ _ _ => true
  | .distSlot56 _ _ _ => true
  | .distSlot57 _ _ _ => true
  | .distSlot58 _ _ _ => true
  | .distSlot59 _ _ _ => true
  | .distSlot60 _ _ _ => true
  | .distSlot61 _ _ _ => true
  | .distSlot62 _ _ _ => true
  | .distSlot63 _ _ _ => true
  | .inByte => true
  | .rcInit => true
  | .rcNormalize => true
  | .rcBit g i => i < g.maxSize
  | .rcDirect n => n ≤ 26
  | .btDecode g base d => treeOk g base d && decide (0 ≤ base)
  | .btReverse g base d => treeOk g base d
  | .lenDecode _ ps => ps < 16
  | .litSelect => true
  | .litNormal base => base + litSubSize ≤ ProbGroup.maxSize .lit
  | .litMatched base _ => base + litSubSize ≤ ProbGroup.maxSize .lit
  | .winPut _ => true
  | .winGet _ => true
  | .winCopy _ len => 1 ≤ len && len ≤ 273
  | .winFlush => true
  | .sinkWrite _ => true
  | .symbol => true
  | .distDecode len => lenOk len
  | .rangeCheck _ => true
  | .copy len => 1 ≤ len && len ≤ 273
  | .afterLiteral st => st.toNat < numStates
  | .afterMatch st => st.toNat < numStates
  | .afterRep st => st.toNat < numStates
  | .afterShortRep st => st.toNat < numStates
  | .cmdReset => true
  | .cmdSetProperties _ => true
  | .cmdDecode _ => true

end Sys2Proof
end

