-- ==== Sys2Proof/Decode.lean ====
section
/-! DEFINITION. Decision strings: the decoder (total, rejecting by name) and the encoder.

The words of this instruction set are strings of decision bits in decoding order (`30_encoding.md` R97, R110). A SYM row is
a prefix code of its own; a LEN or DIST row is a field of a symbol, so it is read in a context that the bits do not carry
(log 4). OP and CMD rows have no bits ("-"). How the bits themselves come out of the coded bytes is the range decoder's
work (`Machine/Ops.lean`). -/

namespace Sys2Proof

/-! ### Bit fields (R12) -/

/-- The low `n` bits of `v`, most significant first. -/
def bitsMsb : Nat → Nat → List Bool
  | 0, _ => []
  | n + 1, v => v.testBit n :: bitsMsb n v

/-- The low `n` bits of `v`, least significant first. -/
def bitsLsb : Nat → Nat → List Bool
  | 0, _ => []
  | n + 1, v => (v % 2 == 1) :: bitsLsb n (v / 2)

/-- Why a string of decision bits is no instruction: the prefix code is complete, so the one reason is that the string ends
inside a field (R106). -/
inductive DecodeError where
  | bitsRanOut
deriving DecidableEq, Repr

/-- Read an `n`-bit field, most significant bit first. -/
def readMsb : Nat → List Bool → Except DecodeError (Nat × List Bool)
  | 0, bs => .ok (0, bs)
  | _ + 1, [] => .error .bitsRanOut
  | n + 1, b :: bs =>
    match readMsb n bs with
    | .ok (v, rest) => .ok (b.toNat * 2 ^ n + v, rest)
    | .error e => .error e

/-- Read an `n`-bit field, least significant bit first. -/
def readLsb : Nat → List Bool → Except DecodeError (Nat × List Bool)
  | 0, bs => .ok (0, bs)
  | _ + 1, [] => .error .bitsRanOut
  | n + 1, b :: bs =>
    match readLsb n bs with
    | .ok (v, rest) => .ok (b.toNat + 2 * v, rest)
    | .error e => .error e

/-! ### The length field (R100) -/

/-- The bits of the length field of `len`. -/
def lenBits (len : Nat) : List Bool :=
  if len < 10 then false :: bitsMsb 3 (len - 2)
  else if len < 18 then true :: false :: bitsMsb 3 (len - 10)
  else true :: true :: bitsMsb 8 (len - 18)

/-- Read a length field. -/
def readLen : List Bool → Except DecodeError (Nat × List Bool)
  | false :: bs =>
    match readMsb 3 bs with
    | .ok (t, rest) => .ok (2 + t, rest)
    | .error e => .error e
  | true :: false :: bs =>
    match readMsb 3 bs with
    | .ok (t, rest) => .ok (10 + t, rest)
    | .error e => .error e
  | true :: true :: bs =>
    match readMsb 8 bs with
    | .ok (t, rest) => .ok (18 + t, rest)
    | .error e => .error e
  | _ => .error .bitsRanOut

/-! ### The distance field (R101, R102) -/

/-- `directBits` of a position slot of 4 or more (R102). -/
def directBits (posSlot : Nat) : Nat := (posSlot >>> 1) - 1

/-- The smallest distance of a position slot, `base` from 4 on (R102). -/
def distBase (posSlot : Nat) : Nat :=
  if posSlot < 4 then posSlot else (2 ||| (posSlot &&& 1)) <<< directBits posSlot

/-- How many extra bits a position slot calls for (R102). -/
def extraWidth (posSlot : Nat) : Nat := if posSlot < 4 then 0 else directBits posSlot

/-- The extra bits of a position slot, in decoding order, for the value `e` they add (R102): a reverse tree below slot 14,
direct bits and then `ALIGN` from slot 14 on. -/
def extraBits (posSlot e : Nat) : List Bool :=
  if posSlot < 4 then []
  else if posSlot < endPosModelIndex then bitsLsb (directBits posSlot) e
  else bitsMsb (directBits posSlot - alignBits) (e / 16) ++ bitsLsb alignBits (e % 16)

/-- Read the extra bits of a position slot. -/
def readExtra (posSlot : Nat) (bs : List Bool) : Except DecodeError (Nat × List Bool) :=
  if posSlot < 4 then .ok (0, bs)
  else if posSlot < endPosModelIndex then readLsb (directBits posSlot) bs
  else
    match readMsb (directBits posSlot - alignBits) bs with
    | .error e => .error e
    | .ok (hi, bs1) =>
      match readLsb alignBits bs1 with
      | .error e => .error e
      | .ok (lo, rest) => .ok (hi * 16 + lo, rest)

/-- The position slot whose range holds the distance `dist`: the ranges of R102 tile the 32-bit distances. -/
def posSlotOf (dist : Nat) : Nat :=
  if dist < 4 then dist else 2 * dist.log2 + (dist >>> (dist.log2 - 1)) % 2

/-- The bits of a distance field: six position-slot bits and the extra bits (R101, R102). -/
def distBits (posSlot e : Nat) : List Bool := bitsMsb config.posSlotBits posSlot ++ extraBits posSlot e

/-- Read a distance field: the position slot and the value of its extra bits. -/
def readDist (bs : List Bool) : Except DecodeError (Nat × Nat × List Bool) :=
  match readMsb config.posSlotBits bs with
  | .error e => .error e
  | .ok (slot, bs1) =>
    match readExtra slot bs1 with
    | .error e => .error e
    | .ok (e, rest) => .ok (slot, e, rest)

/-- `lenClass = min(len - 2, 3)` (`45_symbols.md` R204). DESIGN CHOICE (log 30): 0 and 1, which are no lengths, are put in class 0. -/
def lenClassOf (len : Nat) : LenClass :=
  if len - 2 = 0 then 0 else if len - 2 = 1 then 1 else if len - 2 = 2 then 2 else 3

/-! ### Symbols (R97, R109) -/

/-- One symbol of a stream, with its fields, in the notation of R109. -/
inductive Symbol where
  | lit (b : Byte)
  | matchNew (len : Nat) (dist : Word)
  | eos (len : Nat)
  | shortrep
  | longrep0 (len : Nat)
  | longrep1 (len : Nat)
  | longrep2 (len : Nat)
  | longrep3 (len : Nat)
deriving DecidableEq, Repr

/-- The SYM row a symbol is an instance of. -/
def Symbol.toInstr : Symbol → Instr
  | .lit b => .lit b
  | .matchNew len dist => .matchNew len dist
  | .eos len => .eos len
  | .shortrep => .shortrep
  | .longrep0 len => .longrep0 len
  | .longrep1 len => .longrep1 len
  | .longrep2 len => .longrep2 len
  | .longrep3 len => .longrep3 len

/-- A match whose distance is `0xFFFFFFFF` is the end marker (R103). -/
def Symbol.ofMatch (len : Nat) (dist : Word) : Symbol :=
  if dist = eosDistance then .eos len else .matchNew len dist

/-- The decision string of a symbol (R97 to R104). -/
def Symbol.bits : Symbol → List Bool
  | .lit b => false :: bitsMsb 8 b.toNat
  | .matchNew len dist =>
    true :: false :: (lenBits len ++ distBits (posSlotOf dist.toNat) (dist.toNat - distBase (posSlotOf dist.toNat)))
  | .eos len => true :: false :: (lenBits len ++ distBits 63 (2 ^ 30 - 1))
  | .shortrep => [true, true, false, false]
  | .longrep0 len => true :: true :: false :: true :: lenBits len
  | .longrep1 len => true :: true :: true :: false :: lenBits len
  | .longrep2 len => true :: true :: true :: true :: false :: lenBits len
  | .longrep3 len => true :: true :: true :: true :: true :: lenBits len

/-- Read a length field and make a symbol of it. -/
def readWithLen (f : Nat → Symbol) (bs : List Bool) : Except DecodeError (Symbol × List Bool) :=
  match readLen bs with
  | .error e => .error e
  | .ok (len, rest) => .ok (f len, rest)

/-- Read one symbol from a string of decision bits (R97). -/
def readSymbol : List Bool → Except DecodeError (Symbol × List Bool)
  | false :: bs =>
    match readMsb 8 bs with
    | .error e => .error e
    | .ok (v, rest) => .ok (.lit (BitVec.ofNat 8 v), rest)
  | true :: false :: bs =>
    match readLen bs with
    | .error e => .error e
    | .ok (len, bs1) =>
      match readDist bs1 with
      | .error e => .error e
      | .ok (slot, e, rest) => .ok (Symbol.ofMatch len (BitVec.ofNat 32 (distBase slot + e)), rest)
  | true :: true :: false :: false :: bs => .ok (.shortrep, bs)
  | true :: true :: false :: true :: bs => readWithLen .longrep0 bs
  | true :: true :: true :: false :: bs => readWithLen .longrep1 bs
  | true :: true :: true :: true :: false :: bs => readWithLen .longrep2 bs
  | true :: true :: true :: true :: true :: bs => readWithLen .longrep3 bs
  | _ => .error .bitsRanOut

/-! ### LEN and DIST rows -/

/-- Read a length field on the decoder `x` as the LEN row it is an instance of (R100). -/
def readLenRow (x : LenInst) : List Bool → Except DecodeError (Instr × List Bool)
  | false :: bs =>
    match readMsb 3 bs with
    | .ok (t, rest) => .ok (.lenLow x (BitVec.ofNat 3 t), rest)
    | .error e => .error e
  | true :: false :: bs =>
    match readMsb 3 bs with
    | .ok (t, rest) => .ok (.lenMid x (BitVec.ofNat 3 t), rest)
    | .error e => .error e
  | true :: true :: bs =>
    match readMsb 8 bs with
    | .ok (t, rest) => .ok (.lenHigh x (BitVec.ofNat 8 t), rest)
    | .error e => .error e
  | _ => .error .bitsRanOut

/-- The DIST row of a position slot, with the value `e` of its extra bits; position slots have six bits, and a number of 64
or more, which six bits do not give, is read as 63. -/
def distRow (c : LenClass) (posSlot e : Nat) : Instr :=
  match posSlot with
  | 0 => .distSlot0 c
  | 1 => .distSlot1 c
  | 2 => .distSlot2 c
  | 3 => .distSlot3 c
  | 4 => .distSlot4 c (BitVec.ofNat 1 e)
  | 5 => .distSlot5 c (BitVec.ofNat 1 e)
  | 6 => .distSlot6 c (BitVec.ofNat 2 e)
  | 7 => .distSlot7 c (BitVec.ofNat 2 e)
  | 8 => .distSlot8 c (BitVec.ofNat 3 e)
  | 9 => .distSlot9 c (BitVec.ofNat 3 e)
  | 10 => .distSlot10 c (BitVec.ofNat 4 e)
  | 11 => .distSlot11 c (BitVec.ofNat 4 e)
  | 12 => .distSlot12 c (BitVec.ofNat 5 e)
  | 13 => .distSlot13 c (BitVec.ofNat 5 e)
  | 14 => .distSlot14 c (BitVec.ofNat 2 (e / 16)) (BitVec.ofNat 4 e)
  | 15 => .distSlot15 c (BitVec.ofNat 2 (e / 16)) (BitVec.ofNat 4 e)
  | 16 => .distSlot16 c (BitVec.ofNat 3 (e / 16)) (BitVec.ofNat 4 e)
  | 17 => .distSlot17 c (BitVec.ofNat 3 (e / 16)) (BitVec.ofNat 4 e)
  | 18 => .distSlot18 c (BitVec.ofNat 4 (e / 16)) (BitVec.ofNat 4 e)
  | 19 => .distSlot19 c (BitVec.ofNat 4 (e / 16)) (BitVec.ofNat 4 e)
  | 20 => .distSlot20 c (BitVec.ofNat 5 (e / 16)) (BitVec.ofNat 4 e)
  | 21 => .distSlot21 c (BitVec.ofNat 5 (e / 16)) (BitVec.ofNat 4 e)
  | 22 => .distSlot22 c (BitVec.ofNat 6 (e / 16)) (BitVec.ofNat 4 e)
  | 23 => .distSlot23 c (BitVec.ofNat 6 (e / 16)) (BitVec.ofNat 4 e)
  | 24 => .distSlot24 c (BitVec.ofNat 7 (e / 16)) (BitVec.ofNat 4 e)
  | 25 => .distSlot25 c (BitVec.ofNat 7 (e / 16)) (BitVec.ofNat 4 e)
  | 26 => .distSlot26 c (BitVec.ofNat 8 (e / 16)) (BitVec.ofNat 4 e)
  | 27 => .distSlot27 c (BitVec.ofNat 8 (e / 16)) (BitVec.ofNat 4 e)
  | 28 => .distSlot28 c (BitVec.ofNat 9 (e / 16)) (BitVec.ofNat 4 e)
  | 29 => .distSlot29 c (BitVec.ofNat 9 (e / 16)) (BitVec.ofNat 4 e)
  | 30 => .distSlot30 c (BitVec.ofNat 10 (e / 16)) (BitVec.ofNat 4 e)
  | 31 => .distSlot31 c (BitVec.ofNat 10 (e / 16)) (BitVec.ofNat 4 e)
  | 32 => .distSlot32 c (BitVec.ofNat 11 (e / 16)) (BitVec.ofNat 4 e)
  | 33 => .distSlot33 c (BitVec.ofNat 11 (e / 16)) (BitVec.ofNat 4 e)
  | 34 => .distSlot34 c (BitVec.ofNat 12 (e / 16)) (BitVec.ofNat 4 e)
  | 35 => .distSlot35 c (BitVec.ofNat 12 (e / 16)) (BitVec.ofNat 4 e)
  | 36 => .distSlot36 c (BitVec.ofNat 13 (e / 16)) (BitVec.ofNat 4 e)
  | 37 => .distSlot37 c (BitVec.ofNat 13 (e / 16)) (BitVec.ofNat 4 e)
  | 38 => .distSlot38 c (BitVec.ofNat 14 (e / 16)) (BitVec.ofNat 4 e)
  | 39 => .distSlot39 c (BitVec.ofNat 14 (e / 16)) (BitVec.ofNat 4 e)
  | 40 => .distSlot40 c (BitVec.ofNat 15 (e / 16)) (BitVec.ofNat 4 e)
  | 41 => .distSlot41 c (BitVec.ofNat 15 (e / 16)) (BitVec.ofNat 4 e)
  | 42 => .distSlot42 c (BitVec.ofNat 16 (e / 16)) (BitVec.ofNat 4 e)
  | 43 => .distSlot43 c (BitVec.ofNat 16 (e / 16)) (BitVec.ofNat 4 e)
  | 44 => .distSlot44 c (BitVec.ofNat 17 (e / 16)) (BitVec.ofNat 4 e)
  | 45 => .distSlot45 c (BitVec.ofNat 17 (e / 16)) (BitVec.ofNat 4 e)
  | 46 => .distSlot46 c (BitVec.ofNat 18 (e / 16)) (BitVec.ofNat 4 e)
  | 47 => .distSlot47 c (BitVec.ofNat 18 (e / 16)) (BitVec.ofNat 4 e)
  | 48 => .distSlot48 c (BitVec.ofNat 19 (e / 16)) (BitVec.ofNat 4 e)
  | 49 => .distSlot49 c (BitVec.ofNat 19 (e / 16)) (BitVec.ofNat 4 e)
  | 50 => .distSlot50 c (BitVec.ofNat 20 (e / 16)) (BitVec.ofNat 4 e)
  | 51 => .distSlot51 c (BitVec.ofNat 20 (e / 16)) (BitVec.ofNat 4 e)
  | 52 => .distSlot52 c (BitVec.ofNat 21 (e / 16)) (BitVec.ofNat 4 e)
  | 53 => .distSlot53 c (BitVec.ofNat 21 (e / 16)) (BitVec.ofNat 4 e)
  | 54 => .distSlot54 c (BitVec.ofNat 22 (e / 16)) (BitVec.ofNat 4 e)
  | 55 => .distSlot55 c (BitVec.ofNat 22 (e / 16)) (BitVec.ofNat 4 e)
  | 56 => .distSlot56 c (BitVec.ofNat 23 (e / 16)) (BitVec.ofNat 4 e)
  | 57 => .distSlot57 c (BitVec.ofNat 23 (e / 16)) (BitVec.ofNat 4 e)
  | 58 => .distSlot58 c (BitVec.ofNat 24 (e / 16)) (BitVec.ofNat 4 e)
  | 59 => .distSlot59 c (BitVec.ofNat 24 (e / 16)) (BitVec.ofNat 4 e)
  | 60 => .distSlot60 c (BitVec.ofNat 25 (e / 16)) (BitVec.ofNat 4 e)
  | 61 => .distSlot61 c (BitVec.ofNat 25 (e / 16)) (BitVec.ofNat 4 e)
  | 62 => .distSlot62 c (BitVec.ofNat 26 (e / 16)) (BitVec.ofNat 4 e)
  | _ => .distSlot63 c (BitVec.ofNat 26 (e / 16)) (BitVec.ofNat 4 e)

/-- Read a distance field in length class `c` as the DIST row it is an instance of (R102). -/
def readDistRow (c : LenClass) (bs : List Bool) : Except DecodeError (Instr × List Bool) :=
  match readDist bs with
  | .error e => .error e
  | .ok (slot, e, rest) => .ok (distRow c slot e, rest)

/-! ### The decoder and the encoder -/

/-- What is being read: a symbol (SYM rows), a length field of a given decoder (LEN rows), a distance field in a given
length class (DIST rows) (R110). -/
inductive Context where
  | sym
  | len (x : LenInst)
  | dist (c : LenClass)
deriving DecidableEq, Repr

/-- Decode one instruction from a string of decision bits, with the rest of the string. -/
def decode : Context → List Bool → Except DecodeError (Instr × List Bool)
  | .sym, bs =>
    match readSymbol bs with
    | .error e => .error e
    | .ok (y, rest) => .ok (y.toInstr, rest)
  | .len x, bs => readLenRow x bs
  | .dist c, bs => readDistRow c bs

/-- The decision string of an instruction and the context it is read in; `none` for the OP and CMD rows, which have the
encoding "-" (R110). -/
def encode : Instr → Option (Context × List Bool)
  | .lit b => some (.sym, (Symbol.lit b).bits)
  | .matchNew len dist => some (.sym, (Symbol.matchNew len dist).bits)
  | .eos len => some (.sym, (Symbol.eos len).bits)
  | .shortrep => some (.sym, Symbol.shortrep.bits)
  | .longrep0 len => some (.sym, (Symbol.longrep0 len).bits)
  | .longrep1 len => some (.sym, (Symbol.longrep1 len).bits)
  | .longrep2 len => some (.sym, (Symbol.longrep2 len).bits)
  | .longrep3 len => some (.sym, (Symbol.longrep3 len).bits)
  | .lenLow x t => some (.len x, false :: bitsMsb 3 t.toNat)
  | .lenMid x t => some (.len x, true :: false :: bitsMsb 3 t.toNat)
  | .lenHigh x t => some (.len x, true :: true :: bitsMsb 8 t.toNat)
  | .distSlot0 c => some (.dist c, distBits 0 0)
  | .distSlot1 c => some (.dist c, distBits 1 0)
  | .distSlot2 c => some (.dist c, distBits 2 0)
  | .distSlot3 c => some (.dist c, distBits 3 0)
  | .distSlot4 c r => some (.dist c, distBits 4 r.toNat)
  | .distSlot5 c r => some (.dist c, distBits 5 r.toNat)
  | .distSlot6 c r => some (.dist c, distBits 6 r.toNat)
  | .distSlot7 c r => some (.dist c, distBits 7 r.toNat)
  | .distSlot8 c r => some (.dist c, distBits 8 r.toNat)
  | .distSlot9 c r => some (.dist c, distBits 9 r.toNat)
  | .distSlot10 c r => some (.dist c, distBits 10 r.toNat)
  | .distSlot11 c r => some (.dist c, distBits 11 r.toNat)
  | .distSlot12 c r => some (.dist c, distBits 12 r.toNat)
  | .distSlot13 c r => some (.dist c, distBits 13 r.toNat)
  | .distSlot14 c d a => some (.dist c, distBits 14 (d.toNat * 16 + a.toNat))
  | .distSlot15 c d a => some (.dist c, distBits 15 (d.toNat * 16 + a.toNat))
  | .distSlot16 c d a => some (.dist c, distBits 16 (d.toNat * 16 + a.toNat))
  | .distSlot17 c d a => some (.dist c, distBits 17 (d.toNat * 16 + a.toNat))
  | .distSlot18 c d a => some (.dist c, distBits 18 (d.toNat * 16 + a.toNat))
  | .distSlot19 c d a => some (.dist c, distBits 19 (d.toNat * 16 + a.toNat))
  | .distSlot20 c d a => some (.dist c, distBits 20 (d.toNat * 16 + a.toNat))
  | .distSlot21 c d a => some (.dist c, distBits 21 (d.toNat * 16 + a.toNat))
  | .distSlot22 c d a => some (.dist c, distBits 22 (d.toNat * 16 + a.toNat))
  | .distSlot23 c d a => some (.dist c, distBits 23 (d.toNat * 16 + a.toNat))
  | .distSlot24 c d a => some (.dist c, distBits 24 (d.toNat * 16 + a.toNat))
  | .distSlot25 c d a => some (.dist c, distBits 25 (d.toNat * 16 + a.toNat))
  | .distSlot26 c d a => some (.dist c, distBits 26 (d.toNat * 16 + a.toNat))
  | .distSlot27 c d a => some (.dist c, distBits 27 (d.toNat * 16 + a.toNat))
  | .distSlot28 c d a => some (.dist c, distBits 28 (d.toNat * 16 + a.toNat))
  | .distSlot29 c d a => some (.dist c, distBits 29 (d.toNat * 16 + a.toNat))
  | .distSlot30 c d a => some (.dist c, distBits 30 (d.toNat * 16 + a.toNat))
  | .distSlot31 c d a => some (.dist c, distBits 31 (d.toNat * 16 + a.toNat))
  | .distSlot32 c d a => some (.dist c, distBits 32 (d.toNat * 16 + a.toNat))
  | .distSlot33 c d a => some (.dist c, distBits 33 (d.toNat * 16 + a.toNat))
  | .distSlot34 c d a => some (.dist c, distBits 34 (d.toNat * 16 + a.toNat))
  | .distSlot35 c d a => some (.dist c, distBits 35 (d.toNat * 16 + a.toNat))
  | .distSlot36 c d a => some (.dist c, distBits 36 (d.toNat * 16 + a.toNat))
  | .distSlot37 c d a => some (.dist c, distBits 37 (d.toNat * 16 + a.toNat))
  | .distSlot38 c d a => some (.dist c, distBits 38 (d.toNat * 16 + a.toNat))
  | .distSlot39 c d a => some (.dist c, distBits 39 (d.toNat * 16 + a.toNat))
  | .distSlot40 c d a => some (.dist c, distBits 40 (d.toNat * 16 + a.toNat))
  | .distSlot41 c d a => some (.dist c, distBits 41 (d.toNat * 16 + a.toNat))
  | .distSlot42 c d a => some (.dist c, distBits 42 (d.toNat * 16 + a.toNat))
  | .distSlot43 c d a => some (.dist c, distBits 43 (d.toNat * 16 + a.toNat))
  | .distSlot44 c d a => some (.dist c, distBits 44 (d.toNat * 16 + a.toNat))
  | .distSlot45 c d a => some (.dist c, distBits 45 (d.toNat * 16 + a.toNat))
  | .distSlot46 c d a => some (.dist c, distBits 46 (d.toNat * 16 + a.toNat))
  | .distSlot47 c d a => some (.dist c, distBits 47 (d.toNat * 16 + a.toNat))
  | .distSlot48 c d a => some (.dist c, distBits 48 (d.toNat * 16 + a.toNat))
  | .distSlot49 c d a => some (.dist c, distBits 49 (d.toNat * 16 + a.toNat))
  | .distSlot50 c d a => some (.dist c, distBits 50 (d.toNat * 16 + a.toNat))
  | .distSlot51 c d a => some (.dist c, distBits 51 (d.toNat * 16 + a.toNat))
  | .distSlot52 c d a => some (.dist c, distBits 52 (d.toNat * 16 + a.toNat))
  | .distSlot53 c d a => some (.dist c, distBits 53 (d.toNat * 16 + a.toNat))
  | .distSlot54 c d a => some (.dist c, distBits 54 (d.toNat * 16 + a.toNat))
  | .distSlot55 c d a => some (.dist c, distBits 55 (d.toNat * 16 + a.toNat))
  | .distSlot56 c d a => some (.dist c, distBits 56 (d.toNat * 16 + a.toNat))
  | .distSlot57 c d a => some (.dist c, distBits 57 (d.toNat * 16 + a.toNat))
  | .distSlot58 c d a => some (.dist c, distBits 58 (d.toNat * 16 + a.toNat))
  | .distSlot59 c d a => some (.dist c, distBits 59 (d.toNat * 16 + a.toNat))
  | .distSlot60 c d a => some (.dist c, distBits 60 (d.toNat * 16 + a.toNat))
  | .distSlot61 c d a => some (.dist c, distBits 61 (d.toNat * 16 + a.toNat))
  | .distSlot62 c d a => some (.dist c, distBits 62 (d.toNat * 16 + a.toNat))
  | .distSlot63 c d a => some (.dist c, distBits 63 (d.toNat * 16 + a.toNat))
  | .inByte => none
  | .rcInit => none
  | .rcNormalize => none
  | .rcBit _ _ => none
  | .rcDirect _ => none
  | .btDecode _ _ _ => none
  | .btReverse _ _ _ => none
  | .lenDecode _ _ => none
  | .litSelect => none
  | .litNormal _ => none
  | .litMatched _ _ => none
  | .winPut _ => none
  | .winGet _ => none
  | .winCopy _ _ => none
  | .winFlush => none
  | .sinkWrite _ => none
  | .symbol => none
  | .distDecode _ => none
  | .rangeCheck _ => none
  | .copy _ => none
  | .afterLiteral _ => none
  | .afterMatch _ => none
  | .afterRep _ => none
  | .afterShortRep _ => none
  | .cmdReset => none
  | .cmdSetProperties _ => none
  | .cmdDecode _ => none

/-! ### The property bytes (R91 to R93) -/

/-- `lc`, `lp`, `pb` of a properties byte, a mixed-radix number (R92). -/
def decodeProps (v : Byte) : Nat × Nat × Nat := (v.toNat % 9, v.toNat / 9 % 5, v.toNat / 9 / 5)

/-- The properties byte of a triple (R92). -/
def encodeProps (lc lp pb : Nat) : Byte := BitVec.ofNat 8 ((pb * 5 + lp) * 9 + lc)

/-- The 32-bit value of four bytes, the first least significant (`20_memory.md` R66, R93). -/
def littleEndian (b1 b2 b3 b4 : Byte) : Word :=
  b1.setWidth 32 ||| (b2.setWidth 32 <<< 8) ||| (b3.setWidth 32 <<< 16) ||| (b4.setWidth 32 <<< 24)

/-! ### Words as the opcode table numbers them (log 15)

A row's pattern is one number: its last bit is bit 0, so its first decision bit is the most significant. `nbits` is that
pattern's length in whole bytes, so a pattern of up to seven bits fewer stands right-aligned in it. The patterns of the three
formats overlap: the longest pattern is tried first, and at one length a DIST row before a SYM row before a LEN row. -/

/-- The instruction of which `bs`, whole, is the decision string; DIST rows are read in length class 0 and LEN rows on `MLEN`,
which the bits do not say. -/
def decodeWhole (bs : List Bool) : Option Instr :=
  match decode (.dist 0) bs with
  | .ok (i, []) => some i
  | _ =>
    match decode .sym bs with
    | .ok (i, []) => some i
    | _ =>
      match decode (.len .mlen) bs with
      | .ok (i, []) => some i
      | _ => none

/-- Try the lengths `n`, `n - 1`, ..., at most `k` of them. -/
def decodeRightAligned : Nat → Nat → Nat → Option Instr
  | 0, _, _ => none
  | k + 1, n, w =>
    if w < 2 ^ n then
      match decodeWhole (bitsMsb n w) with
      | some i => some i
      | none => decodeRightAligned k (n - 1) w
    else none

/-- The instruction the decoder reads from a table row's word. -/
def decodeTableWord (nbits w : Nat) : Option Instr := decodeRightAligned (min 8 nbits) nbits w

end Sys2Proof
end

