-- ==== Sys2Proof/Machine/State.lean ====
section
/-! DEFINITION. The state of the block (`10_state.md`), the ports it is reached through (`00_scope.md` R7, R15), the reasons a
step can stop, and the state right after power-on. -/

namespace Sys2Proof.Machine

/-- The lifecycle position of the block (`10_state.md` R31). -/
inductive Phase where
  | unconfigured
  | configured
  | decoding
  | done
  | failed
deriving DecidableEq, Repr

/-- The kinds of failure (`60_exceptions.md` R260). -/
inductive FailureKind where
  | formatError
  | streamTruncated
  | corruptStream
  | ioError
deriving DecidableEq, Repr

/-- What the `status` register holds (`10_state.md` R32). -/
inductive Status where
  | ok
  | failure (k : FailureKind)
deriving DecidableEq, Repr

/-- The numeric code of a status (`60_exceptions.md` R260), a parameter (R11). -/
def Status.code : Status → Nat
  | .ok => config.codeOk
  | .failure .formatError => config.codeFormatError
  | .failure .streamTruncated => config.codeStreamTruncated
  | .failure .corruptStream => config.codeCorruptStream
  | .failure .ioError => config.codeIoError

/-- The host's answer to one `InByte()`: the next stream byte, or a failure of the source (R264, R275; log 10). -/
inductive SourceAnswer where
  | byte (b : Byte)
  | failure
deriving DecidableEq, Repr

/-- The host's answer to one `SinkWrite` (R264, R275; log 10). -/
inductive SinkAnswer where
  | accept
  | failure
deriving DecidableEq, Repr

/-- The two indexed storages of the block, each a list sorted by key with no key twice.

`win` is `WIN` (`10_state.md` R33): an element that is not listed holds no value (log 9). `prob` holds the slots of every group
of R37 under the keys of `slotKey`: an unlisted slot reads as `PROB_INIT` when `probFill` is `none`, and when it is `some k` as
the free value of generation `k` (log 8). -/
structure Memory where
  win : List Host.Cell
  prob : List (Nat × Slot)
  probFill : Option Nat
deriving DecidableEq, Repr

/-- The state of the machine. -/
structure State where
  /-- R21. -/
  range : Word
  /-- R22. -/
  code : Word
  /-- R23, the automaton's state, 0 to 11. -/
  state : BitVec 4
  /-- R24. -/
  rep0 : Word
  /-- R24. -/
  rep1 : Word
  /-- R24. -/
  rep2 : Word
  /-- R24. -/
  rep3 : Word
  /-- R25. -/
  position : DWord
  /-- R26. -/
  prevByte : Byte
  /-- R27. -/
  lc : BitVec 4
  /-- R27. -/
  lp : BitVec 3
  /-- R27. -/
  pb : BitVec 3
  /-- R27. -/
  dictionarySize : Word
  /-- R28. -/
  posStateMask : BitVec 4
  /-- R28. -/
  literalPosMask : BitVec 4
  /-- R28. -/
  dictionarySizeCheck : Word
  /-- R28. -/
  windowSize : Word
  /-- R29. -/
  ipos : DWord
  /-- R30, two's complement. -/
  expectedLength : DWord
  /-- R31. -/
  phase : Phase
  /-- R32. -/
  status : Status
  /-- R33 and R36 to R39. -/
  mem : Memory
  /-- R34. -/
  writeCursor : Word
  /-- R35. -/
  watermark : Word
  /-- Port `IN`: the answers to the coming `InByte()` calls; when none is left the source is exhausted (`20_memory.md` R61). -/
  source : List SourceAnswer
  /-- Port `OUT`: the bytes the sink has received, in order (R62). -/
  sink : List Byte
  /-- Port `OUT`: the answers to the coming `SinkWrite` calls; when none is left the sink accepts (R264). -/
  sinkAnswers : List SinkAnswer
  /-- Port `CMD`: what has been issued and not yet run, in order (log 2). -/
  issued : List Instr
  /-- The reset input is asserted (`70_reset_and_hazards.md` R300; log 14). -/
  resetInput : Bool
  /-- The MODEL's own: the value the last operation yielded (`00_scope.md` R16; log 5). -/
  result : Option Nat
  /-- The MODEL's own: the counter the free values are applied to (log 6). -/
  freeCount : Nat
deriving DecidableEq, Repr

/-- Why the machine stops with a fault. Every one of these is safe: the model stops where the spec gives no value, and no rule of
the spec leads there (`70_reset_and_hazards.md` R303). -/
inductive Fault where
  /-- A probability slot outside its group (`20_memory.md` R60, R64): raised by every operation that decodes a modelled bit, when the
  properties in force give the group too few slots for the index. Safe. -/
  | slotOutsideGroup
  /-- An index outside 0 to `windowSize - 1` of `WIN` (R60, R63): raised by the window operations, when a cursor stands outside the
  window. Safe. -/
  | windowIndexOutside
  /-- A read of an element of `WIN` that holds no value (`93_implementation_defined.md` U1, U11): raised by `WIN_GET`, `WIN_COPY`,
  `WIN_FLUSH` and what uses them. Safe. -/
  | windowUnwritten
  /-- `WIN_GET` or `WIN_COPY` outside its precondition `d < position`, `d < windowSize` (`44_output_window.md` R183, U1). Safe. -/
  | windowPrecondition
  /-- `position` would pass 2^64 - 1 (U9): raised by `COPY` and by the symbols that emit bytes. Safe. -/
  | positionOverflow
deriving DecidableEq, Repr

/-- Why the machine refuses what was issued. -/
inductive Refusal where
  /-- An instruction that has no meaning in this model yet, by its mnemonic: raised by `exec`'s arm. Safe. -/
  | notModelled (mnemonic : String)
  /-- `DECODE` in a phase other than CONFIGURED: "refused" (`46_control.md` R240, U2, U3): raised by `DECODE`. Safe. -/
  | decodeNotConfigured
  /-- `SET_PROPERTIES` while DECODING: "refused" (R240, U3): raised by `SET_PROPERTIES`. Safe. -/
  | setPropertiesWhileDecoding
  /-- `RESET` while DECODING: "cannot be issued" (R240): raised by `RESET`. Safe. -/
  | resetWhileDecoding
deriving DecidableEq, Repr

/-- The machine right after power-on (`10_state.md` R45, `70_reset_and_hazards.md` R300): `phase` UNCONFIGURED, `status` OK, as the
spec says; no element of `WIN` holds a value (log 9); the registers R45 calls unspecified at the values log 7 names, the slots at
the value log 8 names; nothing at the ports. -/
def State.reset : State where
  range := 0xFFFFFFFF#32
  code := 0#32
  state := 0#4
  rep0 := 0#32
  rep1 := 0#32
  rep2 := 0#32
  rep3 := 0#32
  position := 0#64
  prevByte := 0#8
  lc := 0#4
  lp := 0#3
  pb := 0#3
  dictionarySize := 0#32
  posStateMask := 0#4
  literalPosMask := 0#4
  dictionarySizeCheck := 1#32
  windowSize := 4096#32
  ipos := 0#64
  expectedLength := 0#64
  phase := .unconfigured
  status := .ok
  mem := { win := [], prob := [], probFill := none }
  writeCursor := 0#32
  watermark := 0#32
  source := []
  sink := []
  sinkAnswers := []
  issued := []
  resetInput := false
  result := none
  freeCount := 0

end Sys2Proof.Machine
end

