-- ==== Sys2Proof/Machine/Flags.lean ====
section
/-! DEFINITION. Predicates over the state and the 12-state automaton. The block has no status flags or condition codes
(`10_state.md` R41): what other machines keep in flags are here the tests a rule makes. -/

namespace Sys2Proof.Machine

/-- `isCharState(s) = s < 7` (`45_symbols.md` R220). -/
def isCharState (st : BitVec 4) : Bool := st.toNat < litStates

/-- `afterLiteral(s)` (R221): the table of the configuration (R11); for 12 to 15, which are no states, a free value (log 27). -/
def afterLiteral (st : BitVec 4) : BitVec 4 := config.afterLiteral[st.toNat]?.getD (Free.afterLiteral st)

/-- `afterMatch(s)` (R222), as `afterLiteral`. -/
def afterMatch (st : BitVec 4) : BitVec 4 := config.afterMatch[st.toNat]?.getD (Free.afterMatch st)

/-- `afterRep(s)` (R223), as `afterLiteral`. -/
def afterRep (st : BitVec 4) : BitVec 4 := config.afterRep[st.toNat]?.getD (Free.afterRep st)

/-- `afterShortRep(s)` (R224), as `afterLiteral`. -/
def afterShortRep (st : BitVec 4) : BitVec 4 := config.afterShortRep[st.toNat]?.getD (Free.afterShortRep st)

/-- The loop test: a non-negative `expectedLength` that `position` has reached (`46_control.md` R247). -/
def lengthReached (s : State) : Bool :=
  decide (0 ≤ s.expectedLength.toInt) && decide (s.expectedLength.toInt ≤ s.position.toNat)

/-- The distance range check passes: `d < position` and `d < dictionarySizeCheck`, all unsigned (R208). -/
def distanceInRange (s : State) (d : Word) : Bool :=
  decide (d.toNat < s.position.toNat) && decide (d.toNat < s.dictionarySizeCheck.toNat)

/-- The precondition of `WIN_GET` and `WIN_COPY` (`44_output_window.md` R183). -/
def windowReadable (s : State) (d : Word) : Bool :=
  decide (d.toNat < s.windowSize.toNat) && decide (d.toNat < s.position.toNat)

end Sys2Proof.Machine
end

