-- ==== Sys2Proof/Machine/Operands.lean ====
section
/-! DEFINITION. Operand forms: which slot a decision is decoded on, which element of the window a distance names, and the sequence
of decisions a symbol, a length field or a distance field consists of. -/

namespace Sys2Proof.Machine

/-! ### Probability groups (`10_state.md` R37) -/

/-- The number of slots of a group under the properties in force (R37). -/
def groupSize (s : State) : ProbGroup → Nat
  | .isMatch => numStates * 2 ^ s.pb.toNat
  | .isRep => numStates
  | .isRepG0 => numStates
  | .isRepG1 => numStates
  | .isRepG2 => numStates
  | .isRep0Long => numStates * 2 ^ s.pb.toNat
  | .posSlot => lenClasses * 2 ^ config.posSlotBits
  | .posDec => config.posDecSize
  | .align => 2 ^ alignBits
  | .mlenChoice => 2
  | .mlenLow => 2 ^ s.pb.toNat * 8
  | .mlenMid => 2 ^ s.pb.toNat * 8
  | .mlenHigh => 256
  | .rlenChoice => 2
  | .rlenLow => 2 ^ s.pb.toNat * 8
  | .rlenMid => 2 ^ s.pb.toNat * 8
  | .rlenHigh => 256
  | .lit => 2 ^ (s.lc.toNat + s.lp.toNat) * litSubSize

/-- The key slot `i` of group `g` is held under: no two slots share one (R39). -/
def slotKey (g : ProbGroup) (i : Nat) : Nat := i * 18 + g.index

/-! ### Indices -/

/-- `ps`, the position state (`45_symbols.md` R201). -/
def posState (s : State) : Nat := (s.position &&& s.posStateMask.setWidth 64).toNat

/-- `(state << pb) + ps`, the index into `IS_MATCH` and `IS_REP0_LONG` (R37, R200). -/
def stateIndex (s : State) : Nat := (s.state.toNat <<< s.pb.toNat) + posState s

/-- `k`, the literal sub-decoder (`43_literal_decoder.md` R170). DESIGN CHOICE (log 31): with `lc` at 9 to 15, where the rule's shift
`8 - lc` has no meaning, `prevByte` is shifted by 0. -/
def litSubDecoder (s : State) : Nat :=
  ((s.position &&& s.literalPosMask.setWidth 64).toNat <<< s.lc.toNat) + (s.prevByte.toNat >>> (8 - s.lc.toNat))

/-- `srcIndex(d) = (writeCursor - d - 1) mod windowSize`, on integers (`44_output_window.md` R181). -/
def srcIndex (s : State) (d : Word) : Nat :=
  (((s.writeCursor.toNat : Int) - d.toNat - 1) % (s.windowSize.toNat : Int)).toNat

/-- The base of the position-slot tree of a length class (`45_symbols.md` R205). -/
def posSlotBase (c : LenClass) : Int := c.val * 64

/-- The offset into `POS_DEC` of a position slot 4 to 13, `base - posSlot - 1` (R206); -1 for slot 4. -/
def posDecOffset (posSlot : Nat) : Int := (distBase posSlot : Int) - posSlot - 1

/-! ### Decision sequences (`30_encoding.md` R97 to R102, R109)

A symbol and the properties determine the decision bits and their slots (R109). -/

/-- What one decision bit is decoded on: a slot of a group, or nothing (a direct bit). -/
inductive BitSource where
  | slot (g : ProbGroup) (i : Int)
  | direct
deriving DecidableEq, Repr

/-- A decision bit with what it is decoded on. -/
abbrev Decision := BitSource × Bool

/-- The walk down a bit tree from node `m` that decodes `bits`, in decoding order (`41_bit_tree.md` R150, R151). -/
def treePath (g : ProbGroup) (base : Int) : Nat → List Bool → List Decision
  | _, [] => []
  | m, b :: bs => (.slot g (base + m), b) :: treePath g base (2 * m + b.toNat) bs

/-- The eight decisions of a literal in matched mode (`43_literal_decoder.md` R172); `mm` is `matchByte` as shifted so far. -/
def matchedPath (base : Nat) : Bool → Byte → Nat → List Bool → List Decision
  | _, _, _, [] => []
  | true, mm, m, b :: bs =>
    (.slot .lit ((base + (1 + mm.msb.toNat) * 256 + m : Nat) : Int), b) ::
      matchedPath base (b == mm.msb) (mm <<< 1) (2 * m + b.toNat) bs
  | false, mm, m, b :: bs =>
    (.slot .lit ((base + m : Nat) : Int), b) :: matchedPath base false mm (2 * m + b.toNat) bs

/-- The decisions of a length field (`30_encoding.md` R100). DESIGN CHOICE (log 30): for a length outside 2 to 273, which no bits give,
those of 2 below the range, and above it those of the eight low bits of `len - 18`. -/
def lenPath (x : LenInst) (ps len : Nat) : List Decision :=
  if len < 10 then (.slot x.choice 0, false) :: treePath x.low (ps * 8) 1 (bitsMsb 3 (len - 2))
  else if len < 18 then
    (.slot x.choice 0, true) :: (.slot x.choice 1, false) :: treePath x.mid (ps * 8) 1 (bitsMsb 3 (len - 10))
  else (.slot x.choice 0, true) :: (.slot x.choice 1, true) :: treePath x.high 0 1 (bitsMsb 8 (len - 18))

/-- The decisions of the extra bits of a position slot (R102). -/
def extraPath (posSlot e : Nat) : List Decision :=
  if posSlot < 4 then []
  else if posSlot < endPosModelIndex then
    treePath .posDec (posDecOffset posSlot) 1 (bitsLsb (directBits posSlot) e)
  else
    (bitsMsb (directBits posSlot - alignBits) (e / 16)).map (fun b => (.direct, b)) ++
      treePath .align 0 1 (bitsLsb alignBits (e % 16))

/-- The decisions of a distance field in a length class (R101, R102). -/
def distPath (c : LenClass) (posSlot e : Nat) : List Decision :=
  treePath .posSlot (posSlotBase c) 1 (bitsMsb config.posSlotBits posSlot) ++ extraPath posSlot e

/-- The distance field of a given distance. -/
def distancePath (c : LenClass) (dist : Word) : List Decision :=
  distPath c (posSlotOf dist.toNat) (dist.toNat - distBase (posSlotOf dist.toNat))

/-- isMatch on `IS_MATCH[(s << pb) + ps]` (R97). -/
def isMatchBit (s : State) (b : Bool) : Decision := (.slot .isMatch (stateIndex s), b)
/-- isRep on `IS_REP[s]` (R97). -/
def isRepBit (s : State) (b : Bool) : Decision := (.slot .isRep s.state.toNat, b)
/-- isRepG0 on `IS_REP_G0[s]` (R97). -/
def isRepG0Bit (s : State) (b : Bool) : Decision := (.slot .isRepG0 s.state.toNat, b)
/-- isRep0Long on `IS_REP0_LONG[(s << pb) + ps]` (R97). -/
def isRep0LongBit (s : State) (b : Bool) : Decision := (.slot .isRep0Long (stateIndex s), b)
/-- isRepG1 on `IS_REP_G1[s]` (R97). -/
def isRepG1Bit (s : State) (b : Bool) : Decision := (.slot .isRepG1 s.state.toNat, b)
/-- isRepG2 on `IS_REP_G2[s]` (R97). -/
def isRepG2Bit (s : State) (b : Bool) : Decision := (.slot .isRepG2 s.state.toNat, b)

/-- The eight decisions of the literal byte `b`: plain mode, or matched mode with the given match byte (R98). -/
def litPath (s : State) (matchByte : Option Byte) (b : Byte) : List Decision :=
  match matchByte with
  | none => treePath .lit ((litSubDecoder s * litSubSize : Nat) : Int) 1 (bitsMsb 8 b.toNat)
  | some mm => matchedPath (litSubDecoder s * litSubSize) true mm 1 (bitsMsb 8 b.toNat)

/-- All decisions of a symbol, in decoding order, in the state it begins in (R97 to R104, R109). -/
def symbolPath (s : State) (matchByte : Option Byte) : Symbol → List Decision
  | .lit b => isMatchBit s false :: litPath s matchByte b
  | .matchNew len dist =>
    isMatchBit s true :: isRepBit s false :: (lenPath .mlen (posState s) len ++ distancePath (lenClassOf len) dist)
  | .eos len =>
    isMatchBit s true :: isRepBit s false :: (lenPath .mlen (posState s) len ++ distancePath (lenClassOf len) eosDistance)
  | .shortrep => [isMatchBit s true, isRepBit s true, isRepG0Bit s false, isRep0LongBit s false]
  | .longrep0 len =>
    isMatchBit s true :: isRepBit s true :: isRepG0Bit s false :: isRep0LongBit s true :: lenPath .rlen (posState s) len
  | .longrep1 len =>
    isMatchBit s true :: isRepBit s true :: isRepG0Bit s true :: isRepG1Bit s false :: lenPath .rlen (posState s) len
  | .longrep2 len =>
    isMatchBit s true :: isRepBit s true :: isRepG0Bit s true :: isRepG1Bit s true :: isRepG2Bit s false ::
      lenPath .rlen (posState s) len
  | .longrep3 len =>
    isMatchBit s true :: isRepBit s true :: isRepG0Bit s true :: isRepG1Bit s true :: isRepG2Bit s true ::
      lenPath .rlen (posState s) len

end Sys2Proof.Machine
end

