-- ==== Sys2Proof/Machine/Ops.lean ====
section
/-! DEFINITION. The named operations over memory, registers and ports, from the ports up to the commands' common parts. Every one
follows the pseudocode of its rule. -/

namespace Sys2Proof.Machine

/-! ### Outcomes of an operation (`00_scope.md` R16) -/

/-- An operation completes with a value, raises a failure of some kind (R15 `raise`), or meets a fault of the model. A raised failure
carries the state it was raised in: what the ports have given and received cannot be taken back (`60_exceptions.md` R267). -/
inductive Res (α : Type) where
  | ok (a : α) (s : State)
  | raise (k : FailureKind) (s : State)
  | fault (f : Fault)
deriving Repr

/-- Go on with `f` when `r` completes; a failure aborts every operation that invoked the failing one (R15). -/
def Res.bind {α β : Type} (r : Res α) (f : α → State → Res β) : Res β :=
  match r with
  | .ok a s => f a s
  | .raise k s => .raise k s
  | .fault e => .fault e

/-- Change the value an operation yields. -/
def Res.map {α β : Type} (r : Res α) (f : α → β) : Res β := r.bind fun a s => .ok (f a) s

/-! ### Memory -/

/-- The entry of a sorted list under a key. -/
def Cells.find {α : Type} : List (Nat × α) → Nat → Option α
  | [], _ => none
  | (k, v) :: rest, a => if k = a then some v else Cells.find rest a

/-- Put an entry in its place, replacing the one under the same key. -/
def Cells.insert {α : Type} (a : Nat) (v : α) : List (Nat × α) → List (Nat × α)
  | [] => [(a, v)]
  | (k, w) :: rest =>
    if a < k then (a, v) :: (k, w) :: rest
    else if a = k then (a, v) :: rest
    else (k, w) :: Cells.insert a v rest

/-- Take the entry under a key out. -/
def Cells.erase {α : Type} (a : Nat) : List (Nat × α) → List (Nat × α)
  | [] => []
  | (k, w) :: rest => if a = k then rest else (k, w) :: Cells.erase a rest

/-- Keys strictly rising. -/
def Cells.sorted {α : Type} : List (Nat × α) → Bool
  | [] => true
  | [_] => true
  | (k, _) :: (k', v') :: rest => k < k' && Cells.sorted ((k', v') :: rest)

/-- What an unlisted slot reads as (log 8). -/
def Memory.slotDefault (m : Memory) (key : Nat) : Slot :=
  match m.probFill with
  | none => config.probInit
  | some k => Free.slot k key

/-- Read a probability slot. -/
def Memory.slot (m : Memory) (key : Nat) : Slot := (Cells.find m.prob key).getD (m.slotDefault key)

/-- Write a probability slot; writing `PROB_INIT` where that is what an unlisted slot reads as takes the entry out. -/
def Memory.setSlot (m : Memory) (key : Nat) (v : Slot) : Memory :=
  if m.probFill = none ∧ v = config.probInit then { m with prob := Cells.erase key m.prob }
  else { m with prob := Cells.insert key v m.prob }

/-- Write an element of `WIN`. -/
def Memory.setWin (m : Memory) (a : Nat) (b : Byte) : Memory := { m with win := Cells.insert a b m.win }

/-- The canonical form: both lists sorted, and no slot listed with the value an unlisted slot reads as (in a generation of free
contents that value is not known, and every written slot is listed). -/
def Memory.wf (m : Memory) : Bool :=
  Cells.sorted m.win && Cells.sorted m.prob && (m.probFill.isSome || m.prob.all fun c => c.2 != config.probInit)

/-- Every slot at `PROB_INIT`: the arrays' part of stream-start initialisation (`46_control.md` R245). `WIN` is not cleared (D20);
what it holds is unspecified (`10_state.md` R33), so no element holds a value of this stream (log 9). -/
def Memory.streamStart : Memory := { win := [], prob := [], probFill := none }

/-- Unspecified contents of every array, generation `k` (`10_state.md` R44, R45). -/
def Memory.unspecified (k : Nat) : Memory := { win := [], prob := [], probFill := some k }

/-- The slot `i` of group `g`, if the group has one (`20_memory.md` R60, R64). -/
def State.slot? (s : State) (g : ProbGroup) (i : Int) : Option Slot :=
  if 0 ≤ i ∧ i < groupSize s g then some (s.mem.slot (slotKey g i.toNat)) else none

/-! ### Taking a failure (`60_exceptions.md` R266) -/

/-- Every register and array but `phase` and `status` unspecified (`10_state.md` R44, R45): the registers take free values, the
arrays unspecified contents. The ports are the environment's and stay (log 6). -/
def State.unspecify (s : State) : State :=
  { s with
    range := Free.range s.freeCount
    code := Free.code s.freeCount
    state := Free.state s.freeCount
    rep0 := Free.rep0 s.freeCount
    rep1 := Free.rep1 s.freeCount
    rep2 := Free.rep2 s.freeCount
    rep3 := Free.rep3 s.freeCount
    position := Free.position s.freeCount
    prevByte := Free.prevByte s.freeCount
    lc := Free.lc s.freeCount
    lp := Free.lp s.freeCount
    pb := Free.pb s.freeCount
    dictionarySize := Free.dictionarySize s.freeCount
    posStateMask := Free.posStateMask s.freeCount
    literalPosMask := Free.literalPosMask s.freeCount
    dictionarySizeCheck := Free.dictionarySizeCheck s.freeCount
    windowSize := Free.windowSize s.freeCount
    ipos := Free.ipos s.freeCount
    expectedLength := Free.expectedLength s.freeCount
    mem := Memory.unspecified s.freeCount
    writeCursor := Free.writeCursor s.freeCount
    watermark := Free.watermark s.freeCount
    result := none
    freeCount := s.freeCount + 1 }

/-- Taking a failure of kind `k` (R266): `status` takes the kind and nothing else is recorded (R265); `phase` is FAILED, and
UNCONFIGURED when the command is `SET_PROPERTIES`; everything else is unspecified. There is no return from it (R269): a host goes on
with `RESET` or `SET_PROPERTIES`. -/
def takeFailure (phase : Phase) (k : FailureKind) (s : State) : State :=
  { s.unspecify with phase := phase, status := .failure k }

/-- How an instruction ends: it completes, yielding `val` of its value as its result, or takes the failure it raised, or faults. -/
def Res.finish {α : Type} (r : Res α) (val : α → Option Nat) : Host.Outcome State Fault Refusal :=
  match r with
  | .ok a s => .next { s with result := val a }
  | .raise k s => .next (takeFailure .failed k s)
  | .fault f => .fault f

/-! ### RangeDecoder (`40_range_decoder.md`) -/

/-- `InByte()` (R131): a failure of the source is reported before exhaustion. -/
def inByte (s : State) : Res Byte :=
  match s.source with
  | .failure :: rest => .raise .ioError { s with source := rest }
  | [] => .raise .streamTruncated s
  | .byte b :: rest => .ok b { s with source := rest, ipos := s.ipos + 1#64 }

/-- `code <- (code << 8) | InByte()`, `n` times (R132). -/
def loadCode : Nat → State → Res Unit
  | 0, s => .ok () s
  | n + 1, s =>
    (inByte s).bind fun b s1 => loadCode n { s1 with code := (s1.code <<< 8) ||| b.setWidth 32 }

/-- `RC_INIT()` (R132): the pad byte is discarded, four bytes are loaded big-endian. -/
def rcInit (s : State) : Res Unit :=
  (inByte s).bind fun _ s1 =>
    (loadCode 4 { s1 with code := 0#32 }).bind fun _ s2 => .ok () { s2 with range := 0xFFFFFFFF#32 }

/-- The loop of `RC_NORMALIZE` (R133); the first argument bounds its turns. -/
def normalizeLoop : Nat → State → Res Unit
  | 0, s => .ok () s
  | n + 1, s =>
    if s.range < top then
      (inByte s).bind fun b s1 =>
        normalizeLoop n { s1 with code := (s1.code <<< 8) ||| b.setWidth 32, range := s1.range <<< 8 }
    else .ok () s

/-- `RC_NORMALIZE()` (R133). Each turn takes a byte, so there are at most as many as bytes are left, and one that finds none. -/
def rcNormalize (s : State) : Res Unit := normalizeLoop (s.source.length + 1) s

/-- `bound = (range >> 11) * p` (R134). -/
def rcBound (range : Word) (p : Slot) : Word := (range >>> probBits) * p.setWidth 32

/-- The adaptation law (R136): toward 2048 after a 0, toward 0 after a 1. -/
def adapt (p : Slot) (bit : Bool) : Slot :=
  if bit then p - (p >>> moveBits) else BitVec.ofNat 11 (p.toNat + ((probTotal - p.toNat) >>> moveBits))

/-- The branch of `RC_BIT` for the decoded bit, up to and with `RC_NORMALIZE` (R134). -/
def takeSlotBit (g : ProbGroup) (i : Int) (bit : Bool) (s : State) : Res Unit :=
  match s.slot? g i with
  | none => .fault .slotOutsideGroup
  | some p =>
    let bound := rcBound s.range p
    let mem := s.mem.setSlot (slotKey g i.toNat) (adapt p bit)
    rcNormalize
      (if bit then { s with range := s.range - bound, code := s.code - bound, mem := mem }
       else { s with range := bound, mem := mem })

/-- `RC_BIT(G, i)` (R134): the bit is 0 exactly when `code <u bound`. -/
def rcBit (g : ProbGroup) (i : Int) (s : State) : Res Bool :=
  match s.slot? g i with
  | none => .fault .slotOutsideGroup
  | some p =>
    let bit := !decide (s.code < rcBound s.range p)
    (takeSlotBit g i bit s).map fun _ => bit

/-- One turn of `RC_DIRECT` for the decoded bit (R135). -/
def takeDirectBit (bit : Bool) (s : State) : Res Unit :=
  let half := s.range >>> 1
  rcNormalize (if bit then { s with range := half, code := s.code - half } else { s with range := half })

/-- One turn of `RC_DIRECT`: the bit is 1 exactly when `code >=u range` after the halving (R135). -/
def directBit (s : State) : Res Bool :=
  let bit := !decide (s.code < s.range >>> 1)
  (takeDirectBit bit s).map fun _ => bit

/-- The turns of `RC_DIRECT` that are left, with the result so far (R135). DESIGN CHOICE (log 35): of more than 32 bits, which no rule has,
the last 32 are the result. -/
def directLoop : Nat → Word → State → Res Word
  | 0, acc, s => .ok acc s
  | n + 1, acc, s => (directBit s).bind fun bit s1 => directLoop n ((acc <<< 1) ||| BitVec.ofNat 32 bit.toNat) s1

/-- `RC_DIRECT(n)` (R135; with `n` above 32, log 35). -/
def rcDirect (n : Nat) (s : State) : Res Word := directLoop n 0#32 s

/-! ### Decisions whose bits are given (log 3) -/

/-- Decode one decision whose bit is given: everything `RC_BIT` or a turn of `RC_DIRECT` does after its comparison. -/
def takeBit (d : Decision) (s : State) : Res Unit :=
  match d.1 with
  | .slot g i => takeSlotBit g i d.2 s
  | .direct => takeDirectBit d.2 s

/-- Decode a sequence of given decisions in order. -/
def takeBits : List Decision → State → Res Unit
  | [], s => .ok () s
  | d :: ds, s => (takeBit d s).bind fun _ s1 => takeBits ds s1

/-! ### BitTreeDecoder (`41_bit_tree.md`) -/

/-- `d` steps of a walk from node `m`; yields the last node (R151). DESIGN CHOICE (log 33): no step at all where `d` is 0, which no rule
has. -/
def treeWalk (g : ProbGroup) (base : Int) : Nat → Nat → State → Res Nat
  | 0, m, s => .ok m s
  | d + 1, m, s => (rcBit g (base + m) s).bind fun bit s1 => treeWalk g base d (2 * m + bit.toNat) s1

/-- `BT_DECODE(G, B, d)` (R151). -/
def btDecode (g : ProbGroup) (base : Int) (d : Nat) (s : State) : Res Nat :=
  (treeWalk g base d 1 s).map fun m => m - 2 ^ d

/-- The turns of `BT_REVERSE` that are left: `d` of them, from node `m`, the next bit at place `bitIndex` (R152).
DESIGN CHOICE (log 33): no turn at all where `d` is 0, which no rule has. -/
def reverseWalk (g : ProbGroup) (base : Int) : Nat → Nat → Nat → Nat → State → Res Nat
  | 0, _, _, symbol, s => .ok symbol s
  | d + 1, bitIndex, m, symbol, s =>
    (rcBit g (base + m) s).bind fun bit s1 =>
      reverseWalk g base d (bitIndex + 1) (2 * m + bit.toNat) (symbol ||| (bit.toNat <<< bitIndex)) s1

/-- `BT_REVERSE(G, B, d)` (R152). -/
def btReverse (g : ProbGroup) (base : Int) (d : Nat) (s : State) : Res Nat := reverseWalk g base d 0 1 0 s

/-! ### LengthDecoder (`42_length_decoder.md`) -/

/-- `LEN_DECODE(X, ps)` (R161). DESIGN CHOICE (log 33): a `ps` that is no position state counts only where the low or mid tree is read. -/
def lenDecode (x : LenInst) (ps : Nat) (s : State) : Res Nat :=
  (rcBit x.choice 0 s).bind fun choice0 s1 =>
    if choice0 = false then (btDecode x.low (ps * 8) 3 s1).map fun r => r + matchMinLen
    else
      (rcBit x.choice 1 s1).bind fun choice1 s2 =>
        if choice1 = false then (btDecode x.mid (ps * 8) 3 s2).map fun r => 8 + r + matchMinLen
        else (btDecode x.high 0 8 s2).map fun r => 16 + r + matchMinLen

/-! ### OutputWindow, reading (`44_output_window.md`) -/

/-- Read one element of `WIN` (`20_memory.md` R60, U11). -/
def winRead (a : Nat) (s : State) : Res Byte :=
  if a < s.windowSize.toNat then
    match Cells.find s.mem.win a with
    | some b => .ok b s
    | none => .fault .windowUnwritten
  else .fault .windowIndexOutside

/-- `WIN_GET(d)`, with its precondition (R183, U1). -/
def winGet (d : Word) (s : State) : Res Byte :=
  if windowReadable s d then winRead (srcIndex s d) s else .fault .windowPrecondition

/-! ### LiteralDecoder (`43_literal_decoder.md`) -/

/-- `LIT_SELECT()`: the base of the sub-decoder's block (R170). -/
def litSelect (s : State) : Nat := litSubDecoder s * litSubSize

/-- The levels of `LIT_NORMAL` that are left (R171). -/
def litNormalLoop (base : Nat) : Nat → Nat → State → Res Nat
  | 0, symbol, s => .ok symbol s
  | n + 1, symbol, s =>
    (rcBit .lit ((base + symbol : Nat) : Int) s).bind fun bit s1 => litNormalLoop base n (2 * symbol + bit.toNat) s1

/-- `LIT_NORMAL(base)` (R171). DESIGN CHOICE (log 32): a base that `LIT_SELECT` cannot give is taken as it is. -/
def litNormal (base : Nat) (s : State) : Res Byte :=
  (litNormalLoop base 8 1 s).map fun symbol => BitVec.ofNat 8 (symbol - 0x100)

/-- The levels of `LIT_MATCHED` that are left, with `matched` and `matchByte` as they stand (R172). -/
def litMatchedLoop (base : Nat) : Nat → Bool → Byte → Nat → State → Res Nat
  | 0, _, _, symbol, s => .ok symbol s
  | n + 1, true, mb, symbol, s =>
    (rcBit .lit ((base + (1 + mb.msb.toNat) * 256 + symbol : Nat) : Int) s).bind fun bit s1 =>
      litMatchedLoop base n (bit == mb.msb) (mb <<< 1) (2 * symbol + bit.toNat) s1
  | n + 1, false, mb, symbol, s =>
    (rcBit .lit ((base + symbol : Nat) : Int) s).bind fun bit s1 =>
      litMatchedLoop base n false mb (2 * symbol + bit.toNat) s1

/-- `LIT_MATCHED(base, matchByte)` (R172). DESIGN CHOICE (log 32): a base that `LIT_SELECT` cannot give is taken as it is. -/
def litMatched (base : Nat) (matchByte : Byte) (s : State) : Res Byte :=
  (litMatchedLoop base 8 true matchByte 1 s).map fun symbol => BitVec.ofNat 8 (symbol - 0x100)

/-- The match byte a literal is decoded with: none in a char state, `WIN_GET(rep0)` otherwise (R174, `45_symbols.md` R202). -/
def literalContext (s : State) : Res (Option Byte) :=
  if isCharState s.state then .ok none s else (winGet s.rep0 s).map some

/-! ### OutputWindow, writing (`44_output_window.md`) -/

/-- `SinkWrite(bytes)` (`00_scope.md` R15, `20_memory.md` R62); what a failing write delivered is not counted (log 11). -/
def sinkWrite (bytes : List Byte) (s : State) : Res Unit :=
  match s.sinkAnswers with
  | .failure :: rest => .raise .ioError { s with sinkAnswers := rest }
  | .accept :: rest => .ok () { s with sink := s.sink ++ bytes, sinkAnswers := rest }
  | [] => .ok () { s with sink := s.sink ++ bytes }

/-- The `n` bytes of `WIN` from index `a` on. -/
def winRegion : Nat → Nat → State → Res (List Byte)
  | 0, _, s => .ok [] s
  | n + 1, a, s => (winRead a s).bind fun b s1 => (winRegion n (a + 1) s1).map fun bs => b :: bs

/-- `WIN_FLUSH()` (R186). -/
def winFlush (s : State) : Res Unit :=
  (if s.watermark < s.writeCursor then
      (winRegion (s.writeCursor.toNat - s.watermark.toNat) s.watermark.toNat s).bind fun bytes s1 => sinkWrite bytes s1
    else .ok () s).bind fun _ s1 =>
    let cursor := if s1.writeCursor = s1.windowSize then 0#32 else s1.writeCursor
    .ok () { s1 with writeCursor := cursor, watermark := cursor }

/-- `WIN_PUT(b)` (R182). -/
def winPut (b : Byte) (s : State) : Res Unit :=
  if s.writeCursor < s.windowSize then
    let s1 : State := { s with mem := s.mem.setWin s.writeCursor.toNat b, writeCursor := s.writeCursor + 1#32 }
    if s1.writeCursor = s1.windowSize then winFlush s1 else .ok () s1
  else .fault .windowIndexOutside

/-- The turns of `WIN_COPY` that are left, from source index `pos` on; byte by byte (R184, R185, `20_memory.md` R75). -/
def copyLoop : Nat → Nat → State → Res Unit
  | 0, _, s => .ok () s
  | n + 1, pos, s =>
    (winRead pos s).bind fun b s1 =>
      (winPut b s1).bind fun _ s2 => copyLoop n (if pos + 1 = s2.windowSize.toNat then 0 else pos + 1) s2

/-- `WIN_COPY(d, len)`, with its precondition (R184, U1). DESIGN CHOICE (log 30): a `len` outside 1 to 273 is the number of bytes. -/
def winCopy (d : Word) (len : Nat) (s : State) : Res Unit :=
  if windowReadable s d then copyLoop len (srcIndex s d) s else .fault .windowPrecondition

/-! ### Common parts of the symbols (`45_symbols.md`) -/

/-- `DIST_DECODE(len)` (R206). DESIGN CHOICE (log 30): a `len` outside 2 to 273 has the class `lenClassOf` gives it. -/
def distDecode (len : Nat) (s : State) : Res Word :=
  (btDecode .posSlot (posSlotBase (lenClassOf len)) config.posSlotBits s).bind fun posSlot s1 =>
    if posSlot < 4 then .ok (BitVec.ofNat 32 posSlot) s1
    else if posSlot < endPosModelIndex then
      (btReverse .posDec (posDecOffset posSlot) (directBits posSlot) s1).map fun r =>
        BitVec.ofNat 32 (distBase posSlot + r)
    else
      (rcDirect (directBits posSlot - alignBits) s1).bind fun hi s2 =>
        (btReverse .align 0 alignBits s2).map fun lo => BitVec.ofNat 32 (distBase posSlot + (hi.toNat <<< alignBits) + lo)

/-- The distance range check on `d` (R208). -/
def rangeCheck (d : Word) (s : State) : Res Unit :=
  if distanceInRange s d then .ok () s else .raise .corruptStream s

/-- `position <- position + n` (R25, U9; log 12). -/
def advance (n : Nat) (s : State) : Res Unit :=
  if s.position.toNat + n < 2 ^ 64 then .ok () { s with position := s.position + BitVec.ofNat 64 n }
  else .fault .positionOverflow

/-- `COPY`, the common tail of the copying symbols (R209). DESIGN CHOICE (log 30): a `len` outside 1 to 273 is the number of bytes, and
with 0 of them `prevByte` is read all the same. -/
def copyTail (len : Nat) (s : State) : Res Unit :=
  (rangeCheck s.rep0 s).bind fun _ s1 =>
    (winCopy s1.rep0 len s1).bind fun _ s2 =>
      (advance len s2).bind fun _ s3 =>
        (winGet 0#32 s3).bind fun b s4 => .ok () { s4 with prevByte := b }

/-- What a literal does once its byte is decoded (R202). -/
def litEffect (b : Byte) (s : State) : Res Unit :=
  (winPut b s).bind fun _ s1 => advance 1 { s1 with prevByte := b, state := afterLiteral s1.state }

/-- The history push of a new match (R203). -/
def pushRep (dist : Word) (s : State) : State :=
  { s with rep3 := s.rep2, rep2 := s.rep1, rep1 := s.rep0, rep0 := dist }

/-- What a `MATCH` does once its length and distance are decoded; yields whether it was `EOS` (R203, R207). -/
def matchEffect (len : Nat) (dist : Word) (s : State) : Res Bool :=
  let s1 := pushRep dist s
  if dist = eosDistance then .ok true s1
  else (copyTail len { s1 with state := afterMatch s1.state }).map fun _ => false

/-- `SHORTREP` (R211). -/
def shortrepEffect (s : State) : Res Unit := copyTail 1 { s with state := afterShortRep s.state }

/-- `LONGREP0` once its length is decoded (R212). -/
def longrep0Effect (len : Nat) (s : State) : Res Unit := copyTail len { s with state := afterRep s.state }

/-- `LONGREP1` (R213): the two front registers change places. -/
def longrep1Effect (len : Nat) (s : State) : Res Unit :=
  copyTail len { s with rep0 := s.rep1, rep1 := s.rep0, state := afterRep s.state }

/-- `LONGREP2` (R214): three registers rotate. -/
def longrep2Effect (len : Nat) (s : State) : Res Unit :=
  copyTail len { s with rep0 := s.rep2, rep1 := s.rep0, rep2 := s.rep1, state := afterRep s.state }

/-- `LONGREP3` (R215): all four registers rotate. -/
def longrep3Effect (len : Nat) (s : State) : Res Unit :=
  copyTail len { s with rep0 := s.rep3, rep1 := s.rep0, rep2 := s.rep1, rep3 := s.rep2, state := afterRep s.state }

/-- What a symbol does once its bits are decoded; yields the flag `eos` of `SYMBOL()` (R200). The updates of the history, the state
and the window all follow the bits here; the spec interleaves them, which cannot be observed (R216, `60_exceptions.md` R266, R268;
log 24). DESIGN CHOICE (log 30): a length outside 2 to 273 is the number of bytes copied, unreduced, whatever bits `lenPath` gave it. -/
def symbolEffect : Symbol → State → Res Bool
  | .lit b, s => (litEffect b s).map fun _ => false
  | .matchNew len dist, s => matchEffect len dist s
  | .eos len, s => matchEffect len eosDistance s
  | .shortrep, s => (shortrepEffect s).map fun _ => false
  | .longrep0 len, s => (longrep0Effect len s).map fun _ => false
  | .longrep1 len, s => (longrep1Effect len s).map fun _ => false
  | .longrep2 len, s => (longrep2Effect len s).map fun _ => false
  | .longrep3 len, s => (longrep3Effect len s).map fun _ => false

/-! ### The symbol the stream holds (R200) -/

/-- Decode a literal's byte (R202, R174). -/
def fetchLit (s : State) : Res Byte :=
  (literalContext s).bind fun matchByte s1 =>
    match matchByte with
    | none => litNormal (litSelect s1) s1
    | some mb => litMatched (litSelect s1) mb s1

/-- Decode the bits of the next symbol from the stream: the dispatch of `SYMBOL()` with the fields of each branch (R200, R203, R206,
R211 to R215). `s` and `ps` are fixed for the whole symbol. -/
def fetchSymbol (s : State) : Res Symbol :=
  (rcBit .isMatch (stateIndex s) s).bind fun isMatch s1 =>
    if isMatch = false then (fetchLit s1).map .lit
    else
      (rcBit .isRep s.state.toNat s1).bind fun isRep s2 =>
        if isRep = false then
          (lenDecode .mlen (posState s) s2).bind fun len s3 => (distDecode len s3).map (Symbol.ofMatch len)
        else
          (rcBit .isRepG0 s.state.toNat s2).bind fun isRepG0 s3 =>
            if isRepG0 = false then
              (rcBit .isRep0Long (stateIndex s) s3).bind fun isRep0Long s4 =>
                if isRep0Long = false then .ok .shortrep s4 else (lenDecode .rlen (posState s) s4).map .longrep0
            else
              (rcBit .isRepG1 s.state.toNat s3).bind fun isRepG1 s4 =>
                if isRepG1 = false then (lenDecode .rlen (posState s) s4).map .longrep1
                else
                  (rcBit .isRepG2 s.state.toNat s4).bind fun isRepG2 s5 =>
                    if isRepG2 = false then (lenDecode .rlen (posState s) s5).map .longrep2
                    else (lenDecode .rlen (posState s) s5).map .longrep3

/-- `SYMBOL()` (R200); yields `eos`. -/
def symbol (s : State) : Res Bool := (fetchSymbol s).bind fun y s1 => symbolEffect y s1

/-- A symbol whose fields are given: its decisions, then its effect (log 3). DESIGN CHOICE (log 34): the match byte of a literal is read
before the decisions, though the rule reads it after isMatch; they differ only where `rep0` is illegal. -/
def takeSymbol (y : Symbol) (s : State) : Res Bool :=
  (match y with
    | .lit _ => literalContext s
    | _ => .ok none s).bind fun matchByte s1 =>
    (takeBits (symbolPath s1 matchByte y) s1).bind fun _ s2 => symbolEffect y s2

/-- How a symbol row ends: its result is the flag `eos` that `SYMBOL()` returns (R200). -/
def finishSymbol (r : Res Bool) : Host.Outcome State Fault Refusal := r.finish fun eos => some eos.toNat

/-- A length field whose bits are given: its decisions; its result is the length (R161). `ps` is that of the symbol (R201). -/
def takeLen (x : LenInst) (len : Nat) (s : State) : Host.Outcome State Fault Refusal :=
  (takeBits (lenPath x (posState s) len) s).finish fun _ => some len

/-- A distance field whose bits are given: its decisions; its result is the distance (R206). -/
def takeDist (c : LenClass) (posSlot e : Nat) (s : State) : Host.Outcome State Fault Refusal :=
  (takeBits (distPath c posSlot e) s).finish fun _ => some (distBase posSlot + e)

/-! ### Common parts of the commands (`46_control.md`) -/

/-- `phase <- UNCONFIGURED`, `status <- OK`, every other register and array unspecified (R241, `70_reset_and_hazards.md` R300). -/
def resetState (s : State) : State := { s.unspecify with phase := .unconfigured, status := .ok }

/-- The property registers and the values derived from them (R242, `10_state.md` R27, R28). The arrays and `WIN` take their sizes
from them, and their contents are set later, by `DECODE`: until then they are unspecified (log 19). -/
def loadProperties (lc lp pb : Nat) (ds : Word) (s : State) : State :=
  { s with
    lc := BitVec.ofNat 4 lc
    lp := BitVec.ofNat 3 lp
    pb := BitVec.ofNat 3 pb
    dictionarySize := ds
    posStateMask := BitVec.ofNat 4 (2 ^ pb - 1)
    literalPosMask := BitVec.ofNat 4 (2 ^ lp - 1)
    dictionarySizeCheck := BitVec.ofNat 32 (max ds.toNat 1)
    windowSize := BitVec.ofNat 32 (max (max ds.toNat 1) windowMin)
    mem := Memory.unspecified s.freeCount
    result := none
    freeCount := s.freeCount + 1 }

/-- `SET_PROPERTIES(B)` after its phase check (R242, R243): the tests in the order of the rule. -/
def setProperties (bytes : List Byte) (s : State) : State :=
  match bytes with
  | v :: b1 :: b2 :: b3 :: b4 :: _ =>
    let lc := (decodeProps v).1
    let lp := (decodeProps v).2.1
    let pb := (decodeProps v).2.2
    let ds := littleEndian b1 b2 b3 b4
    if pb > pbMax then takeFailure .unconfigured .formatError s
    else if lc + lp > config.lclpMax then takeFailure .unconfigured .formatError s
    else if ds.toNat ≥ 2 ^ 31 ∨ ds.toNat > config.dictMax then takeFailure .unconfigured .formatError s
    else { loadProperties lc lp pb ds s with phase := .configured, status := .ok }
  | _ => takeFailure .unconfigured .formatError s

/-- Stream-start initialisation (R245), with the operand of `DECODE` loaded and `phase` DECODING (R244, `10_state.md` R45). -/
def startStream (expectedLength : DWord) (s : State) : State :=
  { s with
    phase := .decoding
    expectedLength := expectedLength
    ipos := 0#64
    mem := Memory.streamStart
    state := config.stateInit
    rep0 := config.repInit
    rep1 := config.repInit
    rep2 := config.repInit
    rep3 := config.repInit
    position := config.positionInit
    prevByte := config.prevByteInit
    writeCursor := 0#32
    watermark := 0#32 }

/-- The successful end of `DECODE`: the final flush, then `phase` DONE, `status` OK and everything else unspecified (R249, R250,
`10_state.md` R44). -/
def finishDecode (s : State) : Host.Outcome State Fault Refusal :=
  match winFlush s with
  | .ok _ s1 => .next { s1.unspecify with phase := .done, status := .ok }
  | .raise k s1 => .next (takeFailure .failed k s1)
  | .fault f => .fault f

end Sys2Proof.Machine
end

