-- ==== Sys2Proof/Machine/Automaton.lean ====
section
/-! DEFINITION. The transition functions as operations (`45_symbols.md` R221 to R224). -/

namespace Sys2Proof.Machine

/-- `afterLiteral(s)` (R221); its result is the state it gives, and it writes no register. -/
def execAfterLiteral (st : BitVec 4) (s : State) : Host.Outcome State Fault Refusal :=
  (Res.ok (afterLiteral st) s).finish fun n => some n.toNat

/-- `afterMatch(s)` (R222); its result is the state it gives, and it writes no register. -/
def execAfterMatch (st : BitVec 4) (s : State) : Host.Outcome State Fault Refusal :=
  (Res.ok (afterMatch st) s).finish fun n => some n.toNat

/-- `afterRep(s)` (R223); its result is the state it gives, and it writes no register. -/
def execAfterRep (st : BitVec 4) (s : State) : Host.Outcome State Fault Refusal :=
  (Res.ok (afterRep st) s).finish fun n => some n.toNat

/-- `afterShortRep(s)` (R224); its result is the state it gives, and it writes no register. -/
def execAfterShortRep (st : BitVec 4) (s : State) : Host.Outcome State Fault Refusal :=
  (Res.ok (afterShortRep st) s).finish fun n => some n.toNat

end Sys2Proof.Machine
end

