-- ==== Sys2Proof/Machine/Commands.lean ====
section
/-! DEFINITION. The host commands (`46_control.md` R240 to R246). -/

namespace Sys2Proof.Machine

/-- `RESET` (R241): any phase but DECODING, where it "cannot be issued" (R240; log 25). -/
def execCmdReset (s : State) : Host.Outcome State Fault Refusal :=
  if s.phase = .decoding then .refused .resetWhileDecoding else .next (resetState s)

/-- `SET_PROPERTIES(B)` (R242, R243): refused while DECODING (R240). -/
def execCmdSetProperties (bytes : List Byte) (s : State) : Host.Outcome State Fault Refusal :=
  if s.phase = .decoding then .refused .setPropertiesWhileDecoding else .next (setProperties bytes s)

/-- `DECODE(expectedLength)` up to its loop (R244 to R246): refused unless CONFIGURED (R240). The passes of the loop are the
steps that follow (`Machine/Sequencer.lean`; log 1). -/
def execCmdDecode (expectedLength : DWord) (s : State) : Host.Outcome State Fault Refusal :=
  if s.phase = .configured then (rcInit (startStream expectedLength s)).finish fun _ => none else .refused .decodeNotConfigured

end Sys2Proof.Machine
end

