-- ==== Sys2Proof/Machine/Composite.lean ====
section
/-! DEFINITION. The operations that join the components (`45_symbols.md` R200, R206, R208, R209). -/

namespace Sys2Proof.Machine

/-- `SYMBOL()` (R200); its result is the flag `eos`. -/
def execSymbol (s : State) : Host.Outcome State Fault Refusal := finishSymbol (symbol s)

/-- `DIST_DECODE(len)` (R206); its result is the distance. -/
def execDistDecode (len : Nat) (s : State) : Host.Outcome State Fault Refusal := (distDecode len s).finish fun d => some d.toNat

/-- The distance range check on `d` (R208). -/
def execRangeCheck (d : Word) (s : State) : Host.Outcome State Fault Refusal := (rangeCheck d s).finish fun _ => none

/-- `COPY` with the length `len` (R209). -/
def execCopy (len : Nat) (s : State) : Host.Outcome State Fault Refusal := (copyTail len s).finish fun _ => none

end Sys2Proof.Machine
end

