-- ==== Sys2Proof/Machine/Distances.lean ====
section
/-! DEFINITION. The DIST rows (`30_encoding.md` R102, `45_symbols.md` R204 to R206): a distance field executed with the bits it names, in the
length class it is given (log 3, log 4). -/

namespace Sys2Proof.Machine

/-- Position slot 0: the distance 0 (R102, R206). -/
def execDistSlot0 (c : LenClass) (s : State) : Host.Outcome State Fault Refusal := takeDist c 0 0 s

/-- Position slot 1: the distance 1 (R102, R206). -/
def execDistSlot1 (c : LenClass) (s : State) : Host.Outcome State Fault Refusal := takeDist c 1 0 s

/-- Position slot 2: the distance 2 (R102, R206). -/
def execDistSlot2 (c : LenClass) (s : State) : Host.Outcome State Fault Refusal := takeDist c 2 0 s

/-- Position slot 3: the distance 3 (R102, R206). -/
def execDistSlot3 (c : LenClass) (s : State) : Host.Outcome State Fault Refusal := takeDist c 3 0 s

/-- Position slot 4: the distance 4 + `r` (R102, R206). -/
def execDistSlot4 (c : LenClass) (r : BitVec 1) (s : State) : Host.Outcome State Fault Refusal := takeDist c 4 r.toNat s

/-- Position slot 5: the distance 6 + `r` (R102, R206). -/
def execDistSlot5 (c : LenClass) (r : BitVec 1) (s : State) : Host.Outcome State Fault Refusal := takeDist c 5 r.toNat s

/-- Position slot 6: the distance 8 + `r` (R102, R206). -/
def execDistSlot6 (c : LenClass) (r : BitVec 2) (s : State) : Host.Outcome State Fault Refusal := takeDist c 6 r.toNat s

/-- Position slot 7: the distance 12 + `r` (R102, R206). -/
def execDistSlot7 (c : LenClass) (r : BitVec 2) (s : State) : Host.Outcome State Fault Refusal := takeDist c 7 r.toNat s

/-- Position slot 8: the distance 16 + `r` (R102, R206). -/
def execDistSlot8 (c : LenClass) (r : BitVec 3) (s : State) : Host.Outcome State Fault Refusal := takeDist c 8 r.toNat s

/-- Position slot 9: the distance 24 + `r` (R102, R206). -/
def execDistSlot9 (c : LenClass) (r : BitVec 3) (s : State) : Host.Outcome State Fault Refusal := takeDist c 9 r.toNat s

/-- Position slot 10: the distance 32 + `r` (R102, R206). -/
def execDistSlot10 (c : LenClass) (r : BitVec 4) (s : State) : Host.Outcome State Fault Refusal := takeDist c 10 r.toNat s

/-- Position slot 11: the distance 48 + `r` (R102, R206). -/
def execDistSlot11 (c : LenClass) (r : BitVec 4) (s : State) : Host.Outcome State Fault Refusal := takeDist c 11 r.toNat s

/-- Position slot 12: the distance 64 + `r` (R102, R206). -/
def execDistSlot12 (c : LenClass) (r : BitVec 5) (s : State) : Host.Outcome State Fault Refusal := takeDist c 12 r.toNat s

/-- Position slot 13: the distance 96 + `r` (R102, R206). -/
def execDistSlot13 (c : LenClass) (r : BitVec 5) (s : State) : Host.Outcome State Fault Refusal := takeDist c 13 r.toNat s

/-- Position slot 14: the distance 0x80 + `d` * 16 + `a` (R102, R206). -/
def execDistSlot14 (c : LenClass) (d : BitVec 2) (a : BitVec 4) (s : State) : Host.Outcome State Fault Refusal :=
  takeDist c 14 (d.toNat * 16 + a.toNat) s

/-- Position slot 15: the distance 0xc0 + `d` * 16 + `a` (R102, R206). -/
def execDistSlot15 (c : LenClass) (d : BitVec 2) (a : BitVec 4) (s : State) : Host.Outcome State Fault Refusal :=
  takeDist c 15 (d.toNat * 16 + a.toNat) s

/-- Position slot 16: the distance 0x100 + `d` * 16 + `a` (R102, R206). -/
def execDistSlot16 (c : LenClass) (d : BitVec 3) (a : BitVec 4) (s : State) : Host.Outcome State Fault Refusal :=
  takeDist c 16 (d.toNat * 16 + a.toNat) s

/-- Position slot 17: the distance 0x180 + `d` * 16 + `a` (R102, R206). -/
def execDistSlot17 (c : LenClass) (d : BitVec 3) (a : BitVec 4) (s : State) : Host.Outcome State Fault Refusal :=
  takeDist c 17 (d.toNat * 16 + a.toNat) s

/-- Position slot 18: the distance 0x200 + `d` * 16 + `a` (R102, R206). -/
def execDistSlot18 (c : LenClass) (d : BitVec 4) (a : BitVec 4) (s : State) : Host.Outcome State Fault Refusal :=
  takeDist c 18 (d.toNat * 16 + a.toNat) s

/-- Position slot 19: the distance 0x300 + `d` * 16 + `a` (R102, R206). -/
def execDistSlot19 (c : LenClass) (d : BitVec 4) (a : BitVec 4) (s : State) : Host.Outcome State Fault Refusal :=
  takeDist c 19 (d.toNat * 16 + a.toNat) s

/-- Position slot 20: the distance 0x400 + `d` * 16 + `a` (R102, R206). -/
def execDistSlot20 (c : LenClass) (d : BitVec 5) (a : BitVec 4) (s : State) : Host.Outcome State Fault Refusal :=
  takeDist c 20 (d.toNat * 16 + a.toNat) s

/-- Position slot 21: the distance 0x600 + `d` * 16 + `a` (R102, R206). -/
def execDistSlot21 (c : LenClass) (d : BitVec 5) (a : BitVec 4) (s : State) : Host.Outcome State Fault Refusal :=
  takeDist c 21 (d.toNat * 16 + a.toNat) s

/-- Position slot 22: the distance 0x800 + `d` * 16 + `a` (R102, R206). -/
def execDistSlot22 (c : LenClass) (d : BitVec 6) (a : BitVec 4) (s : State) : Host.Outcome State Fault Refusal :=
  takeDist c 22 (d.toNat * 16 + a.toNat) s

/-- Position slot 23: the distance 0xc00 + `d` * 16 + `a` (R102, R206). -/
def execDistSlot23 (c : LenClass) (d : BitVec 6) (a : BitVec 4) (s : State) : Host.Outcome State Fault Refusal :=
  takeDist c 23 (d.toNat * 16 + a.toNat) s

/-- Position slot 24: the distance 0x1000 + `d` * 16 + `a` (R102, R206). -/
def execDistSlot24 (c : LenClass) (d : BitVec 7) (a : BitVec 4) (s : State) : Host.Outcome State Fault Refusal :=
  takeDist c 24 (d.toNat * 16 + a.toNat) s

/-- Position slot 25: the distance 0x1800 + `d` * 16 + `a` (R102, R206). -/
def execDistSlot25 (c : LenClass) (d : BitVec 7) (a : BitVec 4) (s : State) : Host.Outcome State Fault Refusal :=
  takeDist c 25 (d.toNat * 16 + a.toNat) s

/-- Position slot 26: the distance 0x2000 + `d` * 16 + `a` (R102, R206). -/
def execDistSlot26 (c : LenClass) (d : BitVec 8) (a : BitVec 4) (s : State) : Host.Outcome State Fault Refusal :=
  takeDist c 26 (d.toNat * 16 + a.toNat) s

/-- Position slot 27: the distance 0x3000 + `d` * 16 + `a` (R102, R206). -/
def execDistSlot27 (c : LenClass) (d : BitVec 8) (a : BitVec 4) (s : State) : Host.Outcome State Fault Refusal :=
  takeDist c 27 (d.toNat * 16 + a.toNat) s

/-- Position slot 28: the distance 0x4000 + `d` * 16 + `a` (R102, R206). -/
def execDistSlot28 (c : LenClass) (d : BitVec 9) (a : BitVec 4) (s : State) : Host.Outcome State Fault Refusal :=
  takeDist c 28 (d.toNat * 16 + a.toNat) s

/-- Position slot 29: the distance 0x6000 + `d` * 16 + `a` (R102, R206). -/
def execDistSlot29 (c : LenClass) (d : BitVec 9) (a : BitVec 4) (s : State) : Host.Outcome State Fault Refusal :=
  takeDist c 29 (d.toNat * 16 + a.toNat) s

/-- Position slot 30: the distance 0x8000 + `d` * 16 + `a` (R102, R206). -/
def execDistSlot30 (c : LenClass) (d : BitVec 10) (a : BitVec 4) (s : State) : Host.Outcome State Fault Refusal :=
  takeDist c 30 (d.toNat * 16 + a.toNat) s

/-- Position slot 31: the distance 0xc000 + `d` * 16 + `a` (R102, R206). -/
def execDistSlot31 (c : LenClass) (d : BitVec 10) (a : BitVec 4) (s : State) : Host.Outcome State Fault Refusal :=
  takeDist c 31 (d.toNat * 16 + a.toNat) s

/-- Position slot 32: the distance 0x10000 + `d` * 16 + `a` (R102, R206). -/
def execDistSlot32 (c : LenClass) (d : BitVec 11) (a : BitVec 4) (s : State) : Host.Outcome State Fault Refusal :=
  takeDist c 32 (d.toNat * 16 + a.toNat) s

/-- Position slot 33: the distance 0x18000 + `d` * 16 + `a` (R102, R206). -/
def execDistSlot33 (c : LenClass) (d : BitVec 11) (a : BitVec 4) (s : State) : Host.Outcome State Fault Refusal :=
  takeDist c 33 (d.toNat * 16 + a.toNat) s

/-- Position slot 34: the distance 0x20000 + `d` * 16 + `a` (R102, R206). -/
def execDistSlot34 (c : LenClass) (d : BitVec 12) (a : BitVec 4) (s : State) : Host.Outcome State Fault Refusal :=
  takeDist c 34 (d.toNat * 16 + a.toNat) s

/-- Position slot 35: the distance 0x30000 + `d` * 16 + `a` (R102, R206). -/
def execDistSlot35 (c : LenClass) (d : BitVec 12) (a : BitVec 4) (s : State) : Host.Outcome State Fault Refusal :=
  takeDist c 35 (d.toNat * 16 + a.toNat) s

/-- Position slot 36: the distance 0x40000 + `d` * 16 + `a` (R102, R206). -/
def execDistSlot36 (c : LenClass) (d : BitVec 13) (a : BitVec 4) (s : State) : Host.Outcome State Fault Refusal :=
  takeDist c 36 (d.toNat * 16 + a.toNat) s

/-- Position slot 37: the distance 0x60000 + `d` * 16 + `a` (R102, R206). -/
def execDistSlot37 (c : LenClass) (d : BitVec 13) (a : BitVec 4) (s : State) : Host.Outcome State Fault Refusal :=
  takeDist c 37 (d.toNat * 16 + a.toNat) s

/-- Position slot 38: the distance 0x80000 + `d` * 16 + `a` (R102, R206). -/
def execDistSlot38 (c : LenClass) (d : BitVec 14) (a : BitVec 4) (s : State) : Host.Outcome State Fault Refusal :=
  takeDist c 38 (d.toNat * 16 + a.toNat) s

/-- Position slot 39: the distance 0xc0000 + `d` * 16 + `a` (R102, R206). -/
def execDistSlot39 (c : LenClass) (d : BitVec 14) (a : BitVec 4) (s : State) : Host.Outcome State Fault Refusal :=
  takeDist c 39 (d.toNat * 16 + a.toNat) s

/-- Position slot 40: the distance 0x100000 + `d` * 16 + `a` (R102, R206). -/
def execDistSlot40 (c : LenClass) (d : BitVec 15) (a : BitVec 4) (s : State) : Host.Outcome State Fault Refusal :=
  takeDist c 40 (d.toNat * 16 + a.toNat) s

/-- Position slot 41: the distance 0x180000 + `d` * 16 + `a` (R102, R206). -/
def execDistSlot41 (c : LenClass) (d : BitVec 15) (a : BitVec 4) (s : State) : Host.Outcome State Fault Refusal :=
  takeDist c 41 (d.toNat * 16 + a.toNat) s

/-- Position slot 42: the distance 0x200000 + `d` * 16 + `a` (R102, R206). -/
def execDistSlot42 (c : LenClass) (d : BitVec 16) (a : BitVec 4) (s : State) : Host.Outcome State Fault Refusal :=
  takeDist c 42 (d.toNat * 16 + a.toNat) s

/-- Position slot 43: the distance 0x300000 + `d` * 16 + `a` (R102, R206). -/
def execDistSlot43 (c : LenClass) (d : BitVec 16) (a : BitVec 4) (s : State) : Host.Outcome State Fault Refusal :=
  takeDist c 43 (d.toNat * 16 + a.toNat) s

/-- Position slot 44: the distance 0x400000 + `d` * 16 + `a` (R102, R206). -/
def execDistSlot44 (c : LenClass) (d : BitVec 17) (a : BitVec 4) (s : State) : Host.Outcome State Fault Refusal :=
  takeDist c 44 (d.toNat * 16 + a.toNat) s

/-- Position slot 45: the distance 0x600000 + `d` * 16 + `a` (R102, R206). -/
def execDistSlot45 (c : LenClass) (d : BitVec 17) (a : BitVec 4) (s : State) : Host.Outcome State Fault Refusal :=
  takeDist c 45 (d.toNat * 16 + a.toNat) s

/-- Position slot 46: the distance 0x800000 + `d` * 16 + `a` (R102, R206). -/
def execDistSlot46 (c : LenClass) (d : BitVec 18) (a : BitVec 4) (s : State) : Host.Outcome State Fault Refusal :=
  takeDist c 46 (d.toNat * 16 + a.toNat) s

/-- Position slot 47: the distance 0xc00000 + `d` * 16 + `a` (R102, R206). -/
def execDistSlot47 (c : LenClass) (d : BitVec 18) (a : BitVec 4) (s : State) : Host.Outcome State Fault Refusal :=
  takeDist c 47 (d.toNat * 16 + a.toNat) s

/-- Position slot 48: the distance 0x1000000 + `d` * 16 + `a` (R102, R206). -/
def execDistSlot48 (c : LenClass) (d : BitVec 19) (a : BitVec 4) (s : State) : Host.Outcome State Fault Refusal :=
  takeDist c 48 (d.toNat * 16 + a.toNat) s

/-- Position slot 49: the distance 0x1800000 + `d` * 16 + `a` (R102, R206). -/
def execDistSlot49 (c : LenClass) (d : BitVec 19) (a : BitVec 4) (s : State) : Host.Outcome State Fault Refusal :=
  takeDist c 49 (d.toNat * 16 + a.toNat) s

/-- Position slot 50: the distance 0x2000000 + `d` * 16 + `a` (R102, R206). -/
def execDistSlot50 (c : LenClass) (d : BitVec 20) (a : BitVec 4) (s : State) : Host.Outcome State Fault Refusal :=
  takeDist c 50 (d.toNat * 16 + a.toNat) s

/-- Position slot 51: the distance 0x3000000 + `d` * 16 + `a` (R102, R206). -/
def execDistSlot51 (c : LenClass) (d : BitVec 20) (a : BitVec 4) (s : State) : Host.Outcome State Fault Refusal :=
  takeDist c 51 (d.toNat * 16 + a.toNat) s

/-- Position slot 52: the distance 0x4000000 + `d` * 16 + `a` (R102, R206). -/
def execDistSlot52 (c : LenClass) (d : BitVec 21) (a : BitVec 4) (s : State) : Host.Outcome State Fault Refusal :=
  takeDist c 52 (d.toNat * 16 + a.toNat) s

/-- Position slot 53: the distance 0x6000000 + `d` * 16 + `a` (R102, R206). -/
def execDistSlot53 (c : LenClass) (d : BitVec 21) (a : BitVec 4) (s : State) : Host.Outcome State Fault Refusal :=
  takeDist c 53 (d.toNat * 16 + a.toNat) s

/-- Position slot 54: the distance 0x8000000 + `d` * 16 + `a` (R102, R206). -/
def execDistSlot54 (c : LenClass) (d : BitVec 22) (a : BitVec 4) (s : State) : Host.Outcome State Fault Refusal :=
  takeDist c 54 (d.toNat * 16 + a.toNat) s

/-- Position slot 55: the distance 0xc000000 + `d` * 16 + `a` (R102, R206). -/
def execDistSlot55 (c : LenClass) (d : BitVec 22) (a : BitVec 4) (s : State) : Host.Outcome State Fault Refusal :=
  takeDist c 55 (d.toNat * 16 + a.toNat) s

/-- Position slot 56: the distance 0x10000000 + `d` * 16 + `a` (R102, R206). -/
def execDistSlot56 (c : LenClass) (d : BitVec 23) (a : BitVec 4) (s : State) : Host.Outcome State Fault Refusal :=
  takeDist c 56 (d.toNat * 16 + a.toNat) s

/-- Position slot 57: the distance 0x18000000 + `d` * 16 + `a` (R102, R206). -/
def execDistSlot57 (c : LenClass) (d : BitVec 23) (a : BitVec 4) (s : State) : Host.Outcome State Fault Refusal :=
  takeDist c 57 (d.toNat * 16 + a.toNat) s

/-- Position slot 58: the distance 0x20000000 + `d` * 16 + `a` (R102, R206). -/
def execDistSlot58 (c : LenClass) (d : BitVec 24) (a : BitVec 4) (s : State) : Host.Outcome State Fault Refusal :=
  takeDist c 58 (d.toNat * 16 + a.toNat) s

/-- Position slot 59: the distance 0x30000000 + `d` * 16 + `a` (R102, R206). -/
def execDistSlot59 (c : LenClass) (d : BitVec 24) (a : BitVec 4) (s : State) : Host.Outcome State Fault Refusal :=
  takeDist c 59 (d.toNat * 16 + a.toNat) s

/-- Position slot 60: the distance 0x40000000 + `d` * 16 + `a` (R102, R206). -/
def execDistSlot60 (c : LenClass) (d : BitVec 25) (a : BitVec 4) (s : State) : Host.Outcome State Fault Refusal :=
  takeDist c 60 (d.toNat * 16 + a.toNat) s

/-- Position slot 61: the distance 0x60000000 + `d` * 16 + `a` (R102, R206). -/
def execDistSlot61 (c : LenClass) (d : BitVec 25) (a : BitVec 4) (s : State) : Host.Outcome State Fault Refusal :=
  takeDist c 61 (d.toNat * 16 + a.toNat) s

/-- Position slot 62: the distance 0x80000000 + `d` * 16 + `a` (R102, R206). -/
def execDistSlot62 (c : LenClass) (d : BitVec 26) (a : BitVec 4) (s : State) : Host.Outcome State Fault Refusal :=
  takeDist c 62 (d.toNat * 16 + a.toNat) s

/-- Position slot 63: the distance 0xc0000000 + `d` * 16 + `a` (R102, R206). -/
def execDistSlot63 (c : LenClass) (d : BitVec 26) (a : BitVec 4) (s : State) : Host.Outcome State Fault Refusal :=
  takeDist c 63 (d.toNat * 16 + a.toNat) s

end Sys2Proof.Machine
end

