-- ==== Sys2Proof/Machine/Lengths.lean ====
section
/-! DEFINITION. The LEN rows (`30_encoding.md` R100, `42_length_decoder.md` R161): a length field executed with the bits it names, in the
position state of the symbol (log 3, log 4). -/

namespace Sys2Proof.Machine

/-- `LEN.low`: bits `0ttt`, the length 2 + `t` (R100, R161). -/
def execLenLow (x : LenInst) (t : BitVec 3) (s : State) : Host.Outcome State Fault Refusal := takeLen x (2 + t.toNat) s

/-- `LEN.mid`: bits `10ttt`, the length 10 + `t` (R100, R161). -/
def execLenMid (x : LenInst) (t : BitVec 3) (s : State) : Host.Outcome State Fault Refusal := takeLen x (10 + t.toNat) s

/-- `LEN.high`: bits `11tttttttt`, the length 18 + `t` (R100, R161). -/
def execLenHigh (x : LenInst) (t : BitVec 8) (s : State) : Host.Outcome State Fault Refusal := takeLen x (18 + t.toNat) s

end Sys2Proof.Machine
end

