-- ==== Sys2Proof/Machine/Literals.lean ====
section
/-! DEFINITION. The operations of the literal decoder (`43_literal_decoder.md` R170 to R172). -/

namespace Sys2Proof.Machine

/-- `LIT_SELECT()` (R170); its result is the base. -/
def execLitSelect (s : State) : Host.Outcome State Fault Refusal := (Res.ok (litSelect s) s).finish some

/-- `LIT_NORMAL(base)` (R171); its result is the byte. -/
def execLitNormal (base : Nat) (s : State) : Host.Outcome State Fault Refusal := (litNormal base s).finish fun b => some b.toNat

/-- `LIT_MATCHED(base, matchByte)` (R172); its result is the byte. -/
def execLitMatched (base : Nat) (matchByte : Byte) (s : State) : Host.Outcome State Fault Refusal :=
  (litMatched base matchByte s).finish fun b => some b.toNat

end Sys2Proof.Machine
end

