-- ==== Sys2Proof/Machine/RangeCoder.lean ====
section
/-! DEFINITION. The operations of the range decoder (`40_range_decoder.md` R131 to R135). -/

namespace Sys2Proof.Machine

/-- `InByte()` (R131); its result is the byte. -/
def execInByte (s : State) : Host.Outcome State Fault Refusal := (inByte s).finish fun b => some b.toNat

/-- `RC_INIT()` (R132). -/
def execRcInit (s : State) : Host.Outcome State Fault Refusal := (rcInit s).finish fun _ => none

/-- `RC_NORMALIZE()` (R133). -/
def execRcNormalize (s : State) : Host.Outcome State Fault Refusal := (rcNormalize s).finish fun _ => none

/-- `RC_BIT(G, i)` (R134); its result is the bit. -/
def execRcBit (g : ProbGroup) (i : Nat) (s : State) : Host.Outcome State Fault Refusal :=
  (rcBit g i s).finish fun bit => some bit.toNat

/-- `RC_DIRECT(n)` (R135); its result is the `u32`. -/
def execRcDirect (n : Nat) (s : State) : Host.Outcome State Fault Refusal := (rcDirect n s).finish fun r => some r.toNat

end Sys2Proof.Machine
end

