-- ==== Sys2Proof/Machine/Symbols.lean ====
section
/-! DEFINITION. The SYM rows (`30_encoding.md` R97 to R104, `45_symbols.md` R202 to R216): a symbol executed with the fields it names
(log 3). -/

namespace Sys2Proof.Machine

/-- `LIT b`: the decisions of R98, then R202. -/
def execLit (b : Byte) (s : State) : Host.Outcome State Fault Refusal := finishSymbol (takeSymbol (.lit b) s)

/-- `MATCH len, dist`: the decisions of R99, then R203. The distance `0xFFFFFFFF` makes it the end marker (R207; log 28). -/
def execMatchNew (len : Nat) (dist : Word) (s : State) : Host.Outcome State Fault Refusal :=
  finishSymbol (takeSymbol (.matchNew len dist) s)

/-- `EOS` with its length field: the decisions of R103, then R207. The loop that ends is that of `DECODE`
(`Machine/Sequencer.lean`). -/
def execEos (len : Nat) (s : State) : Host.Outcome State Fault Refusal := finishSymbol (takeSymbol (.eos len) s)

/-- `SHORTREP`: the decisions of R104, then R211. -/
def execShortrep (s : State) : Host.Outcome State Fault Refusal := finishSymbol (takeSymbol .shortrep s)

/-- `LONGREP0 len`: the decisions of R104, then R212. -/
def execLongrep0 (len : Nat) (s : State) : Host.Outcome State Fault Refusal := finishSymbol (takeSymbol (.longrep0 len) s)

/-- `LONGREP1 len`: the decisions of R104, then R213. -/
def execLongrep1 (len : Nat) (s : State) : Host.Outcome State Fault Refusal := finishSymbol (takeSymbol (.longrep1 len) s)

/-- `LONGREP2 len`: the decisions of R104, then R214. -/
def execLongrep2 (len : Nat) (s : State) : Host.Outcome State Fault Refusal := finishSymbol (takeSymbol (.longrep2 len) s)

/-- `LONGREP3 len`: the decisions of R104, then R215. -/
def execLongrep3 (len : Nat) (s : State) : Host.Outcome State Fault Refusal := finishSymbol (takeSymbol (.longrep3 len) s)

end Sys2Proof.Machine
end

