-- ==== Sys2Proof/Machine/Trees.lean ====
section
/-! DEFINITION. The operations of the bit-tree and length decoders (`41_bit_tree.md` R151, R152, `42_length_decoder.md` R161). -/

namespace Sys2Proof.Machine

/-- `BT_DECODE(G, B, d)` (R151); its result is the integer. -/
def execBtDecode (g : ProbGroup) (base : Int) (d : Nat) (s : State) : Host.Outcome State Fault Refusal :=
  (btDecode g base d s).finish some

/-- `BT_REVERSE(G, B, d)` (R152); its result is the integer. -/
def execBtReverse (g : ProbGroup) (base : Int) (d : Nat) (s : State) : Host.Outcome State Fault Refusal :=
  (btReverse g base d s).finish some

/-- `LEN_DECODE(X, ps)` (R161); its result is the length. -/
def execLenDecode (x : LenInst) (ps : Nat) (s : State) : Host.Outcome State Fault Refusal := (lenDecode x ps s).finish some

end Sys2Proof.Machine
end

