-- ==== Sys2Proof/Machine/Window.lean ====
section
/-! DEFINITION. The operations of the output window and of the sink (`44_output_window.md` R182 to R186). -/

namespace Sys2Proof.Machine

/-- `WIN_PUT(b)` (R182). -/
def execWinPut (b : Byte) (s : State) : Host.Outcome State Fault Refusal := (winPut b s).finish fun _ => none

/-- `WIN_GET(d)` (R183); its result is the byte. -/
def execWinGet (d : Word) (s : State) : Host.Outcome State Fault Refusal := (winGet d s).finish fun b => some b.toNat

/-- `WIN_COPY(d, len)` (R184). -/
def execWinCopy (d : Word) (len : Nat) (s : State) : Host.Outcome State Fault Refusal := (winCopy d len s).finish fun _ => none

/-- `WIN_FLUSH()` (R186). -/
def execWinFlush (s : State) : Host.Outcome State Fault Refusal := (winFlush s).finish fun _ => none

/-- `SinkWrite(bytes)` (`00_scope.md` R15, `20_memory.md` R62). -/
def execSinkWrite (bytes : List Byte) (s : State) : Host.Outcome State Fault Refusal := (sinkWrite bytes s).finish fun _ => none

end Sys2Proof.Machine
end

