-- ==== Sys2Proof/Machine/Dispatch.lean ====
section
/-! DEFINITION. The dispatch: each instruction to its meaning. -/

namespace Sys2Proof.Machine

def exec (i : Instr) (s : State) : Host.Outcome State Fault Refusal :=
  match i with
  | .lit b => Sys2Proof.Machine.execLit b s
  | .matchNew len dist => Sys2Proof.Machine.execMatchNew len dist s
  | .eos len => Sys2Proof.Machine.execEos len s
  | .shortrep => Sys2Proof.Machine.execShortrep s
  | .longrep0 len => Sys2Proof.Machine.execLongrep0 len s
  | .longrep1 len => Sys2Proof.Machine.execLongrep1 len s
  | .longrep2 len => Sys2Proof.Machine.execLongrep2 len s
  | .longrep3 len => Sys2Proof.Machine.execLongrep3 len s
  | .lenLow x t => Sys2Proof.Machine.execLenLow x t s
  | .lenMid x t => Sys2Proof.Machine.execLenMid x t s
  | .lenHigh x t => Sys2Proof.Machine.execLenHigh x t s
  | .distSlot0 c => Sys2Proof.Machine.execDistSlot0 c s
  | .distSlot1 c => Sys2Proof.Machine.execDistSlot1 c s
  | .distSlot2 c => Sys2Proof.Machine.execDistSlot2 c s
  | .distSlot3 c => Sys2Proof.Machine.execDistSlot3 c s
  | .distSlot4 c r => Sys2Proof.Machine.execDistSlot4 c r s
  | .distSlot5 c r => Sys2Proof.Machine.execDistSlot5 c r s
  | .distSlot6 c r => Sys2Proof.Machine.execDistSlot6 c r s
  | .distSlot7 c r => Sys2Proof.Machine.execDistSlot7 c r s
  | .distSlot8 c r => Sys2Proof.Machine.execDistSlot8 c r s
  | .distSlot9 c r => Sys2Proof.Machine.execDistSlot9 c r s
  | .distSlot10 c r => Sys2Proof.Machine.execDistSlot10 c r s
  | .distSlot11 c r => Sys2Proof.Machine.execDistSlot11 c r s
  | .distSlot12 c r => Sys2Proof.Machine.execDistSlot12 c r s
  | .distSlot13 c r => Sys2Proof.Machine.execDistSlot13 c r s
  | .distSlot14 c d a => Sys2Proof.Machine.execDistSlot14 c d a s
  | .distSlot15 c d a => Sys2Proof.Machine.execDistSlot15 c d a s
  | .distSlot16 c d a => Sys2Proof.Machine.execDistSlot16 c d a s
  | .distSlot17 c d a => Sys2Proof.Machine.execDistSlot17 c d a s
  | .distSlot18 c d a => Sys2Proof.Machine.execDistSlot18 c d a s
  | .distSlot19 c d a => Sys2Proof.Machine.execDistSlot19 c d a s
  | .distSlot20 c d a => Sys2Proof.Machine.execDistSlot20 c d a s
  | .distSlot21 c d a => Sys2Proof.Machine.execDistSlot21 c d a s
  | .distSlot22 c d a => Sys2Proof.Machine.execDistSlot22 c d a s
  | .distSlot23 c d a => Sys2Proof.Machine.execDistSlot23 c d a s
  | .distSlot24 c d a => Sys2Proof.Machine.execDistSlot24 c d a s
  | .distSlot25 c d a => Sys2Proof.Machine.execDistSlot25 c d a s
  | .distSlot26 c d a => Sys2Proof.Machine.execDistSlot26 c d a s
  | .distSlot27 c d a => Sys2Proof.Machine.execDistSlot27 c d a s
  | .distSlot28 c d a => Sys2Proof.Machine.execDistSlot28 c d a s
  | .distSlot29 c d a => Sys2Proof.Machine.execDistSlot29 c d a s
  | .distSlot30 c d a => Sys2Proof.Machine.execDistSlot30 c d a s
  | .distSlot31 c d a => Sys2Proof.Machine.execDistSlot31 c d a s
  | .distSlot32 c d a => Sys2Proof.Machine.execDistSlot32 c d a s
  | .distSlot33 c d a => Sys2Proof.Machine.execDistSlot33 c d a s
  | .distSlot34 c d a => Sys2Proof.Machine.execDistSlot34 c d a s
  | .distSlot35 c d a => Sys2Proof.Machine.execDistSlot35 c d a s
  | .distSlot36 c d a => Sys2Proof.Machine.execDistSlot36 c d a s
  | .distSlot37 c d a => Sys2Proof.Machine.execDistSlot37 c d a s
  | .distSlot38 c d a => Sys2Proof.Machine.execDistSlot38 c d a s
  | .distSlot39 c d a => Sys2Proof.Machine.execDistSlot39 c d a s
  | .distSlot40 c d a => Sys2Proof.Machine.execDistSlot40 c d a s
  | .distSlot41 c d a => Sys2Proof.Machine.execDistSlot41 c d a s
  | .distSlot42 c d a => Sys2Proof.Machine.execDistSlot42 c d a s
  | .distSlot43 c d a => Sys2Proof.Machine.execDistSlot43 c d a s
  | .distSlot44 c d a => Sys2Proof.Machine.execDistSlot44 c d a s
  | .distSlot45 c d a => Sys2Proof.Machine.execDistSlot45 c d a s
  | .distSlot46 c d a => Sys2Proof.Machine.execDistSlot46 c d a s
  | .distSlot47 c d a => Sys2Proof.Machine.execDistSlot47 c d a s
  | .distSlot48 c d a => Sys2Proof.Machine.execDistSlot48 c d a s
  | .distSlot49 c d a => Sys2Proof.Machine.execDistSlot49 c d a s
  | .distSlot50 c d a => Sys2Proof.Machine.execDistSlot50 c d a s
  | .distSlot51 c d a => Sys2Proof.Machine.execDistSlot51 c d a s
  | .distSlot52 c d a => Sys2Proof.Machine.execDistSlot52 c d a s
  | .distSlot53 c d a => Sys2Proof.Machine.execDistSlot53 c d a s
  | .distSlot54 c d a => Sys2Proof.Machine.execDistSlot54 c d a s
  | .distSlot55 c d a => Sys2Proof.Machine.execDistSlot55 c d a s
  | .distSlot56 c d a => Sys2Proof.Machine.execDistSlot56 c d a s
  | .distSlot57 c d a => Sys2Proof.Machine.execDistSlot57 c d a s
  | .distSlot58 c d a => Sys2Proof.Machine.execDistSlot58 c d a s
  | .distSlot59 c d a => Sys2Proof.Machine.execDistSlot59 c d a s
  | .distSlot60 c d a => Sys2Proof.Machine.execDistSlot60 c d a s
  | .distSlot61 c d a => Sys2Proof.Machine.execDistSlot61 c d a s
  | .distSlot62 c d a => Sys2Proof.Machine.execDistSlot62 c d a s
  | .distSlot63 c d a => Sys2Proof.Machine.execDistSlot63 c d a s
  | .inByte => Sys2Proof.Machine.execInByte s
  | .rcInit => Sys2Proof.Machine.execRcInit s
  | .rcNormalize => Sys2Proof.Machine.execRcNormalize s
  | .rcBit g idx => Sys2Proof.Machine.execRcBit g idx s
  | .rcDirect n => Sys2Proof.Machine.execRcDirect n s
  | .btDecode g base d => Sys2Proof.Machine.execBtDecode g base d s
  | .btReverse g base d => Sys2Proof.Machine.execBtReverse g base d s
  | .lenDecode x ps => Sys2Proof.Machine.execLenDecode x ps s
  | .litSelect => Sys2Proof.Machine.execLitSelect s
  | .litNormal base => Sys2Proof.Machine.execLitNormal base s
  | .litMatched base matchByte => Sys2Proof.Machine.execLitMatched base matchByte s
  | .winPut b => Sys2Proof.Machine.execWinPut b s
  | .winGet d => Sys2Proof.Machine.execWinGet d s
  | .winCopy d len => Sys2Proof.Machine.execWinCopy d len s
  | .winFlush => Sys2Proof.Machine.execWinFlush s
  | .sinkWrite bytes => Sys2Proof.Machine.execSinkWrite bytes s
  | .symbol => Sys2Proof.Machine.execSymbol s
  | .distDecode len => Sys2Proof.Machine.execDistDecode len s
  | .rangeCheck d => Sys2Proof.Machine.execRangeCheck d s
  | .copy len => Sys2Proof.Machine.execCopy len s
  | .afterLiteral st => Sys2Proof.Machine.execAfterLiteral st s
  | .afterMatch st => Sys2Proof.Machine.execAfterMatch st s
  | .afterRep st => Sys2Proof.Machine.execAfterRep st s
  | .afterShortRep st => Sys2Proof.Machine.execAfterShortRep st s
  | .cmdReset => Sys2Proof.Machine.execCmdReset s
  | .cmdSetProperties bytes => Sys2Proof.Machine.execCmdSetProperties bytes s
  | .cmdDecode expectedLength => Sys2Proof.Machine.execCmdDecode expectedLength s

end Sys2Proof.Machine
end

