-- ==== Sys2Proof/Machine/Sequencer.lean ====
section
/-! DEFINITION. The sequencer: one pass of the loop `DECODE` runs around the symbols (`46_control.md` R244 to R250), and where an
instruction is placed so that the next step runs it. -/

namespace Sys2Proof.Machine

/-- The loop ends after this symbol: it is the end marker (`45_symbols.md` R207, `46_control.md` R248). -/
def endsLoop : Symbol → Bool
  | .eos _ => true
  | .lit _ => false
  | .matchNew _ _ => false
  | .shortrep => false
  | .longrep0 _ => false
  | .longrep1 _ => false
  | .longrep2 _ => false
  | .longrep3 _ => false

/-- After the symbol `y` has been executed: the loop goes on, or ends with the final flush when `y` was the end marker. A symbol
that failed has left DECODING. -/
def afterSymbol (y : Symbol) (o : Host.Outcome State Fault Refusal) : Host.Outcome State Fault Refusal :=
  match o with
  | .next s => if endsLoop y && decide (s.phase = .decoding) then finishDecode s else .next s
  | .fault f => .fault f
  | .refused r => .refused r

/-- One pass of the loop of `DECODE` (R244): the loop test (R247) and then one symbol (R200). The symbol is decoded from the stream
as an instruction, and that instruction is executed: that the two together are `SYMBOL()` is the statement `SymbolIsItsRow`. -/
def pass (s : State) : Host.Outcome State Fault Refusal :=
  if lengthReached s then finishDecode s
  else
    match fetchSymbol s with
    | .ok y _ => afterSymbol y (exec y.toInstr s)
    | .raise k s1 => .next (takeFailure .failed k s1)
    | .fault f => .fault f

/-- Issue `i` ahead of everything else, with `pad` zero bytes in front of the source for it to take (log 16). -/
def issueFirst (pad : Nat) (i : Instr) (s : State) : State :=
  { s with
    resetInput := false
    issued := i :: s.issued
    source := List.replicate pad (SourceAnswer.byte 0#8) ++ s.source }

end Sys2Proof.Machine
end

