-- ==== Sys2Proof/Machine/Step.lean ====
section
/-! DEFINITION. One step of the machine, and how an instruction is placed for the next step. -/

namespace Sys2Proof.Machine

/-- One step. The reset input comes first (`70_reset_and_hazards.md` R300; log 14); then what has been issued at the port `CMD`, in
order (log 2); then, while DECODING, one pass of the loop of `DECODE` (log 1); with nothing to do the block waits for a command
(R301; log 13). -/
def step (s : State) : Host.Outcome State Fault Refusal :=
  if s.resetInput then .next { resetState s with resetInput := false }
  else
    match s.issued with
    | i :: rest => exec i { s with issued := rest }
    | [] => if s.phase = .decoding then pass s else .next s

/-- `s` with the instruction of a table word issued, so that the next step runs it (log 16); `s` itself where the decoder reads no
instruction. -/
def State.withFetchWord (s : State) (nbits w : Nat) : State :=
  match decodeTableWord nbits w with
  | some i => issueFirst 64 i s
  | none => s

end Sys2Proof.Machine
end

