-- ==== Sys2Proof/Safety.lean ====
section
/-! DEFINITION. What counts as a sound state, what an operation leaves alone, and the output a stream has produced: the terms the
statements are made in. -/

namespace Sys2Proof.Machine

/-! ### The environment's answers (`60_exceptions.md` R275) -/

/-- The next `n` answers of the source are bytes. -/
def supplies : Nat → List SourceAnswer → Bool
  | 0, _ => true
  | n + 1, .byte _ :: rest => supplies n rest
  | _ + 1, _ => false

/-- The next `SinkWrite` is accepted. -/
def sinkAccepts (s : State) : Bool := decide (s.sinkAnswers.head? ≠ some SinkAnswer.failure)

/-! ### Sound states -/

/-- `RC_NORMALIZE` where its loop turns at most once, as an `if` (`40_range_decoder.md` R133, R141). -/
def normalized (s : State) : State :=
  if 2 ^ 24 ≤ s.range.toNat then s
  else
    match s.source with
    | .byte b :: rest =>
      { s with range := s.range <<< 8, code := (s.code <<< 8) ||| b.setWidth 32, ipos := s.ipos + 1#64, source := rest }
    | _ => s

/-- The range coder and the probability slots within the bounds of `40_range_decoder.md` R137 and R138. -/
structure CoderOk (s : State) : Prop where
  range : 2 ^ 24 ≤ s.range.toNat
  fill : s.mem.probFill = none
  slots : ∀ c ∈ s.mem.prob, 31 ≤ c.2.toNat ∧ c.2.toNat ≤ 2017

/-- Legal properties with the registers derived from them (`10_state.md` R27, R28). -/
structure PropertiesOk (s : State) : Prop where
  lc : s.lc.toNat ≤ 8
  lp : s.lp.toNat ≤ 4
  pb : s.pb.toNat ≤ 4
  dictionarySize : s.dictionarySize.toNat < 2 ^ 31
  posStateMask : s.posStateMask.toNat = 2 ^ s.pb.toNat - 1
  literalPosMask : s.literalPosMask.toNat = 2 ^ s.lp.toNat - 1
  dictionarySizeCheck : s.dictionarySizeCheck.toNat = max s.dictionarySize.toNat 1
  windowSize : s.windowSize.toNat = max s.dictionarySizeCheck.toNat 4096

/-- What holds between any two steps, whatever has been issued: the memory is in its canonical form, the properties are legal when
they are in force, and while DECODING the coder, the automaton (`45_symbols.md` R225) and the cursors (`44_output_window.md` R190)
are within their bounds. -/
structure Inv (s : State) : Prop where
  memory : s.mem.wf = true
  properties : s.phase = .configured ∨ s.phase = .decoding → PropertiesOk s
  coder : s.phase = .decoding → CoderOk s
  automaton : s.phase = .decoding → s.state.toNat < 12
  cursors : s.phase = .decoding → s.watermark.toNat ≤ s.writeCursor.toNat ∧ s.writeCursor.toNat < s.windowSize.toNat
  statusOk : s.phase = .configured ∨ s.phase = .decoding ∨ s.phase = .done → s.status = .ok
  statusFailed : s.phase = .failed → s.status ≠ .ok

/-! ### The output (`44_output_window.md` R188) -/

/-- The bytes of `WIN[watermark .. writeCursor)`, produced and not yet handed to the sink (`10_state.md` R35, R43). -/
def unflushed (s : State) : List Byte :=
  (List.range (s.writeCursor.toNat - s.watermark.toNat)).filterMap fun j => Cells.find s.mem.win (s.watermark.toNat + j)

/-- Every byte produced so far, in order: what the sink has received, then what is not yet flushed. What the sink held before the
stream began stands in front. -/
def emitted (s : State) : List Byte := s.sink ++ unflushed s

/-- `out'` is `out` with `n` bytes copied from distance `d` appended: byte `j` of the copy is the byte of `out` at
`out.length - (d + 1) + j mod (d + 1)` (`44_output_window.md` R185). -/
structure CopiedFrom (d n : Nat) (out out' : List Byte) : Prop where
  length : out'.length = out.length + n
  before : out'.take out.length = out
  copied : ∀ j < n, out'[out.length + j]? = out[out.length - (d + 1) + j % (d + 1)]?

/-- What holds of a stream between two symbols: every element of `WIN` that a legal distance names holds the byte that many places
back in the output (R192), no more is unflushed than has been produced, and in a match state `rep0` is a legal distance (R202). -/
structure StreamInv (s : State) : Prop where
  inv : Inv s
  decoding : s.phase = .decoding
  produced : s.position.toNat ≤ (emitted s).length
  window : ∀ d, d < s.position.toNat → d < s.windowSize.toNat →
    Cells.find s.mem.win (srcIndex s (BitVec.ofNat 32 d)) = (emitted s).reverse[d]?
  unflushed : s.writeCursor.toNat ≤ s.watermark.toNat + s.position.toNat
  rep0 : 7 ≤ s.state.toNat → s.rep0.toNat < s.position.toNat ∧ s.rep0.toNat < s.dictionarySizeCheck.toNat

/-- A symbol can run to its end: the stream is sound, the source has the bytes a symbol can need (at most one a decision, at most 48
decisions: `30_encoding.md` R105, `40_range_decoder.md` R141), the sink accepts the one flush there can be, and `position` has room
(`93_implementation_defined.md` U9). -/
structure Ready (s : State) : Prop where
  stream : StreamInv s
  source : supplies 48 s.source = true
  sink : sinkAccepts s = true
  room : s.position.toNat + 273 < 2 ^ 64

/-! ### Frames -/

/-- `t` differs from `s` only in the range coder, the source, the slots of the groups `gs` and the result. -/
structure CoderFrame (gs : List ProbGroup) (s t : State) : Prop where
  rest : t = { s with range := t.range, code := t.code, ipos := t.ipos, source := t.source, mem := t.mem, result := t.result }
  win : t.mem.win = s.mem.win
  fill : t.mem.probFill = s.mem.probFill
  slots : ∀ g i, g ∉ gs → t.mem.slot (slotKey g i) = s.mem.slot (slotKey g i)
  source : t.source <:+ s.source

/-- `t` differs from `s` only in what a symbol that adapts slots of the groups `gs` and appends `n` bytes may write: the range coder,
the source, those slots, the coder registers, and the window, whose elements outside the `n` appended ones are unchanged. -/
structure SymbolFrame (gs : List ProbGroup) (n : Nat) (s t : State) : Prop where
  rest : t = { s with
    range := t.range, code := t.code, ipos := t.ipos, source := t.source, mem := t.mem, result := t.result
    state := t.state, rep0 := t.rep0, rep1 := t.rep1, rep2 := t.rep2, rep3 := t.rep3
    position := t.position, prevByte := t.prevByte
    writeCursor := t.writeCursor, watermark := t.watermark, sink := t.sink, sinkAnswers := t.sinkAnswers }
  fill : t.mem.probFill = s.mem.probFill
  slots : ∀ g i, g ∉ gs → t.mem.slot (slotKey g i) = s.mem.slot (slotKey g i)
  source : t.source <:+ s.source
  win : ∀ a, (∀ j < n, a ≠ (s.writeCursor.toNat + j) % s.windowSize.toNat) → Cells.find t.mem.win a = Cells.find s.mem.win a
  cursor : t.writeCursor.toNat = (s.writeCursor.toNat + n) % s.windowSize.toNat
  unwrapped : s.writeCursor.toNat + n < s.windowSize.toNat →
    t.watermark = s.watermark ∧ t.sink = s.sink ∧ t.sinkAnswers = s.sinkAnswers
  wrapped : s.windowSize.toNat ≤ s.writeCursor.toNat + n → t.watermark = 0#32 ∧ t.sinkAnswers = s.sinkAnswers.drop 1

/-- `t` is `s` after a failure of kind `k` was taken: `phase` and `status` as `60_exceptions.md` R266 says, the ports as the failing
operation left them, and everything else unspecified (the free values of log 6). -/
structure FailedFrom (k : FailureKind) (s t : State) : Prop where
  taken : t = takeFailure .failed k { s with source := t.source, sink := t.sink, sinkAnswers := t.sinkAnswers }
  source : t.source <:+ s.source
  sink : s.sink <+: t.sink

/-! ### How an operation ends -/

/-- The operation whose outcome is `whole` begins with the one whose outcome is `first`: where that fails the whole fails in the same
way, and where it yields `v` in state `t`, `next t v` holds. -/
def BeginsWith (whole first : Host.Outcome State Fault Refusal) (next : State → Nat → Prop) : Prop :=
  ∃ t, first = .next t ∧ (t.result = none → whole = .next t) ∧ ∀ v, t.result = some v → next t v

/-- The operation completes, or the source has run out or has failed (`40_range_decoder.md` R131, R142): nothing else can happen. -/
def CompletesOrSourceFails (s : State) (o : Host.Outcome State Fault Refusal) : Prop :=
  ∃ t, o = .next t ∧
    (t.result.isSome = true ∨ (FailedFrom .streamTruncated s t ∧ t.source = [] ∧ t.sink = s.sink) ∨
      (FailedFrom .ioError s t ∧ t.sink = s.sink))

/-- A bit of value `v` has narrowed the interval of `s` to that of `u`, and `RC_NORMALIZE` ends the operation (R133, R134, R135): it
takes a byte if it needs one, and fails as that byte does. -/
def EndsNormalized (v : Nat) (s u : State) (o : Host.Outcome State Fault Refusal) : Prop :=
  (2 ^ 24 ≤ u.range.toNat ∨ supplies 1 s.source = true → o = .next { normalized u with result := some v }) ∧
  (u.range.toNat < 2 ^ 24 → s.source = [] → o = .next (takeFailure .failed .streamTruncated s)) ∧
  (u.range.toNat < 2 ^ 24 → ∀ rest, s.source = .failure :: rest →
    o = .next (takeFailure .failed .ioError { s with source := rest }))

/-- `whole` is `n` more bits decoded by `RC_BIT`: the bit of level `k`, behind the bits of value `v`, on slot `slotOf k v` of `g` in the state
the levels before left; a level that fails is how `whole` ends, and after the last one `done` holds of the value and the state. -/
def DecodesBits (whole : Host.Outcome State Fault Refusal) (g : ProbGroup) (slotOf : Nat → Nat → Nat) (done : Nat → State → Prop) :
    Nat → Nat → Nat → State → Prop
  | 0, _, v, s => done v s
  | n + 1, k, v, s =>
    BeginsWith whole (exec (.rcBit g (slotOf k v)) s) fun t b => b ≤ 1 ∧ DecodesBits whole g slotOf done n (k + 1) (2 * v + b) t

/-- The bits of a decision sequence are what `RC_BIT` on its slots, and `RC_DIRECT` of one bit where there is no slot, decode from `code`,
each in the state the decisions before it left; from `s` they lead to `t`. -/
def DecodedFromCode : List Decision → State → State → Prop
  | [], s, t => t = s
  | (.slot g i, b) :: ds, s, t =>
    ∃ (j : Nat) (u : State), i = j ∧ exec (.rcBit g j) s = .next u ∧ u.result = some b.toNat ∧ DecodedFromCode ds u t
  | (.direct, b) :: ds, s, t => ∃ u : State, exec (.rcDirect 1) s = .next u ∧ u.result = some b.toNat ∧ DecodedFromCode ds u t

/-- What a copying symbol with the length `len` and the distance `d` leaves: the history `r0` to `r3`, the automaton's state `st`, and
what `COPY` does (`45_symbols.md` R209): the output extended by the copy, `position`, `prevByte` the last byte copied. -/
structure CopySymbol (gs : List ProbGroup) (len : Nat) (d : Word) (st : BitVec 4) (r0 r1 r2 r3 : Word) (s t : State) : Prop where
  reps : t.rep0 = r0 ∧ t.rep1 = r1 ∧ t.rep2 = r2 ∧ t.rep3 = r3
  state : t.state = st
  position : t.position.toNat = s.position.toNat + len
  output : CopiedFrom d.toNat len (emitted s) (emitted t)
  prevByte : (emitted t).getLast? = some t.prevByte
  result : t.result = some 0
  frame : SymbolFrame gs len s t
  stream : StreamInv t

/-- The slots a literal adapts (`45_symbols.md` R202). -/
def litGroups : List ProbGroup := [.isMatch, .lit]

/-- The slots a new match adapts (R203). -/
def matchGroups : List ProbGroup :=
  [.isMatch, .isRep, .mlenChoice, .mlenLow, .mlenMid, .mlenHigh, .posSlot, .posDec, .align]

/-- The slots `SHORTREP` adapts: no length decoder is touched (R211). -/
def shortrepGroups : List ProbGroup := [.isMatch, .isRep, .isRepG0, .isRep0Long]

/-- The slots a rep symbol with a length adapts (R212 to R216). -/
def longrepGroups : List ProbGroup :=
  [.isMatch, .isRep, .isRepG0, .isRep0Long, .isRepG1, .isRepG2, .rlenChoice, .rlenLow, .rlenMid, .rlenHigh]

/-- The distance a symbol copies from, if it copies (R203, R211 to R215). -/
def copyDistance (s : State) : Symbol → Option Word
  | .lit _ => none
  | .matchNew _ dist => some dist
  | .eos _ => none
  | .shortrep => some s.rep0
  | .longrep0 _ => some s.rep0
  | .longrep1 _ => some s.rep1
  | .longrep2 _ => some s.rep2
  | .longrep3 _ => some s.rep3

/-- The host commands (`46_control.md` R240). -/
def isCommand : Instr → Bool
  | .cmdReset => true
  | .cmdSetProperties _ => true
  | .cmdDecode _ => true
  | _ => false

/-- The `d` low bits of `v` in the opposite order (`41_bit_tree.md` R152). -/
def reverseBits : Nat → Nat → Nat
  | 0, _ => 0
  | d + 1, v => v % 2 * 2 ^ d + reverseBits d (v / 2)

/-! ### The slots of the decisions, in numbers (`10_state.md` R37, `30_encoding.md` R97 to R102)

Which slot each decision of a row stands on, written from the spec's indices and not from the walks of the model: level `k` of a tree is
decoded at the node 2^k + the `k` bits before it (`41_bit_tree.md` R150). -/

/-- A tree of depth `d` at `base`, on which `v` is decoded most significant bit first (R151). -/
def treeSlots (g : ProbGroup) (base : Int) (d v : Nat) : List BitSource :=
  (List.range d).map fun k => .slot g (base + (2 ^ k + v / 2 ^ (d - k) : Nat))

/-- The same for the `d` low bits of `v`, least significant first (R152). -/
def reverseSlots (g : ProbGroup) (base : Int) (d v : Nat) : List BitSource :=
  (List.range d).map fun k => .slot g (base + (2 ^ k + reverseBits k v : Nat))

/-- A length field: choice slot 0, choice slot 1 from length 10 on, then the low or mid tree at `ps * 8`, or the high tree
(`42_length_decoder.md` R160, R161). -/
def lenSlots (x : LenInst) (ps len : Nat) : List BitSource :=
  if len < 10 then .slot x.choice 0 :: treeSlots x.low (ps * 8 : Nat) 3 (len - 2)
  else if len < 18 then .slot x.choice 0 :: .slot x.choice 1 :: treeSlots x.mid (ps * 8 : Nat) 3 (len - 10)
  else .slot x.choice 0 :: .slot x.choice 1 :: treeSlots x.high 0 8 (len - 18)

/-- The slots of the extra bits of the distance `v`, of which the position slot `posSlot` leaves the low `n` bits open: below 128
`POS_DEC` at `base - posSlot - 1`, from 128 on direct bits and then `ALIGN` for the last four (R102, `45_symbols.md` R206). -/
def extraSlots (posSlot n v : Nat) : List BitSource :=
  if v < 128 then reverseSlots .posDec ((v - v % 2 ^ n : Nat) - posSlot - 1) n v
  else List.replicate (n - 4) .direct ++ reverseSlots .align 0 4 v

/-- The smallest distance of a position slot of 4 or more, `base` (R102). -/
def slotBase (posSlot : Nat) : Nat := (2 + posSlot % 2) * 2 ^ (posSlot / 2 - 1)

/-- A distance field of the distance `v` in a length class: the tree of `POS_SLOT` at `lenClass * 64` for the position slot, which from 4
on is twice the place of the leading bit plus the bit behind it (R205), then the extra bits. -/
def distSlots (lenClass v : Nat) : List BitSource :=
  if v < 4 then treeSlots .posSlot (lenClass * 64 : Nat) 6 v
  else
    treeSlots .posSlot (lenClass * 64 : Nat) 6 (2 * v.log2 + v / 2 ^ (v.log2 - 1) % 2) ++
      extraSlots (2 * v.log2 + v / 2 ^ (v.log2 - 1) % 2) (v.log2 - 1) v

/-- A literal's byte: the plain tree, or on the tree of the match bit as long as the bits before agree with the match byte
(`43_literal_decoder.md` R171, R172). -/
def litSlots (base : Nat) (matchByte : Option Byte) (b : Nat) : List BitSource :=
  (List.range 8).map fun k =>
    let offset := match matchByte with
      | none => 0
      | some m => if m.toNat / 2 ^ (8 - k) = b / 2 ^ (8 - k) then (1 + m.toNat / 2 ^ (7 - k) % 2) * 256 else 0
    .slot .lit (base + offset + (2 ^ k + b / 2 ^ (8 - k)) : Nat)

/-- The slot of level `k` of a literal in matched mode whose `k` bits so far have the value `v`: that of the match bit as long as they are
the first bits of the match byte, then the plain one (R172). -/
def matchedSlot (base matchByte k v : Nat) : Nat :=
  base + (if matchByte / 2 ^ (8 - k) = v then (1 + matchByte / 2 ^ (7 - k) % 2) * 256 else 0) + (2 ^ k + v)

/-- What `LIT_SELECT` gives (R170). -/
def litBase (s : State) : Nat :=
  (s.position.toNat % 2 ^ s.lp.toNat * 2 ^ s.lc.toNat + s.prevByte.toNat / 2 ^ (8 - s.lc.toNat)) * 0x300

/-- `ps` (`45_symbols.md` R201). -/
def posStateOf (s : State) : Nat := s.position.toNat % 2 ^ s.pb.toNat

/-- All decisions of a symbol: `IS_MATCH` and `IS_REP0_LONG` at `(state << pb) + ps`, the other flags at `state`, then the fields
(R97 to R104, R200). -/
def symbolSlots (s : State) (matchByte : Option Byte) (y : Symbol) : List BitSource :=
  let st : Int := s.state.toNat
  let stps : Int := (s.state.toNat * 2 ^ s.pb.toNat + posStateOf s : Nat)
  .slot .isMatch stps ::
    match y with
    | .lit b => litSlots (litBase s) matchByte b.toNat
    | .matchNew len dist => .slot .isRep st :: (lenSlots .mlen (posStateOf s) len ++ distSlots (min (len - 2) 3) dist.toNat)
    | .eos len => .slot .isRep st :: (lenSlots .mlen (posStateOf s) len ++ distSlots (min (len - 2) 3) 0xFFFFFFFF)
    | .shortrep => [.slot .isRep st, .slot .isRepG0 st, .slot .isRep0Long stps]
    | .longrep0 len => [.slot .isRep st, .slot .isRepG0 st, .slot .isRep0Long stps] ++ lenSlots .rlen (posStateOf s) len
    | .longrep1 len => [.slot .isRep st, .slot .isRepG0 st, .slot .isRepG1 st] ++ lenSlots .rlen (posStateOf s) len
    | .longrep2 len =>
      [.slot .isRep st, .slot .isRepG0 st, .slot .isRepG1 st, .slot .isRepG2 st] ++ lenSlots .rlen (posStateOf s) len
    | .longrep3 len =>
      [.slot .isRep st, .slot .isRepG0 st, .slot .isRepG1 st, .slot .isRepG2 st] ++ lenSlots .rlen (posStateOf s) len

/-- The match byte a literal is decoded with: none in a char state, what `WIN_GET(rep0)` yields otherwise (R174, `45_symbols.md`
R202). -/
def IsMatchByte (s : State) (matchByte : Option Byte) : Prop :=
  if s.state.toNat < 7 then matchByte = none
  else ∃ m : Byte, matchByte = some m ∧ exec (.winGet s.rep0) s = .next { s with result := some m.toNat }

/-- The field `bits`, decoded on `slots` one for one, is all that the row `i` does; it yields `v` (log 3). -/
def TakesField (i : Instr) (slots : List BitSource) (bits : List Bool) (v : Nat) (s : State) : Prop :=
  slots.length = bits.length ∧ exec i s = (takeBits (slots.zip bits) s).finish fun _ => some v

/-! ### Tables of the spec, written out -/

/-- The number a length row stands for (`30_encoding.md` R100). -/
def lenRowValue : Instr → Option Nat
  | .lenLow _ t => some (2 + t.toNat)
  | .lenMid _ t => some (10 + t.toNat)
  | .lenHigh _ t => some (18 + t.toNat)
  | _ => none

/-- The length decoder a length row is read on (`42_length_decoder.md` R160). -/
def lenRowInst : Instr → Option LenInst
  | .lenLow x _ => some x
  | .lenMid x _ => some x
  | .lenHigh x _ => some x
  | _ => none

/-- The slots a length decoder owns (`42_length_decoder.md` R160). -/
def lenGroups (x : LenInst) : List ProbGroup := [x.choice, x.low, x.mid, x.high]

/-- The number a distance row stands for: the smallest distance of its position slot in the table of `30_encoding.md` R102, and its
extra bits. -/
def distRowValue : Instr → Option Nat
  | .distSlot0 _ => some 0
  | .distSlot1 _ => some 1
  | .distSlot2 _ => some 2
  | .distSlot3 _ => some 3
  | .distSlot4 _ r => some (0x4 + r.toNat)
  | .distSlot5 _ r => some (0x6 + r.toNat)
  | .distSlot6 _ r => some (0x8 + r.toNat)
  | .distSlot7 _ r => some (0xc + r.toNat)
  | .distSlot8 _ r => some (0x10 + r.toNat)
  | .distSlot9 _ r => some (0x18 + r.toNat)
  | .distSlot10 _ r => some (0x20 + r.toNat)
  | .distSlot11 _ r => some (0x30 + r.toNat)
  | .distSlot12 _ r => some (0x40 + r.toNat)
  | .distSlot13 _ r => some (0x60 + r.toNat)
  | .distSlot14 _ d a => some (0x80 + d.toNat * 16 + a.toNat)
  | .distSlot15 _ d a => some (0xC0 + d.toNat * 16 + a.toNat)
  | .distSlot16 _ d a => some (0x100 + d.toNat * 16 + a.toNat)
  | .distSlot17 _ d a => some (0x180 + d.toNat * 16 + a.toNat)
  | .distSlot18 _ d a => some (0x200 + d.toNat * 16 + a.toNat)
  | .distSlot19 _ d a => some (0x300 + d.toNat * 16 + a.toNat)
  | .distSlot20 _ d a => some (0x400 + d.toNat * 16 + a.toNat)
  | .distSlot21 _ d a => some (0x600 + d.toNat * 16 + a.toNat)
  | .distSlot22 _ d a => some (0x800 + d.toNat * 16 + a.toNat)
  | .distSlot23 _ d a => some (0xC00 + d.toNat * 16 + a.toNat)
  | .distSlot24 _ d a => some (0x1000 + d.toNat * 16 + a.toNat)
  | .distSlot25 _ d a => some (0x1800 + d.toNat * 16 + a.toNat)
  | .distSlot26 _ d a => some (0x2000 + d.toNat * 16 + a.toNat)
  | .distSlot27 _ d a => some (0x3000 + d.toNat * 16 + a.toNat)
  | .distSlot28 _ d a => some (0x4000 + d.toNat * 16 + a.toNat)
  | .distSlot29 _ d a => some (0x6000 + d.toNat * 16 + a.toNat)
  | .distSlot30 _ d a => some (0x8000 + d.toNat * 16 + a.toNat)
  | .distSlot31 _ d a => some (0xC000 + d.toNat * 16 + a.toNat)
  | .distSlot32 _ d a => some (0x10000 + d.toNat * 16 + a.toNat)
  | .distSlot33 _ d a => some (0x18000 + d.toNat * 16 + a.toNat)
  | .distSlot34 _ d a => some (0x20000 + d.toNat * 16 + a.toNat)
  | .distSlot35 _ d a => some (0x30000 + d.toNat * 16 + a.toNat)
  | .distSlot36 _ d a => some (0x40000 + d.toNat * 16 + a.toNat)
  | .distSlot37 _ d a => some (0x60000 + d.toNat * 16 + a.toNat)
  | .distSlot38 _ d a => some (0x80000 + d.toNat * 16 + a.toNat)
  | .distSlot39 _ d a => some (0xC0000 + d.toNat * 16 + a.toNat)
  | .distSlot40 _ d a => some (0x100000 + d.toNat * 16 + a.toNat)
  | .distSlot41 _ d a => some (0x180000 + d.toNat * 16 + a.toNat)
  | .distSlot42 _ d a => some (0x200000 + d.toNat * 16 + a.toNat)
  | .distSlot43 _ d a => some (0x300000 + d.toNat * 16 + a.toNat)
  | .distSlot44 _ d a => some (0x400000 + d.toNat * 16 + a.toNat)
  | .distSlot45 _ d a => some (0x600000 + d.toNat * 16 + a.toNat)
  | .distSlot46 _ d a => some (0x800000 + d.toNat * 16 + a.toNat)
  | .distSlot47 _ d a => some (0xC00000 + d.toNat * 16 + a.toNat)
  | .distSlot48 _ d a => some (0x1000000 + d.toNat * 16 + a.toNat)
  | .distSlot49 _ d a => some (0x1800000 + d.toNat * 16 + a.toNat)
  | .distSlot50 _ d a => some (0x2000000 + d.toNat * 16 + a.toNat)
  | .distSlot51 _ d a => some (0x3000000 + d.toNat * 16 + a.toNat)
  | .distSlot52 _ d a => some (0x4000000 + d.toNat * 16 + a.toNat)
  | .distSlot53 _ d a => some (0x6000000 + d.toNat * 16 + a.toNat)
  | .distSlot54 _ d a => some (0x8000000 + d.toNat * 16 + a.toNat)
  | .distSlot55 _ d a => some (0xC000000 + d.toNat * 16 + a.toNat)
  | .distSlot56 _ d a => some (0x10000000 + d.toNat * 16 + a.toNat)
  | .distSlot57 _ d a => some (0x18000000 + d.toNat * 16 + a.toNat)
  | .distSlot58 _ d a => some (0x20000000 + d.toNat * 16 + a.toNat)
  | .distSlot59 _ d a => some (0x30000000 + d.toNat * 16 + a.toNat)
  | .distSlot60 _ d a => some (0x40000000 + d.toNat * 16 + a.toNat)
  | .distSlot61 _ d a => some (0x60000000 + d.toNat * 16 + a.toNat)
  | .distSlot62 _ d a => some (0x80000000 + d.toNat * 16 + a.toNat)
  | .distSlot63 _ d a => some (0xC0000000 + d.toNat * 16 + a.toNat)
  | _ => none

end Sys2Proof.Machine
end

