-- ==== Sys2Proof/Certificates/Slice0/Obligations.lean ====
section
/-! DEFINITION. The statements for the provers, in the order of the spec's life of a stream: reset and commands, the loop of
`DECODE`, the invariants, then the operations component by component, the symbols, and the encoding. -/

open Sys2Proof Sys2Proof.Machine

/-! ### Reset and commands -/

/-- R300: power-on, the reset input in any phase, and the `RESET` command all leave `phase` UNCONFIGURED and `status` OK; the sink
keeps what it has, the source has lost what it lost. -/
def Obligations.ResetLeavesPhaseAndStatus : Prop :=
  (State.reset.phase = .unconfigured ∧ State.reset.status = .ok) ∧
  (∀ s : State, s.resetInput = true →
    ∃ t, step s = .next t ∧ t.phase = .unconfigured ∧ t.status = .ok ∧ t.sink = s.sink ∧ t.source = s.source) ∧
  (∀ s : State, s.phase ≠ .decoding →
    ∃ t, exec .cmdReset s = .next t ∧ t.phase = .unconfigured ∧ t.status = .ok ∧ t.sink = s.sink ∧ t.source = s.source)

/-- R241: `RESET` writes `phase` and `status` and touches neither source nor sink. That what has been issued and the reset input stay too is
log 14, and that the sink's coming answers do is log 6: the model's choices. -/
def Obligations.ResetCommand : Prop :=
  ∀ s : State, s.phase ≠ .decoding →
    ∃ t, exec .cmdReset s = .next t ∧ t.phase = .unconfigured ∧ t.status = .ok ∧
      t.source = s.source ∧ t.sink = s.sink ∧ t.sinkAnswers = s.sinkAnswers ∧ t.issued = s.issued ∧ t.resetInput = s.resetInput

/-- R240: in which phases `DECODE` and `SET_PROPERTIES` are refused, and in no other. `RESET` "cannot be issued" while DECODING; that it is
refused there is log 25 (after U3), the model's choice. -/
def Obligations.CommandsRefusedByPhase : Prop :=
  ∀ s : State,
    (∀ el, exec (.cmdDecode el) s = .refused .decodeNotConfigured ↔ s.phase ≠ .configured) ∧
    (∀ bytes, exec (.cmdSetProperties bytes) s = .refused .setPropertiesWhileDecoding ↔ s.phase = .decoding) ∧
    (exec .cmdReset s = .refused .resetWhileDecoding ↔ s.phase = .decoding)

/-- R242, R243, R28: five legal bytes load the property registers and those derived from them, whatever stands behind the fifth;
anything else is a `FormatError` that leaves the block UNCONFIGURED. Neither reads the source or writes the sink; that what has been
issued, the reset input and the sink's coming answers stay is logs 6 and 14, the model's choices. While DECODING the command is refused. -/
def Obligations.SetProperties : Prop :=
  ∀ s : State,
    (s.phase ≠ .decoding → ∀ (v b1 b2 b3 b4 : Byte) (rest : List Byte), v.toNat < 225 → b4.toNat < 128 →
      ∃ t, exec (.cmdSetProperties (v :: b1 :: b2 :: b3 :: b4 :: rest)) s = .next t ∧
        t.lc.toNat = v.toNat % 9 ∧ t.lp.toNat = v.toNat / 9 % 5 ∧ t.pb.toNat = v.toNat / 9 / 5 ∧
        t.dictionarySize.toNat = b1.toNat + b2.toNat * 256 + b3.toNat * 65536 + b4.toNat * 16777216 ∧
        t.posStateMask.toNat = 2 ^ t.pb.toNat - 1 ∧ t.literalPosMask.toNat = 2 ^ t.lp.toNat - 1 ∧
        t.dictionarySizeCheck.toNat = max t.dictionarySize.toNat 1 ∧
        t.windowSize.toNat = max t.dictionarySizeCheck.toNat 4096 ∧
        t.phase = .configured ∧ t.status = .ok ∧
        t.source = s.source ∧ t.sink = s.sink ∧ t.sinkAnswers = s.sinkAnswers ∧ t.issued = s.issued ∧ t.resetInput = s.resetInput) ∧
    (s.phase ≠ .decoding → ∀ bytes : List Byte,
      bytes.length < 5 ∨ 225 ≤ (bytes.getD 0 0#8).toNat ∨ 128 ≤ (bytes.getD 4 0#8).toNat →
      ∃ t, exec (.cmdSetProperties bytes) s = .next t ∧ t.phase = .unconfigured ∧ t.status = .failure .formatError ∧
        t.source = s.source ∧ t.sink = s.sink ∧ t.sinkAnswers = s.sinkAnswers ∧ t.issued = s.issued ∧ t.resetInput = s.resetInput) ∧
    (s.phase = .decoding → ∀ bytes, exec (.cmdSetProperties bytes) s = .refused .setPropertiesWhileDecoding)

/-- R92: the properties byte is a mixed-radix number; every legal triple has one byte below 225, and every byte below 225 is the byte
of its triple. -/
def Obligations.PropertiesByteRoundTrip : Prop :=
  (∀ lc lp pb : Nat, lc ≤ 8 → lp ≤ 4 → pb ≤ 4 →
    (encodeProps lc lp pb).toNat < 225 ∧ decodeProps (encodeProps lc lp pb) = (lc, lp, pb)) ∧
  (∀ v : Byte, (decodeProps v).1 ≤ 8 ∧ (decodeProps v).2.1 ≤ 4 ∧ ((decodeProps v).2.2 ≤ 4 ↔ v.toNat < 225) ∧
    encodeProps (decodeProps v).1 (decodeProps v).2.1 (decodeProps v).2.2 = v)

/-- R245, R246, R132: `DECODE` in CONFIGURED initialises the stream, takes five bytes, the first unexamined and the next four the code,
big-endian, and is then DECODING; every slot is 1024. What the window holds is log 9 and not said here. -/
def Obligations.DecodeStarts : Prop :=
  ∀ (s : State) (el : DWord) (b0 b1 b2 b3 b4 : Byte) (rest : List SourceAnswer), s.phase = .configured →
    s.source = .byte b0 :: .byte b1 :: .byte b2 :: .byte b3 :: .byte b4 :: rest →
    ∃ t, exec (.cmdDecode el) s = .next t ∧
      t = { s with
        phase := .decoding, expectedLength := el, ipos := 5#64, state := 0#4
        rep0 := 0#32, rep1 := 0#32, rep2 := 0#32, rep3 := 0#32
        position := 0#64, prevByte := 0#8, writeCursor := 0#32, watermark := 0#32
        range := 0xFFFFFFFF#32, source := rest, result := none, code := t.code, mem := t.mem } ∧
      t.code.toNat = b1.toNat * 2 ^ 24 + b2.toNat * 2 ^ 16 + b3.toNat * 2 ^ 8 + b4.toNat ∧
      ∀ g i, t.mem.slot (slotKey g i) = 1024#11

/-- R246, R132, R262, R264: where one of the first five bytes cannot be had, `DECODE` fails, whatever `expectedLength` is: a stream of fewer
than five bytes is truncated, and a source that fails on one of the five is an `IoError`; the bytes before it stay taken. -/
def Obligations.DecodeShortStream : Prop :=
  ∀ (s : State) (el : DWord), s.phase = .configured →
    (s.source.length < 5 → supplies s.source.length s.source = true →
      ∃ t, exec (.cmdDecode el) s = .next t ∧ FailedFrom .streamTruncated s t ∧ t.source = [] ∧ t.sink = s.sink) ∧
    (∀ (n : Nat) (rest : List SourceAnswer), n < 5 → supplies n s.source = true → s.source.drop n = .failure :: rest →
      ∃ t, exec (.cmdDecode el) s = .next t ∧ FailedFrom .ioError s t ∧ t.source = rest ∧ t.sink = s.sink)

/-- R302: what `DECODE` starts depends on the properties, the operand and the ports, and on nothing the block did before. That the next
states are equal in `WIN` too is log 9, the model's choice: the spec leaves `WIN` as it was, unspecified (D20). -/
def Obligations.DecodeForgetsThePast : Prop :=
  ∀ (s s' : State) (el : DWord), s.phase = .configured →
    s' = { s with
      range := s'.range, code := s'.code, state := s'.state, rep0 := s'.rep0, rep1 := s'.rep1, rep2 := s'.rep2, rep3 := s'.rep3
      position := s'.position, prevByte := s'.prevByte, ipos := s'.ipos, expectedLength := s'.expectedLength
      mem := s'.mem, writeCursor := s'.writeCursor, watermark := s'.watermark, result := s'.result } →
    exec (.cmdDecode el) s' = exec (.cmdDecode el) s

/-! ### A step -/

/-- What stands first at the port `CMD` runs, and is taken from it (log 2); the table word of an instruction places it there
(log 15, log 16); with nothing to do the state stays (log 13). -/
def Obligations.StepRunsWhatIsIssued : Prop :=
  (∀ (s : State) (i : Instr) (rest : List Instr), s.resetInput = false → s.issued = i :: rest →
    step s = exec i { s with issued := rest }) ∧
  (∀ (s : State) (nbits w : Nat) (i : Instr), decodeTableWord nbits w = some i →
    step (s.withFetchWord nbits w) =
      exec i { s with resetInput := false, source := List.replicate 64 (SourceAnswer.byte 0#8) ++ s.source }) ∧
  (∀ s : State, s.resetInput = false → s.issued = [] → s.phase ≠ .decoding → step s = .next s)

/-- A pass of the loop of `DECODE` runs the instruction it decodes from the stream (R200, R244), and after it, unless it was the end
marker, the loop goes on (log 1). -/
def Obligations.StepRunsTheDecodedSymbol : Prop :=
  ∀ (s u : State) (y : Symbol), s.resetInput = false → s.issued = [] → s.phase = .decoding → lengthReached s = false →
    fetchSymbol s = .ok y u →
    step s = afterSymbol y (exec y.toInstr s) ∧
    (endsLoop y = false → ∀ t, exec y.toInstr s = .next t → step s = .next t)

/-- R200 with R97 to R104: what `SYMBOL()` decodes is a well-formed symbol, its decisions are the decision string of that symbol, each on
the slot the rules name for it and each the bit that `RC_BIT` or `RC_DIRECT` decodes there from `code`, and `SYMBOL()` does exactly what
the symbol's row does. -/
def Obligations.SymbolIsItsRow : Prop :=
  ∀ (s u : State) (y : Symbol), fetchSymbol s = .ok y u →
    y.toInstr.wf = true ∧
    (∃ (path : List Decision) (mb : Option Byte) (w : State), path.map Prod.snd = y.bits ∧ takeBits path s = .ok () u ∧
      DecodedFromCode path s w ∧ u = { w with result := s.result } ∧
      (PropertiesOk s → path.map Prod.fst = symbolSlots s mb y ∧ ∀ b, y = .lit b → IsMatchByte s mb)) ∧
    exec .symbol s = exec y.toInstr s

/-- R200: with the stream sound and the bytes supplied a symbol is decoded and executed; it completes when the distance it copies from
is legal, and is a `CorruptStream` otherwise. -/
def Obligations.SymbolRuns : Prop :=
  ∀ s : State, Ready s →
    ∃ y u t, fetchSymbol s = .ok y u ∧ exec .symbol s = .next t ∧
      ((∀ d, copyDistance s y = some d → d.toNat < s.position.toNat ∧ d.toNat < s.dictionarySizeCheck.toNat) →
        t.phase = .decoding ∧ t.result = some (endsLoop y).toNat) ∧
      (∀ d, copyDistance s y = some d → ¬ (d.toNat < s.position.toNat ∧ d.toNat < s.dictionarySizeCheck.toNat) →
        FailedFrom .corruptStream s t ∧ t.sink = s.sink)

/-! ### The end of `DECODE` -/

/-- R247, R249, R250: a non-negative `expectedLength` that `position` has reached ends the loop before any symbol: nothing is read, the
rest of the output reaches the sink, `phase` is DONE and `status` OK. -/
def Obligations.LengthTestEndsTheLoop : Prop :=
  ∀ s : State, StreamInv s → s.resetInput = false → s.issued = [] → sinkAccepts s = true →
    0 ≤ s.expectedLength.toInt → s.expectedLength.toInt ≤ (s.position.toNat : Int) →
    ∃ t, step s = .next t ∧ t.phase = .done ∧ t.status = .ok ∧ t.source = s.source ∧ t.sink = emitted s

/-- R247: with a negative `expectedLength`, or one above `position`, the loop test does not end the loop: the step decodes a symbol. -/
def Obligations.LengthTestContinues : Prop :=
  ∀ s : State, Ready s → s.resetInput = false → s.issued = [] →
    s.expectedLength.toInt < 0 ∨ (s.position.toNat : Int) < s.expectedLength.toInt →
    ∃ y u t, fetchSymbol s = .ok y u ∧ exec y.toInstr s = .next t ∧ step s = afterSymbol y (.next t)

/-- R207, R248, R249: the end marker ends the loop successfully at any position and with any `expectedLength` above it. -/
def Obligations.EndMarkerEndsTheLoop : Prop :=
  ∀ (s u : State) (len : Nat), StreamInv s → s.resetInput = false → s.issued = [] → sinkAccepts s = true →
    s.expectedLength.toInt < 0 ∨ (s.position.toNat : Int) < s.expectedLength.toInt →
    fetchSymbol s = .ok (.eos len) u →
    ∃ t, step s = .next t ∧ t.phase = .done ∧ t.status = .ok ∧ t.source = u.source ∧ t.sink = emitted s

/-- R249, R264: the final flush can itself fail; the result is then `IoError`. That the sink has received nothing of the failing `SinkWrite`
is log 11, the model's choice. -/
def Obligations.FinalFlushCanFail : Prop :=
  ∀ (s : State) (rest : List SinkAnswer), StreamInv s → s.resetInput = false → s.issued = [] →
    s.sinkAnswers = .failure :: rest → s.watermark.toNat < s.writeCursor.toNat →
    0 ≤ s.expectedLength.toInt → s.expectedLength.toInt ≤ (s.position.toNat : Int) →
    ∃ t, step s = .next t ∧ FailedFrom .ioError s t ∧ t.sink = s.sink

/-- R266, R267: a failure while a symbol's bits are decoded ends `DECODE`: `phase` FAILED, `status` the kind, no flush; the bytes taken
from the source stay taken. -/
def Obligations.StreamFailureEndsTheLoop : Prop :=
  ∀ (s u : State) (k : FailureKind), s.resetInput = false → s.issued = [] → s.phase = .decoding → lengthReached s = false →
    fetchSymbol s = .raise k u →
    (k = .streamTruncated ∨ k = .ioError) ∧
    ∃ t, step s = .next t ∧ FailedFrom k s t ∧ t.source = u.source ∧ t.sink = s.sink

/-- R261, R265, R266, R27: every instruction but the commands either completes, and then no property register, `expectedLength`, `phase`
or `status` changes, or takes a failure, and that is never a `FormatError`. -/
def Obligations.OperationsCompleteOrFail : Prop :=
  ∀ (i : Instr) (s t : State), isCommand i = false → exec i s = .next t →
    (t = { s with
        range := t.range, code := t.code, state := t.state, rep0 := t.rep0, rep1 := t.rep1, rep2 := t.rep2, rep3 := t.rep3
        position := t.position, prevByte := t.prevByte, ipos := t.ipos, mem := t.mem
        writeCursor := t.writeCursor, watermark := t.watermark
        source := t.source, sink := t.sink, sinkAnswers := t.sinkAnswers, result := t.result } ∧
      t.source <:+ s.source ∧ s.sink <+: t.sink) ∨
    ∃ k, k ≠ .formatError ∧ FailedFrom k s t

/-- R61, R62: over any step the source only shrinks and the sink only grows. -/
def Obligations.PortsAreMonotone : Prop :=
  ∀ s t : State, step s = .next t → t.source <:+ s.source ∧ s.sink <+: t.sink

/-! ### Invariants -/

/-- The state at reset meets the invariant. -/
def Obligations.InvAtReset : Prop := Inv State.reset

/-- Every step keeps the invariant, whatever has been issued: the memory in canonical form, the properties legal, and while DECODING the
coder, the automaton and the cursors within the bounds of R137, R138, R225 and R190. -/
def Obligations.InvKeptByEveryStep : Prop :=
  ∀ s t : State, Inv s → step s = .next t → Inv t

/-- `DECODE` begins a sound stream. -/
def Obligations.DecodeBeginsASoundStream : Prop :=
  ∀ (s t : State) (el : DWord), Inv s → s.phase = .configured → exec (.cmdDecode el) s = .next t → t.phase = .decoding →
    StreamInv t

/-- R192, R303: no pass of a sound stream reads a value that is not there: the step answers a next state, and the stream is still
sound, or `DECODE` has ended, with success or with a failure. -/
def Obligations.SoundStreamsNeverFault : Prop :=
  ∀ s : State, StreamInv s → s.resetInput = false → s.issued = [] → s.position.toNat + 273 < 2 ^ 64 →
    ∃ t, step s = .next t ∧
      ((t.phase = .decoding ∧ StreamInv t) ∨ (t.phase = .done ∧ t.status = .ok) ∨ (t.phase = .failed ∧ t.status ≠ .ok))

/-- R188, R250: the output only grows, what the sink has received is all of it but the unflushed bytes, and when the stream ends with
success it is all of it; counted, since the stream began with `n` bytes in the sink: `position` bytes. -/
def Obligations.SinkReceivesTheOutput : Prop :=
  ∀ (n : Nat) (s t : State), StreamInv s → s.resetInput = false → s.issued = [] → s.position.toNat + 273 < 2 ^ 64 →
    s.sink.length + (s.writeCursor.toNat - s.watermark.toNat) = n + s.position.toNat → step s = .next t →
    (t.phase = .decoding → emitted s <+: emitted t ∧ t.sink <+: emitted t ∧ (emitted t).length = n + t.position.toNat ∧
      t.sink.length + (t.writeCursor.toNat - t.watermark.toNat) = n + t.position.toNat) ∧
    (t.phase = .done → t.sink = emitted s ∧ t.sink.length = n + s.position.toNat)

/-! ### The range decoder -/

/-- R131: `InByte()` returns the next byte and advances `ipos`; with no byte left it is truncated; a failing source is `IoError`. -/
def Obligations.InByteTakesTheNextByte : Prop :=
  ∀ s : State,
    (∀ b rest, s.source = .byte b :: rest →
      exec .inByte s = .next { s with source := rest, ipos := s.ipos + 1#64, result := some b.toNat }) ∧
    (s.source = [] → exec .inByte s = .next (takeFailure .failed .streamTruncated s)) ∧
    (∀ rest, s.source = .failure :: rest →
      exec .inByte s = .next (takeFailure .failed .ioError { s with source := rest }))

/-- R132: `RC_INIT` discards a byte, loads four big-endian into `code` and sets `range`; it fails as the first of its five bytes that
cannot be had. -/
def Obligations.RcInitLoadsTheCode : Prop :=
  ∀ s : State,
    (∀ (b0 b1 b2 b3 b4 : Byte) (rest : List SourceAnswer),
      s.source = .byte b0 :: .byte b1 :: .byte b2 :: .byte b3 :: .byte b4 :: rest →
      ∃ t, exec .rcInit s = .next t ∧
        t = { s with range := 0xFFFFFFFF#32, code := t.code, ipos := s.ipos + 5#64, source := rest, result := none } ∧
        t.code.toNat = b1.toNat * 2 ^ 24 + b2.toNat * 2 ^ 16 + b3.toNat * 2 ^ 8 + b4.toNat) ∧
    (s.source.length < 5 → supplies s.source.length s.source = true →
      exec .rcInit s = .next (takeFailure .failed .streamTruncated { s with source := [] })) ∧
    (∀ (n : Nat) (rest : List SourceAnswer), n < 5 → supplies n s.source = true → s.source.drop n = .failure :: rest →
      exec .rcInit s = .next (takeFailure .failed .ioError { s with source := rest }))

/-- R133: `RC_NORMALIZE` does nothing from 2^24 on; below, it takes a byte into `code`, shifts `range`, and goes on; the byte is asked
for first, so an exhausted or failing source ends it. -/
def Obligations.RcNormalizeLoops : Prop :=
  ∀ s : State,
    (2 ^ 24 ≤ s.range.toNat → exec .rcNormalize s = .next { s with result := none }) ∧
    (s.range.toNat < 2 ^ 24 → ∀ b rest, s.source = .byte b :: rest →
      ∃ u, u = { s with range := u.range, code := u.code, ipos := s.ipos + 1#64, source := rest } ∧
        u.range.toNat = s.range.toNat * 256 ∧ u.code.toNat = s.code.toNat * 256 % 2 ^ 32 + b.toNat ∧
        exec .rcNormalize s = exec .rcNormalize u) ∧
    (s.range.toNat < 2 ^ 24 → s.source = [] → exec .rcNormalize s = .next (takeFailure .failed .streamTruncated s)) ∧
    (s.range.toNat < 2 ^ 24 → ∀ rest, s.source = .failure :: rest →
      exec .rcNormalize s = .next (takeFailure .failed .ioError { s with source := rest }))

/-- R136: the adaptation law, and that it keeps the bounds of R137. -/
def Obligations.AdaptationLaw : Prop :=
  ∀ p : Slot,
    (adapt p false).toNat = p.toNat + (2048 - p.toNat) / 32 ∧ (adapt p true).toNat = p.toNat - p.toNat / 32 ∧
    (31 ≤ p.toNat ∧ p.toNat ≤ 2017 → ∀ bit, 31 ≤ (adapt p bit).toNat ∧ (adapt p bit).toNat ≤ 2017)

/-- R134 with R141: `RC_BIT` compares `code` with the bound, unsigned and strictly, narrows the interval, adapts the slot and
renormalises with at most one byte. -/
def Obligations.RcBitDecodes : Prop :=
  ∀ (s : State) (g : ProbGroup) (i p bound : Nat), CoderOk s → i < groupSize s g → p = (s.mem.slot (slotKey g i)).toNat →
    bound = s.range.toNat / 2048 * p →
    (s.code.toNat < bound →
      ∃ u, u = { s with range := u.range, mem := s.mem.setSlot (slotKey g i) (BitVec.ofNat 11 (p + (2048 - p) / 32)) } ∧
        u.range.toNat = bound ∧ EndsNormalized 0 s u (exec (.rcBit g i) s)) ∧
    (bound ≤ s.code.toNat →
      ∃ u, u = { s with range := u.range, code := u.code,
                        mem := s.mem.setSlot (slotKey g i) (BitVec.ofNat 11 (p - p / 32)) } ∧
        u.range.toNat = s.range.toNat - bound ∧ u.code.toNat = s.code.toNat - bound ∧
        EndsNormalized 1 s u (exec (.rcBit g i) s))

/-- R138 with R137 and R141: after `RC_BIT` and after `RC_DIRECT` the range is at least 2^24 again and the slots are within their
bounds; each bit takes at most one byte. For a slot the group does not have (R60, R64) the model stops (log 21). That
`RC_DIRECT` runs with more than 32 bits too is log 35, the model's choice. -/
def Obligations.RangeInvariant : Prop :=
  (∀ s : State, CoderOk s →
    (∀ g i, i < groupSize s g → supplies 1 s.source = true →
      ∃ t, exec (.rcBit g i) s = .next t ∧ CoderOk t ∧ CoderFrame [g] s t ∧ s.source.length ≤ t.source.length + 1) ∧
    (∀ n, supplies n s.source = true →
      ∃ t, exec (.rcDirect n) s = .next t ∧ CoderOk t ∧ CoderFrame [] s t ∧ s.source.length ≤ t.source.length + n)) ∧
  (∀ s g i, groupSize s g ≤ i → exec (.rcBit g i) s = .fault .slotOutsideGroup)

/-- R135: `RC_DIRECT` of no bits is 0 and changes nothing; each further bit halves the range, compares unsigned, subtracts for a 1,
renormalises, and enters the result from the right. -/
def Obligations.RcDirectDecodes : Prop :=
  (∀ s : State, exec (.rcDirect 0) s = .next { s with result := some 0 }) ∧
  (∀ (s : State) (n : Nat), CoderOk s → n + 1 ≤ 32 →
    BeginsWith (exec (.rcDirect (n + 1)) s) (exec (.rcDirect n) s) fun t r =>
      r < 2 ^ n ∧
      (t.code.toNat < t.range.toNat / 2 →
        ∃ u, u = { t with range := u.range } ∧ u.range.toNat = t.range.toNat / 2 ∧
          EndsNormalized (2 * r) t u (exec (.rcDirect (n + 1)) s)) ∧
      (t.range.toNat / 2 ≤ t.code.toNat →
        ∃ u, u = { t with range := u.range, code := u.code } ∧ u.range.toNat = t.range.toNat / 2 ∧
          u.code.toNat = t.code.toNat - t.range.toNat / 2 ∧
          EndsNormalized (2 * r + 1) t u (exec (.rcDirect (n + 1)) s)))

/-! ### Bit trees and lengths -/

/-- R150, R151: `BT_DECODE` of `d + 1` bits is `BT_DECODE` of `d` bits and then `RC_BIT` on the node they lead to; the bit enters from
the right. Only slots of the group change. It completes when the bytes are there. Depth 0, which R151 does not have, is log 33, the model's
choice. -/
def Obligations.BtDecodeWalks : Prop :=
  ∀ (s : State) (g : ProbGroup) (base : Int) (d : Nat), CoderOk s → -1 ≤ base → base + 2 ^ (d + 1) ≤ groupSize s g →
    exec (.btDecode g base 0) s = .next { s with result := some 0 } ∧
    (BeginsWith (exec (.btDecode g base (d + 1)) s) (exec (.btDecode g base d) s) fun t v =>
      v < 2 ^ d ∧
      BeginsWith (exec (.btDecode g base (d + 1)) s) (exec (.rcBit g (base + 2 ^ d + v).toNat) t) fun u b =>
        b ≤ 1 ∧ exec (.btDecode g base (d + 1)) s = .next { u with result := some (2 * v + b) } ∧ CoderFrame [g] s u) ∧
    (supplies (d + 1) s.source = true →
      ∃ t v, exec (.btDecode g base (d + 1)) s = .next t ∧ t.result = some v ∧ v < 2 ^ (d + 1))

/-- R152: `BT_REVERSE` walks as `BT_DECODE` does and yields the bits the other way round. Depth 0, which R152 does not have, is log 33, the
model's choice. -/
def Obligations.BtReverseMirrors : Prop :=
  ∀ (s : State) (g : ProbGroup) (base : Int) (d : Nat), CoderOk s → -1 ≤ base → base + 2 ^ d ≤ groupSize s g →
    (BeginsWith (exec (.btReverse g base d) s) (exec (.btDecode g base d) s) fun t v =>
      v < 2 ^ d ∧ exec (.btReverse g base d) s = .next { t with result := some (reverseBits d v) } ∧ CoderFrame [g] s t) ∧
    (supplies d s.source = true → ∃ t v, exec (.btReverse g base d) s = .next t ∧ t.result = some v ∧ v < 2 ^ d)

/-- R161: `LEN_DECODE` by its choice bits: low, mid and high tree, and the 2 added once. -/
def Obligations.LenDecodeChooses : Prop :=
  ∀ (s : State) (x : LenInst) (ps : Nat), CoderOk s → ps < 2 ^ s.pb.toNat →
    (BeginsWith (exec (.lenDecode x ps) s) (exec (.rcBit x.choice 0) s) fun t c0 =>
      c0 ≤ 1 ∧
      (c0 = 0 → BeginsWith (exec (.lenDecode x ps) s) (exec (.btDecode x.low ((ps * 8 : Nat) : Int) 3) t) fun u r =>
        r < 8 ∧ exec (.lenDecode x ps) s = .next { u with result := some (r + 2) } ∧ CoderFrame (lenGroups x) s u) ∧
      (c0 = 1 → BeginsWith (exec (.lenDecode x ps) s) (exec (.rcBit x.choice 1) t) fun u c1 =>
        c1 ≤ 1 ∧
        (c1 = 0 → BeginsWith (exec (.lenDecode x ps) s) (exec (.btDecode x.mid ((ps * 8 : Nat) : Int) 3) u) fun w r =>
          r < 8 ∧ exec (.lenDecode x ps) s = .next { w with result := some (8 + r + 2) } ∧ CoderFrame (lenGroups x) s w) ∧
        (c1 = 1 → BeginsWith (exec (.lenDecode x ps) s) (exec (.btDecode x.high 0 8) u) fun w r =>
          r < 256 ∧ exec (.lenDecode x ps) s = .next { w with result := some (16 + r + 2) } ∧ CoderFrame (lenGroups x) s w))) ∧
    (supplies 10 s.source = true →
      ∃ t v, exec (.lenDecode x ps) s = .next t ∧ t.result = some v ∧ 2 ≤ v ∧ v ≤ 273)

/-- R100, R160, R161: each of the three length rows, executed with its bits given (log 3), yields the length the row names, takes its
bits on the slots of its own decoder, the low and mid tree being those of the position state, and adapts no other slots. -/
def Obligations.LengthRows : Prop :=
  ∀ (s : State) (i : Instr) (x : LenInst) (v : Nat), PropertiesOk s → lenRowInst i = some x → lenRowValue i = some v →
    2 ≤ v ∧ v ≤ 273 ∧
    (∃ bits, encode i = some (.len x, bits) ∧ TakesField i (lenSlots x (posStateOf s) v) bits v s) ∧
    (CoderOk s → supplies 10 s.source = true →
      ∃ t, exec i s = .next t ∧ t.result = some v ∧ CoderOk t ∧ CoderFrame (lenGroups x) s t)

/-! ### Literals -/

/-- R170: `LIT_SELECT` from the low `lp` bits of the position and the high `lc` bits of the previous byte. -/
def Obligations.LitSelects : Prop :=
  ∀ s : State, PropertiesOk s →
    (s.position.toNat % 2 ^ s.lp.toNat * 2 ^ s.lc.toNat + s.prevByte.toNat / 2 ^ (8 - s.lc.toNat) < 2 ^ (s.lc.toNat + s.lp.toNat)) ∧
    exec .litSelect s = .next { s with
      result := some ((s.position.toNat % 2 ^ s.lp.toNat * 2 ^ s.lc.toNat + s.prevByte.toNat / 2 ^ (8 - s.lc.toNat)) * 0x300) }

/-- R171: `LIT_NORMAL(base)` is `BT_DECODE(LIT, base, 8)`, and on a sub-decoder the properties give it completes, unless the source
runs out or fails. A base `LIT_SELECT` cannot give is log 32, the model's choice. -/
def Obligations.LitNormalIsATree : Prop :=
  ∀ (s : State) (base : Nat),
    exec (.litNormal base) s = exec (.btDecode .lit base 8) s ∧
    (CoderOk s → base + 0x300 ≤ groupSize s .lit →
      CompletesOrSourceFails s (exec (.litNormal base) s) ∧
      (supplies 8 s.source = true →
        ∃ t b, exec (.litNormal base) s = .next t ∧ t.result = some b ∧ b < 256 ∧ CoderFrame [.lit] s t))

/-- R172, R173: `LIT_MATCHED` decodes eight bits with `RC_BIT`; level `k` is decoded on the slot of the match bit as long as the bits before
agree with the match byte, and on the plain slot from then on, in the state the level before left; the byte is the eight bits, most
significant first. It fails only as the source does, and completes when the bytes are there. A base `LIT_SELECT` cannot give is log 32,
the model's choice. -/
def Obligations.LitMatchedSlots : Prop :=
  ∀ (s : State) (base : Nat) (mb : Byte), CoderOk s → base + 0x300 ≤ groupSize s .lit →
    DecodesBits (exec (.litMatched base mb) s) .lit (matchedSlot base mb.toNat)
      (fun b t => b < 256 ∧ exec (.litMatched base mb) s = .next { t with result := some b } ∧ CoderFrame [.lit] s t) 8 0 0 s ∧
    CompletesOrSourceFails s (exec (.litMatched base mb) s) ∧
    (supplies 8 s.source = true →
      ∃ t b, exec (.litMatched base mb) s = .next t ∧ t.result = some b ∧ b < 256 ∧ CoderFrame [.lit] s t)

/-! ### The output window -/

/-- R182 with R187: `WIN_PUT` stores at the cursor and nowhere else; at the end of the window it hands the unflushed bytes, the new one
last, to the sink and both cursors go to 0, unless the sink fails. That a failing sink has then received nothing is log 11, the model's
choice. -/
def Obligations.WinPutStores : Prop :=
  ∀ (s : State) (b : Byte), s.writeCursor.toNat < s.windowSize.toNat →
    (s.writeCursor.toNat + 1 < s.windowSize.toNat →
      ∃ t, exec (.winPut b) s = .next t ∧
        t = { s with mem := t.mem, writeCursor := t.writeCursor, result := none } ∧
        t.writeCursor.toNat = s.writeCursor.toNat + 1 ∧
        t.mem.prob = s.mem.prob ∧ t.mem.probFill = s.mem.probFill ∧ Cells.find t.mem.win s.writeCursor.toNat = some b ∧
        ∀ a, a ≠ s.writeCursor.toNat → Cells.find t.mem.win a = Cells.find s.mem.win a) ∧
    (s.writeCursor.toNat + 1 = s.windowSize.toNat → s.watermark.toNat ≤ s.writeCursor.toNat →
      (∀ a, s.watermark.toNat ≤ a → a < s.writeCursor.toNat → (Cells.find s.mem.win a).isSome = true) →
      (sinkAccepts s = true →
        ∃ t, exec (.winPut b) s = .next t ∧
          t = { s with mem := t.mem, writeCursor := 0#32, watermark := 0#32, sink := s.sink ++ unflushed s ++ [b],
                       sinkAnswers := s.sinkAnswers.drop 1, result := none } ∧
          t.mem.prob = s.mem.prob ∧ t.mem.probFill = s.mem.probFill ∧ Cells.find t.mem.win s.writeCursor.toNat = some b ∧
          ∀ a, a ≠ s.writeCursor.toNat → Cells.find t.mem.win a = Cells.find s.mem.win a) ∧
      (∀ rest, s.sinkAnswers = .failure :: rest →
        exec (.winPut b) s = .next (takeFailure .failed .ioError { s with sinkAnswers := rest })))

/-- R181, R183: `WIN_GET` reads `d + 1` places behind the cursor, across the wrap, and changes nothing. Outside the precondition the
spec defines no value and the model stops (U1). -/
def Obligations.WinGetReads : Prop :=
  ∀ (s : State) (d : Word) (b : Byte), s.writeCursor.toNat < s.windowSize.toNat →
    (d.toNat < s.windowSize.toNat → d.toNat < s.position.toNat →
      Cells.find s.mem.win (if d.toNat < s.writeCursor.toNat then s.writeCursor.toNat - d.toNat - 1
        else s.windowSize.toNat + s.writeCursor.toNat - d.toNat - 1) = some b →
      exec (.winGet d) s = .next { s with result := some b.toNat }) ∧
    (¬ (d.toNat < s.windowSize.toNat ∧ d.toNat < s.position.toNat) → exec (.winGet d) s = .fault .windowPrecondition)

/-- R184 with R75: `WIN_COPY` is byte-serial: each byte is `WIN_GET` at the distance, then `WIN_PUT`, flushes included, and the next
byte is read after that. Where `WIN_PUT`'s flush fails (R186) the copy fails so, and where either stops (an element that holds no value,
log 9; an index outside the window, log 21) it stops so. That a copy of 0 or of more than 273 bytes, which R184 does not have, goes the same
way is log 30, the model's choice. -/
def Obligations.WinCopyIsByteSerial : Prop :=
  ∀ (s : State) (d : Word), d.toNat < s.windowSize.toNat → d.toNat < s.position.toNat →
    exec (.winCopy d 0) s = .next { s with result := none } ∧
    (∀ (n : Nat) (b : Byte) (u : State), winGet d s = .ok b s → winPut b s = .ok () u →
      exec (.winCopy d (n + 1)) s = exec (.winCopy d n) u) ∧
    (∀ (n : Nat) (b : Byte) (k : FailureKind) (u : State), winGet d s = .ok b s → winPut b s = .raise k u →
      k = .ioError ∧ exec (.winCopy d (n + 1)) s = .next (takeFailure .failed .ioError u)) ∧
    (∀ (n : Nat) (b : Byte) (f : Fault), winGet d s = .ok b s → winPut b s = .fault f →
      exec (.winCopy d (n + 1)) s = .fault f) ∧
    (∀ (n : Nat) (f : Fault), winGet d s = .fault f → exec (.winCopy d (n + 1)) s = .fault f) ∧
    ((∃ b, winGet d s = .ok b s) ∨ ∃ f, winGet d s = .fault f)

/-- R185: a copy appends to the output the last `d + 1` bytes repeated, as many as asked for, whatever `len` is against `d + 1`, and
across the wrap and the flush; nothing else changes. That a copy of no bytes, which R184 does not have, appends nothing is log 30, the
model's choice. -/
def Obligations.CopiesArePeriodic : Prop :=
  ∀ (s : State) (d : Word) (len : Nat), StreamInv s → d.toNat < s.position.toNat → d.toNat < s.windowSize.toNat → len ≤ 273 →
    sinkAccepts s = true →
    ∃ t, exec (.winCopy d len) s = .next t ∧ CopiedFrom d.toNat len (emitted s) (emitted t) ∧ SymbolFrame [] len s t ∧
      t = { s with mem := t.mem, writeCursor := t.writeCursor, watermark := t.watermark, sink := t.sink,
                   sinkAnswers := t.sinkAnswers, result := none } ∧
      t.mem.prob = s.mem.prob

/-- R186: `WIN_FLUSH` hands the unflushed region to the sink in one `SinkWrite` and moves the watermark to the cursor, the cursor from
the window's end to 0; an empty region causes no `SinkWrite`; a failing sink is `IoError`, and has received nothing (log 11, the model's choice). `WIN` does not
change. -/
def Obligations.WinFlushDelivers : Prop :=
  ∀ s : State, s.watermark.toNat ≤ s.writeCursor.toNat → s.writeCursor.toNat ≤ s.windowSize.toNat →
    (∀ a, s.watermark.toNat ≤ a → a < s.writeCursor.toNat → (Cells.find s.mem.win a).isSome = true) →
    (s.watermark.toNat < s.writeCursor.toNat → sinkAccepts s = true →
      ∃ t, exec .winFlush s = .next t ∧
        t = { s with sink := s.sink ++ unflushed s, sinkAnswers := s.sinkAnswers.drop 1, writeCursor := t.writeCursor,
                     watermark := t.writeCursor, result := none } ∧
        t.writeCursor = (if s.writeCursor = s.windowSize then 0#32 else s.writeCursor)) ∧
    (s.watermark = s.writeCursor →
      ∃ t, exec .winFlush s = .next t ∧
        t = { s with writeCursor := t.writeCursor, watermark := t.writeCursor, result := none } ∧
        t.writeCursor = (if s.writeCursor = s.windowSize then 0#32 else s.writeCursor)) ∧
    (s.watermark.toNat < s.writeCursor.toNat → ∀ rest, s.sinkAnswers = .failure :: rest →
      exec .winFlush s = .next (takeFailure .failed .ioError { s with sinkAnswers := rest }))

/-- R62, R264: `SinkWrite` appends its bytes, in order, to what the sink has; a failing sink is `IoError` and the model counts none of
them (log 11). -/
def Obligations.SinkWriteAppends : Prop :=
  ∀ (s : State) (bytes : List Byte),
    (sinkAccepts s = true →
      exec (.sinkWrite bytes) s = .next { s with sink := s.sink ++ bytes, sinkAnswers := s.sinkAnswers.drop 1, result := none }) ∧
    (∀ rest, s.sinkAnswers = .failure :: rest →
      exec (.sinkWrite bytes) s = .next (takeFailure .failed .ioError { s with sinkAnswers := rest }))

/-! ### Distances -/

/-- R101, R102, R204 to R206: each of the 64 distance rows, executed with its bits given (log 3), yields the distance its row of the table
names, takes its bits on the slots of the position-slot tree of its class, of the position models and of the alignment tree that the
rules name, and adapts no other slots. -/
def Obligations.DistanceRows : Prop :=
  ∀ (s : State) (i : Instr) (v : Nat), distRowValue i = some v →
    v < 2 ^ 32 ∧
    (∃ (c : LenClass) (bits : List Bool), encode i = some (.dist c, bits) ∧ TakesField i (distSlots c.val v) bits v s) ∧
    (CoderOk s → supplies 36 s.source = true →
      ∃ t, exec i s = .next t ∧ t.result = some v ∧ CoderOk t ∧ CoderFrame [.posSlot, .posDec, .align] s t)

/-- R204, R206: `DIST_DECODE(len)` decodes a position slot with `BT_DECODE` on the tree of its length class, and then, from 4 on, the extra
bits: with `BT_REVERSE` on `POS_DEC` below 14, with `RC_DIRECT` and then `BT_REVERSE` on `ALIGN` from 14 on. So it does what one of the
distance rows does, in that class; it fails only as the source does, and completes when the bytes are there. A length outside 2 to 273 is
log 30, the model's choice; that the row has its bits given is log 3. -/
def Obligations.DistDecodeIsARow : Prop :=
  ∀ (s : State) (len : Nat), CoderOk s →
    (BeginsWith (exec (.distDecode len) s) (exec (.btDecode .posSlot (min (len - 2) 3 * 64 : Nat) 6) s) fun t p =>
      p < 64 ∧
      (p < 4 → exec (.distDecode len) s = .next { t with result := some p }) ∧
      (4 ≤ p → p < 14 →
        BeginsWith (exec (.distDecode len) s) (exec (.btReverse .posDec ((slotBase p : Int) - p - 1) (p / 2 - 1)) t) fun u r =>
          exec (.distDecode len) s = .next { u with result := some (slotBase p + r) }) ∧
      (14 ≤ p →
        BeginsWith (exec (.distDecode len) s) (exec (.rcDirect (p / 2 - 5)) t) fun u hi =>
          BeginsWith (exec (.distDecode len) s) (exec (.btReverse .align 0 4) u) fun w lo =>
            exec (.distDecode len) s = .next { w with result := some (slotBase p + hi * 16 + lo) })) ∧
    CompletesOrSourceFails s (exec (.distDecode len) s) ∧
    (supplies 36 s.source = true →
      ∃ t v, exec (.distDecode len) s = .next t ∧ t.result = some v ∧ v < 2 ^ 32 ∧ CoderOk t ∧
        CoderFrame [.posSlot, .posDec, .align] s t ∧
        ∃ (i : Instr) (c : LenClass) (bits : List Bool), i.wf = true ∧ distRowValue i = some v ∧
          c.val = min (len - 2) 3 ∧ encode i = some (.dist c, bits) ∧
          TakesField i (distSlots (min (len - 2) 3) v) bits v s ∧ exec i s = .next t)

/-- R97 to R104, R109, R200: the decisions of a symbol, and of a length or distance row as it is executed, are the bits of its row in the
opcode table, in order, and those of a symbol stand on the slots the rules name; a symbol row takes exactly these and then has its
effect. That a row is executed with its bits given is log 3. -/
def Obligations.RowsTakeTheirBits : Prop :=
  (∀ (s : State) (mb : Option Byte) (y : Symbol), y.toInstr.wf = true →
    (symbolPath s mb y).map Prod.snd = y.bits ∧ (PropertiesOk s → (symbolPath s mb y).map Prod.fst = symbolSlots s mb y)) ∧
  (∀ (s : State) (mb : Option Byte) (y : Symbol), PropertiesOk s → y.toInstr.wf = true → (∀ b, y = .lit b → IsMatchByte s mb) →
    (symbolSlots s mb y).length = y.bits.length ∧
    exec y.toInstr s = ((takeBits ((symbolSlots s mb y).zip y.bits) s).bind fun _ t => symbolEffect y t).finish
      fun eos => some eos.toNat) ∧
  (∀ (s : State) (i : Instr) (v : Nat) (ctx : Context) (bits : List Bool), i.wf = true → encode i = some (ctx, bits) →
    lenRowValue i = some v ∨ distRowValue i = some v →
    ∃ path : List Decision, path.map Prod.snd = bits ∧ exec i s = (takeBits path s).finish fun _ => some v)

/-! ### Symbols -/

/-- R208: the range check passes exactly when the distance is below `position` and below `dictionarySizeCheck`, unsigned and
zero-extended; otherwise `CorruptStream`. Every copying symbol makes it, before anything is appended (R106, R263). -/
def Obligations.RangeCheck : Prop :=
  (∀ (s : State) (d : Word),
    (d.toNat < s.position.toNat ∧ d.toNat < s.dictionarySizeCheck.toNat → exec (.rangeCheck d) s = .next { s with result := none }) ∧
    (s.position.toNat ≤ d.toNat ∨ s.dictionarySizeCheck.toNat ≤ d.toNat →
      exec (.rangeCheck d) s = .next (takeFailure .failed .corruptStream s))) ∧
  (∀ (s : State) (y : Symbol) (d : Word), Ready s → y.toInstr.wf = true → copyDistance s y = some d →
    s.position.toNat ≤ d.toNat ∨ s.dictionarySizeCheck.toNat ≤ d.toNat →
    ∃ t, exec y.toInstr s = .next t ∧ FailedFrom .corruptStream s t ∧ t.sink = s.sink)

/-- R209: `COPY` checks `rep0`, copies, advances `position` by the length and sets `prevByte` to the last byte copied; an automatic
flush inside the copy can fail, and the sink has then received nothing (log 11, the model's choice). -/
def Obligations.CopyTail : Prop :=
  ∀ (s : State) (len : Nat), StreamInv s → 1 ≤ len → len ≤ 273 → s.position.toNat + 273 < 2 ^ 64 →
    (s.rep0.toNat < s.position.toNat → s.rep0.toNat < s.dictionarySizeCheck.toNat →
      sinkAccepts s = true ∨ s.writeCursor.toNat + len < s.windowSize.toNat →
      ∃ t, exec (.copy len) s = .next t ∧ CopiedFrom s.rep0.toNat len (emitted s) (emitted t) ∧
        t.position.toNat = s.position.toNat + len ∧ (emitted t).getLast? = some t.prevByte ∧ SymbolFrame [] len s t ∧
        t = { s with mem := t.mem, writeCursor := t.writeCursor, watermark := t.watermark, sink := t.sink,
                     sinkAnswers := t.sinkAnswers, position := t.position, prevByte := t.prevByte, result := none } ∧
        t.mem.prob = s.mem.prob) ∧
    (s.rep0.toNat < s.position.toNat → s.rep0.toNat < s.dictionarySizeCheck.toNat →
      s.windowSize.toNat ≤ s.writeCursor.toNat + len → ∀ rest, s.sinkAnswers = .failure :: rest →
      exec (.copy len) s = .next (takeFailure .failed .ioError { s with sinkAnswers := rest })) ∧
    (s.position.toNat ≤ s.rep0.toNat ∨ s.dictionarySizeCheck.toNat ≤ s.rep0.toNat →
      exec (.copy len) s = .next (takeFailure .failed .corruptStream s))

/-- R202, R221: `LIT` appends its byte, which becomes `prevByte`, and the history is not changed. -/
def Obligations.LiteralEmits : Prop :=
  ∀ (s : State) (b : Byte), Ready s →
    ∃ t, exec (.lit b) s = .next t ∧ emitted t = emitted s ++ [b] ∧ t.prevByte = b ∧
      t.position.toNat = s.position.toNat + 1 ∧
      t.state.toNat = (if s.state.toNat < 4 then 0 else if s.state.toNat < 10 then s.state.toNat - 3 else s.state.toNat - 6) ∧
      t.rep0 = s.rep0 ∧ t.rep1 = s.rep1 ∧ t.rep2 = s.rep2 ∧ t.rep3 = s.rep3 ∧ t.result = some 0 ∧
      SymbolFrame litGroups 1 s t ∧ StreamInv t

/-- R203, R222: `MATCH` pushes its distance onto the history and copies from it. -/
def Obligations.MatchCopies : Prop :=
  ∀ (s : State) (len : Nat) (dist : Word), Ready s → 2 ≤ len → len ≤ 273 →
    dist.toNat < s.position.toNat → dist.toNat < s.dictionarySizeCheck.toNat →
    ∃ t, exec (.matchNew len dist) s = .next t ∧
      CopySymbol matchGroups len dist (if s.state.toNat < 7 then 7#4 else 10#4) dist s.rep0 s.rep1 s.rep2 s t

/-- R207: the end marker pushes `0xFFFFFFFF` onto the history and answers `eos`; no range check, no copy, and no change of `state`,
`position`, `prevByte`, the window or the sink. -/
def Obligations.EndMarkerStops : Prop :=
  ∀ (s : State) (len : Nat), Ready s → 2 ≤ len → len ≤ 273 →
    ∃ t, exec (.eos len) s = .next t ∧ t.result = some 1 ∧
      t.rep0 = 0xFFFFFFFF#32 ∧ t.rep1 = s.rep0 ∧ t.rep2 = s.rep1 ∧ t.rep3 = s.rep2 ∧
      t.state = s.state ∧ t.position = s.position ∧ t.prevByte = s.prevByte ∧ emitted t = emitted s ∧ SymbolFrame matchGroups 0 s t

/-- R211 to R215, R223, R224: which distance each rep symbol copies from, and how it leaves the history: rotated, not swapped. -/
def Obligations.RepSymbolsCopy : Prop :=
  ∀ (s : State) (len : Nat), Ready s → 2 ≤ len → len ≤ 273 →
    (s.rep0.toNat < s.position.toNat → s.rep0.toNat < s.dictionarySizeCheck.toNat →
      ∃ t, exec .shortrep s = .next t ∧
        CopySymbol shortrepGroups 1 s.rep0 (if s.state.toNat < 7 then 9#4 else 11#4) s.rep0 s.rep1 s.rep2 s.rep3 s t) ∧
    (s.rep0.toNat < s.position.toNat → s.rep0.toNat < s.dictionarySizeCheck.toNat →
      ∃ t, exec (.longrep0 len) s = .next t ∧
        CopySymbol longrepGroups len s.rep0 (if s.state.toNat < 7 then 8#4 else 11#4) s.rep0 s.rep1 s.rep2 s.rep3 s t) ∧
    (s.rep1.toNat < s.position.toNat → s.rep1.toNat < s.dictionarySizeCheck.toNat →
      ∃ t, exec (.longrep1 len) s = .next t ∧
        CopySymbol longrepGroups len s.rep1 (if s.state.toNat < 7 then 8#4 else 11#4) s.rep1 s.rep0 s.rep2 s.rep3 s t) ∧
    (s.rep2.toNat < s.position.toNat → s.rep2.toNat < s.dictionarySizeCheck.toNat →
      ∃ t, exec (.longrep2 len) s = .next t ∧
        CopySymbol longrepGroups len s.rep2 (if s.state.toNat < 7 then 8#4 else 11#4) s.rep2 s.rep0 s.rep1 s.rep3 s t) ∧
    (s.rep3.toNat < s.position.toNat → s.rep3.toNat < s.dictionarySizeCheck.toNat →
      ∃ t, exec (.longrep3 len) s = .next t ∧
        CopySymbol longrepGroups len s.rep3 (if s.state.toNat < 7 then 8#4 else 11#4) s.rep3 s.rep0 s.rep1 s.rep2 s t)

/-- R202 to R216 with R260 to R264: on a sound stream each symbol completes, or the source runs out or fails, or the sink fails, or the
distance it copies from is illegal; there is no other way for it to end, and a failing symbol has delivered nothing. Where it is the sink
that fails, that it has received nothing of the failing `SinkWrite` is log 11, the model's choice. -/
def Obligations.SymbolsCompleteOrFail : Prop :=
  ∀ (s : State) (y : Symbol), StreamInv s → y.toInstr.wf = true → s.position.toNat + 273 < 2 ^ 64 →
    ∃ t, exec y.toInstr s = .next t ∧
      ((t.phase = .decoding ∧ t.result = some (endsLoop y).toNat) ∨
        (FailedFrom .streamTruncated s t ∧ t.source = [] ∧ t.sink = s.sink) ∨
        (FailedFrom .ioError s t ∧ t.sink = s.sink) ∨
        (FailedFrom .corruptStream s t ∧ t.sink = s.sink ∧
          ∃ d, copyDistance s y = some d ∧ (s.position.toNat ≤ d.toNat ∨ s.dictionarySizeCheck.toNat ≤ d.toNat)))

/-- R221 to R224: the four transition functions as the spec's tables print them; as operations they yield a value and change nothing. -/
def Obligations.AutomatonTables : Prop :=
  ∀ (s : State) (st : BitVec 4), st.toNat < 12 →
    exec (.afterLiteral st) s = .next { s with result := [0, 0, 0, 0, 1, 2, 3, 4, 5, 6, 4, 5][st.toNat]? } ∧
    exec (.afterMatch st) s = .next { s with result := [7, 7, 7, 7, 7, 7, 7, 10, 10, 10, 10, 10][st.toNat]? } ∧
    exec (.afterRep st) s = .next { s with result := [8, 8, 8, 8, 8, 8, 8, 11, 11, 11, 11, 11][st.toNat]? } ∧
    exec (.afterShortRep st) s = .next { s with result := [9, 9, 9, 9, 9, 9, 9, 11, 11, 11, 11, 11][st.toNat]? }

/-! ### The encoding -/

/-- Some words of the opcode table and of R97 to R104, written out bit by bit, with the instructions they stand for. -/
def Obligations.WordsDecode : Prop :=
  decode .sym [false, false, true, false, false, false, false, false, true] = .ok (.lit 0x41#8, []) ∧
  decode .sym [true, true, false, false] = .ok (.shortrep, []) ∧
  decode .sym [true, true, true, false, false, false, false, true] = .ok (.longrep1 3, []) ∧
  decode (.len .rlen) [true, false, true, true, true] = .ok (.lenMid .rlen 7#3, []) ∧
  decode (.dist 2) [false, false, true, false, false, true, true, false, true] = .ok (.distSlot9 2 5#3, []) ∧
  decode (.dist 0) [false, false, true, true, true, false, true, false, true, true, false, false] =
    .ok (.distSlot14 0 2#2 3#4, []) ∧
  decode .sym [true, true, true] = .error .bitsRanOut

/-- R97 to R104, R110: what the encoder writes for a well-formed instruction, with every operand at every value, the decoder reads back,
whatever follows. -/
def Obligations.DecodeEncode : Prop :=
  ∀ (i : Instr) (ctx : Context) (bits rest : List Bool), i.wf = true → encode i = some (ctx, bits) →
    decode ctx (bits ++ rest) = .ok (i, rest)

/-- R102, R163: and what the decoder reads is the encoding of a well-formed instruction: every bit string has one meaning. -/
def Obligations.EncodeDecode : Prop :=
  ∀ (ctx : Context) (bits rest : List Bool) (i : Instr), decode ctx bits = .ok (i, rest) →
    i.wf = true ∧ ∃ word, encode i = some (ctx, word) ∧ bits = word ++ rest

/-- R97, R106: there is no illegal decision string: every string of at least as many bits as the longest symbol has begins with a symbol;
ten bits begin with a length field, 36 with a distance field. -/
def Obligations.EveryDecisionStringIsLegal : Prop :=
  (∀ bits : List Bool, 48 ≤ bits.length → ∃ i rest, decode .sym bits = .ok (i, rest)) ∧
  (∀ (x : LenInst) (bits : List Bool), 10 ≤ bits.length → ∃ i rest, decode (.len x) bits = .ok (i, rest)) ∧
  (∀ (c : LenClass) (bits : List Bool), 36 ≤ bits.length → ∃ i rest, decode (.dist c) bits = .ok (i, rest))

/-! ### The status codes -/

/-- R260: the codes of the status register, all different, and which operation leaves which: `RESET` leaves 0, `SET_PROPERTIES` of too few
bytes 1, an exhausted source 2, a distance out of range 3, a failing source or sink 4. -/
def Obligations.StatusCodes : Prop :=
  (Status.ok.code = 0 ∧ (Status.failure .formatError).code = 1 ∧ (Status.failure .streamTruncated).code = 2 ∧
    (Status.failure .corruptStream).code = 3 ∧ (Status.failure .ioError).code = 4 ∧
    ∀ a b : Status, a.code = b.code → a = b) ∧
  ∀ s : State,
    (s.phase ≠ .decoding → ∃ t, exec .cmdReset s = .next t ∧ t.status.code = 0) ∧
    (s.phase ≠ .decoding → ∀ bytes : List Byte, bytes.length < 5 →
      ∃ t, exec (.cmdSetProperties bytes) s = .next t ∧ t.status.code = 1) ∧
    (s.source = [] → ∃ t, exec .inByte s = .next t ∧ t.status.code = 2) ∧
    (∀ d : Word, s.position.toNat ≤ d.toNat → ∃ t, exec (.rangeCheck d) s = .next t ∧ t.status.code = 3) ∧
    (s.source.head? = some .failure → ∃ t, exec .inByte s = .next t ∧ t.status.code = 4) ∧
    (s.sinkAnswers.head? = some .failure → ∀ bytes, ∃ t, exec (.sinkWrite bytes) s = .next t ∧ t.status.code = 4)
end

