-- ==== Sys2Proof/Laws/Bits.lean ====
section
/-! SUPPORT. The laws of the bit fields: a field that is written is read back, and what is read is a field. -/

set_option Elab.async false

namespace Sys2Proof

@[simp] theorem bitsMsb_length (n v : Nat) : (bitsMsb n v).length = n := by
  induction n with
  | zero => rfl
  | succ n ih => simp [bitsMsb, ih]

@[simp] theorem bitsLsb_length (n v : Nat) : (bitsLsb n v).length = n := by
  induction n generalizing v with
  | zero => rfl
  | succ n ih => simp [bitsLsb, ih]

theorem testBit_toNat (v n : Nat) : (v.testBit n).toNat = v / 2 ^ n % 2 := by
  rw [Nat.testBit_eq_decide_div_mod_eq]
  have := Nat.mod_two_eq_zero_or_one (v / 2 ^ n)
  rcases this with h | h <;> simp [h]

theorem mod_pow_succ (v n : Nat) : v % 2 ^ (n + 1) = v / 2 ^ n % 2 * 2 ^ n + v % 2 ^ n := by
  rw [pow_succ, Nat.mod_mul]; ring

theorem bitsMsb_mod (n v : Nat) : bitsMsb n (v % 2 ^ n) = bitsMsb n v := by
  suffices h : ∀ m, n ≤ m → bitsMsb n (v % 2 ^ m) = bitsMsb n v from h n le_rfl
  induction n with
  | zero => intros; rfl
  | succ n ih =>
    intro m hm
    simp only [bitsMsb]
    rw [ih m (by omega), Nat.testBit_mod_two_pow]
    simp [show n < m by omega]

/-- A field by its first bit and the rest. -/
theorem bitsMsb_cons {n w : Nat} (b : Bool) (hw : w < 2 ^ n) : bitsMsb (n + 1) (b.toNat * 2 ^ n + w) = b :: bitsMsb n w := by
  simp only [bitsMsb]
  congr 1
  · rw [Nat.testBit_eq_decide_div_mod_eq]
    have : (b.toNat * 2 ^ n + w) / 2 ^ n = b.toNat := by
      rw [Nat.mul_comm, Nat.mul_add_div (by positivity), Nat.div_eq_of_lt hw, Nat.add_zero]
    rw [this]
    cases b <;> simp
  · rw [← bitsMsb_mod n (b.toNat * 2 ^ n + w), Nat.mul_comm, Nat.mul_add_mod, bitsMsb_mod]

theorem bitsLsb_cons {n w : Nat} (b : Bool) : bitsLsb (n + 1) (b.toNat + 2 * w) = b :: bitsLsb n w := by
  have hb : b.toNat ≤ 1 := by cases b <;> simp
  simp only [bitsLsb]
  rw [show (b.toNat + 2 * w) / 2 = w by omega]
  congr 1
  cases b <;> simp

/-- A field that is written is read back. -/
theorem readMsb_bitsMsb (n v : Nat) (rest : List Bool) : readMsb n (bitsMsb n v ++ rest) = .ok (v % 2 ^ n, rest) := by
  induction n with
  | zero => simp [readMsb, bitsMsb, Nat.mod_one]
  | succ n ih =>
    simp only [bitsMsb, List.cons_append, readMsb]
    rw [ih, testBit_toNat, mod_pow_succ]

theorem readLsb_bitsLsb (n v : Nat) (rest : List Bool) : readLsb n (bitsLsb n v ++ rest) = .ok (v % 2 ^ n, rest) := by
  induction n generalizing v with
  | zero => simp [readLsb, bitsLsb, Nat.mod_one]
  | succ n ih =>
    simp only [bitsLsb, List.cons_append, readLsb]
    rw [ih]
    have h : (v % 2 == 1).toNat = v % 2 := by
      rcases Nat.mod_two_eq_zero_or_one v with h | h <;> simp [h]
    rw [h, pow_succ, Nat.mul_comm (2 ^ n) 2, Nat.mod_mul]

/-- What is read is a field (most significant bit first). -/
theorem readMsb_ok {n : Nat} {bs rest : List Bool} {v : Nat} (h : readMsb n bs = .ok (v, rest)) :
    v < 2 ^ n ∧ bs = bitsMsb n v ++ rest := by
  induction n generalizing bs v rest with
  | zero =>
    simp only [readMsb, Except.ok.injEq, Prod.mk.injEq] at h
    obtain ⟨rfl, rfl⟩ := h
    simp [bitsMsb]
  | succ n ih =>
    match bs with
    | [] => simp [readMsb] at h
    | b :: bs =>
      simp only [readMsb] at h
      split at h
      · next w r hw =>
        obtain ⟨hlt, rfl⟩ := ih hw
        simp only [Except.ok.injEq, Prod.mk.injEq] at h
        obtain ⟨rfl, rfl⟩ := h
        have hb : b.toNat ≤ 1 := by cases b <;> simp
        refine ⟨?_, ?_⟩
        · rw [pow_succ]
          have : b.toNat * 2 ^ n ≤ 1 * 2 ^ n := Nat.mul_le_mul_right _ hb
          omega
        · rw [bitsMsb_cons b hlt]; rfl
      · simp at h

/-- What is read is a field (least significant bit first). -/
theorem readLsb_ok {n : Nat} {bs rest : List Bool} {v : Nat} (h : readLsb n bs = .ok (v, rest)) :
    v < 2 ^ n ∧ bs = bitsLsb n v ++ rest := by
  induction n generalizing bs v rest with
  | zero =>
    simp only [readLsb, Except.ok.injEq, Prod.mk.injEq] at h
    obtain ⟨rfl, rfl⟩ := h
    simp [bitsLsb]
  | succ n ih =>
    match bs with
    | [] => simp [readLsb] at h
    | b :: bs =>
      simp only [readLsb] at h
      split at h
      · next w r hw =>
        obtain ⟨hlt, rfl⟩ := ih hw
        simp only [Except.ok.injEq, Prod.mk.injEq] at h
        obtain ⟨rfl, rfl⟩ := h
        have hb : b.toNat ≤ 1 := by cases b <;> simp
        refine ⟨by rw [pow_succ]; omega, ?_⟩
        rw [bitsLsb_cons]; rfl
      · simp at h

/-- A field is read whenever the string is long enough. -/
theorem readMsb_total {n : Nat} {bs : List Bool} (h : n ≤ bs.length) :
    ∃ v rest, readMsb n bs = .ok (v, rest) ∧ rest.length + n = bs.length := by
  induction n generalizing bs with
  | zero => exact ⟨0, bs, rfl, rfl⟩
  | succ n ih =>
    match bs with
    | [] => simp at h
    | b :: bs =>
      obtain ⟨v, rest, hv, hl⟩ := ih (bs := bs) (by simpa using h)
      exact ⟨b.toNat * 2 ^ n + v, rest, by simp [readMsb, hv], by simp; omega⟩

theorem readLsb_total {n : Nat} {bs : List Bool} (h : n ≤ bs.length) :
    ∃ v rest, readLsb n bs = .ok (v, rest) ∧ rest.length + n = bs.length := by
  induction n generalizing bs with
  | zero => exact ⟨0, bs, rfl, rfl⟩
  | succ n ih =>
    match bs with
    | [] => simp at h
    | b :: bs =>
      obtain ⟨v, rest, hv, hl⟩ := ih (bs := bs) (by simpa using h)
      exact ⟨b.toNat + 2 * v, rest, by simp [readLsb, hv], by simp; omega⟩

/-! ### Position slots (`30_encoding.md` R102) -/

/-- The extra bits of a position slot that are written are read back. -/
theorem readExtra_extraBits {slot e : Nat} (he : e < 2 ^ extraWidth slot) (rest : List Bool) :
    readExtra slot (extraBits slot e ++ rest) = .ok (e, rest) := by
  unfold readExtra extraBits
  unfold extraWidth at he
  split
  · next h => rw [if_pos h] at he; simp only [pow_zero] at he; simp; omega
  · next h =>
    rw [if_neg h] at he
    split
    · rw [readLsb_bitsLsb, Nat.mod_eq_of_lt he]
    · next h' =>
      have hd : 6 ≤ directBits slot := by
        unfold directBits; rw [Nat.shiftRight_eq_div_pow]; simp only [endPosModelIndex] at h'; omega
      have hsplit : 2 ^ directBits slot = 2 ^ (directBits slot - 4) * 16 := by
        rw [show (16 : Nat) = 2 ^ 4 by norm_num, ← pow_add]; congr 1; omega
      rw [List.append_assoc, readMsb_bitsMsb]
      simp only [readLsb_bitsLsb]
      rw [Nat.mod_eq_of_lt (a := e / 16) (by show e / 16 < 2 ^ (directBits slot - 4); omega)]
      rw [show e % 16 % 2 ^ alignBits = e % 16 from by show e % 16 % 16 = _; omega]
      have hdm : e / 16 * 16 + e % 16 = e := by omega
      rw [hdm]

/-- A distance field that is written is read back. -/
theorem readDist_distBits {slot e : Nat} (hs : slot < 64) (he : e < 2 ^ extraWidth slot) (rest : List Bool) :
    readDist (distBits slot e ++ rest) = .ok (slot, e, rest) := by
  unfold readDist distBits
  rw [List.append_assoc, readMsb_bitsMsb, config_posSlotBits, Nat.mod_eq_of_lt (b := 2 ^ 6) (by omega)]
  simp only [readExtra_extraBits he]

theorem directBits_eq (slot : Nat) : directBits slot = slot / 2 - 1 := by
  unfold directBits; rw [Nat.shiftRight_eq_div_pow]

/-- `base` of R102 as a product. -/
theorem distBase_eq {slot : Nat} (h : 4 ≤ slot) : distBase slot = (2 + slot % 2) * 2 ^ (slot / 2 - 1) := by
  unfold distBase
  rw [if_neg (by omega), directBits_eq, Nat.shiftLeft_eq, Nat.and_one_is_mod]
  rcases Nat.mod_two_eq_zero_or_one slot with h | h <;> rw [h] <;> rfl

theorem distBase_of_lt {slot : Nat} (h : slot < 4) : distBase slot = slot := by unfold distBase; rw [if_pos h]

/-- The ranges of R102 do not overlap: the position slot of a distance in the range of a slot is that slot. -/
theorem posSlotOf_distBase {slot e : Nat} (he : e < 2 ^ extraWidth slot) : posSlotOf (distBase slot + e) = slot := by
  by_cases h : slot < 4
  · rw [extraWidth, if_pos h] at he
    rw [distBase_of_lt h, posSlotOf]
    have : e = 0 := by omega
    subst this
    rw [if_pos (by omega)]; rfl
  · rw [extraWidth, if_neg h, directBits_eq] at he
    rw [distBase_eq (by omega)]
    obtain ⟨w, hw⟩ : ∃ w, slot / 2 - 1 = w := ⟨_, rfl⟩
    have hk : slot / 2 = w + 1 := by omega
    rw [hw] at he ⊢
    have hpos : 1 ≤ 2 ^ w := Nat.one_le_two_pow
    have hb : slot % 2 < 2 := Nat.mod_lt _ (by norm_num)
    generalize hn : (2 + slot % 2) * 2 ^ w + e = n
    have hw1 : 1 ≤ w := by omega
    have hw2 : 2 ≤ 2 ^ w := by
      calc 2 = 2 ^ 1 := rfl
        _ ≤ 2 ^ w := Nat.pow_le_pow_right (by norm_num) hw1
    have hlo : 2 * 2 ^ w ≤ n := by
      have := Nat.mul_le_mul_right (2 ^ w) (show 2 ≤ 2 + slot % 2 by omega); omega
    have hhi : n < 4 * 2 ^ w := by
      have := Nat.mul_le_mul_right (2 ^ w) (show 2 + slot % 2 ≤ 3 by omega); omega
    have hlog : n.log2 = w + 1 := by
      rw [Nat.log2_eq_iff (by omega)]
      constructor
      · rw [pow_succ]; omega
      · rw [pow_succ, pow_succ]; omega
    unfold posSlotOf
    rw [if_neg (by omega), hlog, Nat.add_sub_cancel, Nat.shiftRight_eq_div_pow, ← hn, Nat.mul_comm (2 + slot % 2),
      Nat.mul_add_div (by omega), Nat.div_eq_of_lt he, Nat.add_zero]
    omega

/-- The ranges of R102 tile the 32-bit distances: every one is in the range of its position slot. -/
theorem posSlotOf_range {dist : Nat} (h : dist < 2 ^ 32) :
    posSlotOf dist < 64 ∧ distBase (posSlotOf dist) ≤ dist ∧ dist - distBase (posSlotOf dist) < 2 ^ extraWidth (posSlotOf dist) := by
  by_cases h4 : dist < 4
  · have hp : posSlotOf dist = dist := by unfold posSlotOf; rw [if_pos h4]
    rw [hp, distBase_of_lt h4]
    exact ⟨by omega, le_rfl, by simp⟩
  · have hne : dist ≠ 0 := by omega
    obtain ⟨hlo, hhi⟩ := (Nat.log2_eq_iff hne).1 rfl
    generalize hk : dist.log2 = k at hlo hhi
    have hk2 : 2 ≤ k := by
      by_contra hc
      have h1 : 2 ^ (k + 1) ≤ 2 ^ 2 := Nat.pow_le_pow_right (by norm_num) (by omega)
      omega
    have hk31 : k ≤ 31 := by
      by_contra hc
      have h1 : 2 ^ 32 ≤ 2 ^ k := Nat.pow_le_pow_right (by norm_num) (by omega)
      omega
    obtain ⟨w, rfl⟩ : ∃ w, k = w + 1 := ⟨k - 1, by omega⟩
    rw [pow_succ] at hlo
    rw [pow_succ, pow_succ] at hhi
    have hq : dist / 2 ^ w = 2 ∨ dist / 2 ^ w = 3 := by
      have h1 : 2 ≤ dist / 2 ^ w := (Nat.le_div_iff_mul_le (by positivity)).2 (by omega)
      have h2 : dist / 2 ^ w < 4 := (Nat.div_lt_iff_lt_mul (by positivity)).2 (by omega)
      omega
    have hp : posSlotOf dist = 2 * (w + 1) + dist / 2 ^ w % 2 := by
      unfold posSlotOf
      rw [if_neg h4, hk, Nat.add_sub_cancel, Nat.shiftRight_eq_div_pow]
    have hs : posSlotOf dist / 2 - 1 = w := by omega
    have hm : 2 + posSlotOf dist % 2 = dist / 2 ^ w := by omega
    have hs4 : 4 ≤ posSlotOf dist := by omega
    refine ⟨by omega, ?_, ?_⟩
    · rw [distBase_eq hs4, hs, hm]; exact Nat.div_mul_le_self _ _
    · rw [distBase_eq hs4, hs, hm, extraWidth, if_neg (by omega), directBits_eq, hs]
      have := Nat.mod_lt dist (show 0 < 2 ^ w by positivity)
      have h2 := Nat.div_add_mod dist (2 ^ w)
      rw [Nat.mul_comm] at h2
      omega

end Sys2Proof
end

