-- ==== Sys2Proof/Laws/State.lean ====
section
/-! SUPPORT. One lemma per field for each named update of the state. -/

set_option Elab.async false

namespace Sys2Proof.Machine

/-! ### `State.unspecify` -/

@[simp] theorem unspecify_range (s : State) : (s.unspecify).range = Free.range s.freeCount := rfl
@[simp] theorem unspecify_code (s : State) : (s.unspecify).code = Free.code s.freeCount := rfl
@[simp] theorem unspecify_state (s : State) : (s.unspecify).state = Free.state s.freeCount := rfl
@[simp] theorem unspecify_rep0 (s : State) : (s.unspecify).rep0 = Free.rep0 s.freeCount := rfl
@[simp] theorem unspecify_rep1 (s : State) : (s.unspecify).rep1 = Free.rep1 s.freeCount := rfl
@[simp] theorem unspecify_rep2 (s : State) : (s.unspecify).rep2 = Free.rep2 s.freeCount := rfl
@[simp] theorem unspecify_rep3 (s : State) : (s.unspecify).rep3 = Free.rep3 s.freeCount := rfl
@[simp] theorem unspecify_position (s : State) : (s.unspecify).position = Free.position s.freeCount := rfl
@[simp] theorem unspecify_prevByte (s : State) : (s.unspecify).prevByte = Free.prevByte s.freeCount := rfl
@[simp] theorem unspecify_lc (s : State) : (s.unspecify).lc = Free.lc s.freeCount := rfl
@[simp] theorem unspecify_lp (s : State) : (s.unspecify).lp = Free.lp s.freeCount := rfl
@[simp] theorem unspecify_pb (s : State) : (s.unspecify).pb = Free.pb s.freeCount := rfl
@[simp] theorem unspecify_dictionarySize (s : State) : (s.unspecify).dictionarySize = Free.dictionarySize s.freeCount := rfl
@[simp] theorem unspecify_posStateMask (s : State) : (s.unspecify).posStateMask = Free.posStateMask s.freeCount := rfl
@[simp] theorem unspecify_literalPosMask (s : State) : (s.unspecify).literalPosMask = Free.literalPosMask s.freeCount := rfl
@[simp] theorem unspecify_dictionarySizeCheck (s : State) : (s.unspecify).dictionarySizeCheck = Free.dictionarySizeCheck s.freeCount := rfl
@[simp] theorem unspecify_windowSize (s : State) : (s.unspecify).windowSize = Free.windowSize s.freeCount := rfl
@[simp] theorem unspecify_ipos (s : State) : (s.unspecify).ipos = Free.ipos s.freeCount := rfl
@[simp] theorem unspecify_expectedLength (s : State) : (s.unspecify).expectedLength = Free.expectedLength s.freeCount := rfl
@[simp] theorem unspecify_phase (s : State) : (s.unspecify).phase = s.phase := rfl
@[simp] theorem unspecify_status (s : State) : (s.unspecify).status = s.status := rfl
@[simp] theorem unspecify_mem (s : State) : (s.unspecify).mem = Memory.unspecified s.freeCount := rfl
@[simp] theorem unspecify_writeCursor (s : State) : (s.unspecify).writeCursor = Free.writeCursor s.freeCount := rfl
@[simp] theorem unspecify_watermark (s : State) : (s.unspecify).watermark = Free.watermark s.freeCount := rfl
@[simp] theorem unspecify_source (s : State) : (s.unspecify).source = s.source := rfl
@[simp] theorem unspecify_sink (s : State) : (s.unspecify).sink = s.sink := rfl
@[simp] theorem unspecify_sinkAnswers (s : State) : (s.unspecify).sinkAnswers = s.sinkAnswers := rfl
@[simp] theorem unspecify_issued (s : State) : (s.unspecify).issued = s.issued := rfl
@[simp] theorem unspecify_resetInput (s : State) : (s.unspecify).resetInput = s.resetInput := rfl
@[simp] theorem unspecify_result (s : State) : (s.unspecify).result = none := rfl
@[simp] theorem unspecify_freeCount (s : State) : (s.unspecify).freeCount = s.freeCount + 1 := rfl

/-! ### `takeFailure` -/

@[simp] theorem takeFailure_range (p : Phase) (k : FailureKind) (s : State) : (takeFailure p k s).range = Free.range s.freeCount := rfl
@[simp] theorem takeFailure_code (p : Phase) (k : FailureKind) (s : State) : (takeFailure p k s).code = Free.code s.freeCount := rfl
@[simp] theorem takeFailure_state (p : Phase) (k : FailureKind) (s : State) : (takeFailure p k s).state = Free.state s.freeCount := rfl
@[simp] theorem takeFailure_rep0 (p : Phase) (k : FailureKind) (s : State) : (takeFailure p k s).rep0 = Free.rep0 s.freeCount := rfl
@[simp] theorem takeFailure_rep1 (p : Phase) (k : FailureKind) (s : State) : (takeFailure p k s).rep1 = Free.rep1 s.freeCount := rfl
@[simp] theorem takeFailure_rep2 (p : Phase) (k : FailureKind) (s : State) : (takeFailure p k s).rep2 = Free.rep2 s.freeCount := rfl
@[simp] theorem takeFailure_rep3 (p : Phase) (k : FailureKind) (s : State) : (takeFailure p k s).rep3 = Free.rep3 s.freeCount := rfl
@[simp] theorem takeFailure_position (p : Phase) (k : FailureKind) (s : State) : (takeFailure p k s).position = Free.position s.freeCount := rfl
@[simp] theorem takeFailure_prevByte (p : Phase) (k : FailureKind) (s : State) : (takeFailure p k s).prevByte = Free.prevByte s.freeCount := rfl
@[simp] theorem takeFailure_lc (p : Phase) (k : FailureKind) (s : State) : (takeFailure p k s).lc = Free.lc s.freeCount := rfl
@[simp] theorem takeFailure_lp (p : Phase) (k : FailureKind) (s : State) : (takeFailure p k s).lp = Free.lp s.freeCount := rfl
@[simp] theorem takeFailure_pb (p : Phase) (k : FailureKind) (s : State) : (takeFailure p k s).pb = Free.pb s.freeCount := rfl
@[simp] theorem takeFailure_dictionarySize (p : Phase) (k : FailureKind) (s : State) : (takeFailure p k s).dictionarySize = Free.dictionarySize s.freeCount := rfl
@[simp] theorem takeFailure_posStateMask (p : Phase) (k : FailureKind) (s : State) : (takeFailure p k s).posStateMask = Free.posStateMask s.freeCount := rfl
@[simp] theorem takeFailure_literalPosMask (p : Phase) (k : FailureKind) (s : State) : (takeFailure p k s).literalPosMask = Free.literalPosMask s.freeCount := rfl
@[simp] theorem takeFailure_dictionarySizeCheck (p : Phase) (k : FailureKind) (s : State) : (takeFailure p k s).dictionarySizeCheck = Free.dictionarySizeCheck s.freeCount := rfl
@[simp] theorem takeFailure_windowSize (p : Phase) (k : FailureKind) (s : State) : (takeFailure p k s).windowSize = Free.windowSize s.freeCount := rfl
@[simp] theorem takeFailure_ipos (p : Phase) (k : FailureKind) (s : State) : (takeFailure p k s).ipos = Free.ipos s.freeCount := rfl
@[simp] theorem takeFailure_expectedLength (p : Phase) (k : FailureKind) (s : State) : (takeFailure p k s).expectedLength = Free.expectedLength s.freeCount := rfl
@[simp] theorem takeFailure_phase (p : Phase) (k : FailureKind) (s : State) : (takeFailure p k s).phase = p := rfl
@[simp] theorem takeFailure_status (p : Phase) (k : FailureKind) (s : State) : (takeFailure p k s).status = .failure k := rfl
@[simp] theorem takeFailure_mem (p : Phase) (k : FailureKind) (s : State) : (takeFailure p k s).mem = Memory.unspecified s.freeCount := rfl
@[simp] theorem takeFailure_writeCursor (p : Phase) (k : FailureKind) (s : State) : (takeFailure p k s).writeCursor = Free.writeCursor s.freeCount := rfl
@[simp] theorem takeFailure_watermark (p : Phase) (k : FailureKind) (s : State) : (takeFailure p k s).watermark = Free.watermark s.freeCount := rfl
@[simp] theorem takeFailure_source (p : Phase) (k : FailureKind) (s : State) : (takeFailure p k s).source = s.source := rfl
@[simp] theorem takeFailure_sink (p : Phase) (k : FailureKind) (s : State) : (takeFailure p k s).sink = s.sink := rfl
@[simp] theorem takeFailure_sinkAnswers (p : Phase) (k : FailureKind) (s : State) : (takeFailure p k s).sinkAnswers = s.sinkAnswers := rfl
@[simp] theorem takeFailure_issued (p : Phase) (k : FailureKind) (s : State) : (takeFailure p k s).issued = s.issued := rfl
@[simp] theorem takeFailure_resetInput (p : Phase) (k : FailureKind) (s : State) : (takeFailure p k s).resetInput = s.resetInput := rfl
@[simp] theorem takeFailure_result (p : Phase) (k : FailureKind) (s : State) : (takeFailure p k s).result = none := rfl
@[simp] theorem takeFailure_freeCount (p : Phase) (k : FailureKind) (s : State) : (takeFailure p k s).freeCount = s.freeCount + 1 := rfl

/-! ### `resetState` -/

@[simp] theorem resetState_range (s : State) : (resetState s).range = Free.range s.freeCount := rfl
@[simp] theorem resetState_code (s : State) : (resetState s).code = Free.code s.freeCount := rfl
@[simp] theorem resetState_state (s : State) : (resetState s).state = Free.state s.freeCount := rfl
@[simp] theorem resetState_rep0 (s : State) : (resetState s).rep0 = Free.rep0 s.freeCount := rfl
@[simp] theorem resetState_rep1 (s : State) : (resetState s).rep1 = Free.rep1 s.freeCount := rfl
@[simp] theorem resetState_rep2 (s : State) : (resetState s).rep2 = Free.rep2 s.freeCount := rfl
@[simp] theorem resetState_rep3 (s : State) : (resetState s).rep3 = Free.rep3 s.freeCount := rfl
@[simp] theorem resetState_position (s : State) : (resetState s).position = Free.position s.freeCount := rfl
@[simp] theorem resetState_prevByte (s : State) : (resetState s).prevByte = Free.prevByte s.freeCount := rfl
@[simp] theorem resetState_lc (s : State) : (resetState s).lc = Free.lc s.freeCount := rfl
@[simp] theorem resetState_lp (s : State) : (resetState s).lp = Free.lp s.freeCount := rfl
@[simp] theorem resetState_pb (s : State) : (resetState s).pb = Free.pb s.freeCount := rfl
@[simp] theorem resetState_dictionarySize (s : State) : (resetState s).dictionarySize = Free.dictionarySize s.freeCount := rfl
@[simp] theorem resetState_posStateMask (s : State) : (resetState s).posStateMask = Free.posStateMask s.freeCount := rfl
@[simp] theorem resetState_literalPosMask (s : State) : (resetState s).literalPosMask = Free.literalPosMask s.freeCount := rfl
@[simp] theorem resetState_dictionarySizeCheck (s : State) : (resetState s).dictionarySizeCheck = Free.dictionarySizeCheck s.freeCount := rfl
@[simp] theorem resetState_windowSize (s : State) : (resetState s).windowSize = Free.windowSize s.freeCount := rfl
@[simp] theorem resetState_ipos (s : State) : (resetState s).ipos = Free.ipos s.freeCount := rfl
@[simp] theorem resetState_expectedLength (s : State) : (resetState s).expectedLength = Free.expectedLength s.freeCount := rfl
@[simp] theorem resetState_phase (s : State) : (resetState s).phase = .unconfigured := rfl
@[simp] theorem resetState_status (s : State) : (resetState s).status = .ok := rfl
@[simp] theorem resetState_mem (s : State) : (resetState s).mem = Memory.unspecified s.freeCount := rfl
@[simp] theorem resetState_writeCursor (s : State) : (resetState s).writeCursor = Free.writeCursor s.freeCount := rfl
@[simp] theorem resetState_watermark (s : State) : (resetState s).watermark = Free.watermark s.freeCount := rfl
@[simp] theorem resetState_source (s : State) : (resetState s).source = s.source := rfl
@[simp] theorem resetState_sink (s : State) : (resetState s).sink = s.sink := rfl
@[simp] theorem resetState_sinkAnswers (s : State) : (resetState s).sinkAnswers = s.sinkAnswers := rfl
@[simp] theorem resetState_issued (s : State) : (resetState s).issued = s.issued := rfl
@[simp] theorem resetState_resetInput (s : State) : (resetState s).resetInput = s.resetInput := rfl
@[simp] theorem resetState_result (s : State) : (resetState s).result = none := rfl
@[simp] theorem resetState_freeCount (s : State) : (resetState s).freeCount = s.freeCount + 1 := rfl

/-! ### `startStream` -/

@[simp] theorem startStream_range (el : DWord) (s : State) : (startStream el s).range = s.range := rfl
@[simp] theorem startStream_code (el : DWord) (s : State) : (startStream el s).code = s.code := rfl
@[simp] theorem startStream_state (el : DWord) (s : State) : (startStream el s).state = 0#4 := rfl
@[simp] theorem startStream_rep0 (el : DWord) (s : State) : (startStream el s).rep0 = 0#32 := rfl
@[simp] theorem startStream_rep1 (el : DWord) (s : State) : (startStream el s).rep1 = 0#32 := rfl
@[simp] theorem startStream_rep2 (el : DWord) (s : State) : (startStream el s).rep2 = 0#32 := rfl
@[simp] theorem startStream_rep3 (el : DWord) (s : State) : (startStream el s).rep3 = 0#32 := rfl
@[simp] theorem startStream_position (el : DWord) (s : State) : (startStream el s).position = 0#64 := rfl
@[simp] theorem startStream_prevByte (el : DWord) (s : State) : (startStream el s).prevByte = 0#8 := rfl
@[simp] theorem startStream_lc (el : DWord) (s : State) : (startStream el s).lc = s.lc := rfl
@[simp] theorem startStream_lp (el : DWord) (s : State) : (startStream el s).lp = s.lp := rfl
@[simp] theorem startStream_pb (el : DWord) (s : State) : (startStream el s).pb = s.pb := rfl
@[simp] theorem startStream_dictionarySize (el : DWord) (s : State) : (startStream el s).dictionarySize = s.dictionarySize := rfl
@[simp] theorem startStream_posStateMask (el : DWord) (s : State) : (startStream el s).posStateMask = s.posStateMask := rfl
@[simp] theorem startStream_literalPosMask (el : DWord) (s : State) : (startStream el s).literalPosMask = s.literalPosMask := rfl
@[simp] theorem startStream_dictionarySizeCheck (el : DWord) (s : State) : (startStream el s).dictionarySizeCheck = s.dictionarySizeCheck := rfl
@[simp] theorem startStream_windowSize (el : DWord) (s : State) : (startStream el s).windowSize = s.windowSize := rfl
@[simp] theorem startStream_ipos (el : DWord) (s : State) : (startStream el s).ipos = 0#64 := rfl
@[simp] theorem startStream_expectedLength (el : DWord) (s : State) : (startStream el s).expectedLength = el := rfl
@[simp] theorem startStream_phase (el : DWord) (s : State) : (startStream el s).phase = .decoding := rfl
@[simp] theorem startStream_status (el : DWord) (s : State) : (startStream el s).status = s.status := rfl
@[simp] theorem startStream_mem (el : DWord) (s : State) : (startStream el s).mem = Memory.streamStart := rfl
@[simp] theorem startStream_writeCursor (el : DWord) (s : State) : (startStream el s).writeCursor = 0#32 := rfl
@[simp] theorem startStream_watermark (el : DWord) (s : State) : (startStream el s).watermark = 0#32 := rfl
@[simp] theorem startStream_source (el : DWord) (s : State) : (startStream el s).source = s.source := rfl
@[simp] theorem startStream_sink (el : DWord) (s : State) : (startStream el s).sink = s.sink := rfl
@[simp] theorem startStream_sinkAnswers (el : DWord) (s : State) : (startStream el s).sinkAnswers = s.sinkAnswers := rfl
@[simp] theorem startStream_issued (el : DWord) (s : State) : (startStream el s).issued = s.issued := rfl
@[simp] theorem startStream_resetInput (el : DWord) (s : State) : (startStream el s).resetInput = s.resetInput := rfl
@[simp] theorem startStream_result (el : DWord) (s : State) : (startStream el s).result = s.result := rfl
@[simp] theorem startStream_freeCount (el : DWord) (s : State) : (startStream el s).freeCount = s.freeCount := rfl

/-! ### `loadProperties` -/

@[simp] theorem loadProperties_range (lc lp pb : Nat) (ds : Word) (s : State) : (loadProperties lc lp pb ds s).range = s.range := rfl
@[simp] theorem loadProperties_code (lc lp pb : Nat) (ds : Word) (s : State) : (loadProperties lc lp pb ds s).code = s.code := rfl
@[simp] theorem loadProperties_state (lc lp pb : Nat) (ds : Word) (s : State) : (loadProperties lc lp pb ds s).state = s.state := rfl
@[simp] theorem loadProperties_rep0 (lc lp pb : Nat) (ds : Word) (s : State) : (loadProperties lc lp pb ds s).rep0 = s.rep0 := rfl
@[simp] theorem loadProperties_rep1 (lc lp pb : Nat) (ds : Word) (s : State) : (loadProperties lc lp pb ds s).rep1 = s.rep1 := rfl
@[simp] theorem loadProperties_rep2 (lc lp pb : Nat) (ds : Word) (s : State) : (loadProperties lc lp pb ds s).rep2 = s.rep2 := rfl
@[simp] theorem loadProperties_rep3 (lc lp pb : Nat) (ds : Word) (s : State) : (loadProperties lc lp pb ds s).rep3 = s.rep3 := rfl
@[simp] theorem loadProperties_position (lc lp pb : Nat) (ds : Word) (s : State) : (loadProperties lc lp pb ds s).position = s.position := rfl
@[simp] theorem loadProperties_prevByte (lc lp pb : Nat) (ds : Word) (s : State) : (loadProperties lc lp pb ds s).prevByte = s.prevByte := rfl
@[simp] theorem loadProperties_lc (lc lp pb : Nat) (ds : Word) (s : State) : (loadProperties lc lp pb ds s).lc = BitVec.ofNat 4 lc := rfl
@[simp] theorem loadProperties_lp (lc lp pb : Nat) (ds : Word) (s : State) : (loadProperties lc lp pb ds s).lp = BitVec.ofNat 3 lp := rfl
@[simp] theorem loadProperties_pb (lc lp pb : Nat) (ds : Word) (s : State) : (loadProperties lc lp pb ds s).pb = BitVec.ofNat 3 pb := rfl
@[simp] theorem loadProperties_dictionarySize (lc lp pb : Nat) (ds : Word) (s : State) : (loadProperties lc lp pb ds s).dictionarySize = ds := rfl
@[simp] theorem loadProperties_posStateMask (lc lp pb : Nat) (ds : Word) (s : State) : (loadProperties lc lp pb ds s).posStateMask = BitVec.ofNat 4 (2 ^ pb - 1) := rfl
@[simp] theorem loadProperties_literalPosMask (lc lp pb : Nat) (ds : Word) (s : State) : (loadProperties lc lp pb ds s).literalPosMask = BitVec.ofNat 4 (2 ^ lp - 1) := rfl
@[simp] theorem loadProperties_dictionarySizeCheck (lc lp pb : Nat) (ds : Word) (s : State) : (loadProperties lc lp pb ds s).dictionarySizeCheck = BitVec.ofNat 32 (max ds.toNat 1) := rfl
@[simp] theorem loadProperties_windowSize (lc lp pb : Nat) (ds : Word) (s : State) : (loadProperties lc lp pb ds s).windowSize = BitVec.ofNat 32 (max (max ds.toNat 1) windowMin) := rfl
@[simp] theorem loadProperties_ipos (lc lp pb : Nat) (ds : Word) (s : State) : (loadProperties lc lp pb ds s).ipos = s.ipos := rfl
@[simp] theorem loadProperties_expectedLength (lc lp pb : Nat) (ds : Word) (s : State) : (loadProperties lc lp pb ds s).expectedLength = s.expectedLength := rfl
@[simp] theorem loadProperties_phase (lc lp pb : Nat) (ds : Word) (s : State) : (loadProperties lc lp pb ds s).phase = s.phase := rfl
@[simp] theorem loadProperties_status (lc lp pb : Nat) (ds : Word) (s : State) : (loadProperties lc lp pb ds s).status = s.status := rfl
@[simp] theorem loadProperties_mem (lc lp pb : Nat) (ds : Word) (s : State) : (loadProperties lc lp pb ds s).mem = Memory.unspecified s.freeCount := rfl
@[simp] theorem loadProperties_writeCursor (lc lp pb : Nat) (ds : Word) (s : State) : (loadProperties lc lp pb ds s).writeCursor = s.writeCursor := rfl
@[simp] theorem loadProperties_watermark (lc lp pb : Nat) (ds : Word) (s : State) : (loadProperties lc lp pb ds s).watermark = s.watermark := rfl
@[simp] theorem loadProperties_source (lc lp pb : Nat) (ds : Word) (s : State) : (loadProperties lc lp pb ds s).source = s.source := rfl
@[simp] theorem loadProperties_sink (lc lp pb : Nat) (ds : Word) (s : State) : (loadProperties lc lp pb ds s).sink = s.sink := rfl
@[simp] theorem loadProperties_sinkAnswers (lc lp pb : Nat) (ds : Word) (s : State) : (loadProperties lc lp pb ds s).sinkAnswers = s.sinkAnswers := rfl
@[simp] theorem loadProperties_issued (lc lp pb : Nat) (ds : Word) (s : State) : (loadProperties lc lp pb ds s).issued = s.issued := rfl
@[simp] theorem loadProperties_resetInput (lc lp pb : Nat) (ds : Word) (s : State) : (loadProperties lc lp pb ds s).resetInput = s.resetInput := rfl
@[simp] theorem loadProperties_result (lc lp pb : Nat) (ds : Word) (s : State) : (loadProperties lc lp pb ds s).result = none := rfl
@[simp] theorem loadProperties_freeCount (lc lp pb : Nat) (ds : Word) (s : State) : (loadProperties lc lp pb ds s).freeCount = s.freeCount + 1 := rfl

/-! ### `pushRep` -/

@[simp] theorem pushRep_range (dist : Word) (s : State) : (pushRep dist s).range = s.range := rfl
@[simp] theorem pushRep_code (dist : Word) (s : State) : (pushRep dist s).code = s.code := rfl
@[simp] theorem pushRep_state (dist : Word) (s : State) : (pushRep dist s).state = s.state := rfl
@[simp] theorem pushRep_rep0 (dist : Word) (s : State) : (pushRep dist s).rep0 = dist := rfl
@[simp] theorem pushRep_rep1 (dist : Word) (s : State) : (pushRep dist s).rep1 = s.rep0 := rfl
@[simp] theorem pushRep_rep2 (dist : Word) (s : State) : (pushRep dist s).rep2 = s.rep1 := rfl
@[simp] theorem pushRep_rep3 (dist : Word) (s : State) : (pushRep dist s).rep3 = s.rep2 := rfl
@[simp] theorem pushRep_position (dist : Word) (s : State) : (pushRep dist s).position = s.position := rfl
@[simp] theorem pushRep_prevByte (dist : Word) (s : State) : (pushRep dist s).prevByte = s.prevByte := rfl
@[simp] theorem pushRep_lc (dist : Word) (s : State) : (pushRep dist s).lc = s.lc := rfl
@[simp] theorem pushRep_lp (dist : Word) (s : State) : (pushRep dist s).lp = s.lp := rfl
@[simp] theorem pushRep_pb (dist : Word) (s : State) : (pushRep dist s).pb = s.pb := rfl
@[simp] theorem pushRep_dictionarySize (dist : Word) (s : State) : (pushRep dist s).dictionarySize = s.dictionarySize := rfl
@[simp] theorem pushRep_posStateMask (dist : Word) (s : State) : (pushRep dist s).posStateMask = s.posStateMask := rfl
@[simp] theorem pushRep_literalPosMask (dist : Word) (s : State) : (pushRep dist s).literalPosMask = s.literalPosMask := rfl
@[simp] theorem pushRep_dictionarySizeCheck (dist : Word) (s : State) : (pushRep dist s).dictionarySizeCheck = s.dictionarySizeCheck := rfl
@[simp] theorem pushRep_windowSize (dist : Word) (s : State) : (pushRep dist s).windowSize = s.windowSize := rfl
@[simp] theorem pushRep_ipos (dist : Word) (s : State) : (pushRep dist s).ipos = s.ipos := rfl
@[simp] theorem pushRep_expectedLength (dist : Word) (s : State) : (pushRep dist s).expectedLength = s.expectedLength := rfl
@[simp] theorem pushRep_phase (dist : Word) (s : State) : (pushRep dist s).phase = s.phase := rfl
@[simp] theorem pushRep_status (dist : Word) (s : State) : (pushRep dist s).status = s.status := rfl
@[simp] theorem pushRep_mem (dist : Word) (s : State) : (pushRep dist s).mem = s.mem := rfl
@[simp] theorem pushRep_writeCursor (dist : Word) (s : State) : (pushRep dist s).writeCursor = s.writeCursor := rfl
@[simp] theorem pushRep_watermark (dist : Word) (s : State) : (pushRep dist s).watermark = s.watermark := rfl
@[simp] theorem pushRep_source (dist : Word) (s : State) : (pushRep dist s).source = s.source := rfl
@[simp] theorem pushRep_sink (dist : Word) (s : State) : (pushRep dist s).sink = s.sink := rfl
@[simp] theorem pushRep_sinkAnswers (dist : Word) (s : State) : (pushRep dist s).sinkAnswers = s.sinkAnswers := rfl
@[simp] theorem pushRep_issued (dist : Word) (s : State) : (pushRep dist s).issued = s.issued := rfl
@[simp] theorem pushRep_resetInput (dist : Word) (s : State) : (pushRep dist s).resetInput = s.resetInput := rfl
@[simp] theorem pushRep_result (dist : Word) (s : State) : (pushRep dist s).result = s.result := rfl
@[simp] theorem pushRep_freeCount (dist : Word) (s : State) : (pushRep dist s).freeCount = s.freeCount := rfl

/-! ### `issueFirst` -/

@[simp] theorem issueFirst_range (pad : Nat) (i : Instr) (s : State) : (issueFirst pad i s).range = s.range := rfl
@[simp] theorem issueFirst_code (pad : Nat) (i : Instr) (s : State) : (issueFirst pad i s).code = s.code := rfl
@[simp] theorem issueFirst_state (pad : Nat) (i : Instr) (s : State) : (issueFirst pad i s).state = s.state := rfl
@[simp] theorem issueFirst_rep0 (pad : Nat) (i : Instr) (s : State) : (issueFirst pad i s).rep0 = s.rep0 := rfl
@[simp] theorem issueFirst_rep1 (pad : Nat) (i : Instr) (s : State) : (issueFirst pad i s).rep1 = s.rep1 := rfl
@[simp] theorem issueFirst_rep2 (pad : Nat) (i : Instr) (s : State) : (issueFirst pad i s).rep2 = s.rep2 := rfl
@[simp] theorem issueFirst_rep3 (pad : Nat) (i : Instr) (s : State) : (issueFirst pad i s).rep3 = s.rep3 := rfl
@[simp] theorem issueFirst_position (pad : Nat) (i : Instr) (s : State) : (issueFirst pad i s).position = s.position := rfl
@[simp] theorem issueFirst_prevByte (pad : Nat) (i : Instr) (s : State) : (issueFirst pad i s).prevByte = s.prevByte := rfl
@[simp] theorem issueFirst_lc (pad : Nat) (i : Instr) (s : State) : (issueFirst pad i s).lc = s.lc := rfl
@[simp] theorem issueFirst_lp (pad : Nat) (i : Instr) (s : State) : (issueFirst pad i s).lp = s.lp := rfl
@[simp] theorem issueFirst_pb (pad : Nat) (i : Instr) (s : State) : (issueFirst pad i s).pb = s.pb := rfl
@[simp] theorem issueFirst_dictionarySize (pad : Nat) (i : Instr) (s : State) : (issueFirst pad i s).dictionarySize = s.dictionarySize := rfl
@[simp] theorem issueFirst_posStateMask (pad : Nat) (i : Instr) (s : State) : (issueFirst pad i s).posStateMask = s.posStateMask := rfl
@[simp] theorem issueFirst_literalPosMask (pad : Nat) (i : Instr) (s : State) : (issueFirst pad i s).literalPosMask = s.literalPosMask := rfl
@[simp] theorem issueFirst_dictionarySizeCheck (pad : Nat) (i : Instr) (s : State) : (issueFirst pad i s).dictionarySizeCheck = s.dictionarySizeCheck := rfl
@[simp] theorem issueFirst_windowSize (pad : Nat) (i : Instr) (s : State) : (issueFirst pad i s).windowSize = s.windowSize := rfl
@[simp] theorem issueFirst_ipos (pad : Nat) (i : Instr) (s : State) : (issueFirst pad i s).ipos = s.ipos := rfl
@[simp] theorem issueFirst_expectedLength (pad : Nat) (i : Instr) (s : State) : (issueFirst pad i s).expectedLength = s.expectedLength := rfl
@[simp] theorem issueFirst_phase (pad : Nat) (i : Instr) (s : State) : (issueFirst pad i s).phase = s.phase := rfl
@[simp] theorem issueFirst_status (pad : Nat) (i : Instr) (s : State) : (issueFirst pad i s).status = s.status := rfl
@[simp] theorem issueFirst_mem (pad : Nat) (i : Instr) (s : State) : (issueFirst pad i s).mem = s.mem := rfl
@[simp] theorem issueFirst_writeCursor (pad : Nat) (i : Instr) (s : State) : (issueFirst pad i s).writeCursor = s.writeCursor := rfl
@[simp] theorem issueFirst_watermark (pad : Nat) (i : Instr) (s : State) : (issueFirst pad i s).watermark = s.watermark := rfl
@[simp] theorem issueFirst_source (pad : Nat) (i : Instr) (s : State) : (issueFirst pad i s).source = List.replicate pad (SourceAnswer.byte 0#8) ++ s.source := rfl
@[simp] theorem issueFirst_sink (pad : Nat) (i : Instr) (s : State) : (issueFirst pad i s).sink = s.sink := rfl
@[simp] theorem issueFirst_sinkAnswers (pad : Nat) (i : Instr) (s : State) : (issueFirst pad i s).sinkAnswers = s.sinkAnswers := rfl
@[simp] theorem issueFirst_issued (pad : Nat) (i : Instr) (s : State) : (issueFirst pad i s).issued = i :: s.issued := rfl
@[simp] theorem issueFirst_resetInput (pad : Nat) (i : Instr) (s : State) : (issueFirst pad i s).resetInput = false := rfl
@[simp] theorem issueFirst_result (pad : Nat) (i : Instr) (s : State) : (issueFirst pad i s).result = s.result := rfl
@[simp] theorem issueFirst_freeCount (pad : Nat) (i : Instr) (s : State) : (issueFirst pad i s).freeCount = s.freeCount := rfl

/-! ### Tests and operands read only the fields they name -/

/-- What is read of the state to tell the size of a group. -/
theorem groupSize_congr {s t : State} (g : ProbGroup) (hpb : t.pb = s.pb) (hlc : t.lc = s.lc) (hlp : t.lp = s.lp) :
    groupSize t g = groupSize s g := by
  cases g <;> simp [groupSize, hpb, hlc, hlp]

end Sys2Proof.Machine
end

