-- ==== Sys2Proof/Laws/Memory.lean ====
section
/-! SUPPORT. The laws of the memory: reading after writing, and that every operation keeps the canonical form. -/

set_option Elab.async false

namespace Sys2Proof.Machine

/-! ### Sorted lists -/

section Cells
variable {α : Type}

/-- Every key of the list is above `a`. -/
def Cells.above (a : Nat) (l : List (Nat × α)) : Prop := ∀ c ∈ l, a < c.1

theorem Cells.sorted_cons {k : Nat} {v : α} {l : List (Nat × α)} :
    Cells.sorted ((k, v) :: l) = true ↔ Cells.above k l ∧ Cells.sorted l = true := by
  induction l generalizing k v with
  | nil => simp [Cells.sorted, Cells.above]
  | cons c l ih =>
    obtain ⟨k', v'⟩ := c
    simp only [Cells.sorted, Bool.and_eq_true, decide_eq_true_eq]
    constructor
    · rintro ⟨hlt, hs⟩
      refine ⟨?_, hs⟩
      have h' := (ih.1 hs).1
      intro c hc
      rcases List.mem_cons.1 hc with rfl | hc
      · exact hlt
      · exact lt_trans hlt (h' c hc)
    · rintro ⟨ha, hs⟩
      exact ⟨ha (k', v') (by simp), hs⟩

@[simp] theorem Cells.find_nil (a : Nat) : Cells.find ([] : List (Nat × α)) a = none := rfl

theorem Cells.find_above {a : Nat} {l : List (Nat × α)} (h : Cells.above a l) : Cells.find l a = none := by
  induction l with
  | nil => rfl
  | cons c l ih =>
    obtain ⟨k, v⟩ := c
    have hk : a < k := h (k, v) (by simp)
    simp only [Cells.find, if_neg (by omega : ¬ k = a)]
    exact ih fun c hc => h c (by simp [hc])

@[simp] theorem Cells.find_insert_self (a : Nat) (v : α) (l : List (Nat × α)) : Cells.find (Cells.insert a v l) a = some v := by
  induction l with
  | nil => simp [Cells.insert, Cells.find]
  | cons c l ih =>
    obtain ⟨k, w⟩ := c
    unfold Cells.insert
    split
    · simp [Cells.find]
    · split
      · simp [Cells.find]
      · rw [Cells.find, if_neg (by omega), ih]

theorem Cells.find_insert_of_ne {a b : Nat} (v : α) (l : List (Nat × α)) (h : b ≠ a) :
    Cells.find (Cells.insert a v l) b = Cells.find l b := by
  induction l with
  | nil => simp [Cells.insert, Cells.find, h.symm]
  | cons c l ih =>
    obtain ⟨k, w⟩ := c
    unfold Cells.insert
    split
    · rw [Cells.find, if_neg (by omega)]
    · split
      · next h1 => subst h1; simp [Cells.find, h.symm]
      · simp only [Cells.find, ih]

theorem Cells.above_insert {a b : Nat} {v : α} {l : List (Nat × α)} (h : Cells.above b l) (hb : b < a) :
    Cells.above b (Cells.insert a v l) := by
  induction l with
  | nil => simpa [Cells.insert, Cells.above] using hb
  | cons c l ih =>
    obtain ⟨k, w⟩ := c
    have hk : b < k := h (k, w) (by simp)
    have hl : Cells.above b l := fun c hc => h c (by simp [hc])
    unfold Cells.insert
    split
    · intro c hc
      simp only [List.mem_cons] at hc
      rcases hc with rfl | rfl | hc
      · exact hb
      · exact hk
      · exact hl c hc
    · split
      · intro c hc
        simp only [List.mem_cons] at hc
        rcases hc with rfl | hc
        · exact hb
        · exact hl c hc
      · intro c hc
        simp only [List.mem_cons] at hc
        rcases hc with rfl | hc
        · exact hk
        · exact ih hl c hc

theorem Cells.sorted_insert {a : Nat} {v : α} {l : List (Nat × α)} (h : Cells.sorted l = true) :
    Cells.sorted (Cells.insert a v l) = true := by
  induction l with
  | nil => simp [Cells.insert, Cells.sorted]
  | cons c l ih =>
    obtain ⟨k, w⟩ := c
    obtain ⟨ha, hs⟩ := Cells.sorted_cons.1 h
    unfold Cells.insert
    split
    · next hlt =>
      refine Cells.sorted_cons.2 ⟨?_, h⟩
      intro c hc
      simp only [List.mem_cons] at hc
      rcases hc with rfl | hc
      · exact hlt
      · exact lt_trans hlt (ha c hc)
    · split
      · next heq => subst heq; exact Cells.sorted_cons.2 ⟨ha, hs⟩
      · exact Cells.sorted_cons.2 ⟨Cells.above_insert ha (by omega), ih hs⟩

theorem Cells.mem_erase {a : Nat} {c : Nat × α} {l : List (Nat × α)} (h : c ∈ Cells.erase a l) : c ∈ l := by
  induction l with
  | nil => exact h
  | cons d l ih =>
    obtain ⟨k, w⟩ := d
    unfold Cells.erase at h
    split at h
    · exact List.mem_cons_of_mem _ h
    · rcases List.mem_cons.1 h with rfl | h
      · simp
      · exact List.mem_cons_of_mem _ (ih h)

theorem Cells.sorted_erase {a : Nat} {l : List (Nat × α)} (h : Cells.sorted l = true) : Cells.sorted (Cells.erase a l) = true := by
  induction l with
  | nil => rfl
  | cons c l ih =>
    obtain ⟨k, w⟩ := c
    obtain ⟨ha, hs⟩ := Cells.sorted_cons.1 h
    unfold Cells.erase
    split
    · exact hs
    · exact Cells.sorted_cons.2 ⟨fun c hc => ha c (Cells.mem_erase hc), ih hs⟩

theorem Cells.find_erase_self {a : Nat} {l : List (Nat × α)} (h : Cells.sorted l = true) : Cells.find (Cells.erase a l) a = none := by
  induction l with
  | nil => rfl
  | cons c l ih =>
    obtain ⟨k, w⟩ := c
    obtain ⟨ha, hs⟩ := Cells.sorted_cons.1 h
    unfold Cells.erase
    split
    · next heq => subst heq; exact Cells.find_above ha
    · next hne => rw [Cells.find, if_neg (fun h => hne h.symm), ih hs]

theorem Cells.find_erase_of_ne {a b : Nat} (l : List (Nat × α)) (h : b ≠ a) :
    Cells.find (Cells.erase a l) b = Cells.find l b := by
  induction l with
  | nil => rfl
  | cons c l ih =>
    obtain ⟨k, w⟩ := c
    unfold Cells.erase
    split
    · next heq => subst heq; simp [Cells.find, h.symm]
    · simp only [Cells.find, ih]

theorem Cells.mem_insert {a : Nat} {v : α} {c : Nat × α} {l : List (Nat × α)} (h : c ∈ Cells.insert a v l) :
    c = (a, v) ∨ c ∈ l := by
  induction l with
  | nil => simpa [Cells.insert] using h
  | cons d l ih =>
    obtain ⟨k, w⟩ := d
    unfold Cells.insert at h
    split at h
    · simpa using h
    · split at h
      · rcases List.mem_cons.1 h with h | h
        · exact .inl h
        · exact .inr (List.mem_cons_of_mem _ h)
      · rcases List.mem_cons.1 h with rfl | h
        · exact .inr (by simp)
        · exact (ih h).imp id (List.mem_cons_of_mem _)

theorem Cells.find_mem {a : Nat} {v : α} {l : List (Nat × α)} (h : Cells.find l a = some v) : (a, v) ∈ l := by
  induction l with
  | nil => simp at h
  | cons c l ih =>
    obtain ⟨k, w⟩ := c
    rw [Cells.find] at h
    split at h
    · next heq => subst heq; simp_all
    · exact List.mem_cons_of_mem _ (ih h)

end Cells

/-! ### Memory -/

@[simp] theorem Memory.setSlot_win (m : Memory) (k : Nat) (v : Slot) : (m.setSlot k v).win = m.win := by
  unfold Memory.setSlot; split <;> rfl

@[simp] theorem Memory.setSlot_probFill (m : Memory) (k : Nat) (v : Slot) : (m.setSlot k v).probFill = m.probFill := by
  unfold Memory.setSlot; split <;> rfl

@[simp] theorem Memory.setWin_win (m : Memory) (a : Nat) (b : Byte) : (m.setWin a b).win = Cells.insert a b m.win := rfl
@[simp] theorem Memory.setWin_prob (m : Memory) (a : Nat) (b : Byte) : (m.setWin a b).prob = m.prob := rfl
@[simp] theorem Memory.setWin_probFill (m : Memory) (a : Nat) (b : Byte) : (m.setWin a b).probFill = m.probFill := rfl
@[simp] theorem Memory.setWin_slot (m : Memory) (a : Nat) (b : Byte) (k : Nat) : (m.setWin a b).slot k = m.slot k := rfl

@[simp] theorem Memory.setSlot_slotDefault (m : Memory) (k j : Nat) (v : Slot) :
    (m.setSlot k v).slotDefault j = m.slotDefault j := by
  simp [Memory.slotDefault]

theorem Memory.slot_setSlot_self {m : Memory} (h : m.wf = true) (k : Nat) (v : Slot) : (m.setSlot k v).slot k = v := by
  simp only [Memory.wf, Bool.and_eq_true] at h
  unfold Memory.slot
  rw [Memory.setSlot_slotDefault]
  unfold Memory.setSlot
  split
  · next hc => simp [Cells.find_erase_self h.1.2, Memory.slotDefault, hc.1, hc.2]
  · simp

theorem Memory.slot_setSlot_of_ne (m : Memory) {k j : Nat} (v : Slot) (h : j ≠ k) : (m.setSlot k v).slot j = m.slot j := by
  unfold Memory.slot
  rw [Memory.setSlot_slotDefault]
  unfold Memory.setSlot
  split
  · simp [Cells.find_erase_of_ne _ h]
  · simp [Cells.find_insert_of_ne _ _ h]

/-- Writing a slot keeps the canonical form. -/
theorem Memory.wf_setSlot {m : Memory} (h : m.wf = true) (k : Nat) (v : Slot) : (m.setSlot k v).wf = true := by
  simp only [Memory.wf, Bool.and_eq_true, Bool.or_eq_true, List.all_eq_true, bne_iff_ne] at h ⊢
  obtain ⟨⟨hw, hp⟩, hd⟩ := h
  refine ⟨⟨by simpa using hw, ?_⟩, ?_⟩
  · unfold Memory.setSlot
    split
    · exact Cells.sorted_erase hp
    · exact Cells.sorted_insert hp
  · rw [Memory.setSlot_probFill]
    rcases hd with hd | hd
    · exact .inl hd
    · rcases hf : m.probFill with _ | n
      · right
        intro c hc
        unfold Memory.setSlot at hc
        split at hc
        · exact hd c (Cells.mem_erase hc)
        · next hn =>
          rcases Cells.mem_insert hc with rfl | hc
          · exact fun hv => hn ⟨hf, hv⟩
          · exact hd c hc
      · simp

/-- Writing an element of the window keeps the canonical form. -/
theorem Memory.wf_setWin {m : Memory} (h : m.wf = true) (a : Nat) (b : Byte) : (m.setWin a b).wf = true := by
  simp only [Memory.wf, Bool.and_eq_true] at h ⊢
  exact ⟨⟨Cells.sorted_insert h.1.1, h.1.2⟩, h.2⟩

@[simp] theorem Memory.wf_streamStart : Memory.streamStart.wf = true := rfl
@[simp] theorem Memory.wf_unspecified (k : Nat) : (Memory.unspecified k).wf = true := rfl

/-- The memory at reset is in its canonical form. -/
theorem reset_mem_wf : State.reset.mem.wf = true := rfl

/-- No two slots of the groups share a key (`10_state.md` R39). -/
theorem slotKey_inj {g g' : ProbGroup} {i i' : Nat} (h : slotKey g i = slotKey g' i') : g = g' ∧ i = i' := by
  have hg : g.index < 18 := by cases g <;> decide
  have hg' : g'.index < 18 := by cases g' <;> decide
  unfold slotKey at h
  have hidx : g.index = g'.index := by omega
  refine ⟨?_, by omega⟩
  revert hidx
  cases g <;> cases g' <;> simp [ProbGroup.index]

/-- The bounds of R137 for a slot in a memory with listed slots within them. -/
theorem Memory.slot_bounds {m : Memory} (hf : m.probFill = none) (h : ∀ c ∈ m.prob, 31 ≤ c.2.toNat ∧ c.2.toNat ≤ 2017)
    (k : Nat) : 31 ≤ (m.slot k).toNat ∧ (m.slot k).toNat ≤ 2017 := by
  unfold Memory.slot
  rcases hk : Cells.find m.prob k with _ | v
  · simp [Memory.slotDefault, hf]
  · simpa using h _ (Cells.find_mem hk)

end Sys2Proof.Machine
end

