-- ==== Sys2Proof/Laws/Result.lean ====
section
/-! SUPPORT. The laws of operation outcomes, and of the frames. -/

set_option Elab.async false

namespace Sys2Proof.Machine

section Res
variable {α β γ : Type}

@[simp] theorem Res.bind_ok (a : α) (s : State) (f : α → State → Res β) : (Res.ok a s).bind f = f a s := rfl
@[simp] theorem Res.bind_raise (k : FailureKind) (s : State) (f : α → State → Res β) :
    (Res.raise k s : Res α).bind f = .raise k s := rfl
@[simp] theorem Res.bind_fault (e : Fault) (f : α → State → Res β) : (Res.fault e : Res α).bind f = .fault e := rfl
@[simp] theorem Res.map_ok (a : α) (s : State) (f : α → β) : (Res.ok a s).map f = .ok (f a) s := rfl
@[simp] theorem Res.map_raise (k : FailureKind) (s : State) (f : α → β) : (Res.raise k s : Res α).map f = .raise k s := rfl
@[simp] theorem Res.map_fault (e : Fault) (f : α → β) : (Res.fault e : Res α).map f = .fault e := rfl
@[simp] theorem Res.finish_ok (a : α) (s : State) (v : α → Option Nat) :
    (Res.ok a s).finish v = .next { s with result := v a } := rfl
@[simp] theorem Res.finish_raise (k : FailureKind) (s : State) (v : α → Option Nat) :
    (Res.raise k s : Res α).finish v = .next (takeFailure .failed k s) := rfl
@[simp] theorem Res.finish_fault (e : Fault) (v : α → Option Nat) : (Res.fault e : Res α).finish v = .fault e := rfl

theorem Res.bind_assoc (r : Res α) (f : α → State → Res β) (g : β → State → Res γ) :
    (r.bind f).bind g = r.bind fun a s => (f a s).bind g := by
  cases r <;> rfl

theorem Res.map_eq_bind (r : Res α) (f : α → β) : r.map f = r.bind fun a s => .ok (f a) s := rfl

theorem Res.bind_eq_ok {r : Res α} {f : α → State → Res β} {b : β} {t : State} :
    r.bind f = .ok b t ↔ ∃ a u, r = .ok a u ∧ f a u = .ok b t := by
  cases r <;> simp

theorem Res.map_eq_ok {r : Res α} {f : α → β} {b : β} {t : State} : r.map f = .ok b t ↔ ∃ a, r = .ok a t ∧ f a = b := by
  cases r <;> simp [and_comm]

/-- Partial correctness: `P` of a completion, `Q` of a raised failure. -/
def Res.Post (r : Res α) (P : α → State → Prop) (Q : FailureKind → State → Prop) : Prop :=
  match r with
  | .ok a s => P a s
  | .raise k s => Q k s
  | .fault _ => True

@[simp] theorem Res.post_ok {a : α} {s : State} {P : α → State → Prop} {Q : FailureKind → State → Prop} :
    (Res.ok a s).Post P Q ↔ P a s := Iff.rfl
@[simp] theorem Res.post_raise {k : FailureKind} {s : State} {P : α → State → Prop} {Q : FailureKind → State → Prop} :
    (Res.raise k s : Res α).Post P Q ↔ Q k s := Iff.rfl
@[simp] theorem Res.post_fault {e : Fault} {P : α → State → Prop} {Q : FailureKind → State → Prop} :
    (Res.fault e : Res α).Post P Q := trivial

theorem Res.Post.bind {r : Res α} {f : α → State → Res β} {P : α → State → Prop} {P' : β → State → Prop}
    {Q : FailureKind → State → Prop} (h : r.Post P Q) (hf : ∀ a s, P a s → (f a s).Post P' Q) : (r.bind f).Post P' Q := by
  cases r with
  | ok a s => exact hf a s h
  | raise k s => exact h
  | fault e => trivial

theorem Res.Post.imp {r : Res α} {P P' : α → State → Prop} {Q Q' : FailureKind → State → Prop} (h : r.Post P Q)
    (hp : ∀ a s, P a s → P' a s) (hq : ∀ k s, Q k s → Q' k s) : r.Post P' Q' := by
  cases r with
  | ok a s => exact hp a s h
  | raise k s => exact hq k s h
  | fault e => trivial

theorem Res.Post.map {r : Res α} {f : α → β} {P : β → State → Prop} {Q : FailureKind → State → Prop}
    (h : r.Post (fun a s => P (f a) s) Q) : (r.map f).Post P Q := by
  cases r <;> exact h

end Res

/-! ### The frame of the range coder -/

theorem CoderFrame.refl (gs : List ProbGroup) (s : State) : CoderFrame gs s s :=
  ⟨rfl, rfl, rfl, fun _ _ _ => rfl, List.suffix_refl _⟩

theorem CoderFrame.trans {gs : List ProbGroup} {s t u : State} (h : CoderFrame gs s t) (h' : CoderFrame gs t u) :
    CoderFrame gs s u where
  rest := by
    rw [h'.rest]
    conv_lhs => rw [h.rest]
  win := h'.win.trans h.win
  fill := h'.fill.trans h.fill
  slots g i hg := (h'.slots g i hg).trans (h.slots g i hg)
  source := h'.source.trans h.source

theorem CoderFrame.mono {gs gs' : List ProbGroup} {s t : State} (h : CoderFrame gs s t) (hs : gs ⊆ gs') : CoderFrame gs' s t :=
  ⟨h.rest, h.win, h.fill, fun g i hg => h.slots g i fun hm => hg (hs hm), h.source⟩

/-- What the frame of the range coder leaves alone, field by field. -/
theorem CoderFrame.fields {gs : List ProbGroup} {s t : State} (h : CoderFrame gs s t) :
    t.state = s.state ∧ t.rep0 = s.rep0 ∧ t.rep1 = s.rep1 ∧ t.rep2 = s.rep2 ∧ t.rep3 = s.rep3 ∧ t.position = s.position ∧
    t.prevByte = s.prevByte ∧ t.lc = s.lc ∧ t.lp = s.lp ∧ t.pb = s.pb ∧ t.dictionarySize = s.dictionarySize ∧
    t.posStateMask = s.posStateMask ∧ t.literalPosMask = s.literalPosMask ∧ t.dictionarySizeCheck = s.dictionarySizeCheck ∧
    t.windowSize = s.windowSize ∧ t.expectedLength = s.expectedLength ∧ t.phase = s.phase ∧ t.status = s.status ∧
    t.writeCursor = s.writeCursor ∧ t.watermark = s.watermark ∧ t.sink = s.sink ∧ t.sinkAnswers = s.sinkAnswers ∧
    t.issued = s.issued ∧ t.resetInput = s.resetInput ∧ t.freeCount = s.freeCount := by
  rw [h.rest]; simp

/-! ### The ports -/

/-- What every operation leaves at the ports: what has been issued and the free values' counter stand, the source only shrinks, the
sink only grows (`20_memory.md` R61, R62). -/
structure Ports (s t : State) : Prop where
  issued : t.issued = s.issued
  resetInput : t.resetInput = s.resetInput
  freeCount : t.freeCount = s.freeCount
  source : t.source <:+ s.source
  sink : s.sink <+: t.sink

theorem Ports.refl (s : State) : Ports s s := ⟨rfl, rfl, rfl, List.suffix_refl _, List.prefix_refl _⟩

theorem Ports.trans {s t u : State} (h : Ports s t) (h' : Ports t u) : Ports s u :=
  ⟨h'.issued.trans h.issued, h'.resetInput.trans h.resetInput, h'.freeCount.trans h.freeCount, h'.source.trans h.source,
    h.sink.trans h'.sink⟩

theorem CoderFrame.ports {gs : List ProbGroup} {s t : State} (h : CoderFrame gs s t) : Ports s t := by
  obtain ⟨-, -, -, -, -, -, -, -, -, -, -, -, -, -, -, -, -, -, -, -, hk, -, hi, hr, hf⟩ := h.fields
  exact ⟨hi, hr, hf, h.source, hk ▸ List.prefix_refl _⟩

/-- Taking a failure keeps the ports as the failing operation left them. -/
theorem Ports.failedFrom {s u : State} (h : Ports s u) (k : FailureKind) : FailedFrom k s (takeFailure .failed k u) where
  taken := by
    simp only [takeFailure, State.unspecify, h.issued, h.resetInput, h.freeCount]
  source := h.source
  sink := h.sink

end Sys2Proof.Machine
end

