-- ==== Sys2Proof/Laws/Coder.lean ====
section
/-! SUPPORT. What the operations of the range decoder, the trees and the lengths can do: their frame, the failures they raise, and
when they complete. -/

set_option Elab.async false

namespace Sys2Proof.Machine

/-! ### Frames -/

/-- The failures the range decoder raises (`40_range_decoder.md` R131). -/
def sourceFailure (k : FailureKind) : Prop := k = .streamTruncated ∨ k = .ioError

/-- `r`, begun in `s`, changes only the range coder, the source and slots of `gs`, and raises only the source's failures. -/
structure CoderOp {α : Type} (gs : List ProbGroup) (s : State) (r : Res α) : Prop where
  post : r.Post (fun _ t => CoderFrame gs s t) (fun k t => CoderFrame gs s t ∧ sourceFailure k)

section
variable {α β : Type} {gs : List ProbGroup} {s : State}

theorem CoderOp.ok (a : α) : CoderOp gs s (.ok a s) := ⟨CoderFrame.refl gs s⟩

theorem CoderOp.fault (e : Fault) : CoderOp gs s (.fault e : Res α) := ⟨trivial⟩

theorem CoderOp.after {t : State} {r : Res α} (h : CoderFrame gs s t) (hr : CoderOp gs t r) : CoderOp gs s r :=
  ⟨Res.Post.imp hr.post (fun _ _ h' => h.trans h') fun _ _ h' => ⟨h.trans h'.1, h'.2⟩⟩

theorem CoderOp.bind {r : Res α} {f : α → State → Res β} (h : CoderOp gs s r) (hf : ∀ a t, CoderOp gs t (f a t)) :
    CoderOp gs s (r.bind f) :=
  ⟨Res.Post.bind h.post fun a t ht => (CoderOp.after ht (hf a t)).post⟩

theorem CoderOp.map {r : Res α} {f : α → β} (h : CoderOp gs s r) : CoderOp gs s (r.map f) := ⟨Res.Post.map h.post⟩

theorem CoderOp.mono {gs' : List ProbGroup} {r : Res α} (h : CoderOp gs s r) (hs : gs ⊆ gs') : CoderOp gs' s r :=
  ⟨Res.Post.imp h.post (fun _ _ h' => h'.mono hs) fun _ _ h' => ⟨h'.1.mono hs, h'.2⟩⟩

end

theorem inByte_frame (gs : List ProbGroup) (s : State) : CoderOp gs s (inByte s) := by
  unfold inByte
  split
  · next h => exact ⟨⟨⟨rfl, rfl, rfl, fun _ _ _ => rfl, by simp [h]⟩, .inr rfl⟩⟩
  · exact ⟨⟨CoderFrame.refl gs s, .inl rfl⟩⟩
  · next h => exact ⟨⟨rfl, rfl, rfl, fun _ _ _ => rfl, by simp [h]⟩⟩

/-- Setting the two registers of the coder. -/
theorem coder_registers (gs : List ProbGroup) (s : State) (r c : Word) : CoderFrame gs s { s with range := r, code := c } :=
  ⟨rfl, rfl, rfl, fun _ _ _ => rfl, List.suffix_refl _⟩

theorem loadCode_frame (gs : List ProbGroup) (n : Nat) (s : State) : CoderOp gs s (loadCode n s) := by
  induction n generalizing s with
  | zero => exact CoderOp.ok ()
  | succ n ih =>
    exact (inByte_frame gs s).bind fun b t => CoderOp.after (coder_registers gs t t.range _) (ih _)

theorem rcInit_frame (gs : List ProbGroup) (s : State) : CoderOp gs s (rcInit s) :=
  (inByte_frame gs s).bind fun _ t => CoderOp.after (coder_registers gs t t.range _) <|
    (loadCode_frame gs 4 _).bind fun _ u => CoderOp.after (coder_registers gs u _ u.code) (CoderOp.ok ())

theorem normalizeLoop_frame (gs : List ProbGroup) (n : Nat) (s : State) : CoderOp gs s (normalizeLoop n s) := by
  induction n generalizing s with
  | zero => exact CoderOp.ok ()
  | succ n ih =>
    unfold normalizeLoop
    split
    · exact (inByte_frame gs s).bind fun b t => CoderOp.after (coder_registers gs t _ _) (ih _)
    · exact CoderOp.ok ()

theorem rcNormalize_frame (gs : List ProbGroup) (s : State) : CoderOp gs s (rcNormalize s) := normalizeLoop_frame gs _ s

/-- Adapting a slot of the group `g` and setting the registers of the coder. -/
theorem coder_slot {gs : List ProbGroup} {g : ProbGroup} (hg : g ∈ gs) (s : State) (i : Nat) (v : Slot) (r c : Word) :
    CoderFrame gs s { s with range := r, code := c, mem := s.mem.setSlot (slotKey g i) v } where
  rest := rfl
  win := by simp
  fill := by simp
  slots g' i' hg' := Memory.slot_setSlot_of_ne _ _ fun h => hg' ((slotKey_inj h).1 ▸ hg)
  source := List.suffix_refl _

theorem takeSlotBit_frame {gs : List ProbGroup} {g : ProbGroup} (hg : g ∈ gs) (i : Int) (bit : Bool) (s : State) :
    CoderOp gs s (takeSlotBit g i bit s) := by
  unfold takeSlotBit
  split
  · exact CoderOp.fault _
  · cases bit
    · exact CoderOp.after (coder_slot hg s i.toNat _ _ s.code) (rcNormalize_frame gs _)
    · exact CoderOp.after (coder_slot hg s i.toNat _ _ _) (rcNormalize_frame gs _)

theorem takeDirectBit_frame (gs : List ProbGroup) (bit : Bool) (s : State) : CoderOp gs s (takeDirectBit bit s) := by
  unfold takeDirectBit
  cases bit
  · exact CoderOp.after (coder_registers gs s _ s.code) (rcNormalize_frame gs _)
  · exact CoderOp.after (coder_registers gs s _ _) (rcNormalize_frame gs _)

theorem rcBit_frame {gs : List ProbGroup} {g : ProbGroup} (hg : g ∈ gs) (i : Int) (s : State) : CoderOp gs s (rcBit g i s) := by
  unfold rcBit
  split
  · exact CoderOp.fault _
  · exact (takeSlotBit_frame hg i _ s).map

theorem directLoop_frame (gs : List ProbGroup) (n : Nat) (acc : Word) (s : State) : CoderOp gs s (directLoop n acc s) := by
  induction n generalizing acc s with
  | zero => exact CoderOp.ok acc
  | succ n ih => exact (takeDirectBit_frame gs _ s).map.bind fun _ t => ih _ t

theorem rcDirect_frame (gs : List ProbGroup) (n : Nat) (s : State) : CoderOp gs s (rcDirect n s) := directLoop_frame gs n _ s

theorem treeWalk_frame {gs : List ProbGroup} {g : ProbGroup} (hg : g ∈ gs) (base : Int) (d m : Nat) (s : State) :
    CoderOp gs s (treeWalk g base d m s) := by
  induction d generalizing m s with
  | zero => exact CoderOp.ok m
  | succ d ih => exact (rcBit_frame hg _ s).bind fun _ t => ih _ t

theorem btDecode_frame {gs : List ProbGroup} {g : ProbGroup} (hg : g ∈ gs) (base : Int) (d : Nat) (s : State) :
    CoderOp gs s (btDecode g base d s) := (treeWalk_frame hg base d 1 s).map

theorem reverseWalk_frame {gs : List ProbGroup} {g : ProbGroup} (hg : g ∈ gs) (base : Int) (d k m r : Nat) (s : State) :
    CoderOp gs s (reverseWalk g base d k m r s) := by
  induction d generalizing k m r s with
  | zero => exact CoderOp.ok r
  | succ d ih => exact (rcBit_frame hg _ s).bind fun _ t => ih _ _ _ t

theorem btReverse_frame {gs : List ProbGroup} {g : ProbGroup} (hg : g ∈ gs) (base : Int) (d : Nat) (s : State) :
    CoderOp gs s (btReverse g base d s) := reverseWalk_frame hg base d 0 1 0 s

theorem lenDecode_frame {gs : List ProbGroup} (x : LenInst) (hx : lenGroups x ⊆ gs) (ps : Nat) (s : State) :
    CoderOp gs s (lenDecode x ps s) := by
  have hc : x.choice ∈ gs := hx (by simp [lenGroups])
  have hl : x.low ∈ gs := hx (by simp [lenGroups])
  have hm : x.mid ∈ gs := hx (by simp [lenGroups])
  have hh : x.high ∈ gs := hx (by simp [lenGroups])
  refine (rcBit_frame hc _ s).bind fun b t => ?_
  split
  · exact (btDecode_frame hl _ _ t).map
  · refine (rcBit_frame hc _ t).bind fun b' u => ?_
    split
    · exact (btDecode_frame hm _ _ u).map
    · exact (btDecode_frame hh _ _ u).map

/-- The slots a distance adapts (`45_symbols.md` R206). -/
def distGroups : List ProbGroup := [.posSlot, .posDec, .align]

theorem distDecode_frame {gs : List ProbGroup} (hd : distGroups ⊆ gs) (len : Nat) (s : State) :
    CoderOp gs s (distDecode len s) := by
  have hp : ProbGroup.posSlot ∈ gs := hd (by simp [distGroups])
  have hq : ProbGroup.posDec ∈ gs := hd (by simp [distGroups])
  have ha : ProbGroup.align ∈ gs := hd (by simp [distGroups])
  refine (btDecode_frame hp _ _ s).bind fun slot t => ?_
  split
  · exact CoderOp.ok _
  · split
    · exact (btReverse_frame hq _ _ t).map
    · exact (rcDirect_frame gs _ t).bind fun hi u => (btReverse_frame ha _ _ u).map

theorem litNormalLoop_frame {gs : List ProbGroup} (hl : ProbGroup.lit ∈ gs) (base n m : Nat) (s : State) :
    CoderOp gs s (litNormalLoop base n m s) := by
  induction n generalizing m s with
  | zero => exact CoderOp.ok m
  | succ n ih => exact (rcBit_frame hl _ s).bind fun _ t => ih _ t

theorem litNormal_frame {gs : List ProbGroup} (hl : ProbGroup.lit ∈ gs) (base : Nat) (s : State) :
    CoderOp gs s (litNormal base s) := (litNormalLoop_frame hl base 8 1 s).map

theorem litMatchedLoop_frame {gs : List ProbGroup} (hl : ProbGroup.lit ∈ gs) (base n : Nat) (matched : Bool) (mb : Byte)
    (m : Nat) (s : State) : CoderOp gs s (litMatchedLoop base n matched mb m s) := by
  induction n generalizing matched mb m s with
  | zero => exact CoderOp.ok m
  | succ n ih => cases matched <;> exact (rcBit_frame hl _ s).bind fun _ t => ih _ _ _ t

theorem litMatched_frame {gs : List ProbGroup} (hl : ProbGroup.lit ∈ gs) (base : Nat) (mb : Byte) (s : State) :
    CoderOp gs s (litMatched base mb s) := (litMatchedLoop_frame hl base 8 true mb 1 s).map

theorem takeBit_frame {gs : List ProbGroup} (d : Decision) (hd : ∀ g i, d.1 = .slot g i → g ∈ gs) (s : State) :
    CoderOp gs s (takeBit d s) := by
  unfold takeBit
  split
  · next h => exact takeSlotBit_frame (hd _ _ h) _ _ s
  · exact takeDirectBit_frame gs _ s

/-- A sequence of given decisions adapts only slots of the groups it names. -/
theorem takeBits_frame {gs : List ProbGroup} (ds : List Decision) (hd : ∀ d ∈ ds, ∀ g i, d.1 = .slot g i → g ∈ gs) (s : State) :
    CoderOp gs s (takeBits ds s) := by
  induction ds generalizing s with
  | nil => exact CoderOp.ok ()
  | cons d ds ih =>
    exact (takeBit_frame d (hd d (by simp)) s).bind fun _ t => ih (fun e he => hd e (by simp [he])) t

end Sys2Proof.Machine
end

