-- ==== Sys2Proof/Laws/CoderRuns.lean ====
section
/-! SUPPORT. When the operations of the range decoder complete: with the coder within its bounds and enough bytes supplied, every
decision completes, takes at most one byte, and leaves the coder within its bounds (`40_range_decoder.md` R137, R138, R141). -/

set_option Elab.async false

namespace Sys2Proof.Machine

/-! ### Supplied bytes -/

theorem supplies_mono {n m : Nat} (h : n ≤ m) {l : List SourceAnswer} (hs : supplies m l = true) : supplies n l = true := by
  induction n generalizing m l with
  | zero => rfl
  | succ n ih =>
    cases m with
    | zero => omega
    | succ m =>
      match l with
      | .byte b :: rest => exact ih (by omega) hs
      | .failure :: rest => simp [supplies] at hs
      | [] => simp [supplies] at hs

theorem supplies_succ {n : Nat} {l : List SourceAnswer} (h : supplies (n + 1) l = true) :
    ∃ b rest, l = .byte b :: rest ∧ supplies n rest = true := by
  match l with
  | .byte b :: rest => exact ⟨b, rest, rfl, h⟩
  | .failure :: rest => simp [supplies] at h
  | [] => simp [supplies] at h

/-! ### Renormalisation -/

theorem shift_toNat (r : Word) (h : r.toNat < 2 ^ 24) : (r <<< 8).toNat = r.toNat * 256 := by
  rw [BitVec.toNat_shiftLeft, Nat.shiftLeft_eq]
  omega

theorem lt_top_iff (r : Word) : r < top ↔ ¬ 2 ^ 24 ≤ r.toNat := by
  rw [BitVec.lt_def]; simp

/-- In a state with `range` at least 2^16 the loop turns at most once (R141). -/
theorem rcNormalize_eq {s : State} (hr : 2 ^ 16 ≤ s.range.toNat) (hs : supplies 1 s.source = true) :
    rcNormalize s = .ok () (normalized s) := by
  obtain ⟨b, rest, hb, -⟩ := supplies_succ hs
  unfold rcNormalize normalized
  by_cases h : 2 ^ 24 ≤ s.range.toNat
  · unfold normalizeLoop
    rw [if_neg ((lt_top_iff _).not.2 (not_not.2 h)), if_pos h]
  · rw [hb, if_neg h]
    unfold normalizeLoop
    rw [if_pos ((lt_top_iff _).2 h)]
    have h2 : ¬ (s.range <<< 8) < top := by
      rw [lt_top_iff, shift_toNat _ (by omega)]; omega
    simp [inByte, hb, normalizeLoop, h2]

theorem rcNormalize_of_le {s : State} (hr : 2 ^ 24 ≤ s.range.toNat) : rcNormalize s = .ok () s := by
  unfold rcNormalize normalizeLoop
  rw [if_neg ((lt_top_iff _).not.2 (not_not.2 hr))]

theorem normalized_range {s : State} (hr : 2 ^ 16 ≤ s.range.toNat) (hs : supplies 1 s.source = true) :
    2 ^ 24 ≤ (normalized s).range.toNat := by
  obtain ⟨b, rest, hb, -⟩ := supplies_succ hs
  unfold normalized
  split
  · assumption
  · rw [hb]
    show 2 ^ 24 ≤ (s.range <<< 8).toNat
    rw [shift_toNat _ (by omega)]; omega

@[simp] theorem normalized_mem (s : State) : (normalized s).mem = s.mem := by
  unfold normalized; split
  · rfl
  · split <;> rfl

theorem normalized_supplies {s : State} {n : Nat} (hs : supplies (n + 1) s.source = true) :
    supplies n (normalized s).source = true := by
  obtain ⟨b, rest, hb, hn⟩ := supplies_succ hs
  unfold normalized
  split
  · exact supplies_mono (by omega) hs
  · rw [hb]; exact hn

/-! ### Arithmetic (R136, R137, R140) -/

/-- The product does not overflow (R140). -/
theorem rcBound_toNat (r : Word) (p : Slot) : (rcBound r p).toNat = r.toNat / 2048 * p.toNat := by
  have hr := r.isLt
  have hp := p.isLt
  unfold rcBound
  rw [BitVec.toNat_mul, BitVec.toNat_ushiftRight, BitVec.toNat_setWidth, Nat.shiftRight_eq_div_pow]
  have h1 : p.toNat % 2 ^ 32 = p.toNat := Nat.mod_eq_of_lt (by omega)
  rw [h1]
  apply Nat.mod_eq_of_lt
  have h2 : r.toNat / 2048 < 2 ^ 21 := by omega
  calc r.toNat / 2 ^ probBits * p.toNat ≤ (2 ^ 21 - 1) * (2 ^ 11 - 1) :=
        Nat.mul_le_mul (by show r.toNat / 2048 ≤ _; omega) (by omega)
    _ < 2 ^ 32 := by norm_num

/-- Both parts of the interval keep at least 2^13 * 31 (R138). -/
theorem rcBound_bounds {r : Word} {p : Slot} (hr : 2 ^ 24 ≤ r.toNat) (hp : 31 ≤ p.toNat ∧ p.toNat ≤ 2017) :
    253952 ≤ (rcBound r p).toNat ∧ (rcBound r p).toNat + 253952 ≤ r.toNat := by
  rw [rcBound_toNat]
  obtain ⟨h1, h2⟩ := hp
  have hq : 2 ^ 13 ≤ r.toNat / 2048 := by omega
  have hle : r.toNat / 2048 * 2048 ≤ r.toNat := Nat.div_mul_le_self _ _
  constructor
  · calc 253952 = 2 ^ 13 * 31 := by norm_num
      _ ≤ r.toNat / 2048 * p.toNat := Nat.mul_le_mul hq h1
  · have hsum : r.toNat / 2048 * p.toNat + r.toNat / 2048 * (2048 - p.toNat) = r.toNat / 2048 * 2048 := by
      rw [← Nat.mul_add]; congr 1; omega
    have h3 : 2 ^ 13 * 31 ≤ r.toNat / 2048 * (2048 - p.toNat) := Nat.mul_le_mul hq (by omega)
    omega

theorem sub_toNat {a b : Word} (h : b.toNat ≤ a.toNat) : (a - b).toNat = a.toNat - b.toNat := by
  rw [BitVec.toNat_sub]
  have := a.isLt
  have := b.isLt
  omega

theorem adapt_toNat_false (p : Slot) : (adapt p false).toNat = p.toNat + (2048 - p.toNat) / 32 := by
  have hp := p.isLt
  simp only [adapt, Bool.false_eq_true, if_false, BitVec.toNat_ofNat, Nat.shiftRight_eq_div_pow]
  show (p.toNat + (2048 - p.toNat) / 32) % 2 ^ 11 = _
  omega

theorem adapt_toNat_true (p : Slot) : (adapt p true).toNat = p.toNat - p.toNat / 32 := by
  have hp := p.isLt
  simp only [adapt, if_true]
  rw [BitVec.toNat_sub, BitVec.toNat_ushiftRight, Nat.shiftRight_eq_div_pow]
  show (2 ^ 11 - p.toNat / 32 + p.toNat) % 2 ^ 11 = _
  omega

/-- The bounds of R137 are kept by either branch of R136. -/
theorem adapt_bounds {p : Slot} (hp : 31 ≤ p.toNat ∧ p.toNat ≤ 2017) (bit : Bool) :
    31 ≤ (adapt p bit).toNat ∧ (adapt p bit).toNat ≤ 2017 := by
  cases bit
  · rw [adapt_toNat_false]; omega
  · rw [adapt_toNat_true]; omega

/-- Adapting a listed slot keeps the bounds of every listed slot. -/
theorem setSlot_slots {m : Memory} (h : ∀ c ∈ m.prob, 31 ≤ c.2.toNat ∧ c.2.toNat ≤ 2017) {v : Slot}
    (hv : 31 ≤ v.toNat ∧ v.toNat ≤ 2017) (k : Nat) :
    ∀ c ∈ (m.setSlot k v).prob, 31 ≤ c.2.toNat ∧ c.2.toNat ≤ 2017 := by
  intro c hc
  unfold Memory.setSlot at hc
  split at hc
  · exact h c (Cells.mem_erase hc)
  · rcases Cells.mem_insert hc with rfl | hc
    · exact hv
    · exact h c hc

/-! ### Operations that complete -/

/-- `r`, begun in `s`, completes when `k` bytes are supplied, takes at most `k`, and leaves the coder within its bounds. -/
structure CoderRuns {α : Type} (k : Nat) (s : State) (r : Res α) : Prop where
  run : ∀ n, supplies (n + k) s.source = true → ∃ a t, r = .ok a t ∧ CoderOk t ∧ supplies n t.source = true

section
variable {α β : Type} {s : State}

theorem CoderRuns.ok (h : CoderOk s) (a : α) : CoderRuns 0 s (.ok a s) := ⟨fun _ hn => ⟨a, s, rfl, h, hn⟩⟩

theorem CoderRuns.mono {k l : Nat} {r : Res α} (h : CoderRuns k s r) (hkl : k ≤ l) : CoderRuns l s r :=
  ⟨fun n hn => h.run n (supplies_mono (by omega) hn)⟩

/-- One operation after another; the second is told the frame of the first. -/
theorem CoderRuns.bind {k l : Nat} {gs : List ProbGroup} {r : Res α} {f : α → State → Res β} (h : CoderRuns k s r)
    (hf : CoderOp gs s r) (hg : ∀ a t, r = .ok a t → CoderOk t → CoderFrame gs s t → CoderRuns l t (f a t)) :
    CoderRuns (k + l) s (r.bind f) := by
  refine ⟨fun n hn => ?_⟩
  obtain ⟨a, t, hr, ht, hl⟩ := h.run (n + l) (by rwa [Nat.add_assoc, Nat.add_comm l k])
  have hfr : CoderFrame gs s t := by have := hf.post; rw [hr] at this; exact this
  rw [hr]
  exact (hg a t hr ht hfr).run n hl

theorem CoderRuns.map {k : Nat} {r : Res α} {f : α → β} (h : CoderRuns k s r) : CoderRuns k s (r.map f) := by
  refine ⟨fun n hn => ?_⟩
  obtain ⟨a, t, hr, ht⟩ := h.run n hn
  exact ⟨f a, t, by rw [hr]; rfl, ht⟩

end

theorem slot?_eq {s : State} {g : ProbGroup} {i : Int} (h : 0 ≤ i ∧ i < groupSize s g) :
    s.slot? g i = some (s.mem.slot (slotKey g i.toNat)) := by
  unfold State.slot?; rw [if_pos h]

/-- The state `RC_BIT` decodes the bit in, before it renormalises (R134). -/
def afterBit (g : ProbGroup) (i : Int) (bit : Bool) (s : State) : State :=
  let p := s.mem.slot (slotKey g i.toNat)
  let mem := s.mem.setSlot (slotKey g i.toNat) (adapt p bit)
  if bit then { s with range := s.range - rcBound s.range p, code := s.code - rcBound s.range p, mem := mem }
  else { s with range := rcBound s.range p, mem := mem }

theorem afterBit_range {g : ProbGroup} {i : Int} {bit : Bool} {s : State} (h : CoderOk s) :
    2 ^ 16 ≤ (afterBit g i bit s).range.toNat := by
  obtain ⟨h1, h2⟩ := rcBound_bounds h.range (Memory.slot_bounds h.fill h.slots (slotKey g i.toNat))
  cases bit
  · show 2 ^ 16 ≤ (rcBound _ _).toNat; omega
  · show 2 ^ 16 ≤ (s.range - rcBound _ _).toNat
    rw [sub_toNat (by omega)]; omega

theorem afterBit_mem (g : ProbGroup) (i : Int) (bit : Bool) (s : State) : (afterBit g i bit s).mem =
    s.mem.setSlot (slotKey g i.toNat) (adapt (s.mem.slot (slotKey g i.toNat)) bit) := by
  cases bit <;> rfl

theorem afterBit_source (g : ProbGroup) (i : Int) (bit : Bool) (s : State) : (afterBit g i bit s).source = s.source := by
  cases bit <;> rfl

/-- With the coder within its bounds and a byte supplied, a modelled bit is one update and one `if` (R134, R141). -/
theorem takeSlotBit_eq {s : State} {g : ProbGroup} {i : Int} {bit : Bool} (h : CoderOk s) (hi : 0 ≤ i ∧ i < groupSize s g)
    (hs : supplies 1 s.source = true) : takeSlotBit g i bit s = .ok () (normalized (afterBit g i bit s)) := by
  have h1 : takeSlotBit g i bit s = rcNormalize (afterBit g i bit s) := by
    unfold takeSlotBit; rw [slot?_eq hi]; rfl
  rw [h1]
  exact rcNormalize_eq (afterBit_range h) (by rwa [afterBit_source])

theorem takeSlotBit_runs {s : State} {g : ProbGroup} {i : Int} (bit : Bool) (h : CoderOk s)
    (hi : 0 ≤ i ∧ i < groupSize s g) : CoderRuns 1 s (takeSlotBit g i bit s) := by
  refine ⟨fun n hn => ⟨(), _, takeSlotBit_eq h hi (supplies_mono (by omega) hn), ⟨?_, ?_, ?_⟩, ?_⟩⟩
  · exact normalized_range (afterBit_range h) (by rw [afterBit_source]; exact supplies_mono (by omega) hn)
  · simp [afterBit_mem, h.fill]
  · rw [normalized_mem, afterBit_mem]
    exact setSlot_slots h.slots (adapt_bounds (Memory.slot_bounds h.fill h.slots _) bit) _
  · exact normalized_supplies (by rwa [afterBit_source])

theorem half_toNat (r : Word) : (r >>> 1).toNat = r.toNat / 2 := by
  rw [BitVec.toNat_ushiftRight, Nat.shiftRight_eq_div_pow]

/-- The state a turn of `RC_DIRECT` decodes the bit in, before it renormalises (R135). -/
def afterDirect (bit : Bool) (s : State) : State :=
  if bit then { s with range := s.range >>> 1, code := s.code - s.range >>> 1 } else { s with range := s.range >>> 1 }

theorem afterDirect_range (bit : Bool) (s : State) : (afterDirect bit s).range = s.range >>> 1 := by cases bit <;> rfl
theorem afterDirect_mem (bit : Bool) (s : State) : (afterDirect bit s).mem = s.mem := by cases bit <;> rfl
theorem afterDirect_source (bit : Bool) (s : State) : (afterDirect bit s).source = s.source := by cases bit <;> rfl

theorem takeDirectBit_eq {s : State} {bit : Bool} (h : 2 ^ 24 ≤ s.range.toNat) (hs : supplies 1 s.source = true) :
    takeDirectBit bit s = .ok () (normalized (afterDirect bit s)) := by
  have h1 : takeDirectBit bit s = rcNormalize (afterDirect bit s) := rfl
  rw [h1]
  exact rcNormalize_eq (by rw [afterDirect_range, half_toNat]; omega) (by rwa [afterDirect_source])

theorem takeDirectBit_runs {s : State} (bit : Bool) (h : CoderOk s) : CoderRuns 1 s (takeDirectBit bit s) := by
  refine ⟨fun n hn => ⟨(), _, takeDirectBit_eq h.range (supplies_mono (by omega) hn), ⟨?_, ?_, ?_⟩, ?_⟩⟩
  · have := h.range
    exact normalized_range (by rw [afterDirect_range, half_toNat]; omega)
      (by rw [afterDirect_source]; exact supplies_mono (by omega) hn)
  · simp [afterDirect_mem, h.fill]
  · simpa [afterDirect_mem] using h.slots
  · exact normalized_supplies (by rwa [afterDirect_source])

theorem rcBit_runs {s : State} {g : ProbGroup} {i : Int} (h : CoderOk s) (hi : 0 ≤ i ∧ i < groupSize s g) :
    CoderRuns 1 s (rcBit g i s) := by
  unfold rcBit; rw [slot?_eq hi]
  exact (takeSlotBit_runs _ h hi).map

theorem directBit_runs {s : State} (h : CoderOk s) : CoderRuns 1 s (directBit s) := (takeDirectBit_runs _ h).map

theorem rcDirect_runs {s : State} (h : CoderOk s) (n : Nat) : CoderRuns n s (rcDirect n s) := by
  unfold rcDirect
  generalize 0#32 = acc
  induction n generalizing acc s with
  | zero => exact CoderRuns.ok h acc
  | succ n ih =>
    refine CoderRuns.mono (k := 1 + n) ?_ (by omega)
    exact (directBit_runs h).bind (takeDirectBit_frame [] _ s).map fun bit t _ ht _ => ih ht _

theorem groupSize_frame {gs : List ProbGroup} {s t : State} (h : CoderFrame gs s t) (g : ProbGroup) :
    groupSize t g = groupSize s g := by
  obtain ⟨-, -, -, -, -, -, -, hc, hp, hb, -⟩ := h.fields
  exact groupSize_congr g hb hc hp

/-- A walk of `d` steps from a node `m` of a tree of depth `e` stays in the tree when it starts high enough. -/
theorem treeWalk_runs {s : State} {g : ProbGroup} {base : Int} {d m e : Nat} (h : CoderOk s) (h0 : 0 ≤ base + 1)
    (he : base + 2 ^ e ≤ groupSize s g) (hm : 1 ≤ m) (hd : (m + 1) * 2 ^ d ≤ 2 * 2 ^ e) :
    CoderRuns d s (treeWalk g base d m s) := by
  induction d generalizing m s with
  | zero => exact CoderRuns.ok h m
  | succ d ih =>
    refine CoderRuns.mono (k := 1 + d) ?_ (by omega)
    have hpos : 1 ≤ 2 ^ d := Nat.one_le_two_pow
    have hm' : m + 1 ≤ 2 ^ e := by
      have h2 : (m + 1) * 2 ^ (d + 1) = 2 * ((m + 1) * 2 ^ d) := by rw [pow_succ]; ring
      have h3 : m + 1 ≤ (m + 1) * 2 ^ d := Nat.le_mul_of_pos_right _ hpos
      omega
    have hm'' : ((m : Int) + 1) ≤ 2 ^ e := by exact_mod_cast hm'
    refine (rcBit_runs (i := base + m) h ⟨by omega, by omega⟩).bind (rcBit_frame (List.mem_singleton_self g) _ s) fun bit t _ ht hf => ?_
    refine ih ht (by rw [groupSize_frame hf]; exact he) (by omega) ?_
    have hb : bit.toNat ≤ 1 := by cases bit <;> simp
    calc (2 * m + bit.toNat + 1) * 2 ^ d ≤ (2 * (m + 1)) * 2 ^ d := Nat.mul_le_mul_right _ (by omega)
      _ = (m + 1) * 2 ^ (d + 1) := by rw [pow_succ]; ring
      _ ≤ 2 * 2 ^ e := hd

theorem btDecode_runs {s : State} {g : ProbGroup} {base : Int} {d : Nat} (h : CoderOk s) (h0 : 0 ≤ base + 1)
    (he : base + 2 ^ d ≤ groupSize s g) : CoderRuns d s (btDecode g base d s) :=
  (treeWalk_runs h h0 he le_rfl (by omega)).map

theorem reverseWalk_runs {s : State} {g : ProbGroup} {base : Int} {d k m r e : Nat} (h : CoderOk s) (h0 : 0 ≤ base + 1)
    (he : base + 2 ^ e ≤ groupSize s g) (hm : 1 ≤ m) (hd : (m + 1) * 2 ^ d ≤ 2 * 2 ^ e) :
    CoderRuns d s (reverseWalk g base d k m r s) := by
  induction d generalizing m s k r with
  | zero => exact CoderRuns.ok h r
  | succ d ih =>
    refine CoderRuns.mono (k := 1 + d) ?_ (by omega)
    have hpos : 1 ≤ 2 ^ d := Nat.one_le_two_pow
    have hm' : m + 1 ≤ 2 ^ e := by
      have h2 : (m + 1) * 2 ^ (d + 1) = 2 * ((m + 1) * 2 ^ d) := by rw [pow_succ]; ring
      have h3 : m + 1 ≤ (m + 1) * 2 ^ d := Nat.le_mul_of_pos_right _ hpos
      omega
    have hm'' : ((m : Int) + 1) ≤ 2 ^ e := by exact_mod_cast hm'
    refine (rcBit_runs (i := base + m) h ⟨by omega, by omega⟩).bind (rcBit_frame (List.mem_singleton_self g) _ s) fun bit t _ ht hf => ?_
    refine ih ht (by rw [groupSize_frame hf]; exact he) (by omega) ?_
    have hb : bit.toNat ≤ 1 := by cases bit <;> simp
    calc (2 * m + bit.toNat + 1) * 2 ^ d ≤ (2 * (m + 1)) * 2 ^ d := Nat.mul_le_mul_right _ (by omega)
      _ = (m + 1) * 2 ^ (d + 1) := by rw [pow_succ]; ring
      _ ≤ 2 * 2 ^ e := hd

theorem btReverse_runs {s : State} {g : ProbGroup} {base : Int} {d : Nat} (h : CoderOk s) (h0 : 0 ≤ base + 1)
    (he : base + 2 ^ d ≤ groupSize s g) : CoderRuns d s (btReverse g base d s) :=
  reverseWalk_runs h h0 he le_rfl (by omega)

/-- The decision is decoded on a slot its group has. -/
def Decision.inGroup (s : State) (d : Decision) : Prop := ∀ g i, d.1 = .slot g i → 0 ≤ i ∧ i < groupSize s g

theorem takeBit_runs {s : State} {d : Decision} (h : CoderOk s) (hd : Decision.inGroup s d) : CoderRuns 1 s (takeBit d s) := by
  unfold takeBit
  split
  · next hg => exact takeSlotBit_runs _ h (hd _ _ hg)
  · exact takeDirectBit_runs _ h

/-- A sequence of given decisions completes when a byte for each is supplied. -/
theorem takeBits_runs {s : State} {ds : List Decision} (h : CoderOk s) (hd : ∀ d ∈ ds, Decision.inGroup s d) :
    CoderRuns ds.length s (takeBits ds s) := by
  induction ds generalizing s with
  | nil => exact CoderRuns.ok h ()
  | cons d ds ih =>
    rw [List.length_cons, Nat.add_comm]
    refine (takeBit_runs h (hd d (by simp))).bind (takeBit_frame (gs := (d.1 |> fun | .slot g _ => [g] | .direct => [])) d
      (by intro g i hg; rw [hg]; simp) s) fun _ t _ ht hf => ih ht fun e he g i hg => ?_
    rw [groupSize_frame hf]
    exact hd e (by simp [he]) g i hg

end Sys2Proof.Machine
end

