-- ==== Sys2Proof/Laws/Window.lean ====
section
/-! SUPPORT. What the operations of the output window do: their frame, and that they append to the output
(`44_output_window.md` R182 to R188). -/

set_option Elab.async false

namespace Sys2Proof.Machine

/-! ### Frames -/

/-- `t` differs from `s` only in the window, its cursors and the sink. -/
structure WinFrame (s t : State) : Prop where
  rest : t = { s with mem := t.mem, writeCursor := t.writeCursor, watermark := t.watermark, sink := t.sink,
                      sinkAnswers := t.sinkAnswers }
  prob : t.mem.prob = s.mem.prob
  fill : t.mem.probFill = s.mem.probFill
  sink : s.sink <+: t.sink

theorem WinFrame.refl (s : State) : WinFrame s s := ⟨rfl, rfl, rfl, List.prefix_refl _⟩

theorem WinFrame.trans {s t u : State} (h : WinFrame s t) (h' : WinFrame t u) : WinFrame s u where
  rest := by
    rw [h'.rest]
    conv_lhs => rw [h.rest]
  prob := h'.prob.trans h.prob
  fill := h'.fill.trans h.fill
  sink := h.sink.trans h'.sink

theorem WinFrame.fields {s t : State} (h : WinFrame s t) :
    t.range = s.range ∧ t.code = s.code ∧ t.state = s.state ∧ t.rep0 = s.rep0 ∧ t.rep1 = s.rep1 ∧ t.rep2 = s.rep2 ∧
    t.rep3 = s.rep3 ∧ t.position = s.position ∧ t.prevByte = s.prevByte ∧ t.lc = s.lc ∧ t.lp = s.lp ∧ t.pb = s.pb ∧
    t.dictionarySize = s.dictionarySize ∧ t.posStateMask = s.posStateMask ∧ t.literalPosMask = s.literalPosMask ∧
    t.dictionarySizeCheck = s.dictionarySizeCheck ∧ t.windowSize = s.windowSize ∧ t.ipos = s.ipos ∧
    t.expectedLength = s.expectedLength ∧ t.phase = s.phase ∧ t.status = s.status ∧ t.source = s.source ∧
    t.issued = s.issued ∧ t.resetInput = s.resetInput ∧ t.result = s.result ∧ t.freeCount = s.freeCount := by
  rw [h.rest]; simp

theorem WinFrame.ports {s t : State} (h : WinFrame s t) : Ports s t := by
  have hf := h.fields
  obtain ⟨-, -, -, -, -, -, -, -, -, -, -, -, -, -, -, -, -, -, -, -, -, hs, hi, hr, -, hc⟩ := hf
  exact ⟨hi, hr, hc, hs ▸ List.suffix_refl _, h.sink⟩

/-- `r`, begun in `s`, changes only the window, its cursors and the sink, keeps the memory's form, and raises only `IoError`. -/
structure WinOp {α : Type} (s : State) (r : Res α) : Prop where
  post : r.Post (fun _ t => WinFrame s t ∧ (s.mem.wf = true → t.mem.wf = true))
    (fun k t => WinFrame s t ∧ k = .ioError)

section
variable {α β : Type} {s : State}

theorem WinOp.ok (a : α) : WinOp s (.ok a s) := ⟨WinFrame.refl s, id⟩

theorem WinOp.fault (e : Fault) : WinOp s (.fault e : Res α) := ⟨trivial⟩

theorem WinOp.after {t : State} {r : Res α} (h : WinFrame s t) (hw : s.mem.wf = true → t.mem.wf = true) (hr : WinOp t r) :
    WinOp s r :=
  ⟨Res.Post.imp hr.post (fun _ _ h' => ⟨h.trans h'.1, fun h0 => h'.2 (hw h0)⟩) fun _ _ h' => ⟨h.trans h'.1, h'.2⟩⟩

theorem WinOp.bind {r : Res α} {f : α → State → Res β} (h : WinOp s r) (hf : ∀ a t, WinOp t (f a t)) : WinOp s (r.bind f) :=
  ⟨Res.Post.bind h.post fun a t ht => (WinOp.after ht.1 ht.2 (hf a t)).post⟩

theorem WinOp.map {r : Res α} {f : α → β} (h : WinOp s r) : WinOp s (r.map f) := ⟨Res.Post.map h.post⟩

end

theorem winRead_frame (a : Nat) (s : State) : WinOp s (winRead a s) := by
  unfold winRead
  split
  · split
    · exact WinOp.ok _
    · exact WinOp.fault _
  · exact WinOp.fault _

theorem winGet_frame (d : Word) (s : State) : WinOp s (winGet d s) := by
  unfold winGet
  split
  · exact winRead_frame _ s
  · exact WinOp.fault _

theorem sinkWrite_frame (bytes : List Byte) (s : State) : WinOp s (sinkWrite bytes s) := by
  unfold sinkWrite
  split
  · exact ⟨⟨rfl, rfl, rfl, List.prefix_refl _⟩, rfl⟩
  · exact ⟨⟨rfl, rfl, rfl, List.prefix_append _ _⟩, id⟩
  · exact ⟨⟨rfl, rfl, rfl, List.prefix_append _ _⟩, id⟩

theorem winRegion_frame (n a : Nat) (s : State) : WinOp s (winRegion n a s) := by
  induction n generalizing a s with
  | zero => exact WinOp.ok _
  | succ n ih => exact (winRead_frame a s).bind fun b t => (ih _ t).map

theorem winFlush_frame (s : State) : WinOp s (winFlush s) := by
  unfold winFlush
  refine WinOp.bind ?_ fun _ t => ⟨⟨rfl, rfl, rfl, List.prefix_refl _⟩, id⟩
  split
  · exact (winRegion_frame _ _ s).bind fun bytes t => sinkWrite_frame bytes t
  · exact WinOp.ok ()

theorem winPut_frame (b : Byte) (s : State) : WinOp s (winPut b s) := by
  unfold winPut
  split
  · refine WinOp.after (t := { s with mem := s.mem.setWin s.writeCursor.toNat b, writeCursor := s.writeCursor + 1#32 })
      ⟨rfl, rfl, rfl, List.prefix_refl _⟩ (fun h => Memory.wf_setWin h _ _) ?_
    simp only
    split
    · exact winFlush_frame _
    · exact WinOp.ok ()
  · exact WinOp.fault _

theorem copyLoop_frame (n pos : Nat) (s : State) : WinOp s (copyLoop n pos s) := by
  induction n generalizing pos s with
  | zero => exact WinOp.ok ()
  | succ n ih => exact (winRead_frame pos s).bind fun b t => (winPut_frame b t).bind fun _ u => ih _ u

theorem winCopy_frame (d : Word) (n : Nat) (s : State) : WinOp s (winCopy d n s) := by
  unfold winCopy
  split
  · exact copyLoop_frame _ _ s
  · exact WinOp.fault _

/-! ### Where a distance points (R181) -/

/-- The index `d + 1` places behind the cursor, for a cursor and a distance inside the window. -/
def behind (ws wc d : Nat) : Nat := if d < wc then wc - d - 1 else ws + wc - d - 1

theorem behind_lt {ws wc d : Nat} (hc : wc < ws) (_hd : d < ws) : behind ws wc d < ws := by
  unfold behind; split <;> omega

theorem srcIndex_eq {s : State} {d : Word} (hc : s.writeCursor.toNat < s.windowSize.toNat)
    (hd : d.toNat < s.windowSize.toNat) : srcIndex s d = behind s.windowSize.toNat s.writeCursor.toNat d.toNat := by
  unfold srcIndex behind
  split
  · next h =>
    rw [show ((s.writeCursor.toNat : Int) - d.toNat - 1) = ((s.writeCursor.toNat - d.toNat - 1 : Nat) : Int) by omega,
      ← Int.natCast_emod, Int.toNat_natCast, Nat.mod_eq_of_lt (by omega)]
  · next h =>
    rw [show ((s.writeCursor.toNat : Int) - d.toNat - 1) =
      ((s.windowSize.toNat + s.writeCursor.toNat - d.toNat - 1 : Nat) : Int) - s.windowSize.toNat by omega,
      Int.sub_emod_right, ← Int.natCast_emod, Int.toNat_natCast, Nat.mod_eq_of_lt (by omega)]

/-- Moving the cursor on moves every place one back. -/
theorem behind_succ {ws wc d : Nat} (_hc : wc < ws) (hd : d + 1 < ws) :
    behind ws (if wc + 1 = ws then 0 else wc + 1) (d + 1) = behind ws wc d := by
  unfold behind; split <;> split <;> split <;> omega

theorem behind_zero {ws wc : Nat} (_hc : wc < ws) : behind ws (if wc + 1 = ws then 0 else wc + 1) 0 = wc := by
  unfold behind; split <;> split <;> omega

theorem behind_ne {ws wc d : Nat} (_hc : wc < ws) (hd : d + 1 < ws) : behind ws wc d ≠ wc := by
  unfold behind; split <;> omega

/-! ### The window holds the end of the output -/

/-- The last `p` bytes of the output that the window can hold stand where the distances name them, and no more is unflushed than
`p`. -/
structure WinRep (p : Nat) (s : State) : Prop where
  order : s.watermark.toNat ≤ s.writeCursor.toNat
  inside : s.writeCursor.toNat < s.windowSize.toNat
  produced : p ≤ (emitted s).length
  window : ∀ d, d < p → d < s.windowSize.toNat →
    Cells.find s.mem.win (behind s.windowSize.toNat s.writeCursor.toNat d) = (emitted s).reverse[d]?
  unflushed : s.writeCursor.toNat ≤ s.watermark.toNat + p

/-- Every element of the unflushed region holds a value. -/
theorem WinRep.written {p : Nat} {s : State} (h : WinRep p s) {a : Nat} (h1 : s.watermark.toNat ≤ a)
    (h2 : a < s.writeCursor.toNat) : (Cells.find s.mem.win a).isSome = true := by
  have h3 := h.unflushed
  have h4 := h.inside
  have h5 := h.produced
  have hw := h.window (s.writeCursor.toNat - a - 1) (by omega) (by omega)
  have hb : behind s.windowSize.toNat s.writeCursor.toNat (s.writeCursor.toNat - a - 1) = a := by
    unfold behind; rw [if_pos (by omega)]; omega
  rw [hb] at hw
  rw [hw, List.getElem?_reverse (by omega)]
  simp; omega

theorem winRegion_eq {n a : Nat} {s : State} (hw : ∀ j < n, (Cells.find s.mem.win (a + j)).isSome = true)
    (hs : a + n ≤ s.windowSize.toNat) :
    winRegion n a s = .ok ((List.range n).filterMap fun j => Cells.find s.mem.win (a + j)) s := by
  induction n generalizing a with
  | zero => rfl
  | succ n ih =>
    obtain ⟨b, hb⟩ := Option.isSome_iff_exists.1 (hw 0 (by omega))
    rw [Nat.add_zero] at hb
    have h1 : winRead a s = .ok b s := by
      unfold winRead; rw [if_pos (by omega), hb]
    have h2 := ih (a := a + 1) (fun j hj => by rw [Nat.add_assoc, Nat.add_comm 1]; exact hw (j + 1) (by omega)) (by omega)
    simp only [winRegion, h1, Res.bind_ok, h2, Res.map_ok]
    rw [List.range_succ_eq_map, List.filterMap_cons]
    simp only [Nat.add_zero, hb, List.filterMap_map]
    congr 2
    apply List.filterMap_congr
    intro j _
    simp only [Function.comp, Nat.succ_eq_add_one]
    rw [Nat.add_assoc, Nat.add_comm 1]

theorem sinkWrite_eq {s : State} (h : sinkAccepts s = true) (bytes : List Byte) :
    sinkWrite bytes s = .ok () { s with sink := s.sink ++ bytes, sinkAnswers := s.sinkAnswers.drop 1 } := by
  unfold sinkWrite
  simp only [sinkAccepts, decide_eq_true_eq] at h
  split
  · next h' => rw [h'] at h; simp at h
  · next h' => simp [h']
  · next h' => simp [h']

/-- What `WIN_FLUSH` does when the region is written and the sink accepts (R186). -/
theorem winFlush_eq {s : State} (ho : s.watermark.toNat ≤ s.writeCursor.toNat) (hs : s.writeCursor.toNat ≤ s.windowSize.toNat)
    (hw : ∀ a, s.watermark.toNat ≤ a → a < s.writeCursor.toNat → (Cells.find s.mem.win a).isSome = true)
    (ha : s.watermark.toNat < s.writeCursor.toNat → sinkAccepts s = true) :
    winFlush s = .ok () { s with
      sink := s.sink ++ unflushed s
      sinkAnswers := if s.watermark.toNat < s.writeCursor.toNat then s.sinkAnswers.drop 1 else s.sinkAnswers
      writeCursor := if s.writeCursor = s.windowSize then 0#32 else s.writeCursor
      watermark := if s.writeCursor = s.windowSize then 0#32 else s.writeCursor } := by
  unfold winFlush
  by_cases hlt : s.watermark.toNat < s.writeCursor.toNat
  · rw [if_pos (BitVec.lt_def.2 hlt), winRegion_eq (fun j hj => hw _ (by omega) (by omega)) (by omega)]
    simp only [Res.bind_ok, sinkWrite_eq (ha hlt)]
    simp only [if_pos hlt]; rfl
  · rw [if_neg (fun h => hlt (BitVec.lt_def.1 h))]
    have hz : s.writeCursor.toNat - s.watermark.toNat = 0 := by omega
    simp only [Res.bind_ok, if_neg hlt, unflushed, hz]
    simp

/-- The state after `WIN_PUT(b)` (R182). -/
def putState (b : Byte) (s : State) : State :=
  if s.writeCursor.toNat + 1 = s.windowSize.toNat then
    { s with mem := s.mem.setWin s.writeCursor.toNat b, writeCursor := 0#32, watermark := 0#32,
             sink := s.sink ++ unflushed s ++ [b], sinkAnswers := s.sinkAnswers.drop 1 }
  else { s with mem := s.mem.setWin s.writeCursor.toNat b, writeCursor := s.writeCursor + 1#32 }

theorem succ_toNat {a b : Word} (h : a.toNat < b.toNat) : (a + 1#32).toNat = a.toNat + 1 := by
  have := b.isLt
  rw [BitVec.toNat_add]
  show (a.toNat + 1) % 2 ^ 32 = _
  omega

/-- Appending one element to the unflushed region. -/
theorem unflushed_put {s : State} (ho : s.watermark.toNat ≤ s.writeCursor.toNat) (b : Byte) :
    (List.range (s.writeCursor.toNat + 1 - s.watermark.toNat)).filterMap
      (fun j => Cells.find (Cells.insert s.writeCursor.toNat b s.mem.win) (s.watermark.toNat + j)) = unflushed s ++ [b] := by
  unfold unflushed
  rw [show s.writeCursor.toNat + 1 - s.watermark.toNat = (s.writeCursor.toNat - s.watermark.toNat) + 1 by omega,
    List.range_succ, List.filterMap_append]
  congr 1
  · apply List.filterMap_congr
    intro j hj
    rw [List.mem_range] at hj
    exact Cells.find_insert_of_ne _ _ (by omega)
  · simp [show s.watermark.toNat + (s.writeCursor.toNat - s.watermark.toNat) = s.writeCursor.toNat by omega]

theorem winPut_eq {p : Nat} {s : State} (h : WinRep p s) (b : Byte)
    (ha : s.writeCursor.toNat + 1 = s.windowSize.toNat → sinkAccepts s = true) : winPut b s = .ok () (putState b s) := by
  have hi := h.inside
  have ho := h.order
  unfold winPut putState
  rw [if_pos (BitVec.lt_def.2 hi)]
  simp only
  have hsucc := succ_toNat hi
  by_cases hw : s.writeCursor.toNat + 1 = s.windowSize.toNat
  · have heq : s.writeCursor + 1#32 = s.windowSize := BitVec.eq_of_toNat_eq (by rw [hsucc, hw])
    rw [if_pos heq, if_pos hw, winFlush_eq (by simp only [hsucc]; omega) (by simp only [hsucc]; omega)]
    · have hlt : s.watermark.toNat < (s.writeCursor + 1#32).toNat := by rw [hsucc]; omega
      simp only [heq, if_true] at hlt ⊢
      simp only [if_pos hlt]
      have hu : unflushed { s with mem := s.mem.setWin s.writeCursor.toNat b, writeCursor := s.windowSize } =
          unflushed s ++ [b] := by
        rw [← unflushed_put ho b]
        simp only [unflushed, Memory.setWin_win, ← hw]
      rw [hu, List.append_assoc]
    · intro a h1 h2
      simp only [hsucc] at h2
      simp only [Memory.setWin_win]
      by_cases hea : a = s.writeCursor.toNat
      · subst hea; simp
      · rw [Cells.find_insert_of_ne _ _ hea]
        exact h.written h1 (by omega)
    · intro _; exact ha hw
  · have hne : s.writeCursor + 1#32 ≠ s.windowSize := fun he => hw (by rw [← he, hsucc])
    rw [if_neg hne, if_neg hw]

theorem putState_emitted {p : Nat} {s : State} (h : WinRep p s) (b : Byte) : emitted (putState b s) = emitted s ++ [b] := by
  have hi := h.inside
  have hsucc := succ_toNat hi
  unfold putState
  split
  · simp [emitted, unflushed]
  · simp only [emitted, List.append_assoc]
    congr 1
    rw [← unflushed_put h.order b]
    simp only [unflushed, Memory.setWin_win, hsucc]

theorem putState_cursor {p : Nat} {s : State} (h : WinRep p s) (b : Byte) : (putState b s).writeCursor.toNat =
    if s.writeCursor.toNat + 1 = s.windowSize.toNat then 0 else s.writeCursor.toNat + 1 := by
  have hsucc := succ_toNat h.inside
  unfold putState
  split
  · rfl
  · exact hsucc

theorem putState_windowSize (b : Byte) (s : State) : (putState b s).windowSize = s.windowSize := by
  unfold putState; split <;> rfl

theorem putState_win (b : Byte) (s : State) : (putState b s).mem.win = Cells.insert s.writeCursor.toNat b s.mem.win := by
  unfold putState; split <;> rfl

/-- `WIN_PUT` keeps the representation and appends its byte to the output (R182, R187, R188). -/
theorem putState_rep {p : Nat} {s : State} (h : WinRep p s) (b : Byte) : WinRep (p + 1) (putState b s) := by
  have hi := h.inside
  have ho := h.order
  have hsucc := succ_toNat hi
  have hcur := putState_cursor h b
  have hem := putState_emitted h b
  have hws : (putState b s).windowSize.toNat = s.windowSize.toNat := by rw [putState_windowSize]
  refine ⟨?_, ?_, ?_, ?_, ?_⟩
  · unfold putState
    split
    · simp
    · simp only [hsucc]; omega
  · rw [hcur, hws]; split <;> omega
  · rw [hem, List.length_append]
    have := h.produced
    simp; omega
  · intro d hd hdw
    rw [hcur, hws, putState_win, hem, List.reverse_append, List.reverse_singleton, List.singleton_append]
    rw [hws] at hdw
    cases d with
    | zero => rw [behind_zero hi]; simp
    | succ d =>
      rw [behind_succ hi hdw, Cells.find_insert_of_ne _ _ (behind_ne hi hdw), List.getElem?_cons_succ]
      exact h.window d (by omega) (by omega)
  · have := h.unflushed
    unfold putState
    split
    · simp
    · simp only [hsucc]; omega

/-! ### Copies (R184, R185) -/

theorem CopiedFrom.zero (d : Nat) (out : List Byte) : CopiedFrom d 0 out out := ⟨rfl, by simp, by omega⟩

/-- One byte copied and then `n` more are `n + 1`. -/
theorem CopiedFrom.step {d n : Nat} {x : Byte} {out out' : List Byte} (hd : d < out.length) (hx : out.reverse[d]? = some x)
    (h : CopiedFrom d n (out ++ [x]) out') : CopiedFrom d (n + 1) out out' := by
  have hx' : out[out.length - (d + 1)]? = some x := by
    rw [List.getElem?_reverse hd] at hx
    rw [← hx]; congr 1; omega
  have hl := h.length
  have hb := h.before
  rw [List.length_append, List.length_singleton] at hl hb
  refine ⟨by omega, ?_, ?_⟩
  · have := congrArg (List.take out.length) hb
    rw [List.take_take, Nat.min_eq_left (by omega)] at this
    simpa using this
  · intro j hj
    cases j with
    | zero =>
      rw [Nat.add_zero, Nat.zero_mod, Nat.add_zero, hx']
      have h1 : out'[out.length]? = (out'.take (out.length + 1))[out.length]? := by
        rw [List.getElem?_take]; simp
      rw [h1, hb]; simp
    | succ j =>
      have h1 := h.copied j (by omega)
      rw [List.length_append, List.length_singleton, Nat.add_assoc, Nat.add_comm 1 j] at h1
      rw [h1]
      have hm : j % (d + 1) < d + 1 := Nat.mod_lt _ (by omega)
      by_cases hlt : j % (d + 1) < d
      · have hs : (j + 1) % (d + 1) = j % (d + 1) + 1 := by
          rw [Nat.add_mod, Nat.mod_eq_of_lt (a := 1) (by omega), Nat.mod_eq_of_lt (by omega)]
        rw [hs, List.getElem?_append_left (by omega)]
        congr 1; omega
      · have he : j % (d + 1) = d := by omega
        have hs : (j + 1) % (d + 1) = 0 := by
          have := Nat.div_add_mod j (d + 1)
          rw [he] at this
          rw [show j + 1 = (d + 1) * (j / (d + 1) + 1) by rw [Nat.mul_add]; omega]
          exact Nat.mul_mod_right _ _
        rw [hs, he, show out.length + 1 - (d + 1) + d = out.length by omega, Nat.add_zero, hx']
        simp

/-- What `WIN_COPY` does after its precondition: it appends the copy to the output, writes only the elements it appends to, and
flushes at most once. -/
structure CopyEffect (p d n : Nat) (s t : State) : Prop where
  rep : WinRep (p + n) t
  copied : CopiedFrom d n (emitted s) (emitted t)
  cursor : t.writeCursor.toNat = (s.writeCursor.toNat + n) % s.windowSize.toNat
  win : ∀ a, (∀ j < n, a ≠ (s.writeCursor.toNat + j) % s.windowSize.toNat) → Cells.find t.mem.win a = Cells.find s.mem.win a
  unwrapped : s.writeCursor.toNat + n < s.windowSize.toNat →
    t.watermark = s.watermark ∧ t.sink = s.sink ∧ t.sinkAnswers = s.sinkAnswers
  wrapped : s.windowSize.toNat ≤ s.writeCursor.toNat + n → t.watermark = 0#32 ∧ t.sinkAnswers = s.sinkAnswers.drop 1

theorem copyLoop_runs {p d n pos : Nat} {s : State} (h : WinRep p s) (hd : d < p) (hdw : d < s.windowSize.toNat)
    (hpos : pos = behind s.windowSize.toNat s.writeCursor.toNat d) (hn : n ≤ s.windowSize.toNat)
    (ha : s.windowSize.toNat ≤ s.writeCursor.toNat + n → sinkAccepts s = true) :
    ∃ t, copyLoop n pos s = .ok () t ∧ CopyEffect p d n s t := by
  induction n generalizing s pos p with
  | zero =>
    have := h.inside
    exact ⟨s, rfl, h, CopiedFrom.zero d _, by rw [Nat.add_zero, Nat.mod_eq_of_lt h.inside], fun _ _ => rfl,
      fun _ => ⟨rfl, rfl, rfl⟩, fun _ => by omega⟩
  | succ n ih =>
    have hi := h.inside
    have hp := h.produced
    have hw := h.window d hd hdw
    have hdl : d < (emitted s).length := by omega
    obtain ⟨x, hx⟩ : ∃ x, (emitted s).reverse[d]? = some x := by
      rw [List.getElem?_reverse hdl]
      exact ⟨_, List.getElem?_eq_getElem (by omega)⟩
    have hread : winRead pos s = .ok x s := by
      unfold winRead
      rw [hpos, if_pos (behind_lt hi hdw), hw, hx]
    have hput : winPut x s = .ok () (putState x s) := winPut_eq h x fun hc => ha (by omega)
    have hrep := putState_rep h x
    have hem := putState_emitted h x
    have hcur := putState_cursor h x
    have hws : (putState x s).windowSize.toNat = s.windowSize.toNat := by rw [putState_windowSize]
    have hnext : (if pos + 1 = (putState x s).windowSize.toNat then 0 else pos + 1) =
        behind (putState x s).windowSize.toNat (putState x s).writeCursor.toNat d := by
      rw [hws, hcur, hpos]
      unfold behind
      split <;> split <;> split <;> (try split) <;> omega
    obtain ⟨t, ht, he⟩ := ih (p := p + 1) hrep (by omega) (by omega) hnext (by omega) (by
      intro hge
      rw [hws, hcur] at hge
      split at hge
      · omega
      · next hne =>
        unfold putState
        rw [if_neg hne]
        exact ha (by omega))
    refine ⟨t, by simp only [copyLoop, hread, Res.bind_ok, hput, ht], ?_, ?_, ?_, ?_, ?_, ?_⟩
    · rw [show p + (n + 1) = p + 1 + n by omega]; exact he.rep
    · exact CopiedFrom.step hdl hx (hem ▸ he.copied)
    · rw [he.cursor, hcur, hws]
      split
      · next hc => rw [show s.writeCursor.toNat + (n + 1) = s.windowSize.toNat + n by omega, Nat.add_mod_left, Nat.zero_add]
      · congr 1; omega
    · intro a hna
      rw [he.win a ?_, putState_win, Cells.find_insert_of_ne]
      · have := hna 0 (by omega)
        rwa [Nat.add_zero, Nat.mod_eq_of_lt hi] at this
      · intro j hj
        have := hna (j + 1) (by omega)
        rw [hcur, hws]
        split
        · next hc =>
          rw [Nat.zero_add]
          rwa [show s.writeCursor.toNat + (j + 1) = s.windowSize.toNat + j by omega, Nat.add_mod_left] at this
        · rwa [show s.writeCursor.toNat + (j + 1) = s.writeCursor.toNat + 1 + j by omega] at this
    · intro hlt
      have hne : ¬ s.writeCursor.toNat + 1 = s.windowSize.toNat := by omega
      rw [if_neg hne] at hcur
      obtain ⟨h1, h2, h3⟩ := he.unwrapped (by rw [hcur, hws]; omega)
      rw [h1, h2, h3]
      unfold putState
      rw [if_neg hne]
      exact ⟨rfl, rfl, rfl⟩
    · intro hge
      by_cases hc : s.writeCursor.toNat + 1 = s.windowSize.toNat
      · rw [if_pos hc] at hcur
        obtain ⟨h1, -, h3⟩ := he.unwrapped (by rw [hcur, hws]; omega)
        rw [h1, h3]
        unfold putState
        rw [if_pos hc]
        exact ⟨rfl, rfl⟩
      · rw [if_neg hc] at hcur
        obtain ⟨h1, h3⟩ := he.wrapped (by rw [hcur, hws]; omega)
        rw [h1, h3]
        unfold putState
        rw [if_neg hc]
        exact ⟨rfl, rfl⟩

theorem windowReadable_iff (s : State) (d : Word) :
    windowReadable s d = true ↔ d.toNat < s.windowSize.toNat ∧ d.toNat < s.position.toNat := by
  simp [windowReadable]

/-- `WIN_COPY` within its precondition, on a window that holds the end of the output. -/
theorem winCopy_runs {d : Word} {n : Nat} {s : State} (h : WinRep s.position.toNat s) (hd : d.toNat < s.position.toNat)
    (hdw : d.toNat < s.windowSize.toNat) (hn : n ≤ s.windowSize.toNat)
    (ha : s.windowSize.toNat ≤ s.writeCursor.toNat + n → sinkAccepts s = true) :
    ∃ t, winCopy d n s = .ok () t ∧ CopyEffect s.position.toNat d.toNat n s t := by
  unfold winCopy
  rw [if_pos ((windowReadable_iff s d).2 ⟨hdw, hd⟩)]
  exact copyLoop_runs h hd hdw (srcIndex_eq h.inside hdw) hn ha

/-- `WIN_GET` within its precondition reads the byte that many places back in the output (R183). -/
theorem winGet_runs {d : Word} {s : State} (h : WinRep s.position.toNat s) (hd : d.toNat < s.position.toNat)
    (hdw : d.toNat < s.windowSize.toNat) : ∃ b, winGet d s = .ok b s ∧ (emitted s).reverse[d.toNat]? = some b := by
  have hw := h.window d.toNat hd hdw
  have hp := h.produced
  obtain ⟨x, hx⟩ : ∃ x, (emitted s).reverse[d.toNat]? = some x := by
    rw [List.getElem?_reverse (by omega)]
    exact ⟨_, List.getElem?_eq_getElem (by omega)⟩
  refine ⟨x, ?_, hx⟩
  unfold winGet winRead
  rw [if_pos ((windowReadable_iff s d).2 ⟨hdw, hd⟩), srcIndex_eq h.inside hdw, if_pos (behind_lt h.inside hdw), hw, hx]

end Sys2Proof.Machine
end

