-- ==== Sys2Proof/Laws/Effects.lean ====
section
/-! SUPPORT. What a symbol does once its bits are decoded (`45_symbols.md` R202 to R215): the range check, the copy with its tail, the
literal, and the ends of a copy whose flush fails. -/

set_option Elab.async false

namespace Sys2Proof.Machine

/-! ### Sound streams and the window's representation -/

theorem StreamInv.props {s : State} (h : StreamInv s) : PropertiesOk s := h.inv.properties (.inr h.decoding)

theorem StreamInv.coder {s : State} (h : StreamInv s) : CoderOk s := h.inv.coder h.decoding

theorem StreamInv.rep {s : State} (h : StreamInv s) : WinRep s.position.toNat s where
  order := (h.inv.cursors h.decoding).1
  inside := (h.inv.cursors h.decoding).2
  produced := h.produced
  window d hd hdw := by
    have hlt := s.windowSize.isLt
    have hn : (BitVec.ofNat 32 d).toNat = d := by rw [BitVec.toNat_ofNat, Nat.mod_eq_of_lt (by omega)]
    have := h.window d hd hdw
    rwa [srcIndex_eq (h.inv.cursors h.decoding).2 (by rw [hn]; exact hdw), hn] at this
  unflushed := h.unflushed

/-- The window's representation, with what else a sound stream needs, makes one. -/
theorem WinRep.streamInv {s : State} (h : WinRep s.position.toNat s) (hi : Inv s) (hp : s.phase = .decoding)
    (hr : 7 ≤ s.state.toNat → s.rep0.toNat < s.position.toNat ∧ s.rep0.toNat < s.dictionarySizeCheck.toNat) :
    StreamInv s where
  inv := hi
  decoding := hp
  produced := h.produced
  window d hd hdw := by
    have hlt := s.windowSize.isLt
    have hn : (BitVec.ofNat 32 d).toNat = d := by rw [BitVec.toNat_ofNat, Nat.mod_eq_of_lt (by omega)]
    rw [srcIndex_eq h.inside (by rw [hn]; exact hdw), hn]
    exact h.window d hd hdw
  unflushed := h.unflushed
  rep0 := hr

theorem PropertiesOk.check_le {s : State} (h : PropertiesOk s) : s.dictionarySizeCheck.toNat ≤ s.windowSize.toNat := by
  rw [h.windowSize]; exact le_max_left _ _

theorem PropertiesOk.window_min {s : State} (h : PropertiesOk s) : 4096 ≤ s.windowSize.toNat := by
  rw [h.windowSize]; exact le_max_right _ _

/-! ### The range check and the position -/

/-- The check passes (R208). -/
theorem rangeCheck_ok {s : State} {d : Word} (h1 : d.toNat < s.position.toNat) (h2 : d.toNat < s.dictionarySizeCheck.toNat) :
    rangeCheck d s = .ok () s := by
  unfold rangeCheck distanceInRange
  simp [h1, h2]

/-- The check fails (R208, `60_exceptions.md` R263). -/
theorem rangeCheck_corrupt {s : State} {d : Word} (h : s.position.toNat ≤ d.toNat ∨ s.dictionarySizeCheck.toNat ≤ d.toNat) :
    rangeCheck d s = .raise .corruptStream s := by
  unfold rangeCheck distanceInRange
  rw [if_neg]
  simp only [Bool.and_eq_true, decide_eq_true_eq]
  omega

theorem advance_ok {s : State} {n : Nat} (h : s.position.toNat + n < 2 ^ 64) :
    advance n s = .ok () { s with position := s.position + BitVec.ofNat 64 n } := by
  unfold advance; rw [if_pos h]

theorem position_add {p : DWord} {n : Nat} (h : p.toNat + n < 2 ^ 64) : (p + BitVec.ofNat 64 n).toNat = p.toNat + n := by
  rw [BitVec.toNat_add, BitVec.toNat_ofNat, Nat.mod_eq_of_lt (a := n) (by omega), Nat.mod_eq_of_lt h]

/-! ### COPY (R209) -/

/-- What `COPY` leaves when it completes: the copy, then `position` and `prevByte`, the last byte of the output. -/
structure CopyDone (n : Nat) (s t : State) : Prop where
  rest : t = { s with mem := t.mem, writeCursor := t.writeCursor, watermark := t.watermark, sink := t.sink,
                      sinkAnswers := t.sinkAnswers, position := t.position, prevByte := t.prevByte }
  frame : WinFrame { s with position := t.position, prevByte := t.prevByte } t
  position : t.position.toNat = s.position.toNat + n
  effect : CopyEffect s.position.toNat s.rep0.toNat n s t
  prevByte : (emitted t).getLast? = some t.prevByte

theorem getLast?_of_reverse {l : List Byte} {b : Byte} (h : l.reverse[0]? = some b) : l.getLast? = some b := by
  rw [← List.head?_eq_getElem?, List.head?_reverse] at h
  exact h

theorem copyTail_runs {s : State} {n : Nat} (h : WinRep s.position.toNat s) (hp : PropertiesOk s)
    (h1 : s.rep0.toNat < s.position.toNat) (h2 : s.rep0.toNat < s.dictionarySizeCheck.toNat) (hn : 1 ≤ n) (hn' : n ≤ 273)
    (hroom : s.position.toNat + n < 2 ^ 64) (ha : s.windowSize.toNat ≤ s.writeCursor.toNat + n → sinkAccepts s = true) :
    ∃ t, copyTail n s = .ok () t ∧ CopyDone n s t := by
  have hcw := hp.check_le
  have hmin := hp.window_min
  obtain ⟨u, hu, he⟩ := winCopy_runs h h1 (by omega) (by omega) ha
  have hf : WinFrame s u := by
    have := (winCopy_frame s.rep0 n s).post
    rw [hu] at this
    exact this.1
  have hpos : u.position = s.position := by have := hf.fields; tauto
  have hws : u.windowSize = s.windowSize := by have := hf.fields; tauto
  have hposn : (u.position + BitVec.ofNat 64 n).toNat = s.position.toNat + n := by
    rw [hpos]; exact position_add hroom
  have hrep : WinRep (s.position.toNat + n) { u with position := u.position + BitVec.ofNat 64 n } :=
    ⟨he.rep.order, he.rep.inside, he.rep.produced, he.rep.window, he.rep.unflushed⟩
  obtain ⟨b, hb, hlast⟩ := winGet_runs (d := 0#32) (s := { u with position := u.position + BitVec.ofNat 64 n })
    (by rw [show State.position { u with position := u.position + BitVec.ofNat 64 n } = u.position + BitVec.ofNat 64 n from rfl,
          hposn]; exact hrep)
    (by show 0 < (u.position + BitVec.ofNat 64 n).toNat; omega) (by show 0 < u.windowSize.toNat; rw [hws]; omega)
  refine ⟨{ u with position := u.position + BitVec.ofNat 64 n, prevByte := b }, ?_, ?_, ?_, hposn, ?_, ?_⟩
  · unfold copyTail
    rw [rangeCheck_ok h1 h2, Res.bind_ok, hu, Res.bind_ok, advance_ok (by rw [hpos]; exact hroom), Res.bind_ok, hb, Res.bind_ok]
  · rw [hf.rest]
  · refine ⟨?_, hf.prob, hf.fill, hf.sink⟩
    rw [hf.rest]
  · exact ⟨⟨he.rep.order, he.rep.inside, he.rep.produced, he.rep.window, he.rep.unflushed⟩, he.copied, he.cursor, he.win,
      he.unwrapped, he.wrapped⟩
  · exact getLast?_of_reverse hlast

theorem copyTail_corrupt {s : State} {n : Nat}
    (h : s.position.toNat ≤ s.rep0.toNat ∨ s.dictionarySizeCheck.toNat ≤ s.rep0.toNat) :
    copyTail n s = .raise .corruptStream s := by
  unfold copyTail; rw [rangeCheck_corrupt h]; rfl

/-! ### A flush that fails (`60_exceptions.md` R264) -/

theorem sinkWrite_fails {s : State} {rest : List SinkAnswer} (h : s.sinkAnswers = .failure :: rest) (bytes : List Byte) :
    sinkWrite bytes s = .raise .ioError { s with sinkAnswers := rest } := by
  unfold sinkWrite; rw [h]

theorem winFlush_fails {s : State} {rest : List SinkAnswer} (h : s.sinkAnswers = .failure :: rest)
    (ho : s.watermark.toNat < s.writeCursor.toNat) (hs : s.writeCursor.toNat ≤ s.windowSize.toNat)
    (hw : ∀ a, s.watermark.toNat ≤ a → a < s.writeCursor.toNat → (Cells.find s.mem.win a).isSome = true) :
    winFlush s = .raise .ioError { s with sinkAnswers := rest } := by
  unfold winFlush
  rw [if_pos (BitVec.lt_def.2 ho), winRegion_eq (fun j hj => hw _ (by omega) (by omega)) (by omega)]
  simp only [Res.bind_ok, sinkWrite_fails h, Res.bind_raise]

/-- `WIN_PUT` at the end of the window with a failing sink. -/
theorem winPut_fails {p : Nat} {s : State} (h : WinRep p s) (b : Byte) {rest : List SinkAnswer}
    (hc : s.writeCursor.toNat + 1 = s.windowSize.toNat) (hr : s.sinkAnswers = .failure :: rest) :
    winPut b s = .raise .ioError
      { s with mem := s.mem.setWin s.writeCursor.toNat b, writeCursor := s.writeCursor + 1#32, sinkAnswers := rest } := by
  have hi := h.inside
  have ho := h.order
  have hsucc := succ_toNat hi
  unfold winPut
  rw [if_pos (BitVec.lt_def.2 hi)]
  simp only
  rw [if_pos (BitVec.eq_of_toNat_eq (by rw [hsucc, hc]))]
  refine winFlush_fails (rest := rest)
    (s := { s with mem := s.mem.setWin s.writeCursor.toNat b, writeCursor := s.writeCursor + 1#32 }) hr ?_ ?_ ?_
  · simp only [hsucc]; omega
  · simp only [hsucc]; omega
  · intro a h1 h2
    simp only [hsucc] at h2
    simp only [Memory.setWin_win]
    by_cases hea : a = s.writeCursor.toNat
    · subst hea; simp
    · rw [Cells.find_insert_of_ne _ _ hea]
      exact h.written h1 (by omega)

/-- A copy that reaches the end of the window with a failing sink ends there; nothing is delivered. -/
theorem copyLoop_fails {p d n pos : Nat} {s : State} {rest : List SinkAnswer} (h : WinRep p s) (hd : d < p)
    (hdw : d < s.windowSize.toNat) (hpos : pos = behind s.windowSize.toNat s.writeCursor.toNat d)
    (hn : s.windowSize.toNat ≤ s.writeCursor.toNat + n) (hr : s.sinkAnswers = .failure :: rest) :
    ∃ t, copyLoop n pos s = .raise .ioError t ∧ WinFrame s t ∧ t.sink = s.sink ∧ t.sinkAnswers = rest := by
  induction n generalizing s pos p with
  | zero => have := h.inside; omega
  | succ n ih =>
    have hi := h.inside
    have hp := h.produced
    have hw := h.window d hd hdw
    obtain ⟨x, hx⟩ : ∃ x, (emitted s).reverse[d]? = some x := by
      rw [List.getElem?_reverse (by omega)]
      exact ⟨_, List.getElem?_eq_getElem (by omega)⟩
    have hread : winRead pos s = .ok x s := by
      unfold winRead
      rw [hpos, if_pos (behind_lt hi hdw), hw, hx]
    by_cases hc : s.writeCursor.toNat + 1 = s.windowSize.toNat
    · refine ⟨{ s with mem := s.mem.setWin s.writeCursor.toNat x, writeCursor := s.writeCursor + 1#32, sinkAnswers := rest },
        by simp only [copyLoop, hread, Res.bind_ok, winPut_fails h x hc hr, Res.bind_raise], ?_, rfl, rfl⟩
      exact ⟨rfl, by simp, by simp, List.prefix_refl _⟩
    · have hput : winPut x s = .ok () (putState x s) := winPut_eq h x fun hc' => absurd hc' hc
      have hrep := putState_rep h x
      have hcur := putState_cursor h x
      rw [if_neg hc] at hcur
      have hws : (putState x s).windowSize.toNat = s.windowSize.toNat := by rw [putState_windowSize]
      have hkeep : putState x s = { s with mem := s.mem.setWin s.writeCursor.toNat x, writeCursor := s.writeCursor + 1#32 } := by
        unfold putState; rw [if_neg hc]
      have hnext : (if pos + 1 = (putState x s).windowSize.toNat then 0 else pos + 1) =
          behind (putState x s).windowSize.toNat (putState x s).writeCursor.toNat d := by
        rw [hws, hcur, hpos]
        unfold behind
        split <;> split <;> (try split) <;> omega
      obtain ⟨t, ht, hf, hs, ha⟩ := ih (p := p + 1) hrep (by omega) (by omega) hnext (by omega) (by rw [hkeep]; exact hr)
      refine ⟨t, by simp only [copyLoop, hread, Res.bind_ok, hput, ht], WinFrame.trans ?_ hf, ?_, ha⟩
      · rw [hkeep]; exact ⟨rfl, by simp, by simp, List.prefix_refl _⟩
      · rw [hs, hkeep]

theorem copyTail_fails {s : State} {n : Nat} {rest : List SinkAnswer} (h : WinRep s.position.toNat s) (hp : PropertiesOk s)
    (h1 : s.rep0.toNat < s.position.toNat) (h2 : s.rep0.toNat < s.dictionarySizeCheck.toNat)
    (hn : s.windowSize.toNat ≤ s.writeCursor.toNat + n) (hr : s.sinkAnswers = .failure :: rest) :
    ∃ t, copyTail n s = .raise .ioError t ∧ WinFrame s t ∧ t.sink = s.sink ∧ t.sinkAnswers = rest := by
  have hcw := hp.check_le
  obtain ⟨t, ht, hf⟩ := copyLoop_fails h h1 (by omega) (srcIndex_eq (d := s.rep0) h.inside (by omega)) hn hr
  refine ⟨t, ?_, hf⟩
  unfold copyTail winCopy
  rw [rangeCheck_ok h1 h2, Res.bind_ok, if_pos ((windowReadable_iff s s.rep0).2 ⟨by omega, h1⟩), ht, Res.bind_raise]

/-- What a failure takes from a state that differs only in the window, its cursors and the sink's answers. -/
theorem WinFrame.takeFailure {s t : State} {rest : List SinkAnswer} (h : WinFrame s t) (hs : t.sink = s.sink)
    (ha : t.sinkAnswers = rest) (p : Phase) (k : FailureKind) :
    takeFailure p k t = Machine.takeFailure p k { s with sinkAnswers := rest } := by
  rw [h.rest, hs, ha]; rfl

/-! ### LIT (R202) -/

theorem litEffect_runs {s : State} {b : Byte} (h : WinRep s.position.toNat s) (hroom : s.position.toNat + 1 < 2 ^ 64)
    (ha : s.writeCursor.toNat + 1 = s.windowSize.toNat → sinkAccepts s = true) :
    litEffect b s = .ok ()
      { putState b s with prevByte := b, state := afterLiteral s.state, position := s.position + BitVec.ofNat 64 1 } := by
  have hs : (putState b s).state = s.state ∧ (putState b s).position = s.position := by
    unfold putState; split <;> exact ⟨rfl, rfl⟩
  unfold litEffect
  rw [winPut_eq h b ha, Res.bind_ok, advance_ok (by simp only [hs.2]; exact hroom)]
  simp only [hs.1, hs.2]

theorem litEffect_fails {s : State} {b : Byte} {rest : List SinkAnswer} (h : WinRep s.position.toNat s)
    (hc : s.writeCursor.toNat + 1 = s.windowSize.toNat) (hr : s.sinkAnswers = .failure :: rest) :
    litEffect b s = .raise .ioError
      { s with mem := s.mem.setWin s.writeCursor.toNat b, writeCursor := s.writeCursor + 1#32, sinkAnswers := rest } := by
  unfold litEffect; rw [winPut_fails h b hc hr]; rfl

/-! ### The match and rep symbols over COPY (R203, R207, R211 to R215) -/

theorem matchEffect_eos (len : Nat) (s : State) : matchEffect len eosDistance s = .ok true (pushRep eosDistance s) := by
  unfold matchEffect; rw [if_pos rfl]

theorem matchEffect_copy {dist : Word} (h : dist ≠ eosDistance) (len : Nat) (s : State) :
    matchEffect len dist s =
      (copyTail len { s with rep3 := s.rep2, rep2 := s.rep1, rep1 := s.rep0, rep0 := dist, state := afterMatch s.state }).map
        fun _ => false := by
  unfold matchEffect; rw [if_neg h]; rfl

/-! ### The automaton: what the tables of the configuration are as formulas (`45_symbols.md` R221 to R224) -/

theorem afterLiteral_eq (st : BitVec 4) (h : st.toNat < 12) :
    afterLiteral st = if st.toNat < 4 then 0#4 else if st.toNat < 10 then st - 3#4 else st - 6#4 := by
  revert h; revert st; decide
theorem afterMatch_eq (st : BitVec 4) (h : st.toNat < 12) : afterMatch st = if st.toNat < 7 then 7#4 else 10#4 := by
  revert h; revert st; decide
theorem afterRep_eq (st : BitVec 4) (h : st.toNat < 12) : afterRep st = if st.toNat < 7 then 8#4 else 11#4 := by
  revert h; revert st; decide
theorem afterShortRep_eq (st : BitVec 4) (h : st.toNat < 12) : afterShortRep st = if st.toNat < 7 then 9#4 else 11#4 := by
  revert h; revert st; decide

theorem afterLiteral_lt (st : BitVec 4) (h : st.toNat < 12) : (afterLiteral st).toNat < 7 := by
  revert h; revert st; decide
theorem afterMatch_range (st : BitVec 4) (h : st.toNat < 12) : 7 ≤ (afterMatch st).toNat ∧ (afterMatch st).toNat < 12 := by
  rw [afterMatch_eq st h]; split <;> decide
theorem afterRep_range (st : BitVec 4) (h : st.toNat < 12) : 7 ≤ (afterRep st).toNat ∧ (afterRep st).toNat < 12 := by
  rw [afterRep_eq st h]; split <;> decide
theorem afterShortRep_range (st : BitVec 4) (h : st.toNat < 12) :
    7 ≤ (afterShortRep st).toNat ∧ (afterShortRep st).toNat < 12 := by
  rw [afterShortRep_eq st h]; split <;> decide

end Sys2Proof.Machine
end

