-- ==== Sys2Proof/Laws/Fetch.lean ====
section
/-! SUPPORT. What an operation decodes from the stream is a sequence of decisions: taking the same decisions as given bits ends in
the same state (`30_encoding.md` R97 to R102, R109; log 3). -/

set_option Elab.async false

namespace Sys2Proof.Machine

theorem takeBits_append (ds es : List Decision) (s : State) :
    takeBits (ds ++ es) s = (takeBits ds s).bind fun _ t => takeBits es t := by
  induction ds generalizing s with
  | nil => rfl
  | cons d ds ih =>
    simp only [List.cons_append, takeBits, Res.bind_assoc]
    congr 1
    funext _ t
    exact ih t

theorem takeBits_cons_ok {d : Decision} {ds : List Decision} {s t : State} (h : takeBit d s = .ok () t) :
    takeBits (d :: ds) s = takeBits ds t := by
  simp only [takeBits, h, Res.bind_ok]

/-- A bit that is decoded is a decision. -/
theorem rcBit_forced {g : ProbGroup} {i : Int} {s t : State} {bit : Bool} (h : rcBit g i s = .ok bit t) :
    takeBit (.slot g i, bit) s = .ok () t := by
  unfold rcBit at h
  split at h
  · exact absurd h (by simp)
  · obtain ⟨_, hu, rfl⟩ := Res.map_eq_ok.1 h
    exact hu

theorem directBit_forced {s t : State} {bit : Bool} (h : directBit s = .ok bit t) : takeBit (.direct, bit) s = .ok () t := by
  unfold directBit at h
  obtain ⟨_, hu, rfl⟩ := Res.map_eq_ok.1 h
  exact hu

theorem treeWalk_forced {g : ProbGroup} {base : Int} {d m r : Nat} {s t : State} (h : treeWalk g base d m s = .ok r t) :
    ∃ v, v < 2 ^ d ∧ r = m * 2 ^ d + v ∧ takeBits (treePath g base m (bitsMsb d v)) s = .ok () t := by
  induction d generalizing m s with
  | zero =>
    simp only [treeWalk, Res.ok.injEq] at h
    obtain ⟨rfl, rfl⟩ := h
    exact ⟨0, by simp, by simp, rfl⟩
  | succ d ih =>
    obtain ⟨bit, u, hb, hw⟩ := Res.bind_eq_ok.1 h
    obtain ⟨v, hv, rfl, ht⟩ := ih hw
    have hbit : bit.toNat ≤ 1 := by cases bit <;> simp
    refine ⟨bit.toNat * 2 ^ d + v, ?_, ?_, ?_⟩
    · rw [pow_succ]
      have := Nat.mul_le_mul_right (2 ^ d) hbit
      omega
    · rw [pow_succ]; ring
    · rw [bitsMsb_cons bit hv]
      exact (takeBits_cons_ok (rcBit_forced hb)).trans ht

/-- `BT_DECODE` is the walk its result names (`41_bit_tree.md` R151). -/
theorem btDecode_forced {g : ProbGroup} {base : Int} {d v : Nat} {s t : State} (h : btDecode g base d s = .ok v t) :
    v < 2 ^ d ∧ takeBits (treePath g base 1 (bitsMsb d v)) s = .ok () t := by
  obtain ⟨r, hr, rfl⟩ := Res.map_eq_ok.1 h
  obtain ⟨v, hv, rfl, ht⟩ := treeWalk_forced hr
  rw [Nat.one_mul, Nat.add_sub_cancel_left]
  exact ⟨hv, ht⟩

theorem reverseWalk_forced {g : ProbGroup} {base : Int} {d k m r x : Nat} {s t : State}
    (h : reverseWalk g base d k m r s = .ok x t) (hr : r < 2 ^ k) :
    ∃ v, v < 2 ^ d ∧ x = r + v * 2 ^ k ∧ takeBits (treePath g base m (bitsLsb d v)) s = .ok () t := by
  induction d generalizing k m r s with
  | zero =>
    simp only [reverseWalk, Res.ok.injEq] at h
    obtain ⟨rfl, rfl⟩ := h
    exact ⟨0, by simp, by simp, rfl⟩
  | succ d ih =>
    obtain ⟨bit, u, hb, hw⟩ := Res.bind_eq_ok.1 h
    have hbit : bit.toNat ≤ 1 := by cases bit <;> simp
    have hor : r ||| (bit.toNat <<< k) = r + bit.toNat * 2 ^ k := by
      rw [Nat.or_comm, ← Nat.shiftLeft_add_eq_or_of_lt hr, Nat.shiftLeft_eq, Nat.add_comm]
    rw [hor] at hw
    have hlt : r + bit.toNat * 2 ^ k < 2 ^ (k + 1) := by
      rw [pow_succ]
      have := Nat.mul_le_mul_right (2 ^ k) hbit
      omega
    obtain ⟨v, hv, rfl, ht⟩ := ih hw hlt
    refine ⟨bit.toNat + 2 * v, by rw [pow_succ]; omega, by rw [pow_succ]; ring, ?_⟩
    rw [bitsLsb_cons]
    exact (takeBits_cons_ok (rcBit_forced hb)).trans ht

/-- `BT_REVERSE` is the walk its result names, least significant bit first (R152). -/
theorem btReverse_forced {g : ProbGroup} {base : Int} {d v : Nat} {s t : State} (h : btReverse g base d s = .ok v t) :
    v < 2 ^ d ∧ takeBits (treePath g base 1 (bitsLsb d v)) s = .ok () t := by
  obtain ⟨v', hv, rfl, ht⟩ := reverseWalk_forced h (by simp)
  simp only [pow_zero, Nat.mul_one, Nat.zero_add]
  exact ⟨hv, ht⟩

theorem directLoop_forced {n : Nat} {acc x : Word} {s t : State} (h : directLoop n acc s = .ok x t)
    (ha : (acc.toNat + 1) * 2 ^ n ≤ 2 ^ 32) :
    ∃ v, v < 2 ^ n ∧ x.toNat = acc.toNat * 2 ^ n + v ∧
      takeBits ((bitsMsb n v).map fun b => (BitSource.direct, b)) s = .ok () t := by
  induction n generalizing acc s with
  | zero =>
    simp only [directLoop, Res.ok.injEq] at h
    obtain ⟨rfl, rfl⟩ := h
    exact ⟨0, by simp, by simp, rfl⟩
  | succ n ih =>
    obtain ⟨bit, u, hb, hw⟩ := Res.bind_eq_ok.1 h
    have hbit : bit.toNat ≤ 1 := by cases bit <;> simp
    have hpos : 1 ≤ 2 ^ n := Nat.one_le_two_pow
    have hsmall : 2 * acc.toNat + 2 ≤ 2 ^ 32 := by
      have h1 : (acc.toNat + 1) * 2 ≤ (acc.toNat + 1) * 2 ^ (n + 1) :=
        Nat.mul_le_mul_left _ (by rw [pow_succ]; omega)
      omega
    have hacc : ((acc <<< 1) ||| BitVec.ofNat 32 bit.toNat).toNat = 2 * acc.toNat + bit.toNat := by
      rw [BitVec.toNat_or, BitVec.toNat_shiftLeft, BitVec.toNat_ofNat, Nat.mod_eq_of_lt (a := bit.toNat) (by omega),
        Nat.shiftLeft_eq, Nat.mod_eq_of_lt (a := acc.toNat * 2 ^ 1) (by omega)]
      have := Nat.shiftLeft_add_eq_or_of_lt (b := bit.toNat) (i := 1) (by omega) acc.toNat
      rw [Nat.shiftLeft_eq] at this
      omega
    have hle : (((acc <<< 1) ||| BitVec.ofNat 32 bit.toNat).toNat + 1) * 2 ^ n ≤ 2 ^ 32 := by
      rw [hacc]
      calc (2 * acc.toNat + bit.toNat + 1) * 2 ^ n ≤ (2 * (acc.toNat + 1)) * 2 ^ n := Nat.mul_le_mul_right _ (by omega)
        _ = (acc.toNat + 1) * 2 ^ (n + 1) := by rw [pow_succ]; ring
        _ ≤ 2 ^ 32 := ha
    obtain ⟨v, hv, hx, ht⟩ := ih hw hle
    refine ⟨bit.toNat * 2 ^ n + v, ?_, ?_, ?_⟩
    · rw [pow_succ]
      have := Nat.mul_le_mul_right (2 ^ n) hbit
      omega
    · rw [hx, hacc, pow_succ]; ring
    · rw [bitsMsb_cons bit hv, List.map_cons]
      exact (takeBits_cons_ok (directBit_forced hb)).trans ht

/-- `RC_DIRECT` decodes the bits of its result, most significant first (`40_range_decoder.md` R135). -/
theorem rcDirect_forced {n : Nat} {x : Word} {s t : State} (h : rcDirect n s = .ok x t) (hn : n ≤ 32) :
    x.toNat < 2 ^ n ∧ takeBits ((bitsMsb n x.toNat).map fun b => (BitSource.direct, b)) s = .ok () t := by
  have hp : 2 ^ n ≤ 2 ^ 32 := Nat.pow_le_pow_right (by norm_num) hn
  obtain ⟨v, hv, hx, ht⟩ := directLoop_forced h (by simpa using hp)
  simp only [BitVec.toNat_ofNat, Nat.zero_mod, Nat.zero_mul, Nat.zero_add] at hx
  rw [hx]
  exact ⟨hv, ht⟩

/-- `LEN_DECODE` is the length field its result names (`42_length_decoder.md` R161, R163). -/
theorem lenDecode_forced {x : LenInst} {ps len : Nat} {s t : State} (h : lenDecode x ps s = .ok len t) :
    lenOk len = true ∧ takeBits (lenPath x ps len) s = .ok () t := by
  unfold lenDecode at h
  obtain ⟨c0, u, h0, h⟩ := Res.bind_eq_ok.1 h
  cases c0 with
  | false =>
    simp only [if_true] at h
    obtain ⟨r, hr, rfl⟩ := Res.map_eq_ok.1 h
    obtain ⟨hv, ht⟩ := btDecode_forced hr
    refine ⟨by simp only [lenOk, Bool.and_eq_true, decide_eq_true_eq, matchMinLen]; omega, ?_⟩
    unfold lenPath
    rw [if_pos (by simp only [matchMinLen]; omega), takeBits_cons_ok (rcBit_forced h0)]
    simpa using ht
  | true =>
    simp only [Bool.true_eq_false, if_false] at h
    obtain ⟨c1, w, h1, h⟩ := Res.bind_eq_ok.1 h
    cases c1 with
    | false =>
      simp only [if_true] at h
      obtain ⟨r, hr, rfl⟩ := Res.map_eq_ok.1 h
      obtain ⟨hv, ht⟩ := btDecode_forced hr
      refine ⟨by simp only [lenOk, Bool.and_eq_true, decide_eq_true_eq, matchMinLen]; omega, ?_⟩
      unfold lenPath
      rw [if_neg (by simp only [matchMinLen]; omega), if_pos (by simp only [matchMinLen]; omega),
        takeBits_cons_ok (rcBit_forced h0), takeBits_cons_ok (rcBit_forced h1)]
      rwa [show 8 + r + matchMinLen - 10 = r by simp only [matchMinLen]; omega]
    | true =>
      simp only [Bool.true_eq_false, if_false] at h
      obtain ⟨r, hr, rfl⟩ := Res.map_eq_ok.1 h
      obtain ⟨hv, ht⟩ := btDecode_forced hr
      refine ⟨by simp only [lenOk, Bool.and_eq_true, decide_eq_true_eq, matchMinLen]; omega, ?_⟩
      unfold lenPath
      rw [if_neg (by simp only [matchMinLen]; omega), if_neg (by simp only [matchMinLen]; omega),
        takeBits_cons_ok (rcBit_forced h0), takeBits_cons_ok (rcBit_forced h1)]
      rwa [show 16 + r + matchMinLen - 18 = r by simp only [matchMinLen]; omega]

/-- `DIST_DECODE` is the distance field of a position slot and extra bits (`45_symbols.md` R206). -/
theorem distDecode_forced {len : Nat} {dist : Word} {s t : State} (h : distDecode len s = .ok dist t) :
    ∃ slot e, slot < 64 ∧ e < 2 ^ extraWidth slot ∧ dist.toNat = distBase slot + e ∧
      takeBits (distPath (lenClassOf len) slot e) s = .ok () t := by
  unfold distDecode at h
  obtain ⟨slot, u, hs, h⟩ := Res.bind_eq_ok.1 h
  obtain ⟨hlt, hps⟩ := btDecode_forced hs
  have hlt : slot < 64 := hlt
  have hpath : ∀ e, takeBits (distPath (lenClassOf len) slot e) s = takeBits (extraPath slot e) u := by
    intro e
    unfold distPath
    rw [takeBits_append, hps, Res.bind_ok]
  have hmax : ∀ e, e < 2 ^ extraWidth slot → distBase slot + e < 2 ^ 32 := by
    intro e he
    unfold extraWidth at he
    by_cases h4 : slot < 4
    · rw [if_pos h4] at he; rw [distBase_of_lt h4]; omega
    · rw [if_neg h4, directBits_eq] at he
      rw [distBase_eq (by omega)]
      have hw : slot / 2 - 1 ≤ 30 := by omega
      have h30 : 2 ^ (slot / 2 - 1) ≤ 2 ^ 30 := Nat.pow_le_pow_right (by norm_num) hw
      have hm : (2 + slot % 2) * 2 ^ (slot / 2 - 1) ≤ 3 * 2 ^ (slot / 2 - 1) := Nat.mul_le_mul_right _ (by omega)
      omega
  split at h
  · next h4 =>
    simp only [Res.ok.injEq] at h
    obtain ⟨rfl, rfl⟩ := h
    have he : 0 < 2 ^ extraWidth slot := by positivity
    refine ⟨slot, 0, hlt, he, ?_, ?_⟩
    · rw [BitVec.toNat_ofNat, Nat.mod_eq_of_lt (by omega), distBase_of_lt h4]; rfl
    · rw [hpath, extraPath, if_pos h4]; rfl
  · next h4 =>
    split at h
    · next h14 =>
      obtain ⟨r, hr, rfl⟩ := Res.map_eq_ok.1 h
      obtain ⟨hv, ht⟩ := btReverse_forced hr
      have he : r < 2 ^ extraWidth slot := by rw [extraWidth, if_neg h4]; exact hv
      refine ⟨slot, r, hlt, he, ?_, ?_⟩
      · rw [BitVec.toNat_ofNat, Nat.mod_eq_of_lt (hmax r he)]
      · rw [hpath, extraPath, if_neg h4, if_pos h14]; exact ht
    · next h14 =>
      obtain ⟨hi, w, hd, h⟩ := Res.bind_eq_ok.1 h
      obtain ⟨lo, hl, rfl⟩ := Res.map_eq_ok.1 h
      have hdb : directBits slot = slot / 2 - 1 := directBits_eq slot
      simp only [endPosModelIndex] at h14
      obtain ⟨hhv, hht⟩ := rcDirect_forced hd (by simp only [alignBits]; omega)
      obtain ⟨hlv, hlt'⟩ := btReverse_forced hl
      have hlv : lo < 16 := hlv
      have hsplit : 2 ^ directBits slot = 2 ^ (directBits slot - alignBits) * 16 := by
        show 2 ^ directBits slot = 2 ^ (directBits slot - 4) * 2 ^ 4
        rw [← pow_add, Nat.sub_add_cancel (by omega)]
      have he : hi.toNat * 16 + lo < 2 ^ extraWidth slot := by
        rw [extraWidth, if_neg h4, hsplit]; omega
      refine ⟨slot, hi.toNat * 16 + lo, hlt, he, ?_, ?_⟩
      · have hsh : hi.toNat <<< alignBits = hi.toNat * 16 := by rw [Nat.shiftLeft_eq]; rfl
        rw [hsh, Nat.add_assoc, BitVec.toNat_ofNat, Nat.mod_eq_of_lt (hmax _ he)]
      · rw [hpath, extraPath, if_neg h4, if_neg (by simp only [endPosModelIndex]; omega), takeBits_append,
          show (hi.toNat * 16 + lo) / 16 = hi.toNat by omega, hht, Res.bind_ok,
          show (hi.toNat * 16 + lo) % 16 = lo by omega]
        exact hlt'

theorem litNormalLoop_eq_treeWalk (base n m : Nat) (s : State) :
    litNormalLoop base n m s = treeWalk .lit (base : Int) n m s := by
  induction n generalizing m s with
  | zero => rfl
  | succ n ih =>
    simp only [litNormalLoop, treeWalk]
    rw [show ((base + m : Nat) : Int) = (base : Int) + m by push_cast; ring]
    congr 1
    funext bit t
    exact ih _ t

theorem litMatchedLoop_forced {base n m r : Nat} {matched : Bool} {mb : Byte} {s t : State}
    (h : litMatchedLoop base n matched mb m s = .ok r t) :
    ∃ v, v < 2 ^ n ∧ r = m * 2 ^ n + v ∧ takeBits (matchedPath base matched mb m (bitsMsb n v)) s = .ok () t := by
  induction n generalizing matched mb m s with
  | zero =>
    simp only [litMatchedLoop, Res.ok.injEq] at h
    obtain ⟨rfl, rfl⟩ := h
    exact ⟨0, by simp, by simp, by cases matched <;> rfl⟩
  | succ n ih =>
    cases matched with
    | true =>
      obtain ⟨bit, u, hb, hw⟩ := Res.bind_eq_ok.1 h
      obtain ⟨v, hv, rfl, ht⟩ := ih hw
      have hbit : bit.toNat ≤ 1 := by cases bit <;> simp
      refine ⟨bit.toNat * 2 ^ n + v, ?_, by rw [pow_succ]; ring, ?_⟩
      · rw [pow_succ]
        have := Nat.mul_le_mul_right (2 ^ n) hbit
        omega
      · rw [bitsMsb_cons bit hv]
        exact (takeBits_cons_ok (rcBit_forced hb)).trans ht
    | false =>
      obtain ⟨bit, u, hb, hw⟩ := Res.bind_eq_ok.1 h
      obtain ⟨v, hv, rfl, ht⟩ := ih hw
      have hbit : bit.toNat ≤ 1 := by cases bit <;> simp
      refine ⟨bit.toNat * 2 ^ n + v, ?_, by rw [pow_succ]; ring, ?_⟩
      · rw [pow_succ]
        have := Nat.mul_le_mul_right (2 ^ n) hbit
        omega
      · rw [bitsMsb_cons bit hv]
        exact (takeBits_cons_ok (rcBit_forced hb)).trans ht

/-- `LIT_MATCHED` is the decisions of the byte it decodes (`43_literal_decoder.md` R172). -/
theorem litMatched_forced {base : Nat} {mb b : Byte} {s t : State} (h : litMatched base mb s = .ok b t) :
    takeBits (matchedPath base true mb 1 (bitsMsb 8 b.toNat)) s = .ok () t := by
  obtain ⟨r, hr, rfl⟩ := Res.map_eq_ok.1 h
  obtain ⟨v, hv, rfl, ht⟩ := litMatchedLoop_forced hr
  rw [show 1 * 2 ^ 8 + v - 0x100 = v by omega, BitVec.toNat_ofNat, Nat.mod_eq_of_lt hv]
  exact ht

end Sys2Proof.Machine
end

