-- ==== Sys2Proof/Laws/FromCode.lean ====
section
/-! SUPPORT. The field `result` is the model's own (log 5): no operation of the range coder reads it, so a bit decoded inside an operation
is the bit `exec` of `RC_BIT` or `RC_DIRECT` yields there, whatever `result` holds. -/

set_option Elab.async false

namespace Sys2Proof.Machine

/-- The outcome with another value in the field `result` of its state. -/
def Res.setResult {α : Type} (v : Option Nat) : Res α → Res α
  | .ok a s => .ok a { s with result := v }
  | .raise k s => .raise k { s with result := v }
  | .fault f => .fault f

section
variable {α β : Type} (v : Option Nat)

@[simp] theorem Res.setResult_ok (a : α) (s : State) : (Res.ok a s).setResult v = .ok a { s with result := v } := rfl
@[simp] theorem Res.setResult_raise (k : FailureKind) (s : State) :
    (Res.raise k s : Res α).setResult v = .raise k { s with result := v } := rfl
@[simp] theorem Res.setResult_fault (f : Fault) : (Res.fault f : Res α).setResult v = .fault f := rfl

theorem Res.setResult_bind {r : Res α} {f : α → State → Res β} (h : ∀ a t, f a { t with result := v } = (f a t).setResult v) :
    (r.setResult v).bind f = (r.bind f).setResult v := by
  cases r with
  | ok a t => exact h a t
  | raise k t => rfl
  | fault e => rfl

theorem Res.setResult_map {r : Res α} {f : α → β} : (r.setResult v).map f = (r.map f).setResult v := by cases r <;> rfl

/-- How an operation ends does not depend on `result`. -/
theorem Res.finish_setResult (r : Res α) (f : α → Option Nat) : (r.setResult v).finish f = r.finish f := by cases r <;> rfl

end

theorem inByte_setResult (v : Option Nat) (s : State) : inByte { s with result := v } = (inByte s).setResult v := by
  rcases h : s.source with _ | ⟨a, rest⟩
  · simp only [inByte, h, Res.setResult_raise]
  · cases a <;> simp only [inByte, h, Res.setResult_raise, Res.setResult_ok]

theorem normalizeLoop_setResult (v : Option Nat) (n : Nat) (s : State) :
    normalizeLoop n { s with result := v } = (normalizeLoop n s).setResult v := by
  induction n generalizing s with
  | zero => rfl
  | succ n ih =>
    unfold normalizeLoop
    by_cases h : s.range < top
    · rw [if_pos h, if_pos h, inByte_setResult, Res.setResult_bind]
      intro b t
      exact ih { t with code := (t.code <<< 8) ||| b.setWidth 32, range := t.range <<< 8 }
    · rw [if_neg h, if_neg h]; rfl

theorem rcNormalize_setResult (v : Option Nat) (s : State) : rcNormalize { s with result := v } = (rcNormalize s).setResult v :=
  normalizeLoop_setResult v _ s

theorem takeSlotBit_setResult (v : Option Nat) (g : ProbGroup) (i : Int) (bit : Bool) (s : State) :
    takeSlotBit g i bit { s with result := v } = (takeSlotBit g i bit s).setResult v := by
  unfold takeSlotBit
  rw [show State.slot? { s with result := v } g i = s.slot? g i by cases g <;> rfl]
  rcases s.slot? g i with _ | p
  · rfl
  · cases bit with
    | false =>
      exact rcNormalize_setResult v { s with
        range := rcBound s.range p, mem := s.mem.setSlot (slotKey g i.toNat) (adapt p false) }
    | true =>
      exact rcNormalize_setResult v { s with
        range := s.range - rcBound s.range p, code := s.code - rcBound s.range p
        mem := s.mem.setSlot (slotKey g i.toNat) (adapt p true) }

/-- `RC_BIT` does not read `result`. -/
theorem rcBit_setResult (v : Option Nat) (g : ProbGroup) (i : Int) (s : State) :
    rcBit g i { s with result := v } = (rcBit g i s).setResult v := by
  unfold rcBit
  rw [show State.slot? { s with result := v } g i = s.slot? g i by cases g <;> rfl]
  rcases s.slot? g i with _ | p
  · rfl
  · simp only [takeSlotBit_setResult, Res.setResult_map]

/-- Nor does a turn of `RC_DIRECT`. -/
theorem takeDirectBit_setResult (v : Option Nat) (bit : Bool) (s : State) :
    takeDirectBit bit { s with result := v } = (takeDirectBit bit s).setResult v := by
  cases bit with
  | false => exact rcNormalize_setResult v { s with range := s.range >>> 1 }
  | true => exact rcNormalize_setResult v { s with range := s.range >>> 1, code := s.code - s.range >>> 1 }

theorem directBit_setResult (v : Option Nat) (s : State) : directBit { s with result := v } = (directBit s).setResult v := by
  simp only [directBit, takeDirectBit_setResult, Res.setResult_map]

/-- A bit decoded inside an operation, as `exec` decodes it there. -/
theorem exec_rcBit_of_ok {g : ProbGroup} {i : Int} {s t : State} {bit : Bool} (h : rcBit g i s = .ok bit t) (v : Option Nat) :
    ∃ j : Nat, i = j ∧ exec (.rcBit g j) { s with result := v } = .next { t with result := some bit.toNat } := by
  have hi : 0 ≤ i := by
    unfold rcBit State.slot? at h
    by_contra hc
    rw [if_neg (by omega)] at h
    cases h
  refine ⟨i.toNat, by omega, ?_⟩
  show (rcBit g (i.toNat : Int) { s with result := v }).finish _ = _
  rw [show (i.toNat : Int) = i by omega, rcBit_setResult, h]
  rfl

theorem exec_rcDirect_of_ok {s t : State} {bit : Bool} (h : directBit s = .ok bit t) (v : Option Nat) :
    exec (.rcDirect 1) { s with result := v } = .next { t with result := some bit.toNat } := by
  show (rcDirect 1 { s with result := v }).finish _ = _
  unfold rcDirect directLoop
  rw [directBit_setResult, h]
  cases bit <;> rfl

/-- One more decision in front of a sequence decoded from `code`. -/
theorem DecodedFromCode.slot {g : ProbGroup} {i : Int} {bit : Bool} {ds : List Decision} {s t w : State} {v : Option Nat}
    (h : rcBit g i s = .ok bit t) (hs : DecodedFromCode ds { t with result := some bit.toNat } w) :
    DecodedFromCode ((.slot g i, bit) :: ds) { s with result := v } w := by
  obtain ⟨j, hj, he⟩ := exec_rcBit_of_ok h v
  exact ⟨j, _, hj, he, rfl, hs⟩

theorem DecodedFromCode.direct {bit : Bool} {ds : List Decision} {s t w : State} {v : Option Nat} (h : directBit s = .ok bit t)
    (hs : DecodedFromCode ds { t with result := some bit.toNat } w) :
    DecodedFromCode ((.direct, bit) :: ds) { s with result := v } w :=
  ⟨_, exec_rcDirect_of_ok h v, rfl, hs⟩

end Sys2Proof.Machine
end

