-- ==== Sys2Proof/Laws/Keeps.lean ====
section
/-! SUPPORT. What every completed operation keeps: the canonical form of the memory, and the bounds of the range coder and of the
slots (`40_range_decoder.md` R137, R138). -/

set_option Elab.async false

namespace Sys2Proof.Machine

/-- When `r`, begun in `s`, completes, the memory's form and the coder's bounds are as good as in `s`. -/
structure Keeps {α : Type} (s : State) (r : Res α) : Prop where
  post : r.Post (fun _ t => (s.mem.wf = true → t.mem.wf = true) ∧ (CoderOk s → CoderOk t)) fun _ _ => True

section
variable {α β : Type} {s : State}

theorem Keeps.ok (a : α) : Keeps s (.ok a s) := ⟨⟨id, id⟩⟩
theorem Keeps.raise (k : FailureKind) (t : State) : Keeps s (.raise k t : Res α) := ⟨trivial⟩
theorem Keeps.fault (e : Fault) : Keeps s (.fault e : Res α) := ⟨trivial⟩

theorem Keeps.after {t : State} {r : Res α} (hw : s.mem.wf = true → t.mem.wf = true) (hc : CoderOk s → CoderOk t)
    (h : Keeps t r) : Keeps s r :=
  ⟨Res.Post.imp h.post (fun _ _ h' => ⟨fun w => h'.1 (hw w), fun c => h'.2 (hc c)⟩) fun _ _ _ => trivial⟩

theorem Keeps.bind {r : Res α} {f : α → State → Res β} (h : Keeps s r) (hf : ∀ a t, Keeps t (f a t)) : Keeps s (r.bind f) :=
  ⟨Res.Post.bind h.post fun a t ht => (Keeps.after ht.1 ht.2 (hf a t)).post⟩

theorem Keeps.map {r : Res α} {f : α → β} (h : Keeps s r) : Keeps s (r.map f) := ⟨Res.Post.map h.post⟩

theorem Keeps.of_ok {r : Res α} {a : α} {t : State} (h : Keeps s r) (hr : r = .ok a t) :
    (s.mem.wf = true → t.mem.wf = true) ∧ (CoderOk s → CoderOk t) := by
  have := h.post; rw [hr] at this; exact this

end

/-- A state with the same memory and at least the same range. -/
theorem CoderOk.same {s t : State} (h : CoderOk s) (hr : t.range = s.range) (hm : t.mem = s.mem) : CoderOk t :=
  ⟨hr ▸ h.range, hm ▸ h.fill, hm ▸ h.slots⟩

theorem inByte_keeps (s : State) : Keeps s (inByte s) := by
  unfold inByte
  split
  · exact Keeps.raise _ _
  · exact Keeps.raise _ _
  · exact ⟨⟨id, fun h => h.same rfl rfl⟩⟩

theorem loadCode_keeps (n : Nat) (s : State) : Keeps s (loadCode n s) := by
  induction n generalizing s with
  | zero => exact Keeps.ok ()
  | succ n ih =>
    exact (inByte_keeps s).bind fun b t =>
      Keeps.after (t := { t with code := (t.code <<< 8) ||| b.setWidth 32 }) id (fun h => h.same rfl rfl) (ih _)

theorem rcInit_keeps (s : State) : Keeps s (rcInit s) :=
  (inByte_keeps s).bind fun _ t => Keeps.after (t := { t with code := 0#32 }) id (fun h => h.same rfl rfl) <|
    (loadCode_keeps 4 _).bind fun _ u => ⟨⟨id, fun h =>
      ⟨by show 2 ^ 24 ≤ (0xFFFFFFFF#32 : Word).toNat; decide, h.fill, h.slots⟩⟩⟩

/-- `RC_NORMALIZE` keeps the memory, and leaves `range` at least 2^24 when it completes (R133, R138). -/
theorem normalizeLoop_post (n : Nat) (s : State) (hn : s.source.length < n) :
    (normalizeLoop n s).Post (fun _ t => t.mem = s.mem ∧ 2 ^ 24 ≤ t.range.toNat) fun _ _ => True := by
  induction n generalizing s with
  | zero => omega
  | succ n ih =>
    unfold normalizeLoop
    split
    · next hlt =>
      rcases hs : s.source with _ | ⟨a, rest⟩
      · simp [inByte, hs]
      · cases a with
        | failure => simp [inByte, hs]
        | byte b =>
          rw [hs, List.length_cons] at hn
          simp only [inByte, hs, Res.bind_ok]
          refine Res.Post.imp (ih _ ?_) (fun _ _ h => h) fun _ _ h => h
          simp only
          omega
    · next hge => exact ⟨rfl, by have := (lt_top_iff s.range).not.1 hge; omega⟩

theorem rcNormalize_post (s : State) :
    (rcNormalize s).Post (fun _ t => t.mem = s.mem ∧ 2 ^ 24 ≤ t.range.toNat) fun _ _ => True :=
  normalizeLoop_post _ s (Nat.lt_succ_self _)

theorem rcNormalize_keeps {s u : State} (hw : s.mem.wf = true → u.mem.wf = true)
    (hc : CoderOk s → u.mem.probFill = none ∧ ∀ c ∈ u.mem.prob, 31 ≤ c.2.toNat ∧ c.2.toNat ≤ 2017) :
    Keeps s (rcNormalize u) :=
  ⟨Res.Post.imp (rcNormalize_post u) (fun _ t h => ⟨fun w => by rw [h.1]; exact hw w, fun c =>
    ⟨h.2, by rw [h.1]; exact (hc c).1, by rw [h.1]; exact (hc c).2⟩⟩) fun _ _ h => h⟩

theorem takeSlotBit_keeps (g : ProbGroup) (i : Int) (bit : Bool) (s : State) : Keeps s (takeSlotBit g i bit s) := by
  unfold takeSlotBit
  rcases hp : s.slot? g i with _ | p
  · exact Keeps.fault _
  · have hpe : p = s.mem.slot (slotKey g i.toNat) := by
      unfold State.slot? at hp
      split at hp
      · exact (Option.some.inj hp).symm
      · cases hp
    refine rcNormalize_keeps (fun w => ?_) fun c => ?_
    · cases bit <;> exact Memory.wf_setSlot w _ _
    · have hb := Memory.slot_bounds c.fill c.slots (slotKey g i.toNat)
      rw [← hpe] at hb
      have := setSlot_slots c.slots (adapt_bounds hb bit) (slotKey g i.toNat)
      cases bit <;> exact ⟨by simp [c.fill], this⟩

theorem takeDirectBit_keeps (bit : Bool) (s : State) : Keeps s (takeDirectBit bit s) := by
  unfold takeDirectBit
  cases bit <;> exact rcNormalize_keeps id fun c => ⟨c.fill, c.slots⟩

theorem rcBit_keeps (g : ProbGroup) (i : Int) (s : State) : Keeps s (rcBit g i s) := by
  unfold rcBit
  split
  · exact Keeps.fault _
  · exact (takeSlotBit_keeps g i _ s).map

theorem rcNormalizeSelf_keeps (s : State) : Keeps s (rcNormalize s) := rcNormalize_keeps id fun c => ⟨c.fill, c.slots⟩

theorem rcDirect_keeps (n : Nat) (s : State) : Keeps s (rcDirect n s) := by
  unfold rcDirect
  generalize 0#32 = acc
  induction n generalizing acc s with
  | zero => exact Keeps.ok acc
  | succ n ih => exact (takeDirectBit_keeps _ s).map.bind fun bit t => ih t _

theorem treeWalk_keeps (g : ProbGroup) (base : Int) (d m : Nat) (s : State) : Keeps s (treeWalk g base d m s) := by
  induction d generalizing m s with
  | zero => exact Keeps.ok m
  | succ d ih => exact (rcBit_keeps g _ s).bind fun _ t => ih _ t

theorem btDecode_keeps (g : ProbGroup) (base : Int) (d : Nat) (s : State) : Keeps s (btDecode g base d s) :=
  (treeWalk_keeps g base d 1 s).map

theorem reverseWalk_keeps (g : ProbGroup) (base : Int) (d k m r : Nat) (s : State) : Keeps s (reverseWalk g base d k m r s) := by
  induction d generalizing k m r s with
  | zero => exact Keeps.ok r
  | succ d ih => exact (rcBit_keeps g _ s).bind fun _ t => ih _ _ _ t

theorem btReverse_keeps (g : ProbGroup) (base : Int) (d : Nat) (s : State) : Keeps s (btReverse g base d s) :=
  reverseWalk_keeps g base d 0 1 0 s

theorem lenDecode_keeps (x : LenInst) (ps : Nat) (s : State) : Keeps s (lenDecode x ps s) := by
  refine (rcBit_keeps _ _ s).bind fun c0 t => ?_
  split
  · exact (btDecode_keeps _ _ _ t).map
  · refine (rcBit_keeps _ _ t).bind fun c1 u => ?_
    split
    · exact (btDecode_keeps _ _ _ u).map
    · exact (btDecode_keeps _ _ _ u).map

theorem distDecode_keeps (len : Nat) (s : State) : Keeps s (distDecode len s) := by
  refine (btDecode_keeps _ _ _ s).bind fun slot t => ?_
  split
  · exact Keeps.ok _
  · split
    · exact (btReverse_keeps _ _ _ t).map
    · exact (rcDirect_keeps _ t).bind fun hi u => (btReverse_keeps _ _ _ u).map

theorem litNormalLoop_keeps (base n m : Nat) (s : State) : Keeps s (litNormalLoop base n m s) := by
  induction n generalizing m s with
  | zero => exact Keeps.ok m
  | succ n ih => exact (rcBit_keeps _ _ s).bind fun _ t => ih _ t

theorem litNormal_keeps (base : Nat) (s : State) : Keeps s (litNormal base s) := (litNormalLoop_keeps base 8 1 s).map

theorem litMatchedLoop_keeps (base n : Nat) (matched : Bool) (mb : Byte) (m : Nat) (s : State) :
    Keeps s (litMatchedLoop base n matched mb m s) := by
  induction n generalizing matched mb m s with
  | zero => exact Keeps.ok m
  | succ n ih => cases matched <;> exact (rcBit_keeps _ _ s).bind fun _ t => ih _ _ _ t

theorem litMatched_keeps (base : Nat) (mb : Byte) (s : State) : Keeps s (litMatched base mb s) :=
  (litMatchedLoop_keeps base 8 true mb 1 s).map

theorem takeBit_keeps (d : Decision) (s : State) : Keeps s (takeBit d s) := by
  unfold takeBit
  split
  · exact takeSlotBit_keeps _ _ _ s
  · exact takeDirectBit_keeps _ s

theorem takeBits_keeps (ds : List Decision) (s : State) : Keeps s (takeBits ds s) := by
  induction ds generalizing s with
  | nil => exact Keeps.ok ()
  | cons d ds ih => exact (takeBit_keeps d s).bind fun _ t => ih t

/-- What an operation of the window keeps. -/
theorem WinOp.keeps {α : Type} {s : State} {r : Res α} (h : WinOp s r) : Keeps s r :=
  ⟨Res.Post.imp h.post (fun _ _ h' => ⟨h'.2, fun c => by
    have hf := h'.1.fields
    exact ⟨hf.1 ▸ c.range, h'.1.fill.trans c.fill, by rw [h'.1.prob]; exact c.slots⟩⟩) fun _ _ _ => trivial⟩

end Sys2Proof.Machine
end

