-- ==== Sys2Proof/Laws/Paths.lean ====
section
/-! SUPPORT. The decision sequences of rows (`30_encoding.md` R97 to R104): their slots stand in their groups (`10_state.md` R37), which
groups they adapt, and how many decisions they have (R105). -/

set_option Elab.async false

namespace Sys2Proof.Machine

/-- The decisions of `ds` are decoded on slots the groups have. -/
def PathOk (s : State) (ds : List Decision) : Prop := ∀ d ∈ ds, Decision.inGroup s d

/-- The slots of `ds` belong to the groups `gs`. -/
def PathIn (gs : List ProbGroup) (ds : List Decision) : Prop := ∀ d ∈ ds, ∀ g i, d.1 = .slot g i → g ∈ gs

theorem PathOk.nil (s : State) : PathOk s [] := by simp [PathOk]
theorem PathIn.nil (gs : List ProbGroup) : PathIn gs [] := by simp [PathIn]

theorem PathOk.cons {s : State} {d : Decision} {ds : List Decision} (h : Decision.inGroup s d) (hs : PathOk s ds) :
    PathOk s (d :: ds) := by
  intro e he
  rcases List.mem_cons.1 he with rfl | he
  · exact h
  · exact hs e he

theorem PathIn.cons {gs : List ProbGroup} {d : Decision} {ds : List Decision} (h : ∀ g i, d.1 = .slot g i → g ∈ gs)
    (hs : PathIn gs ds) : PathIn gs (d :: ds) := by
  intro e he
  rcases List.mem_cons.1 he with rfl | he
  · exact h
  · exact hs e he

theorem PathOk.append {s : State} {ds es : List Decision} (h : PathOk s ds) (h' : PathOk s es) : PathOk s (ds ++ es) := by
  intro e he
  rcases List.mem_append.1 he with he | he
  · exact h e he
  · exact h' e he

theorem PathIn.append {gs : List ProbGroup} {ds es : List Decision} (h : PathIn gs ds) (h' : PathIn gs es) :
    PathIn gs (ds ++ es) := by
  intro e he
  rcases List.mem_append.1 he with he | he
  · exact h e he
  · exact h' e he

theorem PathIn.mono {gs gs' : List ProbGroup} {ds : List Decision} (h : PathIn gs ds) (hs : gs ⊆ gs') : PathIn gs' ds :=
  fun d hd g i hg => hs (h d hd g i hg)

theorem PathOk.frame {gs : List ProbGroup} {s t : State} {ds : List Decision} (h : PathOk s ds) (hf : CoderFrame gs s t) :
    PathOk t ds := fun d hd g i hg => by rw [groupSize_frame hf]; exact h d hd g i hg

theorem inGroup_slot {s : State} {g : ProbGroup} {i : Int} {b : Bool} (h0 : 0 ≤ i) (h : i < groupSize s g) :
    Decision.inGroup s (.slot g i, b) := by
  intro g' i' he
  obtain ⟨rfl, rfl⟩ := BitSource.slot.inj he
  exact ⟨h0, h⟩

theorem inGroup_direct (s : State) (b : Bool) : Decision.inGroup s (.direct, b) := by intro g i h; cases h

theorem slot_mem {gs : List ProbGroup} {g : ProbGroup} (hg : g ∈ gs) (i : Int) (b : Bool) :
    ∀ g' i', ((BitSource.slot g i, b) : Decision).1 = .slot g' i' → g' ∈ gs := by
  intro g' i' he
  obtain ⟨rfl, rfl⟩ := BitSource.slot.inj he
  exact hg

/-! ### Trees -/

@[simp] theorem treePath_length (g : ProbGroup) (base : Int) (m : Nat) (bs : List Bool) : (treePath g base m bs).length = bs.length := by
  induction bs generalizing m with
  | nil => rfl
  | cons b bs ih => simp [treePath, ih]

@[simp] theorem matchedPath_length (base : Nat) (matched : Bool) (mb : Byte) (m : Nat) (bs : List Bool) :
    (matchedPath base matched mb m bs).length = bs.length := by
  induction bs generalizing matched mb m with
  | nil => cases matched <;> rfl
  | cons b bs ih => cases matched <;> simp [matchedPath, ih]

@[simp] theorem treePath_bits (g : ProbGroup) (base : Int) (m : Nat) (bs : List Bool) : (treePath g base m bs).map Prod.snd = bs := by
  induction bs generalizing m with
  | nil => rfl
  | cons b bs ih => simp [treePath, ih]

@[simp] theorem matchedPath_bits (base : Nat) (matched : Bool) (mb : Byte) (m : Nat) (bs : List Bool) :
    (matchedPath base matched mb m bs).map Prod.snd = bs := by
  induction bs generalizing matched mb m with
  | nil => cases matched <;> rfl
  | cons b bs ih => cases matched <;> simp [matchedPath, ih]

theorem treePath_in {gs : List ProbGroup} {g : ProbGroup} (hg : g ∈ gs) (base : Int) (m : Nat) (bs : List Bool) :
    PathIn gs (treePath g base m bs) := by
  induction bs generalizing m with
  | nil => exact PathIn.nil gs
  | cons b bs ih => exact PathIn.cons (slot_mem hg _ _) (ih _)

theorem matchedPath_in {gs : List ProbGroup} (hg : ProbGroup.lit ∈ gs) (base : Nat) (matched : Bool) (mb : Byte) (m : Nat)
    (bs : List Bool) : PathIn gs (matchedPath base matched mb m bs) := by
  induction bs generalizing matched mb m with
  | nil => cases matched <;> exact PathIn.nil gs
  | cons b bs ih => cases matched <;> exact PathIn.cons (slot_mem hg _ _) (ih _ _ _)

/-- One step down a tree stays high enough. -/
theorem node_step {m k n e : Nat} (b : Bool) (h : (m + 1) * 2 ^ (k + 1) ≤ n * 2 ^ e) : (2 * m + b.toNat + 1) * 2 ^ k ≤ n * 2 ^ e := by
  have hb : b.toNat ≤ 1 := by cases b <;> simp
  calc (2 * m + b.toNat + 1) * 2 ^ k ≤ (2 * (m + 1)) * 2 ^ k := Nat.mul_le_mul_right _ (by omega)
    _ = (m + 1) * 2 ^ (k + 1) := by rw [pow_succ]; ring
    _ ≤ n * 2 ^ e := h

theorem node_lt {m k e : Nat} (h : (m + 1) * 2 ^ (k + 1) ≤ 2 * 2 ^ e) : m + 1 ≤ 2 ^ e := by
  have h2 : (m + 1) * 2 ^ (k + 1) = 2 * ((m + 1) * 2 ^ k) := by rw [pow_succ]; ring
  have h3 : m + 1 ≤ (m + 1) * 2 ^ k := Nat.le_mul_of_pos_right _ Nat.one_le_two_pow
  omega

theorem treePath_ok {s : State} {g : ProbGroup} {base : Int} {e m : Nat} (h0 : 0 ≤ base + 1) (he : base + 2 ^ e ≤ groupSize s g)
    (hm : 1 ≤ m) {bs : List Bool} (hd : (m + 1) * 2 ^ bs.length ≤ 2 * 2 ^ e) : PathOk s (treePath g base m bs) := by
  induction bs generalizing m with
  | nil => exact PathOk.nil s
  | cons b bs ih =>
    rw [List.length_cons] at hd
    have h1 : ((m : Int) + 1) ≤ 2 ^ e := by exact_mod_cast node_lt hd
    exact PathOk.cons (inGroup_slot (by omega) (by omega)) (ih (by omega) (node_step b hd))

/-- A whole tree of depth `e` (`41_bit_tree.md` R150). -/
theorem treePath_whole {s : State} {g : ProbGroup} {base : Int} {e : Nat} (h0 : 0 ≤ base + 1) (he : base + 2 ^ e ≤ groupSize s g)
    {bs : List Bool} (hb : bs.length = e) : PathOk s (treePath g base 1 bs) :=
  treePath_ok h0 he le_rfl (by rw [hb])

theorem matchedPath_ok {s : State} {base m : Nat} {matched : Bool} {mb : Byte} (he : base + 0x300 ≤ groupSize s .lit)
    (hm : 1 ≤ m) {bs : List Bool} (hd : (m + 1) * 2 ^ bs.length ≤ 2 * 2 ^ 8) : PathOk s (matchedPath base matched mb m bs) := by
  induction bs generalizing m matched mb with
  | nil => cases matched <;> exact PathOk.nil s
  | cons b bs ih =>
    rw [List.length_cons] at hd
    have h1 := node_lt hd
    have hb : mb.msb.toNat ≤ 1 := by cases mb.msb <;> simp
    cases matched with
    | true =>
      refine PathOk.cons (inGroup_slot (by positivity) ?_) (ih (by omega) (node_step b hd))
      have : (1 + mb.msb.toNat) * 256 ≤ 512 := by omega
      exact_mod_cast (by omega : base + (1 + mb.msb.toNat) * 256 + m < groupSize s .lit)
    | false =>
      refine PathOk.cons (inGroup_slot (by positivity) ?_) (ih (by omega) (node_step b hd))
      exact_mod_cast (by omega : base + m < groupSize s .lit)

/-! ### Indices (R37, `43_literal_decoder.md` R170) -/

theorem and_mask {p k : Nat} : p &&& (2 ^ k - 1) = p % 2 ^ k := Nat.and_two_pow_sub_one_eq_mod p k

theorem posState_eq {s : State} (h : PropertiesOk s) : posState s = s.position.toNat % 2 ^ s.pb.toNat := by
  unfold posState
  have hm := h.posStateMask
  have hlt := s.posStateMask.isLt
  rw [BitVec.toNat_and, BitVec.toNat_setWidth, Nat.mod_eq_of_lt (by omega), hm, and_mask]

theorem posState_lt {s : State} (h : PropertiesOk s) : posState s < 2 ^ s.pb.toNat := by
  rw [posState_eq h]; exact Nat.mod_lt _ (by positivity)

theorem stateIndex_lt {s : State} (h : PropertiesOk s) (hs : s.state.toNat < 12) : stateIndex s < 12 * 2 ^ s.pb.toNat := by
  have hp := posState_lt h
  unfold stateIndex
  rw [Nat.shiftLeft_eq]
  have : (s.state.toNat + 1) * 2 ^ s.pb.toNat ≤ 12 * 2 ^ s.pb.toNat := Nat.mul_le_mul_right _ (by omega)
  rw [Nat.add_mul] at this
  omega

theorem litSubDecoder_eq {s : State} (h : PropertiesOk s) : litSubDecoder s =
    s.position.toNat % 2 ^ s.lp.toNat * 2 ^ s.lc.toNat + s.prevByte.toNat / 2 ^ (8 - s.lc.toNat) := by
  unfold litSubDecoder
  have hm := h.literalPosMask
  have hlt := s.literalPosMask.isLt
  rw [BitVec.toNat_and, BitVec.toNat_setWidth, Nat.mod_eq_of_lt (by omega), hm, and_mask, Nat.shiftLeft_eq,
    Nat.shiftRight_eq_div_pow]

theorem litSubDecoder_lt {s : State} (h : PropertiesOk s) : litSubDecoder s < 2 ^ (s.lc.toNat + s.lp.toNat) := by
  rw [litSubDecoder_eq h]
  have h1 : s.position.toNat % 2 ^ s.lp.toNat < 2 ^ s.lp.toNat := Nat.mod_lt _ (by positivity)
  have h2 : s.prevByte.toNat / 2 ^ (8 - s.lc.toNat) < 2 ^ s.lc.toNat := by
    rw [Nat.div_lt_iff_lt_mul (by positivity), ← pow_add, Nat.add_sub_cancel' h.lc]
    exact s.prevByte.isLt
  have h3 : (s.position.toNat % 2 ^ s.lp.toNat + 1) * 2 ^ s.lc.toNat ≤ 2 ^ s.lp.toNat * 2 ^ s.lc.toNat :=
    Nat.mul_le_mul_right _ h1
  rw [← pow_add, Nat.add_comm s.lp.toNat, Nat.add_mul] at h3
  omega

theorem litSub_fits {s : State} (h : PropertiesOk s) : litSubDecoder s * litSubSize + 0x300 ≤ groupSize s .lit := by
  have h1 := Nat.mul_le_mul_right litSubSize (litSubDecoder_lt h)
  have h2 : (litSubDecoder s).succ * litSubSize = litSubDecoder s * litSubSize + 0x300 := by rw [Nat.succ_mul]
  show _ ≤ 2 ^ (s.lc.toNat + s.lp.toNat) * litSubSize
  omega

/-! ### Fields -/

theorem lenPath_in {gs : List ProbGroup} {x : LenInst} (hx : lenGroups x ⊆ gs) (ps len : Nat) : PathIn gs (lenPath x ps len) := by
  have hc : x.choice ∈ gs := hx (by simp [lenGroups])
  have hl : x.low ∈ gs := hx (by simp [lenGroups])
  have hm : x.mid ∈ gs := hx (by simp [lenGroups])
  have hh : x.high ∈ gs := hx (by simp [lenGroups])
  unfold lenPath
  split
  · exact PathIn.cons (slot_mem hc _ _) (treePath_in hl _ _ _)
  · split
    · exact PathIn.cons (slot_mem hc _ _) (PathIn.cons (slot_mem hc _ _) (treePath_in hm _ _ _))
    · exact PathIn.cons (slot_mem hc _ _) (PathIn.cons (slot_mem hc _ _) (treePath_in hh _ _ _))

theorem lenPath_length (x : LenInst) (ps len : Nat) : (lenPath x ps len).length ≤ 10 := by
  unfold lenPath
  split
  · simp
  · split <;> simp

theorem lenPath_ok {s : State} (x : LenInst) {ps : Nat} (h : ps < 2 ^ s.pb.toNat) (len : Nat) : PathOk s (lenPath x ps len) := by
  have hc : groupSize s x.choice = 2 := by cases x <;> rfl
  have hl : groupSize s x.low = 2 ^ s.pb.toNat * 8 := by cases x <;> rfl
  have hm : groupSize s x.mid = 2 ^ s.pb.toNat * 8 := by cases x <;> rfl
  have hh : groupSize s x.high = 256 := by cases x <;> rfl
  have h0 : ∀ b, Decision.inGroup s (.slot x.choice 0, b) := fun b => inGroup_slot le_rfl (by rw [hc]; decide)
  have h1 : ∀ b, Decision.inGroup s (.slot x.choice 1, b) := fun b => inGroup_slot (by decide) (by rw [hc]; decide)
  have hfit : ((ps : Int) * 8) + 2 ^ 3 ≤ ((2 ^ s.pb.toNat * 8 : Nat) : Int) := by
    have : ps * 8 + 8 ≤ 2 ^ s.pb.toNat * 8 := by omega
    exact_mod_cast this
  unfold lenPath
  split
  · exact PathOk.cons (h0 _) (treePath_whole (e := 3) (by positivity) (by rw [hl]; exact hfit) (by simp))
  · split
    · exact PathOk.cons (h0 _) (PathOk.cons (h1 _) (treePath_whole (e := 3) (by positivity) (by rw [hm]; exact hfit) (by simp)))
    · exact PathOk.cons (h0 _) (PathOk.cons (h1 _) (treePath_whole (e := 8) (by decide) (by rw [hh]; decide) (by simp)))

/-- The offset of a position slot's tree into `POS_DEC` (`45_symbols.md` R206): the trees of slots 4 to 13 fit (D8). -/
theorem posDec_fits : ∀ slot, 4 ≤ slot → slot < 14 →
    0 ≤ posDecOffset slot + 1 ∧ posDecOffset slot + 2 ^ directBits slot ≤ 114 := by
  intro slot h1 h2
  interval_cases slot <;> decide

theorem extraPath_ok (s : State) (slot e : Nat) : PathOk s (extraPath slot e) := by
  unfold extraPath
  split
  · exact PathOk.nil s
  · split
    · next h4 h14 =>
      obtain ⟨h1, h2⟩ := posDec_fits slot (by omega) h14
      exact treePath_whole h1 (by simpa [groupSize] using h2) (by simp)
    · refine PathOk.append ?_ (treePath_whole (e := 4) (by decide) (by simp [groupSize, alignBits]) (by simp))
      intro d hd
      obtain ⟨b, -, rfl⟩ := List.mem_map.1 hd
      exact inGroup_direct s b

theorem extraPath_in {gs : List ProbGroup} (hd : ProbGroup.posDec ∈ gs) (ha : ProbGroup.align ∈ gs) (slot e : Nat) :
    PathIn gs (extraPath slot e) := by
  unfold extraPath
  split
  · exact PathIn.nil gs
  · split
    · exact treePath_in hd _ _ _
    · refine PathIn.append ?_ (treePath_in ha _ _ _)
      intro d hm
      obtain ⟨b, -, rfl⟩ := List.mem_map.1 hm
      intro g i h; cases h

theorem extraPath_length {slot : Nat} (h : slot < 64) (e : Nat) : (extraPath slot e).length ≤ 30 := by
  have := directBits_eq slot
  unfold extraPath
  split
  · simp
  · split
    · simp; omega
    · simp only [List.length_append, List.length_map, bitsMsb_length, treePath_length, bitsLsb_length, alignBits]
      omega

theorem distPath_ok (s : State) (c : LenClass) (slot e : Nat) : PathOk s (distPath c slot e) := by
  have hc := c.isLt
  refine PathOk.append (treePath_whole (e := 6) ?_ ?_ (by simp)) (extraPath_ok s slot e)
  · simp only [posSlotBase]; positivity
  · simp only [posSlotBase, groupSize, lenClasses, config_posSlotBits]
    push_cast
    omega

theorem distPath_in {gs : List ProbGroup} (h : distGroups ⊆ gs) (c : LenClass) (slot e : Nat) : PathIn gs (distPath c slot e) :=
  PathIn.append (treePath_in (h (by simp [distGroups])) _ _ _)
    (extraPath_in (h (by simp [distGroups])) (h (by simp [distGroups])) slot e)

theorem distPath_length (c : LenClass) {slot : Nat} (h : slot < 64) (e : Nat) : (distPath c slot e).length ≤ 36 := by
  have := extraPath_length h e
  simp only [distPath, List.length_append, treePath_length, bitsMsb_length, config_posSlotBits]
  omega

theorem litPath_ok {s : State} (h : PropertiesOk s) (mb : Option Byte) (b : Byte) : PathOk s (litPath s mb b) := by
  have hf := litSub_fits h
  unfold litPath
  generalize litSubDecoder s * litSubSize = base at hf ⊢
  generalize hg : groupSize s .lit = n at hf
  split
  · refine treePath_whole (e := 8) (by omega) ?_ (by simp)
    rw [hg]
    omega
  · exact matchedPath_ok (by rw [hg]; exact hf) le_rfl (by simp)

theorem litPath_in {gs : List ProbGroup} (hl : ProbGroup.lit ∈ gs) (s : State) (mb : Option Byte) (b : Byte) :
    PathIn gs (litPath s mb b) := by
  unfold litPath
  split
  · exact treePath_in hl _ _ _
  · exact matchedPath_in hl _ _ _ _ _

theorem litPath_length (s : State) (mb : Option Byte) (b : Byte) : (litPath s mb b).length = 8 := by
  unfold litPath
  split <;> simp

/-! ### Symbols -/

/-- The groups a symbol adapts. -/
def symbolGroups : Symbol → List ProbGroup
  | .lit _ => litGroups
  | .matchNew _ _ => matchGroups
  | .eos _ => matchGroups
  | .shortrep => shortrepGroups
  | .longrep0 _ => longrepGroups
  | .longrep1 _ => longrepGroups
  | .longrep2 _ => longrepGroups
  | .longrep3 _ => longrepGroups

theorem lenGroups_mlen : lenGroups .mlen ⊆ matchGroups := by
  simp [lenGroups, matchGroups, LenInst.choice, LenInst.low, LenInst.mid, LenInst.high]

theorem lenGroups_rlen : lenGroups .rlen ⊆ longrepGroups := by
  simp [lenGroups, longrepGroups, LenInst.choice, LenInst.low, LenInst.mid, LenInst.high]

theorem distGroups_match : distGroups ⊆ matchGroups := by simp [distGroups, matchGroups]

theorem symbolPath_in (s : State) (mb : Option Byte) (y : Symbol) : PathIn (symbolGroups y) (symbolPath s mb y) := by
  have hm : ∀ len dist, PathIn matchGroups
      (isMatchBit s true :: isRepBit s false :: (lenPath .mlen (posState s) len ++ distancePath (lenClassOf len) dist)) :=
    fun len dist => PathIn.cons (slot_mem (by simp [matchGroups]) _ _) (PathIn.cons (slot_mem (by simp [matchGroups]) _ _)
      (PathIn.append (lenPath_in lenGroups_mlen _ _) (distPath_in distGroups_match _ _ _)))
  have hl : ∀ len, PathIn longrepGroups (lenPath .rlen (posState s) len) := fun len => lenPath_in lenGroups_rlen _ _
  have h1 : ∀ {ds}, PathIn longrepGroups ds → ∀ b, PathIn longrepGroups (isMatchBit s b :: ds) :=
    fun h b => PathIn.cons (slot_mem (by simp [longrepGroups]) _ _) h
  have h2 : ∀ {ds}, PathIn longrepGroups ds → ∀ b, PathIn longrepGroups (isRepBit s b :: ds) :=
    fun h b => PathIn.cons (slot_mem (by simp [longrepGroups]) _ _) h
  have h3 : ∀ {ds}, PathIn longrepGroups ds → ∀ b, PathIn longrepGroups (isRepG0Bit s b :: ds) :=
    fun h b => PathIn.cons (slot_mem (by simp [longrepGroups]) _ _) h
  have h4 : ∀ {ds}, PathIn longrepGroups ds → ∀ b, PathIn longrepGroups (isRep0LongBit s b :: ds) :=
    fun h b => PathIn.cons (slot_mem (by simp [longrepGroups]) _ _) h
  have h5 : ∀ {ds}, PathIn longrepGroups ds → ∀ b, PathIn longrepGroups (isRepG1Bit s b :: ds) :=
    fun h b => PathIn.cons (slot_mem (by simp [longrepGroups]) _ _) h
  have h6 : ∀ {ds}, PathIn longrepGroups ds → ∀ b, PathIn longrepGroups (isRepG2Bit s b :: ds) :=
    fun h b => PathIn.cons (slot_mem (by simp [longrepGroups]) _ _) h
  cases y with
  | lit b => exact PathIn.cons (slot_mem (by simp [symbolGroups, litGroups]) _ _) (litPath_in (by simp [symbolGroups, litGroups]) _ _ _)
  | matchNew len dist => exact hm len dist
  | eos len => exact hm len eosDistance
  | shortrep =>
    have hs : ∀ {ds d}, (∀ g i, d.1 = BitSource.slot g i → g ∈ shortrepGroups) → PathIn shortrepGroups ds →
        PathIn shortrepGroups (d :: ds) := fun h h' => PathIn.cons h h'
    exact hs (slot_mem (by simp [shortrepGroups]) _ _) (hs (slot_mem (by simp [shortrepGroups]) _ _)
      (hs (slot_mem (by simp [shortrepGroups]) _ _) (hs (slot_mem (by simp [shortrepGroups]) _ _) (PathIn.nil _))))
  | longrep0 len => exact h1 (h2 (h3 (h4 (hl len) _) _) _) _
  | longrep1 len => exact h1 (h2 (h3 (h5 (hl len) _) _) _) _
  | longrep2 len => exact h1 (h2 (h3 (h5 (h6 (hl len) _) _) _) _) _
  | longrep3 len => exact h1 (h2 (h3 (h5 (h6 (hl len) _) _) _) _) _

theorem posSlotOf_lt {dist : Nat} (h : dist < 2 ^ 32) : posSlotOf dist < 64 := (posSlotOf_range h).1

theorem symbolPath_length (s : State) (mb : Option Byte) (y : Symbol) : (symbolPath s mb y).length ≤ 48 := by
  have hl : ∀ x len, (lenPath x (posState s) len).length ≤ 10 := fun x len => lenPath_length x _ len
  have hd : ∀ c (dist : Word), (distancePath c dist).length ≤ 36 :=
    fun c dist => distPath_length c (posSlotOf_lt dist.isLt) _
  cases y <;> simp only [symbolPath, List.length_cons, List.length_append, List.length_nil, litPath_length]
  case lit => omega
  case matchNew len dist => have := hl .mlen len; have := hd (lenClassOf len) dist; omega
  case eos len => have := hl .mlen len; have := hd (lenClassOf len) eosDistance; omega
  case shortrep => omega
  all_goals
    rename_i len
    have := hl .rlen len
    omega

theorem symbolPath_ok {s : State} (h : PropertiesOk s) (hs : s.state.toNat < 12) (mb : Option Byte) (y : Symbol) :
    PathOk s (symbolPath s mb y) := by
  have hi := stateIndex_lt h hs
  have h1 : ∀ b, Decision.inGroup s (isMatchBit s b) :=
    fun b => inGroup_slot (by positivity) (by exact_mod_cast hi)
  have h2 : ∀ b, Decision.inGroup s (isRepBit s b) := fun b => inGroup_slot (by positivity) (by exact_mod_cast hs)
  have h3 : ∀ b, Decision.inGroup s (isRepG0Bit s b) := fun b => inGroup_slot (by positivity) (by exact_mod_cast hs)
  have h4 : ∀ b, Decision.inGroup s (isRep0LongBit s b) :=
    fun b => inGroup_slot (by positivity) (by exact_mod_cast hi)
  have h5 : ∀ b, Decision.inGroup s (isRepG1Bit s b) := fun b => inGroup_slot (by positivity) (by exact_mod_cast hs)
  have h6 : ∀ b, Decision.inGroup s (isRepG2Bit s b) := fun b => inGroup_slot (by positivity) (by exact_mod_cast hs)
  have hl : ∀ x len, PathOk s (lenPath x (posState s) len) := fun x len => lenPath_ok x (posState_lt h) len
  have hd : ∀ c (dist : Word), PathOk s (distancePath c dist) := fun c dist => distPath_ok s c _ _
  cases y <;> simp only [symbolPath]
  case lit b => exact PathOk.cons (h1 _) (litPath_ok h mb b)
  case matchNew len dist => exact PathOk.cons (h1 _) (PathOk.cons (h2 _) (PathOk.append (hl _ _) (hd _ _)))
  case eos len => exact PathOk.cons (h1 _) (PathOk.cons (h2 _) (PathOk.append (hl _ _) (hd _ _)))
  case shortrep => exact PathOk.cons (h1 _) (PathOk.cons (h2 _) (PathOk.cons (h3 _) (PathOk.cons (h4 _) (PathOk.nil s))))
  case longrep0 len => exact PathOk.cons (h1 _) (PathOk.cons (h2 _) (PathOk.cons (h3 _) (PathOk.cons (h4 _) (hl _ _))))
  case longrep1 len => exact PathOk.cons (h1 _) (PathOk.cons (h2 _) (PathOk.cons (h3 _) (PathOk.cons (h5 _) (hl _ _))))
  case longrep2 len =>
    exact PathOk.cons (h1 _) (PathOk.cons (h2 _) (PathOk.cons (h3 _) (PathOk.cons (h5 _) (PathOk.cons (h6 _) (hl _ _)))))
  case longrep3 len =>
    exact PathOk.cons (h1 _) (PathOk.cons (h2 _) (PathOk.cons (h3 _) (PathOk.cons (h5 _) (PathOk.cons (h6 _) (hl _ _)))))

end Sys2Proof.Machine
end

