-- ==== Sys2Proof/Laws/PerInstr.lean ====
section
/-! SUPPORT. The family `RoundTrip`, one lemma for each instruction: what the encoder writes, the decoder reads back. -/

set_option Elab.async false

namespace Sys2Proof.Laws.RoundTrip

/-- What is written of a well-formed instruction is read back, whatever follows it; an OP or CMD row has no bits (`30_encoding.md`
R110). -/
def Statement (i : Instr) : Prop :=
  i.wf = true → ∀ ctx bits, encode i = some (ctx, bits) → ∀ rest, decode ctx (bits ++ rest) = .ok (i, rest)

/-! ### Fields -/

theorem readLen_lenBits {len : Nat} (h : lenOk len = true) (rest : List Bool) : readLen (lenBits len ++ rest) = .ok (len, rest) := by
  simp only [lenOk, Bool.and_eq_true, decide_eq_true_eq] at h
  unfold lenBits
  split
  · simp only [List.cons_append, readLen, readMsb_bitsMsb]
    rw [Nat.mod_eq_of_lt (by omega)]; congr 2; omega
  · split
    · simp only [List.cons_append, readLen, readMsb_bitsMsb]
      rw [Nat.mod_eq_of_lt (by omega)]; congr 2; omega
    · simp only [List.cons_append, readLen, readMsb_bitsMsb]
      rw [Nat.mod_eq_of_lt (by omega)]; congr 2; omega

theorem readWithLen_lenBits {len : Nat} (h : lenOk len = true) (f : Nat → Symbol) (rest : List Bool) :
    readWithLen f (lenBits len ++ rest) = .ok (f len, rest) := by
  unfold readWithLen; rw [readLen_lenBits h]

theorem ofNat_high {w : Nat} (d : BitVec w) (a : BitVec 4) : BitVec.ofNat w ((d.toNat * 16 + a.toNat) / 16) = d := by
  have ha := a.isLt
  rw [show (d.toNat * 16 + a.toNat) / 16 = d.toNat by omega]; simp

theorem ofNat_self {w : Nat} (r : BitVec w) : BitVec.ofNat w r.toNat = r := by simp

theorem ofNat_low {w : Nat} (d : BitVec w) (a : BitVec 4) : BitVec.ofNat 4 (d.toNat * 16 + a.toNat) = a := by
  apply BitVec.eq_of_toNat_eq
  have ha := a.isLt
  rw [BitVec.toNat_ofNat]; omega

theorem highLow_lt {w : Nat} (d : BitVec w) (a : BitVec 4) {n : Nat} (hn : n = w + 4) : d.toNat * 16 + a.toNat < 2 ^ n := by
  have ha := a.isLt
  have hd := d.isLt
  rw [hn, pow_add]; omega

theorem readDistRow_distBits {slot e : Nat} (hs : slot < 64) (he : e < 2 ^ extraWidth slot) (c : LenClass) (rest : List Bool) :
    decode (.dist c) (distBits slot e ++ rest) = .ok (distRow c slot e, rest) := by
  simp only [decode, readDistRow, readDist_distBits hs he]

theorem none_of_op {i : Instr} (h : encode i = none) : Statement i := by
  intro _ ctx bits he
  rw [h] at he
  exact absurd he (by simp)

/-! ### One lemma for each instruction -/

theorem lit (b : Byte) : Statement (.lit b) := by
  rintro - _ _ ⟨⟩ rest
  simp only [decode, Symbol.bits, List.cons_append, readSymbol, readMsb_bitsMsb, Symbol.toInstr]
  rw [Nat.mod_eq_of_lt b.isLt]; simp

theorem matchNew (len : Nat) (dist : Word) : Statement (.matchNew len dist) := by
  rintro hw _ _ ⟨⟩ rest
  simp only [Instr.wf, Bool.and_eq_true, bne_iff_ne] at hw
  obtain ⟨h1, h2, h3⟩ := posSlotOf_range dist.isLt
  simp only [decode, Symbol.bits, List.cons_append, List.append_assoc, readSymbol, readLen_lenBits hw.1, readDist_distBits h1 h3]
  rw [Nat.add_sub_cancel' h2, BitVec.ofNat_toNat, BitVec.setWidth_eq, Symbol.ofMatch, if_neg hw.2]; rfl

theorem eos (len : Nat) : Statement (.eos len) := by
  rintro hw _ _ ⟨⟩ rest
  simp only [decode, Symbol.bits, List.cons_append, List.append_assoc, readSymbol, readLen_lenBits hw,
    readDist_distBits (slot := 63) (e := 2 ^ 30 - 1) (by decide) (by decide)]
  have h : BitVec.ofNat 32 (distBase 63 + (2 ^ 30 - 1)) = eosDistance := by decide
  rw [h, Symbol.ofMatch, if_pos rfl]; rfl

theorem shortrep : Statement .shortrep := by
  rintro - _ _ ⟨⟩ rest; rfl

theorem longrep0 (len : Nat) : Statement (.longrep0 len) := by
  rintro hw _ _ ⟨⟩ rest
  simp only [decode, Symbol.bits, List.cons_append, readSymbol, readWithLen_lenBits hw]; rfl

theorem longrep1 (len : Nat) : Statement (.longrep1 len) := by
  rintro hw _ _ ⟨⟩ rest
  simp only [decode, Symbol.bits, List.cons_append, readSymbol, readWithLen_lenBits hw]; rfl

theorem longrep2 (len : Nat) : Statement (.longrep2 len) := by
  rintro hw _ _ ⟨⟩ rest
  simp only [decode, Symbol.bits, List.cons_append, readSymbol, readWithLen_lenBits hw]; rfl

theorem longrep3 (len : Nat) : Statement (.longrep3 len) := by
  rintro hw _ _ ⟨⟩ rest
  simp only [decode, Symbol.bits, List.cons_append, readSymbol, readWithLen_lenBits hw]; rfl

theorem lenLow (x : LenInst) (t : BitVec 3) : Statement (.lenLow x t) := by
  rintro - _ _ ⟨⟩ rest
  simp only [decode, List.cons_append, readLenRow, readMsb_bitsMsb]
  rw [Nat.mod_eq_of_lt t.isLt]; simp

theorem lenMid (x : LenInst) (t : BitVec 3) : Statement (.lenMid x t) := by
  rintro - _ _ ⟨⟩ rest
  simp only [decode, List.cons_append, readLenRow, readMsb_bitsMsb]
  rw [Nat.mod_eq_of_lt t.isLt]; simp

theorem lenHigh (x : LenInst) (t : BitVec 8) : Statement (.lenHigh x t) := by
  rintro - _ _ ⟨⟩ rest
  simp only [decode, List.cons_append, readLenRow, readMsb_bitsMsb]
  rw [Nat.mod_eq_of_lt t.isLt]; simp

theorem distSlot0 (c : LenClass) : Statement (.distSlot0 c) := by
  rintro - _ _ ⟨⟩ rest
  exact readDistRow_distBits (by decide) (by decide) c rest

theorem distSlot1 (c : LenClass) : Statement (.distSlot1 c) := by
  rintro - _ _ ⟨⟩ rest
  exact readDistRow_distBits (by decide) (by decide) c rest

theorem distSlot2 (c : LenClass) : Statement (.distSlot2 c) := by
  rintro - _ _ ⟨⟩ rest
  exact readDistRow_distBits (by decide) (by decide) c rest

theorem distSlot3 (c : LenClass) : Statement (.distSlot3 c) := by
  rintro - _ _ ⟨⟩ rest
  exact readDistRow_distBits (by decide) (by decide) c rest

theorem distSlot4 (c : LenClass) (r : BitVec 1) : Statement (.distSlot4 c r) := by
  rintro - _ _ ⟨⟩ rest
  refine (readDistRow_distBits (by decide) r.isLt c rest).trans ?_
  show Except.ok (Instr.distSlot4 c (BitVec.ofNat 1 r.toNat), rest) = _
  rw [ofNat_self]

theorem distSlot5 (c : LenClass) (r : BitVec 1) : Statement (.distSlot5 c r) := by
  rintro - _ _ ⟨⟩ rest
  refine (readDistRow_distBits (by decide) r.isLt c rest).trans ?_
  show Except.ok (Instr.distSlot5 c (BitVec.ofNat 1 r.toNat), rest) = _
  rw [ofNat_self]

theorem distSlot6 (c : LenClass) (r : BitVec 2) : Statement (.distSlot6 c r) := by
  rintro - _ _ ⟨⟩ rest
  refine (readDistRow_distBits (by decide) r.isLt c rest).trans ?_
  show Except.ok (Instr.distSlot6 c (BitVec.ofNat 2 r.toNat), rest) = _
  rw [ofNat_self]

theorem distSlot7 (c : LenClass) (r : BitVec 2) : Statement (.distSlot7 c r) := by
  rintro - _ _ ⟨⟩ rest
  refine (readDistRow_distBits (by decide) r.isLt c rest).trans ?_
  show Except.ok (Instr.distSlot7 c (BitVec.ofNat 2 r.toNat), rest) = _
  rw [ofNat_self]

theorem distSlot8 (c : LenClass) (r : BitVec 3) : Statement (.distSlot8 c r) := by
  rintro - _ _ ⟨⟩ rest
  refine (readDistRow_distBits (by decide) r.isLt c rest).trans ?_
  show Except.ok (Instr.distSlot8 c (BitVec.ofNat 3 r.toNat), rest) = _
  rw [ofNat_self]

theorem distSlot9 (c : LenClass) (r : BitVec 3) : Statement (.distSlot9 c r) := by
  rintro - _ _ ⟨⟩ rest
  refine (readDistRow_distBits (by decide) r.isLt c rest).trans ?_
  show Except.ok (Instr.distSlot9 c (BitVec.ofNat 3 r.toNat), rest) = _
  rw [ofNat_self]

theorem distSlot10 (c : LenClass) (r : BitVec 4) : Statement (.distSlot10 c r) := by
  rintro - _ _ ⟨⟩ rest
  refine (readDistRow_distBits (by decide) r.isLt c rest).trans ?_
  show Except.ok (Instr.distSlot10 c (BitVec.ofNat 4 r.toNat), rest) = _
  rw [ofNat_self]

theorem distSlot11 (c : LenClass) (r : BitVec 4) : Statement (.distSlot11 c r) := by
  rintro - _ _ ⟨⟩ rest
  refine (readDistRow_distBits (by decide) r.isLt c rest).trans ?_
  show Except.ok (Instr.distSlot11 c (BitVec.ofNat 4 r.toNat), rest) = _
  rw [ofNat_self]

theorem distSlot12 (c : LenClass) (r : BitVec 5) : Statement (.distSlot12 c r) := by
  rintro - _ _ ⟨⟩ rest
  refine (readDistRow_distBits (by decide) r.isLt c rest).trans ?_
  show Except.ok (Instr.distSlot12 c (BitVec.ofNat 5 r.toNat), rest) = _
  rw [ofNat_self]

theorem distSlot13 (c : LenClass) (r : BitVec 5) : Statement (.distSlot13 c r) := by
  rintro - _ _ ⟨⟩ rest
  refine (readDistRow_distBits (by decide) r.isLt c rest).trans ?_
  show Except.ok (Instr.distSlot13 c (BitVec.ofNat 5 r.toNat), rest) = _
  rw [ofNat_self]

theorem distSlot14 (c : LenClass) (d : BitVec 2) (a : BitVec 4) : Statement (.distSlot14 c d a) := by
  rintro - _ _ ⟨⟩ rest
  refine (readDistRow_distBits (by decide) (highLow_lt d a rfl) c rest).trans ?_
  show Except.ok (Instr.distSlot14 c (BitVec.ofNat 2 ((d.toNat * 16 + a.toNat) / 16))
    (BitVec.ofNat 4 (d.toNat * 16 + a.toNat)), rest) = _
  rw [ofNat_high, ofNat_low]

theorem distSlot15 (c : LenClass) (d : BitVec 2) (a : BitVec 4) : Statement (.distSlot15 c d a) := by
  rintro - _ _ ⟨⟩ rest
  refine (readDistRow_distBits (by decide) (highLow_lt d a rfl) c rest).trans ?_
  show Except.ok (Instr.distSlot15 c (BitVec.ofNat 2 ((d.toNat * 16 + a.toNat) / 16))
    (BitVec.ofNat 4 (d.toNat * 16 + a.toNat)), rest) = _
  rw [ofNat_high, ofNat_low]

theorem distSlot16 (c : LenClass) (d : BitVec 3) (a : BitVec 4) : Statement (.distSlot16 c d a) := by
  rintro - _ _ ⟨⟩ rest
  refine (readDistRow_distBits (by decide) (highLow_lt d a rfl) c rest).trans ?_
  show Except.ok (Instr.distSlot16 c (BitVec.ofNat 3 ((d.toNat * 16 + a.toNat) / 16))
    (BitVec.ofNat 4 (d.toNat * 16 + a.toNat)), rest) = _
  rw [ofNat_high, ofNat_low]

theorem distSlot17 (c : LenClass) (d : BitVec 3) (a : BitVec 4) : Statement (.distSlot17 c d a) := by
  rintro - _ _ ⟨⟩ rest
  refine (readDistRow_distBits (by decide) (highLow_lt d a rfl) c rest).trans ?_
  show Except.ok (Instr.distSlot17 c (BitVec.ofNat 3 ((d.toNat * 16 + a.toNat) / 16))
    (BitVec.ofNat 4 (d.toNat * 16 + a.toNat)), rest) = _
  rw [ofNat_high, ofNat_low]

theorem distSlot18 (c : LenClass) (d : BitVec 4) (a : BitVec 4) : Statement (.distSlot18 c d a) := by
  rintro - _ _ ⟨⟩ rest
  refine (readDistRow_distBits (by decide) (highLow_lt d a rfl) c rest).trans ?_
  show Except.ok (Instr.distSlot18 c (BitVec.ofNat 4 ((d.toNat * 16 + a.toNat) / 16))
    (BitVec.ofNat 4 (d.toNat * 16 + a.toNat)), rest) = _
  rw [ofNat_high, ofNat_low]

theorem distSlot19 (c : LenClass) (d : BitVec 4) (a : BitVec 4) : Statement (.distSlot19 c d a) := by
  rintro - _ _ ⟨⟩ rest
  refine (readDistRow_distBits (by decide) (highLow_lt d a rfl) c rest).trans ?_
  show Except.ok (Instr.distSlot19 c (BitVec.ofNat 4 ((d.toNat * 16 + a.toNat) / 16))
    (BitVec.ofNat 4 (d.toNat * 16 + a.toNat)), rest) = _
  rw [ofNat_high, ofNat_low]

theorem distSlot20 (c : LenClass) (d : BitVec 5) (a : BitVec 4) : Statement (.distSlot20 c d a) := by
  rintro - _ _ ⟨⟩ rest
  refine (readDistRow_distBits (by decide) (highLow_lt d a rfl) c rest).trans ?_
  show Except.ok (Instr.distSlot20 c (BitVec.ofNat 5 ((d.toNat * 16 + a.toNat) / 16))
    (BitVec.ofNat 4 (d.toNat * 16 + a.toNat)), rest) = _
  rw [ofNat_high, ofNat_low]

theorem distSlot21 (c : LenClass) (d : BitVec 5) (a : BitVec 4) : Statement (.distSlot21 c d a) := by
  rintro - _ _ ⟨⟩ rest
  refine (readDistRow_distBits (by decide) (highLow_lt d a rfl) c rest).trans ?_
  show Except.ok (Instr.distSlot21 c (BitVec.ofNat 5 ((d.toNat * 16 + a.toNat) / 16))
    (BitVec.ofNat 4 (d.toNat * 16 + a.toNat)), rest) = _
  rw [ofNat_high, ofNat_low]

theorem distSlot22 (c : LenClass) (d : BitVec 6) (a : BitVec 4) : Statement (.distSlot22 c d a) := by
  rintro - _ _ ⟨⟩ rest
  refine (readDistRow_distBits (by decide) (highLow_lt d a rfl) c rest).trans ?_
  show Except.ok (Instr.distSlot22 c (BitVec.ofNat 6 ((d.toNat * 16 + a.toNat) / 16))
    (BitVec.ofNat 4 (d.toNat * 16 + a.toNat)), rest) = _
  rw [ofNat_high, ofNat_low]

theorem distSlot23 (c : LenClass) (d : BitVec 6) (a : BitVec 4) : Statement (.distSlot23 c d a) := by
  rintro - _ _ ⟨⟩ rest
  refine (readDistRow_distBits (by decide) (highLow_lt d a rfl) c rest).trans ?_
  show Except.ok (Instr.distSlot23 c (BitVec.ofNat 6 ((d.toNat * 16 + a.toNat) / 16))
    (BitVec.ofNat 4 (d.toNat * 16 + a.toNat)), rest) = _
  rw [ofNat_high, ofNat_low]

theorem distSlot24 (c : LenClass) (d : BitVec 7) (a : BitVec 4) : Statement (.distSlot24 c d a) := by
  rintro - _ _ ⟨⟩ rest
  refine (readDistRow_distBits (by decide) (highLow_lt d a rfl) c rest).trans ?_
  show Except.ok (Instr.distSlot24 c (BitVec.ofNat 7 ((d.toNat * 16 + a.toNat) / 16))
    (BitVec.ofNat 4 (d.toNat * 16 + a.toNat)), rest) = _
  rw [ofNat_high, ofNat_low]

theorem distSlot25 (c : LenClass) (d : BitVec 7) (a : BitVec 4) : Statement (.distSlot25 c d a) := by
  rintro - _ _ ⟨⟩ rest
  refine (readDistRow_distBits (by decide) (highLow_lt d a rfl) c rest).trans ?_
  show Except.ok (Instr.distSlot25 c (BitVec.ofNat 7 ((d.toNat * 16 + a.toNat) / 16))
    (BitVec.ofNat 4 (d.toNat * 16 + a.toNat)), rest) = _
  rw [ofNat_high, ofNat_low]

theorem distSlot26 (c : LenClass) (d : BitVec 8) (a : BitVec 4) : Statement (.distSlot26 c d a) := by
  rintro - _ _ ⟨⟩ rest
  refine (readDistRow_distBits (by decide) (highLow_lt d a rfl) c rest).trans ?_
  show Except.ok (Instr.distSlot26 c (BitVec.ofNat 8 ((d.toNat * 16 + a.toNat) / 16))
    (BitVec.ofNat 4 (d.toNat * 16 + a.toNat)), rest) = _
  rw [ofNat_high, ofNat_low]

theorem distSlot27 (c : LenClass) (d : BitVec 8) (a : BitVec 4) : Statement (.distSlot27 c d a) := by
  rintro - _ _ ⟨⟩ rest
  refine (readDistRow_distBits (by decide) (highLow_lt d a rfl) c rest).trans ?_
  show Except.ok (Instr.distSlot27 c (BitVec.ofNat 8 ((d.toNat * 16 + a.toNat) / 16))
    (BitVec.ofNat 4 (d.toNat * 16 + a.toNat)), rest) = _
  rw [ofNat_high, ofNat_low]

theorem distSlot28 (c : LenClass) (d : BitVec 9) (a : BitVec 4) : Statement (.distSlot28 c d a) := by
  rintro - _ _ ⟨⟩ rest
  refine (readDistRow_distBits (by decide) (highLow_lt d a rfl) c rest).trans ?_
  show Except.ok (Instr.distSlot28 c (BitVec.ofNat 9 ((d.toNat * 16 + a.toNat) / 16))
    (BitVec.ofNat 4 (d.toNat * 16 + a.toNat)), rest) = _
  rw [ofNat_high, ofNat_low]

theorem distSlot29 (c : LenClass) (d : BitVec 9) (a : BitVec 4) : Statement (.distSlot29 c d a) := by
  rintro - _ _ ⟨⟩ rest
  refine (readDistRow_distBits (by decide) (highLow_lt d a rfl) c rest).trans ?_
  show Except.ok (Instr.distSlot29 c (BitVec.ofNat 9 ((d.toNat * 16 + a.toNat) / 16))
    (BitVec.ofNat 4 (d.toNat * 16 + a.toNat)), rest) = _
  rw [ofNat_high, ofNat_low]

theorem distSlot30 (c : LenClass) (d : BitVec 10) (a : BitVec 4) : Statement (.distSlot30 c d a) := by
  rintro - _ _ ⟨⟩ rest
  refine (readDistRow_distBits (by decide) (highLow_lt d a rfl) c rest).trans ?_
  show Except.ok (Instr.distSlot30 c (BitVec.ofNat 10 ((d.toNat * 16 + a.toNat) / 16))
    (BitVec.ofNat 4 (d.toNat * 16 + a.toNat)), rest) = _
  rw [ofNat_high, ofNat_low]

theorem distSlot31 (c : LenClass) (d : BitVec 10) (a : BitVec 4) : Statement (.distSlot31 c d a) := by
  rintro - _ _ ⟨⟩ rest
  refine (readDistRow_distBits (by decide) (highLow_lt d a rfl) c rest).trans ?_
  show Except.ok (Instr.distSlot31 c (BitVec.ofNat 10 ((d.toNat * 16 + a.toNat) / 16))
    (BitVec.ofNat 4 (d.toNat * 16 + a.toNat)), rest) = _
  rw [ofNat_high, ofNat_low]

theorem distSlot32 (c : LenClass) (d : BitVec 11) (a : BitVec 4) : Statement (.distSlot32 c d a) := by
  rintro - _ _ ⟨⟩ rest
  refine (readDistRow_distBits (by decide) (highLow_lt d a rfl) c rest).trans ?_
  show Except.ok (Instr.distSlot32 c (BitVec.ofNat 11 ((d.toNat * 16 + a.toNat) / 16))
    (BitVec.ofNat 4 (d.toNat * 16 + a.toNat)), rest) = _
  rw [ofNat_high, ofNat_low]

theorem distSlot33 (c : LenClass) (d : BitVec 11) (a : BitVec 4) : Statement (.distSlot33 c d a) := by
  rintro - _ _ ⟨⟩ rest
  refine (readDistRow_distBits (by decide) (highLow_lt d a rfl) c rest).trans ?_
  show Except.ok (Instr.distSlot33 c (BitVec.ofNat 11 ((d.toNat * 16 + a.toNat) / 16))
    (BitVec.ofNat 4 (d.toNat * 16 + a.toNat)), rest) = _
  rw [ofNat_high, ofNat_low]

theorem distSlot34 (c : LenClass) (d : BitVec 12) (a : BitVec 4) : Statement (.distSlot34 c d a) := by
  rintro - _ _ ⟨⟩ rest
  refine (readDistRow_distBits (by decide) (highLow_lt d a rfl) c rest).trans ?_
  show Except.ok (Instr.distSlot34 c (BitVec.ofNat 12 ((d.toNat * 16 + a.toNat) / 16))
    (BitVec.ofNat 4 (d.toNat * 16 + a.toNat)), rest) = _
  rw [ofNat_high, ofNat_low]

theorem distSlot35 (c : LenClass) (d : BitVec 12) (a : BitVec 4) : Statement (.distSlot35 c d a) := by
  rintro - _ _ ⟨⟩ rest
  refine (readDistRow_distBits (by decide) (highLow_lt d a rfl) c rest).trans ?_
  show Except.ok (Instr.distSlot35 c (BitVec.ofNat 12 ((d.toNat * 16 + a.toNat) / 16))
    (BitVec.ofNat 4 (d.toNat * 16 + a.toNat)), rest) = _
  rw [ofNat_high, ofNat_low]

theorem distSlot36 (c : LenClass) (d : BitVec 13) (a : BitVec 4) : Statement (.distSlot36 c d a) := by
  rintro - _ _ ⟨⟩ rest
  refine (readDistRow_distBits (by decide) (highLow_lt d a rfl) c rest).trans ?_
  show Except.ok (Instr.distSlot36 c (BitVec.ofNat 13 ((d.toNat * 16 + a.toNat) / 16))
    (BitVec.ofNat 4 (d.toNat * 16 + a.toNat)), rest) = _
  rw [ofNat_high, ofNat_low]

theorem distSlot37 (c : LenClass) (d : BitVec 13) (a : BitVec 4) : Statement (.distSlot37 c d a) := by
  rintro - _ _ ⟨⟩ rest
  refine (readDistRow_distBits (by decide) (highLow_lt d a rfl) c rest).trans ?_
  show Except.ok (Instr.distSlot37 c (BitVec.ofNat 13 ((d.toNat * 16 + a.toNat) / 16))
    (BitVec.ofNat 4 (d.toNat * 16 + a.toNat)), rest) = _
  rw [ofNat_high, ofNat_low]

theorem distSlot38 (c : LenClass) (d : BitVec 14) (a : BitVec 4) : Statement (.distSlot38 c d a) := by
  rintro - _ _ ⟨⟩ rest
  refine (readDistRow_distBits (by decide) (highLow_lt d a rfl) c rest).trans ?_
  show Except.ok (Instr.distSlot38 c (BitVec.ofNat 14 ((d.toNat * 16 + a.toNat) / 16))
    (BitVec.ofNat 4 (d.toNat * 16 + a.toNat)), rest) = _
  rw [ofNat_high, ofNat_low]

theorem distSlot39 (c : LenClass) (d : BitVec 14) (a : BitVec 4) : Statement (.distSlot39 c d a) := by
  rintro - _ _ ⟨⟩ rest
  refine (readDistRow_distBits (by decide) (highLow_lt d a rfl) c rest).trans ?_
  show Except.ok (Instr.distSlot39 c (BitVec.ofNat 14 ((d.toNat * 16 + a.toNat) / 16))
    (BitVec.ofNat 4 (d.toNat * 16 + a.toNat)), rest) = _
  rw [ofNat_high, ofNat_low]

theorem distSlot40 (c : LenClass) (d : BitVec 15) (a : BitVec 4) : Statement (.distSlot40 c d a) := by
  rintro - _ _ ⟨⟩ rest
  refine (readDistRow_distBits (by decide) (highLow_lt d a rfl) c rest).trans ?_
  show Except.ok (Instr.distSlot40 c (BitVec.ofNat 15 ((d.toNat * 16 + a.toNat) / 16))
    (BitVec.ofNat 4 (d.toNat * 16 + a.toNat)), rest) = _
  rw [ofNat_high, ofNat_low]

theorem distSlot41 (c : LenClass) (d : BitVec 15) (a : BitVec 4) : Statement (.distSlot41 c d a) := by
  rintro - _ _ ⟨⟩ rest
  refine (readDistRow_distBits (by decide) (highLow_lt d a rfl) c rest).trans ?_
  show Except.ok (Instr.distSlot41 c (BitVec.ofNat 15 ((d.toNat * 16 + a.toNat) / 16))
    (BitVec.ofNat 4 (d.toNat * 16 + a.toNat)), rest) = _
  rw [ofNat_high, ofNat_low]

theorem distSlot42 (c : LenClass) (d : BitVec 16) (a : BitVec 4) : Statement (.distSlot42 c d a) := by
  rintro - _ _ ⟨⟩ rest
  refine (readDistRow_distBits (by decide) (highLow_lt d a rfl) c rest).trans ?_
  show Except.ok (Instr.distSlot42 c (BitVec.ofNat 16 ((d.toNat * 16 + a.toNat) / 16))
    (BitVec.ofNat 4 (d.toNat * 16 + a.toNat)), rest) = _
  rw [ofNat_high, ofNat_low]

theorem distSlot43 (c : LenClass) (d : BitVec 16) (a : BitVec 4) : Statement (.distSlot43 c d a) := by
  rintro - _ _ ⟨⟩ rest
  refine (readDistRow_distBits (by decide) (highLow_lt d a rfl) c rest).trans ?_
  show Except.ok (Instr.distSlot43 c (BitVec.ofNat 16 ((d.toNat * 16 + a.toNat) / 16))
    (BitVec.ofNat 4 (d.toNat * 16 + a.toNat)), rest) = _
  rw [ofNat_high, ofNat_low]

theorem distSlot44 (c : LenClass) (d : BitVec 17) (a : BitVec 4) : Statement (.distSlot44 c d a) := by
  rintro - _ _ ⟨⟩ rest
  refine (readDistRow_distBits (by decide) (highLow_lt d a rfl) c rest).trans ?_
  show Except.ok (Instr.distSlot44 c (BitVec.ofNat 17 ((d.toNat * 16 + a.toNat) / 16))
    (BitVec.ofNat 4 (d.toNat * 16 + a.toNat)), rest) = _
  rw [ofNat_high, ofNat_low]

theorem distSlot45 (c : LenClass) (d : BitVec 17) (a : BitVec 4) : Statement (.distSlot45 c d a) := by
  rintro - _ _ ⟨⟩ rest
  refine (readDistRow_distBits (by decide) (highLow_lt d a rfl) c rest).trans ?_
  show Except.ok (Instr.distSlot45 c (BitVec.ofNat 17 ((d.toNat * 16 + a.toNat) / 16))
    (BitVec.ofNat 4 (d.toNat * 16 + a.toNat)), rest) = _
  rw [ofNat_high, ofNat_low]

theorem distSlot46 (c : LenClass) (d : BitVec 18) (a : BitVec 4) : Statement (.distSlot46 c d a) := by
  rintro - _ _ ⟨⟩ rest
  refine (readDistRow_distBits (by decide) (highLow_lt d a rfl) c rest).trans ?_
  show Except.ok (Instr.distSlot46 c (BitVec.ofNat 18 ((d.toNat * 16 + a.toNat) / 16))
    (BitVec.ofNat 4 (d.toNat * 16 + a.toNat)), rest) = _
  rw [ofNat_high, ofNat_low]

theorem distSlot47 (c : LenClass) (d : BitVec 18) (a : BitVec 4) : Statement (.distSlot47 c d a) := by
  rintro - _ _ ⟨⟩ rest
  refine (readDistRow_distBits (by decide) (highLow_lt d a rfl) c rest).trans ?_
  show Except.ok (Instr.distSlot47 c (BitVec.ofNat 18 ((d.toNat * 16 + a.toNat) / 16))
    (BitVec.ofNat 4 (d.toNat * 16 + a.toNat)), rest) = _
  rw [ofNat_high, ofNat_low]

theorem distSlot48 (c : LenClass) (d : BitVec 19) (a : BitVec 4) : Statement (.distSlot48 c d a) := by
  rintro - _ _ ⟨⟩ rest
  refine (readDistRow_distBits (by decide) (highLow_lt d a rfl) c rest).trans ?_
  show Except.ok (Instr.distSlot48 c (BitVec.ofNat 19 ((d.toNat * 16 + a.toNat) / 16))
    (BitVec.ofNat 4 (d.toNat * 16 + a.toNat)), rest) = _
  rw [ofNat_high, ofNat_low]

theorem distSlot49 (c : LenClass) (d : BitVec 19) (a : BitVec 4) : Statement (.distSlot49 c d a) := by
  rintro - _ _ ⟨⟩ rest
  refine (readDistRow_distBits (by decide) (highLow_lt d a rfl) c rest).trans ?_
  show Except.ok (Instr.distSlot49 c (BitVec.ofNat 19 ((d.toNat * 16 + a.toNat) / 16))
    (BitVec.ofNat 4 (d.toNat * 16 + a.toNat)), rest) = _
  rw [ofNat_high, ofNat_low]

theorem distSlot50 (c : LenClass) (d : BitVec 20) (a : BitVec 4) : Statement (.distSlot50 c d a) := by
  rintro - _ _ ⟨⟩ rest
  refine (readDistRow_distBits (by decide) (highLow_lt d a rfl) c rest).trans ?_
  show Except.ok (Instr.distSlot50 c (BitVec.ofNat 20 ((d.toNat * 16 + a.toNat) / 16))
    (BitVec.ofNat 4 (d.toNat * 16 + a.toNat)), rest) = _
  rw [ofNat_high, ofNat_low]

theorem distSlot51 (c : LenClass) (d : BitVec 20) (a : BitVec 4) : Statement (.distSlot51 c d a) := by
  rintro - _ _ ⟨⟩ rest
  refine (readDistRow_distBits (by decide) (highLow_lt d a rfl) c rest).trans ?_
  show Except.ok (Instr.distSlot51 c (BitVec.ofNat 20 ((d.toNat * 16 + a.toNat) / 16))
    (BitVec.ofNat 4 (d.toNat * 16 + a.toNat)), rest) = _
  rw [ofNat_high, ofNat_low]

theorem distSlot52 (c : LenClass) (d : BitVec 21) (a : BitVec 4) : Statement (.distSlot52 c d a) := by
  rintro - _ _ ⟨⟩ rest
  refine (readDistRow_distBits (by decide) (highLow_lt d a rfl) c rest).trans ?_
  show Except.ok (Instr.distSlot52 c (BitVec.ofNat 21 ((d.toNat * 16 + a.toNat) / 16))
    (BitVec.ofNat 4 (d.toNat * 16 + a.toNat)), rest) = _
  rw [ofNat_high, ofNat_low]

theorem distSlot53 (c : LenClass) (d : BitVec 21) (a : BitVec 4) : Statement (.distSlot53 c d a) := by
  rintro - _ _ ⟨⟩ rest
  refine (readDistRow_distBits (by decide) (highLow_lt d a rfl) c rest).trans ?_
  show Except.ok (Instr.distSlot53 c (BitVec.ofNat 21 ((d.toNat * 16 + a.toNat) / 16))
    (BitVec.ofNat 4 (d.toNat * 16 + a.toNat)), rest) = _
  rw [ofNat_high, ofNat_low]

theorem distSlot54 (c : LenClass) (d : BitVec 22) (a : BitVec 4) : Statement (.distSlot54 c d a) := by
  rintro - _ _ ⟨⟩ rest
  refine (readDistRow_distBits (by decide) (highLow_lt d a rfl) c rest).trans ?_
  show Except.ok (Instr.distSlot54 c (BitVec.ofNat 22 ((d.toNat * 16 + a.toNat) / 16))
    (BitVec.ofNat 4 (d.toNat * 16 + a.toNat)), rest) = _
  rw [ofNat_high, ofNat_low]

theorem distSlot55 (c : LenClass) (d : BitVec 22) (a : BitVec 4) : Statement (.distSlot55 c d a) := by
  rintro - _ _ ⟨⟩ rest
  refine (readDistRow_distBits (by decide) (highLow_lt d a rfl) c rest).trans ?_
  show Except.ok (Instr.distSlot55 c (BitVec.ofNat 22 ((d.toNat * 16 + a.toNat) / 16))
    (BitVec.ofNat 4 (d.toNat * 16 + a.toNat)), rest) = _
  rw [ofNat_high, ofNat_low]

theorem distSlot56 (c : LenClass) (d : BitVec 23) (a : BitVec 4) : Statement (.distSlot56 c d a) := by
  rintro - _ _ ⟨⟩ rest
  refine (readDistRow_distBits (by decide) (highLow_lt d a rfl) c rest).trans ?_
  show Except.ok (Instr.distSlot56 c (BitVec.ofNat 23 ((d.toNat * 16 + a.toNat) / 16))
    (BitVec.ofNat 4 (d.toNat * 16 + a.toNat)), rest) = _
  rw [ofNat_high, ofNat_low]

theorem distSlot57 (c : LenClass) (d : BitVec 23) (a : BitVec 4) : Statement (.distSlot57 c d a) := by
  rintro - _ _ ⟨⟩ rest
  refine (readDistRow_distBits (by decide) (highLow_lt d a rfl) c rest).trans ?_
  show Except.ok (Instr.distSlot57 c (BitVec.ofNat 23 ((d.toNat * 16 + a.toNat) / 16))
    (BitVec.ofNat 4 (d.toNat * 16 + a.toNat)), rest) = _
  rw [ofNat_high, ofNat_low]

theorem distSlot58 (c : LenClass) (d : BitVec 24) (a : BitVec 4) : Statement (.distSlot58 c d a) := by
  rintro - _ _ ⟨⟩ rest
  refine (readDistRow_distBits (by decide) (highLow_lt d a rfl) c rest).trans ?_
  show Except.ok (Instr.distSlot58 c (BitVec.ofNat 24 ((d.toNat * 16 + a.toNat) / 16))
    (BitVec.ofNat 4 (d.toNat * 16 + a.toNat)), rest) = _
  rw [ofNat_high, ofNat_low]

theorem distSlot59 (c : LenClass) (d : BitVec 24) (a : BitVec 4) : Statement (.distSlot59 c d a) := by
  rintro - _ _ ⟨⟩ rest
  refine (readDistRow_distBits (by decide) (highLow_lt d a rfl) c rest).trans ?_
  show Except.ok (Instr.distSlot59 c (BitVec.ofNat 24 ((d.toNat * 16 + a.toNat) / 16))
    (BitVec.ofNat 4 (d.toNat * 16 + a.toNat)), rest) = _
  rw [ofNat_high, ofNat_low]

theorem distSlot60 (c : LenClass) (d : BitVec 25) (a : BitVec 4) : Statement (.distSlot60 c d a) := by
  rintro - _ _ ⟨⟩ rest
  refine (readDistRow_distBits (by decide) (highLow_lt d a rfl) c rest).trans ?_
  show Except.ok (Instr.distSlot60 c (BitVec.ofNat 25 ((d.toNat * 16 + a.toNat) / 16))
    (BitVec.ofNat 4 (d.toNat * 16 + a.toNat)), rest) = _
  rw [ofNat_high, ofNat_low]

theorem distSlot61 (c : LenClass) (d : BitVec 25) (a : BitVec 4) : Statement (.distSlot61 c d a) := by
  rintro - _ _ ⟨⟩ rest
  refine (readDistRow_distBits (by decide) (highLow_lt d a rfl) c rest).trans ?_
  show Except.ok (Instr.distSlot61 c (BitVec.ofNat 25 ((d.toNat * 16 + a.toNat) / 16))
    (BitVec.ofNat 4 (d.toNat * 16 + a.toNat)), rest) = _
  rw [ofNat_high, ofNat_low]

theorem distSlot62 (c : LenClass) (d : BitVec 26) (a : BitVec 4) : Statement (.distSlot62 c d a) := by
  rintro - _ _ ⟨⟩ rest
  refine (readDistRow_distBits (by decide) (highLow_lt d a rfl) c rest).trans ?_
  show Except.ok (Instr.distSlot62 c (BitVec.ofNat 26 ((d.toNat * 16 + a.toNat) / 16))
    (BitVec.ofNat 4 (d.toNat * 16 + a.toNat)), rest) = _
  rw [ofNat_high, ofNat_low]

theorem distSlot63 (c : LenClass) (d : BitVec 26) (a : BitVec 4) : Statement (.distSlot63 c d a) := by
  rintro - _ _ ⟨⟩ rest
  refine (readDistRow_distBits (by decide) (highLow_lt d a rfl) c rest).trans ?_
  show Except.ok (Instr.distSlot63 c (BitVec.ofNat 26 ((d.toNat * 16 + a.toNat) / 16))
    (BitVec.ofNat 4 (d.toNat * 16 + a.toNat)), rest) = _
  rw [ofNat_high, ofNat_low]

theorem inByte : Statement (.inByte) := none_of_op rfl

theorem rcInit : Statement (.rcInit) := none_of_op rfl

theorem rcNormalize : Statement (.rcNormalize) := none_of_op rfl

theorem rcBit (g : ProbGroup) (i : Nat) : Statement (.rcBit g i) := none_of_op rfl

theorem rcDirect (n : Nat) : Statement (.rcDirect n) := none_of_op rfl

theorem btDecode (g : ProbGroup) (base : Int) (d : Nat) : Statement (.btDecode g base d) := none_of_op rfl

theorem btReverse (g : ProbGroup) (base : Int) (d : Nat) : Statement (.btReverse g base d) := none_of_op rfl

theorem lenDecode (x : LenInst) (ps : Nat) : Statement (.lenDecode x ps) := none_of_op rfl

theorem litSelect : Statement (.litSelect) := none_of_op rfl

theorem litNormal (base : Nat) : Statement (.litNormal base) := none_of_op rfl

theorem litMatched (base : Nat) (matchByte : Byte) : Statement (.litMatched base matchByte) := none_of_op rfl

theorem winPut (b : Byte) : Statement (.winPut b) := none_of_op rfl

theorem winGet (d : Word) : Statement (.winGet d) := none_of_op rfl

theorem winCopy (d : Word) (len : Nat) : Statement (.winCopy d len) := none_of_op rfl

theorem winFlush : Statement (.winFlush) := none_of_op rfl

theorem sinkWrite (bytes : List Byte) : Statement (.sinkWrite bytes) := none_of_op rfl

theorem symbol : Statement (.symbol) := none_of_op rfl

theorem distDecode (len : Nat) : Statement (.distDecode len) := none_of_op rfl

theorem rangeCheck (d : Word) : Statement (.rangeCheck d) := none_of_op rfl

theorem copy (len : Nat) : Statement (.copy len) := none_of_op rfl

theorem afterLiteral (st : BitVec 4) : Statement (.afterLiteral st) := none_of_op rfl

theorem afterMatch (st : BitVec 4) : Statement (.afterMatch st) := none_of_op rfl

theorem afterRep (st : BitVec 4) : Statement (.afterRep st) := none_of_op rfl

theorem afterShortRep (st : BitVec 4) : Statement (.afterShortRep st) := none_of_op rfl

theorem cmdReset : Statement (.cmdReset) := none_of_op rfl

theorem cmdSetProperties (bytes : List Byte) : Statement (.cmdSetProperties bytes) := none_of_op rfl

theorem cmdDecode (expectedLength : DWord) : Statement (.cmdDecode expectedLength) := none_of_op rfl

end Sys2Proof.Laws.RoundTrip
end

