-- ==== Sys2Proof/Laws/Slots.lean ====
section
/-! SUPPORT. On which slot each decision of a field stands, in numbers: the walks of `treePath` as the levels of `treeSlots` and
`reverseSlots` (`41_bit_tree.md` R150 to R152), and the length and distance fields over them. -/

set_option Elab.async false

namespace Sys2Proof.Machine

/-- A walk from node `m`, most significant bit first: level `k` is the node `m * 2^k` + the `k` bits before it. -/
theorem treePath_levels (g : ProbGroup) (base : Int) (d m v : Nat) (hv : v < 2 ^ d) :
    (treePath g base m (bitsMsb d v)).map Prod.fst =
      (List.range d).map fun k => BitSource.slot g (base + (m * 2 ^ k + v / 2 ^ (d - k) : Nat)) := by
  induction d generalizing m v with
  | zero => rfl
  | succ d ih =>
    have hb : (v.testBit d).toNat = v / 2 ^ d := by
      rw [testBit_toNat, Nat.mod_eq_of_lt]
      rw [Nat.div_lt_iff_lt_mul (by positivity)]
      rwa [pow_succ, Nat.mul_comm] at hv
    have hdm : v = 2 ^ d * (v / 2 ^ d) + v % 2 ^ d := (Nat.div_add_mod v (2 ^ d)).symm
    simp only [bitsMsb, treePath, List.map_cons]
    rw [← bitsMsb_mod d v, ih _ _ (Nat.mod_lt _ (by positivity)), List.range_succ_eq_map, List.map_cons, List.map_map]
    congr 1
    · rw [pow_zero, Nat.mul_one, Nat.sub_zero, Nat.div_eq_of_lt hv, Nat.add_zero]
    · refine List.map_congr_left fun k hk => ?_
      have hk : k < d := List.mem_range.1 hk
      simp only [Function.comp_apply, Nat.succ_eq_add_one, Nat.add_sub_add_right]
      have hp : 2 ^ d = 2 ^ (d - k) * 2 ^ k := by rw [← pow_add, Nat.sub_add_cancel hk.le]
      have hdiv : v / 2 ^ (d - k) = 2 ^ k * (v / 2 ^ d) + v % 2 ^ d / 2 ^ (d - k) := by
        conv_lhs => rw [hdm, hp, Nat.mul_assoc]
        rw [Nat.mul_add_div (by positivity), ← hp]
      rw [hb, hdiv, pow_succ]
      congr 2
      push_cast
      ring

/-- The whole tree. -/
theorem treePath_slots (g : ProbGroup) (base : Int) (d v : Nat) (hv : v < 2 ^ d) :
    (treePath g base 1 (bitsMsb d v)).map Prod.fst = treeSlots g base d v := by
  rw [treePath_levels g base d 1 v hv]; simp only [Nat.one_mul]; rfl

/-- A walk from node `m`, least significant bit first. -/
theorem reversePath_levels (g : ProbGroup) (base : Int) (d m v : Nat) :
    (treePath g base m (bitsLsb d v)).map Prod.fst =
      (List.range d).map fun k => BitSource.slot g (base + (m * 2 ^ k + reverseBits k v : Nat)) := by
  induction d generalizing m v with
  | zero => rfl
  | succ d ih =>
    have hb : (v % 2 == 1).toNat = v % 2 := by rcases Nat.mod_two_eq_zero_or_one v with h | h <;> simp [h]
    simp only [bitsLsb, treePath, List.map_cons]
    rw [ih, List.range_succ_eq_map, List.map_cons, List.map_map]
    congr 1
    · simp [reverseBits]
    · refine List.map_congr_left fun k _ => ?_
      simp only [Function.comp_apply, Nat.succ_eq_add_one, reverseBits]
      rw [hb, pow_succ]
      congr 2
      push_cast
      ring

/-- The whole tree. -/
theorem reversePath_slots (g : ProbGroup) (base : Int) (d v : Nat) :
    (treePath g base 1 (bitsLsb d v)).map Prod.fst = reverseSlots g base d v := by
  rw [reversePath_levels]; simp only [Nat.one_mul]; rfl

/-- The slots of a length field (`42_length_decoder.md` R160, R161). -/
theorem lenPath_slots (x : LenInst) (ps len : Nat) (h : lenOk len = true) :
    (lenPath x ps len).map Prod.fst = lenSlots x ps len := by
  simp only [lenOk, Bool.and_eq_true, decide_eq_true_eq] at h
  unfold lenPath lenSlots
  split
  · rw [List.map_cons, treePath_slots _ _ _ _ (by omega)]; push_cast; rfl
  · split
    · rw [List.map_cons, List.map_cons, treePath_slots _ _ _ _ (by omega)]; push_cast; rfl
    · rw [List.map_cons, List.map_cons, treePath_slots _ _ _ _ (by omega)]

/-- A decision sequence is its slots paired with its bits. -/
theorem path_eq_zip (ds : List Decision) : (ds.map Prod.fst).zip (ds.map Prod.snd) = ds := by
  induction ds with
  | nil => rfl
  | cons d ds ih => simp only [List.map_cons, List.zip_cons_cons, ih]

theorem bitsLsb_mod (n v w : Nat) (h : v % 2 ^ n = w % 2 ^ n) : bitsLsb n v = bitsLsb n w := by
  induction n generalizing v w with
  | zero => rfl
  | succ n ih =>
    rw [pow_succ, Nat.mul_comm, Nat.mod_mul, Nat.mod_mul] at h
    have h2 : v % 2 = w % 2 := by omega
    simp only [bitsLsb]
    rw [h2, ih (v / 2) (w / 2) (by omega)]

/-- The slots of a distance field (`30_encoding.md` R101, R102, `45_symbols.md` R205, R206). -/
theorem distPath_slots (c : LenClass) {slot e : Nat} (hs : slot < 64) (he : e < 2 ^ extraWidth slot) :
    (distPath c slot e).map Prod.fst = distSlots c.val (distBase slot + e) := by
  have hclass : posSlotBase c = ((c.val * 64 : Nat) : Int) := by unfold posSlotBase; push_cast; rfl
  have htree : (treePath .posSlot (posSlotBase c) 1 (bitsMsb config.posSlotBits slot)).map Prod.fst =
      treeSlots .posSlot (c.val * 64 : Nat) 6 slot := by
    rw [hclass]; exact treePath_slots _ _ _ _ hs
  have hp := posSlotOf_distBase he
  unfold distPath distSlots
  rw [List.map_append, htree]
  by_cases h4 : slot < 4
  · rw [extraWidth, if_pos h4] at he
    rw [distBase_of_lt h4, if_pos (by omega), extraPath, if_pos h4, show slot + e = slot by omega, List.map_nil, List.append_nil]
  · rw [extraWidth, if_neg h4, directBits_eq] at he
    have hbase : distBase slot = (2 + slot % 2) * 2 ^ (slot / 2 - 1) := distBase_eq (by omega)
    generalize hv : distBase slot + e = v at hp ⊢
    have hw2 : 2 ≤ 2 ^ (slot / 2 - 1) := by
      calc 2 = 2 ^ 1 := rfl
        _ ≤ 2 ^ (slot / 2 - 1) := Nat.pow_le_pow_right (by norm_num) (by omega)
    have hlow : 2 * 2 ^ (slot / 2 - 1) ≤ distBase slot := by rw [hbase]; exact Nat.mul_le_mul_right _ (by omega)
    have hhigh : distBase slot ≤ 3 * 2 ^ (slot / 2 - 1) := by rw [hbase]; exact Nat.mul_le_mul_right _ (by omega)
    have hv4 : ¬ v < 4 := by omega
    unfold posSlotOf at hp
    rw [if_neg hv4, Nat.shiftRight_eq_div_pow] at hp
    rw [if_neg hv4, hp, show v.log2 - 1 = slot / 2 - 1 by omega]
    congr 1
    have hmod : v % 2 ^ (slot / 2 - 1) = e := by
      rw [← hv, hbase, Nat.mul_comm, Nat.mul_add_mod, Nat.mod_eq_of_lt he]
    unfold extraPath extraSlots
    rw [if_neg h4]
    by_cases h14 : slot < 14
    · have h32 : 2 ^ (slot / 2 - 1) ≤ 2 ^ 5 := Nat.pow_le_pow_right (by norm_num) (by omega)
      rw [if_pos h14, if_pos (by omega), directBits_eq, bitsLsb_mod _ e v (by rw [hmod, Nat.mod_eq_of_lt he]), reversePath_slots,
        posDecOffset, hmod, show v - e = distBase slot by omega]
    · have h64 : 2 ^ 6 ≤ 2 ^ (slot / 2 - 1) := Nat.pow_le_pow_right (by norm_num) (by omega)
      have h16 : v % 16 = e % 16 := by
        obtain ⟨q, hq⟩ : 16 ∣ 2 ^ (slot / 2 - 1) := by
          rw [show (16 : Nat) = 2 ^ 4 by norm_num]; exact pow_dvd_pow 2 (by omega)
        rw [← hv, hbase, hq, show (2 + slot % 2) * (16 * q) = 16 * ((2 + slot % 2) * q) by ring, Nat.mul_add_mod]
      rw [if_neg (by simp only [endPosModelIndex]; omega), if_neg (by omega), List.map_append, List.map_map, directBits_eq,
        bitsLsb_mod alignBits (e % 16) v (by show e % 16 % 16 = v % 16; omega), reversePath_slots]
      congr 1
      rw [List.eq_replicate_iff]
      refine ⟨by simp, fun b hb => ?_⟩
      obtain ⟨a, -, rfl⟩ := List.mem_map.1 hb
      rfl

end Sys2Proof.Machine
end

