-- ==== Sys2Proof/Tests/Slice0.lean ====
section
/-! SUPPORT. Tests and witnesses.

Expected values are taken from the spec: the examples of its rules, and the vectors of `95_test_vectors.md` (named V-...). The
witnesses show for each statement with hypotheses a state and operands that meet them. -/

set_option Elab.async false

namespace Sys2Proof.Tests

open Sys2Proof Sys2Proof.Machine

/-! ### Small states -/

/-- A stream two bytes old: `41 42` emitted with `lc = 3`, `lp = 0`, `pb = 2`, a window of 4096, zero bytes to come. -/
def stream : State :=
  { State.reset with
    phase := .decoding, expectedLength := -1#64, lc := 3#4, pb := 2#3, posStateMask := 3#4
    dictionarySize := 4096#32, dictionarySizeCheck := 4096#32, windowSize := 4096#32
    position := 2#64, prevByte := 0x42#8, writeCursor := 2#32
    mem := { win := [(0, 0x41#8), (1, 0x42#8)], prob := [], probFill := none }
    source := List.replicate 64 (.byte 0#8) }

/-- The same after a match at distance 1, the largest legal one. -/
def matched : State := { stream with state := 7#4, rep0 := 1#32, rep1 := 0#32, rep2 := 1#32, rep3 := 0#32 }

/-- A stream in its second lap whose window's last element is the next to be written, one byte unflushed. -/
def lastPlace : State :=
  { stream with
    position := 2#64, writeCursor := 4095#32, watermark := 4094#32, sink := [0x41#8]
    mem := { win := [(4093, 0x41#8), (4094, 0x42#8)], prob := [], probFill := none } }

/-- The same as `stream` with 24 bytes emitted, 0 to 23, and the distances of `LONGREP` examples. -/
def longer (r0 r1 r2 r3 : Nat) : State :=
  { stream with
    position := 24#64, prevByte := 23#8, writeCursor := 24#32
    rep0 := BitVec.ofNat 32 r0, rep1 := BitVec.ofNat 32 r1, rep2 := BitVec.ofNat 32 r2, rep3 := BitVec.ofNat 32 r3
    mem := { win := (List.range 24).map fun i => (i, BitVec.ofNat 8 i), prob := [], probFill := none } }

/-- Configured, with bytes at the source. -/
def ready (bytes : List Byte) : State := { stream with phase := .configured, source := bytes.map .byte }

/-- A property of the next state; false where there is none. -/
def after (o : Host.Outcome State Fault Refusal) (p : State → Bool) : Bool :=
  match o with
  | .next t => p t
  | _ => false

theorem after_next {o : Host.Outcome State Fault Refusal} {p : State → Bool} (h : after o p = true) :
    ∃ t, o = .next t ∧ p t = true := by
  cases o with
  | next t => exact ⟨t, rfl, h⟩
  | fault => cases h
  | refused => cases h

/-- A property of an operation's value and state; false where it does not complete. -/
def yields {α : Type} (r : Res α) (p : α → State → Bool) : Bool :=
  match r with
  | .ok a t => p a t
  | _ => false

theorem yields_ok {α : Type} {r : Res α} {p : α → State → Bool} (h : yields r p = true) : ∃ a t, r = .ok a t ∧ p a t = true := by
  cases r with
  | ok a t => exact ⟨a, t, rfl, h⟩
  | raise => cases h
  | fault => cases h

/-- The operation raises the failure `k`. -/
def raises {α : Type} (r : Res α) (k : FailureKind) : Bool :=
  match r with
  | .raise k' _ => decide (k' = k)
  | _ => false

theorem raises_raise {α : Type} {r : Res α} {k : FailureKind} (h : raises r k = true) : ∃ t, r = .raise k t := by
  cases r with
  | raise k' t => exact ⟨t, by rw [of_decide_eq_true h]⟩
  | ok => cases h
  | fault => cases h

/-! ### WellFormed refuses (`30_encoding.md` R100, `45_symbols.md` R207, the operand ranges of the opcode table) -/
theorem test_wf_refuses_match_length_low : (Instr.wf (.matchNew 1 0#32)) = false := by decide
theorem test_wf_refuses_match_length_high : (Instr.wf (.matchNew 274 0#32)) = false := by decide
theorem test_wf_refuses_match_distance : (Instr.wf (.matchNew 2 0xFFFFFFFF#32)) = false := by decide
theorem test_wf_refuses_eos_length : (Instr.wf (.eos 274)) = false := by decide
theorem test_wf_refuses_longrep0_length : (Instr.wf (.longrep0 1)) = false := by decide
theorem test_wf_refuses_longrep1_length : (Instr.wf (.longrep1 274)) = false := by decide
theorem test_wf_refuses_longrep2_length : (Instr.wf (.longrep2 0)) = false := by decide
theorem test_wf_refuses_longrep3_length : (Instr.wf (.longrep3 274)) = false := by decide
theorem test_wf_refuses_rcBit_index : (Instr.wf (.rcBit .isRep 12)) = false := by decide
theorem test_wf_refuses_rcDirect_count : (Instr.wf (.rcDirect 27)) = false := by decide
theorem test_wf_refuses_btDecode_base : (Instr.wf (.btDecode .align (-1) 4)) = false := by decide
theorem test_wf_refuses_btDecode_depth : (Instr.wf (.btDecode .lit 0 0)) = false := by decide
theorem test_wf_refuses_btDecode_place : (Instr.wf (.btDecode .posSlot 193 6)) = false := by decide
theorem test_wf_refuses_btReverse_base : (Instr.wf (.btReverse .posDec (-2) 1)) = false := by decide
theorem test_wf_refuses_btReverse_place : (Instr.wf (.btReverse .posDec 83 5)) = false := by decide
theorem test_wf_refuses_lenDecode_posState : (Instr.wf (.lenDecode .mlen 16)) = false := by decide
theorem test_wf_refuses_litNormal_base : (Instr.wf (.litNormal 3144961)) = false := by decide
theorem test_wf_refuses_litMatched_base : (Instr.wf (.litMatched 3144961 0#8)) = false := by decide
theorem test_wf_refuses_winCopy_zero : (Instr.wf (.winCopy 0#32 0)) = false := by decide
theorem test_wf_refuses_winCopy_length : (Instr.wf (.winCopy 0#32 274)) = false := by decide
theorem test_wf_refuses_distDecode_length : (Instr.wf (.distDecode 1)) = false := by decide
theorem test_wf_refuses_copy_zero : (Instr.wf (.copy 0)) = false := by decide
theorem test_wf_refuses_copy_length : (Instr.wf (.copy 274)) = false := by decide
theorem test_wf_refuses_afterLiteral_state : (Instr.wf (.afterLiteral 12#4)) = false := by decide
theorem test_wf_refuses_afterMatch_state : (Instr.wf (.afterMatch 12#4)) = false := by decide
theorem test_wf_refuses_afterRep_state : (Instr.wf (.afterRep 15#4)) = false := by decide
theorem test_wf_refuses_afterShortRep_state : (Instr.wf (.afterShortRep 12#4)) = false := by decide
/-- The boundary values are admitted. -/
theorem test_wf_admits : ([
    .matchNew 273 0xFFFFFFFE#32, .eos 2, .longrep0 2, .longrep3 273, .rcBit .isMatch 191, .rcDirect 26,
    .btDecode .posSlot 192 6, .btReverse .posDec (-1) 1, .btReverse .posDec 82 5, .lenDecode .rlen 15, .litNormal 3144960, .winCopy 0#32 273,
    .copy 1, .distDecode 2, .afterLiteral 11#4] : List Instr).all Instr.wf = true := by decide

/-! ### Decoding, by words written out from R97 to R104 and the opcode table -/

/-- A decision string from its digits. -/
def bits (digits : List Nat) : List Bool := digits.map fun d => d == 1

/-- The whole string is the instruction `i`. -/
def reads (ctx : Context) (digits : List Nat) (i : Instr) : Bool :=
  match decode ctx (bits digits) with
  | .ok (j, []) => decide (j = i)
  | _ => false

/-- R98: isMatch 0, then the byte, most significant bit first. -/
theorem test_decode_lit : reads (.sym) [0, 0, 1, 0, 0, 0, 0, 0, 1] (.lit 0x41#8) = true := by decide
/-- R203 example: length bits 0,1,1,0, position slot 1. -/
theorem test_decode_match : reads (.sym) [1, 0, 0, 1, 1, 0, 0, 0, 0, 0, 0, 1] (.matchNew 8 1#32) = true := by decide
/-- R100, R102: the longest length, and R206 example 2. -/
theorem test_decode_match_far : reads (.sym) [1, 0, 1, 1, 1, 1, 1, 1, 1, 1, 1, 1, 0, 0, 1, 1, 1, 0, 1, 0, 1, 1, 0, 0] (.matchNew 273 163#32) = true := by decide
/-- R207 example. -/
theorem test_decode_eos : reads (.sym) [1, 0, 0, 0, 0, 0, 1, 1, 1, 1, 1, 1, 1, 1, 1, 1, 1, 1, 1, 1, 1, 1, 1, 1, 1, 1, 1, 1, 1, 1, 1, 1, 1, 1, 1, 1, 1, 1, 1, 1, 1, 1] (.eos 2) = true := by decide
/-- R104. -/
theorem test_decode_shortrep : reads (.sym) [1, 1, 0, 0] (.shortrep) = true := by decide
/-- R104, length bits 0,0,0,1. -/
theorem test_decode_longrep0 : reads (.sym) [1, 1, 0, 1, 0, 0, 0, 1] (.longrep0 3) = true := by decide
/-- R104, the smallest mid length. -/
theorem test_decode_longrep1 : reads (.sym) [1, 1, 1, 0, 1, 0, 0, 0, 0] (.longrep1 10) = true := by decide
/-- R104, the largest mid length. -/
theorem test_decode_longrep2 : reads (.sym) [1, 1, 1, 1, 0, 1, 0, 1, 1, 1] (.longrep2 17) = true := by decide
/-- R104, the largest length (V-FF). -/
theorem test_decode_longrep3 : reads (.sym) [1, 1, 1, 1, 1, 1, 1, 1, 1, 1, 1, 1, 1, 1, 1] (.longrep3 273) = true := by decide
/-- V-L2. -/
theorem test_decode_lenLow : reads (.len .mlen) [0, 1, 1, 0] (.lenLow .mlen 6#3) = true := by decide
/-- V-L6. -/
theorem test_decode_lenMid : reads (.len .rlen) [1, 0, 1, 1, 1] (.lenMid .rlen 7#3) = true := by decide
/-- V-L9. -/
theorem test_decode_lenHigh : reads (.len .mlen) [1, 1, 0, 0, 0, 0, 0, 0, 0, 1] (.lenHigh .mlen 1#8) = true := by decide
/-- R102: position slots 0 to 13; the first extra bit of each kind is 1, the others 0. -/
theorem test_decode_dist_slots_0_to_13 : (
    reads (.dist 0) [0, 0, 0, 0, 0, 0] (.distSlot0 0) &&
    reads (.dist 0) [0, 0, 0, 0, 0, 1] (.distSlot1 0) &&
    reads (.dist 0) [0, 0, 0, 0, 1, 0] (.distSlot2 0) &&
    reads (.dist 0) [0, 0, 0, 0, 1, 1] (.distSlot3 0) &&
    reads (.dist 0) [0, 0, 0, 1, 0, 0, 1] (.distSlot4 0 1#1) &&
    reads (.dist 0) [0, 0, 0, 1, 0, 1, 1] (.distSlot5 0 1#1) &&
    reads (.dist 0) [0, 0, 0, 1, 1, 0, 1, 0] (.distSlot6 0 1#2) &&
    reads (.dist 0) [0, 0, 0, 1, 1, 1, 1, 0] (.distSlot7 0 1#2) &&
    reads (.dist 0) [0, 0, 1, 0, 0, 0, 1, 0, 0] (.distSlot8 0 1#3) &&
    reads (.dist 0) [0, 0, 1, 0, 0, 1, 1, 0, 0] (.distSlot9 0 1#3) &&
    reads (.dist 0) [0, 0, 1, 0, 1, 0, 1, 0, 0, 0] (.distSlot10 0 1#4) &&
    reads (.dist 0) [0, 0, 1, 0, 1, 1, 1, 0, 0, 0] (.distSlot11 0 1#4) &&
    reads (.dist 0) [0, 0, 1, 1, 0, 0, 1, 0, 0, 0, 0] (.distSlot12 0 1#5) &&
    reads (.dist 0) [0, 0, 1, 1, 0, 1, 1, 0, 0, 0, 0] (.distSlot13 0 1#5)) = true := by decide
/-- R102: position slots 14 to 23; the first extra bit of each kind is 1, the others 0. -/
theorem test_decode_dist_slots_14_to_23 : (
    reads (.dist 0) [0, 0, 1, 1, 1, 0, 1, 0, 1, 0, 0, 0] (.distSlot14 0 2#2 1#4) &&
    reads (.dist 0) [0, 0, 1, 1, 1, 1, 1, 0, 1, 0, 0, 0] (.distSlot15 0 2#2 1#4) &&
    reads (.dist 0) [0, 1, 0, 0, 0, 0, 1, 0, 0, 1, 0, 0, 0] (.distSlot16 0 4#3 1#4) &&
    reads (.dist 0) [0, 1, 0, 0, 0, 1, 1, 0, 0, 1, 0, 0, 0] (.distSlot17 0 4#3 1#4) &&
    reads (.dist 0) ([0, 1, 0, 0, 1, 0, 1] ++ List.replicate 3 0 ++ [1, 0, 0, 0]) (.distSlot18 0 8#4 1#4) &&
    reads (.dist 0) ([0, 1, 0, 0, 1, 1, 1] ++ List.replicate 3 0 ++ [1, 0, 0, 0]) (.distSlot19 0 8#4 1#4) &&
    reads (.dist 0) ([0, 1, 0, 1, 0, 0, 1] ++ List.replicate 4 0 ++ [1, 0, 0, 0]) (.distSlot20 0 16#5 1#4) &&
    reads (.dist 0) ([0, 1, 0, 1, 0, 1, 1] ++ List.replicate 4 0 ++ [1, 0, 0, 0]) (.distSlot21 0 16#5 1#4) &&
    reads (.dist 0) ([0, 1, 0, 1, 1, 0, 1] ++ List.replicate 5 0 ++ [1, 0, 0, 0]) (.distSlot22 0 32#6 1#4) &&
    reads (.dist 0) ([0, 1, 0, 1, 1, 1, 1] ++ List.replicate 5 0 ++ [1, 0, 0, 0]) (.distSlot23 0 32#6 1#4)) = true := by decide
/-- R102: position slots 24 to 33; the first extra bit of each kind is 1, the others 0. -/
theorem test_decode_dist_slots_24_to_33 : (
    reads (.dist 0) ([0, 1, 1, 0, 0, 0, 1] ++ List.replicate 6 0 ++ [1, 0, 0, 0]) (.distSlot24 0 64#7 1#4) &&
    reads (.dist 0) ([0, 1, 1, 0, 0, 1, 1] ++ List.replicate 6 0 ++ [1, 0, 0, 0]) (.distSlot25 0 64#7 1#4) &&
    reads (.dist 0) ([0, 1, 1, 0, 1, 0, 1] ++ List.replicate 7 0 ++ [1, 0, 0, 0]) (.distSlot26 0 128#8 1#4) &&
    reads (.dist 0) ([0, 1, 1, 0, 1, 1, 1] ++ List.replicate 7 0 ++ [1, 0, 0, 0]) (.distSlot27 0 128#8 1#4) &&
    reads (.dist 0) ([0, 1, 1, 1, 0, 0, 1] ++ List.replicate 8 0 ++ [1, 0, 0, 0]) (.distSlot28 0 256#9 1#4) &&
    reads (.dist 0) ([0, 1, 1, 1, 0, 1, 1] ++ List.replicate 8 0 ++ [1, 0, 0, 0]) (.distSlot29 0 256#9 1#4) &&
    reads (.dist 0) ([0, 1, 1, 1, 1, 0, 1] ++ List.replicate 9 0 ++ [1, 0, 0, 0]) (.distSlot30 0 512#10 1#4) &&
    reads (.dist 0) ([0, 1, 1, 1, 1, 1, 1] ++ List.replicate 9 0 ++ [1, 0, 0, 0]) (.distSlot31 0 512#10 1#4) &&
    reads (.dist 0) ([1, 0, 0, 0, 0, 0, 1] ++ List.replicate 10 0 ++ [1, 0, 0, 0]) (.distSlot32 0 1024#11 1#4) &&
    reads (.dist 0) ([1, 0, 0, 0, 0, 1, 1] ++ List.replicate 10 0 ++ [1, 0, 0, 0]) (.distSlot33 0 1024#11 1#4)) = true := by decide
/-- R102: position slots 34 to 43; the first extra bit of each kind is 1, the others 0. -/
theorem test_decode_dist_slots_34_to_43 : (
    reads (.dist 0) ([1, 0, 0, 0, 1, 0, 1] ++ List.replicate 11 0 ++ [1, 0, 0, 0]) (.distSlot34 0 2048#12 1#4) &&
    reads (.dist 0) ([1, 0, 0, 0, 1, 1, 1] ++ List.replicate 11 0 ++ [1, 0, 0, 0]) (.distSlot35 0 2048#12 1#4) &&
    reads (.dist 0) ([1, 0, 0, 1, 0, 0, 1] ++ List.replicate 12 0 ++ [1, 0, 0, 0]) (.distSlot36 0 4096#13 1#4) &&
    reads (.dist 0) ([1, 0, 0, 1, 0, 1, 1] ++ List.replicate 12 0 ++ [1, 0, 0, 0]) (.distSlot37 0 4096#13 1#4) &&
    reads (.dist 0) ([1, 0, 0, 1, 1, 0, 1] ++ List.replicate 13 0 ++ [1, 0, 0, 0]) (.distSlot38 0 8192#14 1#4) &&
    reads (.dist 0) ([1, 0, 0, 1, 1, 1, 1] ++ List.replicate 13 0 ++ [1, 0, 0, 0]) (.distSlot39 0 8192#14 1#4) &&
    reads (.dist 0) ([1, 0, 1, 0, 0, 0, 1] ++ List.replicate 14 0 ++ [1, 0, 0, 0]) (.distSlot40 0 16384#15 1#4) &&
    reads (.dist 0) ([1, 0, 1, 0, 0, 1, 1] ++ List.replicate 14 0 ++ [1, 0, 0, 0]) (.distSlot41 0 16384#15 1#4) &&
    reads (.dist 0) ([1, 0, 1, 0, 1, 0, 1] ++ List.replicate 15 0 ++ [1, 0, 0, 0]) (.distSlot42 0 32768#16 1#4) &&
    reads (.dist 0) ([1, 0, 1, 0, 1, 1, 1] ++ List.replicate 15 0 ++ [1, 0, 0, 0]) (.distSlot43 0 32768#16 1#4)) = true := by decide
/-- R102: position slots 44 to 53; the first extra bit of each kind is 1, the others 0. -/
theorem test_decode_dist_slots_44_to_53 : (
    reads (.dist 0) ([1, 0, 1, 1, 0, 0, 1] ++ List.replicate 16 0 ++ [1, 0, 0, 0]) (.distSlot44 0 65536#17 1#4) &&
    reads (.dist 0) ([1, 0, 1, 1, 0, 1, 1] ++ List.replicate 16 0 ++ [1, 0, 0, 0]) (.distSlot45 0 65536#17 1#4) &&
    reads (.dist 0) ([1, 0, 1, 1, 1, 0, 1] ++ List.replicate 17 0 ++ [1, 0, 0, 0]) (.distSlot46 0 131072#18 1#4) &&
    reads (.dist 0) ([1, 0, 1, 1, 1, 1, 1] ++ List.replicate 17 0 ++ [1, 0, 0, 0]) (.distSlot47 0 131072#18 1#4) &&
    reads (.dist 0) ([1, 1, 0, 0, 0, 0, 1] ++ List.replicate 18 0 ++ [1, 0, 0, 0]) (.distSlot48 0 262144#19 1#4) &&
    reads (.dist 0) ([1, 1, 0, 0, 0, 1, 1] ++ List.replicate 18 0 ++ [1, 0, 0, 0]) (.distSlot49 0 262144#19 1#4) &&
    reads (.dist 0) ([1, 1, 0, 0, 1, 0, 1] ++ List.replicate 19 0 ++ [1, 0, 0, 0]) (.distSlot50 0 524288#20 1#4) &&
    reads (.dist 0) ([1, 1, 0, 0, 1, 1, 1] ++ List.replicate 19 0 ++ [1, 0, 0, 0]) (.distSlot51 0 524288#20 1#4) &&
    reads (.dist 0) ([1, 1, 0, 1, 0, 0, 1] ++ List.replicate 20 0 ++ [1, 0, 0, 0]) (.distSlot52 0 1048576#21 1#4) &&
    reads (.dist 0) ([1, 1, 0, 1, 0, 1, 1] ++ List.replicate 20 0 ++ [1, 0, 0, 0]) (.distSlot53 0 1048576#21 1#4)) = true := by decide
/-- R102: position slots 54 to 63; the first extra bit of each kind is 1, the others 0. -/
theorem test_decode_dist_slots_54_to_63 : (
    reads (.dist 0) ([1, 1, 0, 1, 1, 0, 1] ++ List.replicate 21 0 ++ [1, 0, 0, 0]) (.distSlot54 0 2097152#22 1#4) &&
    reads (.dist 0) ([1, 1, 0, 1, 1, 1, 1] ++ List.replicate 21 0 ++ [1, 0, 0, 0]) (.distSlot55 0 2097152#22 1#4) &&
    reads (.dist 0) ([1, 1, 1, 0, 0, 0, 1] ++ List.replicate 22 0 ++ [1, 0, 0, 0]) (.distSlot56 0 4194304#23 1#4) &&
    reads (.dist 0) ([1, 1, 1, 0, 0, 1, 1] ++ List.replicate 22 0 ++ [1, 0, 0, 0]) (.distSlot57 0 4194304#23 1#4) &&
    reads (.dist 0) ([1, 1, 1, 0, 1, 0, 1] ++ List.replicate 23 0 ++ [1, 0, 0, 0]) (.distSlot58 0 8388608#24 1#4) &&
    reads (.dist 0) ([1, 1, 1, 0, 1, 1, 1] ++ List.replicate 23 0 ++ [1, 0, 0, 0]) (.distSlot59 0 8388608#24 1#4) &&
    reads (.dist 0) ([1, 1, 1, 1, 0, 0, 1] ++ List.replicate 24 0 ++ [1, 0, 0, 0]) (.distSlot60 0 16777216#25 1#4) &&
    reads (.dist 0) ([1, 1, 1, 1, 0, 1, 1] ++ List.replicate 24 0 ++ [1, 0, 0, 0]) (.distSlot61 0 16777216#25 1#4) &&
    reads (.dist 0) ([1, 1, 1, 1, 1, 0, 1] ++ List.replicate 25 0 ++ [1, 0, 0, 0]) (.distSlot62 0 33554432#26 1#4) &&
    reads (.dist 0) ([1, 1, 1, 1, 1, 1, 1] ++ List.replicate 25 0 ++ [1, 0, 0, 0]) (.distSlot63 0 33554432#26 1#4)) = true := by decide
/-- R206 examples 1 and 2. -/
theorem test_decode_dist_examples :
    (reads (.dist 3) [0, 0, 1, 0, 0, 1, 1, 0, 1] (.distSlot9 3 5#3) &&
      reads (.dist 1) [0, 0, 1, 1, 1, 0, 1, 0, 1, 1, 0, 0] (.distSlot14 1 2#2 3#4)) = true := by decide
/-- A string that ends inside a field is refused by name. -/
theorem test_decode_refuses : decode .sym [true, false, true, true] = .error .bitsRanOut := by decide
/-- The words of the opcode table, numbered as it numbers them, in whole bytes (log 15). -/
theorem test_table_words :
    decodeTableWord 16 0x0FF = some (.lit 0xFF#8) ∧ decodeTableWord 8 0xC = some .shortrep ∧
      decodeTableWord 8 0b0001001 = some (.distSlot4 0 1#1) := by decide
/-- R110, "-": the OP and CMD rows have no word. -/
theorem test_encode_none : encode .inByte = none ∧ encode .cmdReset = none := by decide

/-! ### Instructions, on the spec's examples and vectors -/

/-- R131: the byte is taken and `ipos` advances. -/
theorem test_inByte : after (exec (.inByte) { stream with source := [.byte 0x20#8, .byte 0x91#8], ipos := 1#64 }) (fun t => t.result == some 0x20 && t.ipos == 2#64 && t.source == [.byte 0x91#8]) = true := by decide
/-- R131 example: `StreamTruncated`. -/
theorem test_inByte_exhausted : after (exec (.inByte) { stream with source := [] }) (fun t => t.status == .failure .streamTruncated && t.phase == .failed) = true := by decide
/-- R132 example, with a pad byte that is not examined. -/
theorem test_rcInit : after (exec (.rcInit) { stream with source := [.byte 0xAB#8, .byte 0x20#8, .byte 0x91#8, .byte 0x28#8, .byte 0xDC#8] }) (fun t => t.code == 0x209128DC#32 && t.range == 0xFFFFFFFF#32 && t.ipos == 5#64) = true := by decide
/-- V-Z2: four bytes. -/
theorem test_rcInit_short : after (exec (.rcInit) { stream with source := [.byte 0x00#8, .byte 0x00#8, .byte 0x00#8, .byte 0x00#8] }) (fun t => t.status == .failure .streamTruncated) = true := by decide
/-- R133 example. -/
theorem test_rcNormalize : after (exec (.rcNormalize) { stream with range := 0x00800000#32, code := 0x00112CDC#32, source := [.byte 0x29#8] }) (fun t => t.range == 0x80000000#32 && t.code == 0x112CDC29#32 && t.ipos == 1#64) = true := by decide
/-- R133: from 2^24 on nothing is read. -/
theorem test_rcNormalize_still : after (exec (.rcNormalize) { stream with range := 0x01000000#32, source := [.byte 0x29#8] }) (fun t => t.range == 0x01000000#32 && t.source == [.byte 0x29#8]) = true := by decide
/-- V-B3: `code = bound` gives 1. -/
theorem test_rcBit_strict : after (exec (.rcBit .isRep 0) { stream with code := 0x7FFFFC00#32 }) (fun t => t.result == some 1 && t.range == 0x800003FF#32 && t.code == 0#32 && t.mem.slot (slotKey .isRep 0) == 992#11) = true := by decide
/-- V-B10: slot 2017, bit 1, one byte. -/
theorem test_rcBit_renormalises : after (exec (.rcBit .isRep 3) { stream with range := 0x01000000#32, code := 0x00FFFFFF#32, source := [.byte 0x22#8], mem := stream.mem.setSlot (slotKey .isRep 3) 2017#11 }) (fun t => t.result == some 1 && t.range == 0x03E00000#32 && t.code == 0x03DFFF22#32 && t.mem.slot (slotKey .isRep 3) == 1954#11) = true := by decide
/-- V-D3: bits 1,0,1 give 5. -/
theorem test_rcDirect : after (exec (.rcDirect 3) { stream with code := 0xA0000000#32 }) (fun t => t.result == some 5 && t.range == 0x1FFFFFFF#32 && t.code == 2#32) = true := by decide
/-- V-D4: a byte after the first bit. -/
theorem test_rcDirect_renormalises : after (exec (.rcDirect 2) { stream with range := 0x01000000#32, code := 0x00C00000#32, source := [.byte 0x12#8, .byte 0x34#8] }) (fun t => t.result == some 3 && t.range == 0x40000000#32 && t.code == 0x12#32 && t.source == [.byte 0x34#8]) = true := by decide
/-- V-BT1: bits 1,1,0 on slots 1, 3, 7 give 6. -/
theorem test_btDecode : after (exec (.btDecode .mlenLow 8 3) { stream with code := 0xC0000000#32 }) (fun t => t.result == some 6 && t.mem.slot (slotKey .mlenLow 11) == 992#11 && t.mem.slot (slotKey .mlenLow 15) == 1056#11) = true := by decide
/-- V-BT2: the same bits give 3. -/
theorem test_btReverse : after (exec (.btReverse .align 0 3) { stream with code := 0xC0000000#32 }) (fun t => t.result == some 3 && t.mem.slot (slotKey .align 7) == 1056#11) = true := by decide
/-- R206: the offset -1 of position slot 4 leads to `POS_DEC[0]`. -/
theorem test_btReverse_offset : after (exec (.btReverse .posDec (-1) 1) { stream with code := 0xC0000000#32 }) (fun t => t.result == some 1 && t.mem.slot (slotKey .posDec 0) == 992#11) = true := by decide
/-- V-L2: bits 0; 1,1,0. -/
theorem test_lenDecode_low : after (exec (.lenDecode .mlen 0) { stream with code := 0x68000000#32 }) (fun t => t.result == some 8 && t.mem.slot (slotKey .mlenLow 7) == 1056#11) = true := by decide
/-- V-L6: bits 1,0; 1,1,1 in position state 1. -/
theorem test_lenDecode_mid : after (exec (.lenDecode .rlen 1) { stream with code := 0xBC000000#32 }) (fun t => t.result == some 17 && t.mem.slot (slotKey .rlenMid 9) == 992#11 && t.mem.slot (slotKey .rlenChoice 1) == 1056#11) = true := by decide
/-- V-K2. -/
theorem test_litSelect : after (exec (.litSelect) { stream with position := 1#64, prevByte := 0x41#8 }) (fun t => t.result == some 1536) = true := by decide
/-- V-K10. -/
theorem test_litSelect_both : after (exec (.litSelect) { stream with lc := 4#4, lp := 1#3, literalPosMask := 1#4, position := 3#64, prevByte := 0xA7#8 }) (fun t => t.result == some 19968) = true := by decide
/-- V-N1: the byte 0x41. -/
theorem test_litNormal : after (exec (.litNormal 0) { stream with code := 0x41800000#32 }) (fun t => t.result == some 0x41 && t.mem.slot (slotKey .lit 160) == 992#11) = true := by decide
/-- V-M2: plain slots after the first disagreement. -/
theorem test_litMatched : after (exec (.litMatched 1536 0x30#8) { stream with code := 0x20800000#32 }) (fun t => t.result == some 0x20 && t.mem.slot (slotKey .lit 2052) == 992#11 && t.mem.slot (slotKey .lit 1554) == 1056#11) = true := by decide
/-- V-W1. -/
theorem test_winPut : after (exec (.winPut 0x41#8) { stream with writeCursor := 0#32, mem := Memory.streamStart }) (fun t => Cells.find t.mem.win 0 == some 0x41#8 && t.writeCursor == 1#32 && t.sink == []) = true := by decide
/-- V-W2: at the window's end the region is flushed. -/
theorem test_winPut_wraps : after (exec (.winPut 0x7A#8) lastPlace) (fun t => t.sink == [0x41#8, 0x42#8, 0x7A#8] && t.writeCursor == 0#32 && t.watermark == 0#32 && Cells.find t.mem.win 4095 == some 0x7A#8) = true := by decide
/-- V-W3. -/
theorem test_winGet : after (exec (.winGet 1#32) stream) (fun t => t.result == some 0x41) = true := by decide
/-- V-W4: the read wraps. -/
theorem test_winGet_wraps : after (exec (.winGet 0#32) { stream with writeCursor := 0#32, position := 4096#64, mem := { stream.mem with win := [(4095, 0x39#8)] } }) (fun t => t.result == some 0x39) = true := by decide
/-- V-W5. -/
theorem test_winCopy_overlaps : after (exec (.winCopy 1#32 8) stream) (fun t => t.writeCursor == 10#32 && Cells.find t.mem.win 8 == some 0x41#8 && Cells.find t.mem.win 9 == some 0x42#8) = true := by decide
/-- V-W8: the source wraps. -/
theorem test_winCopy_wraps : after (exec (.winCopy 2#32 3) { stream with writeCursor := 1#32, position := 4097#64, mem := { stream.mem with win := [(0, 0x52#8), (4094, 0x50#8), (4095, 0x51#8)] } }) (fun t => t.writeCursor == 4#32 && Cells.find t.mem.win 1 == some 0x50#8 && Cells.find t.mem.win 2 == some 0x51#8 && Cells.find t.mem.win 3 == some 0x52#8) = true := by decide
/-- V-W9, with two bytes. -/
theorem test_winFlush : after (exec (.winFlush) stream) (fun t => t.sink == [0x41#8, 0x42#8] && t.watermark == 2#32 && t.writeCursor == 2#32) = true := by decide
/-- V-W10: no `SinkWrite` is issued, so none fails. -/
theorem test_winFlush_empty : after (exec (.winFlush) { stream with watermark := 2#32, sinkAnswers := [.failure] }) (fun t => t.sinkAnswers == [.failure] && t.status == .ok) = true := by decide
/-- R62: in order. -/
theorem test_sinkWrite : after (exec (.sinkWrite [1#8, 2#8]) { stream with sink := [9#8] }) (fun t => t.sink == [9#8, 1#8, 2#8]) = true := by decide
/-- R264: `IoError`. -/
theorem test_sinkWrite_fails : after (exec (.sinkWrite [1#8]) { stream with sinkAnswers := [.failure] }) (fun t => t.status == .failure .ioError && t.sink == []) = true := by decide
/-- R202 and R244 examples: the first symbol of T1 is `LIT 0x41`. -/
theorem test_symbol : after (exec (.symbol) { stream with position := 0#64, prevByte := 0#8, writeCursor := 0#32, mem := Memory.streamStart, code := 0x209128DC#32 }) (fun t => t.result == some 0 && t.prevByte == 0x41#8 && t.position == 1#64) = true := by decide
/-- V-FF: all ones decode to `LONGREP3`, corrupt at position 0. -/
theorem test_symbol_corrupt : after (exec (.symbol) { stream with position := 0#64, code := 0xFFFFFFFF#32, source := List.replicate 8 (.byte 0xFF#8) }) (fun t => t.status == .failure .corruptStream && t.phase == .failed) = true := by decide
/-- V-X2: length 8, position-slot bits 0,0,0,0,0,1. -/
theorem test_distDecode : after (exec (.distDecode 8) { stream with code := 0x06000000#32 }) (fun t => t.result == some 1 && t.mem.slot (slotKey .posSlot 224) == 992#11) = true := by decide
/-- R206 example 1: distance 29. -/
theorem test_distDecode_reverse : after (exec (.distDecode 2) { stream with code := 0x26C00000#32 }) (fun t => t.result == some 29 && t.mem.slot (slotKey .posDec 15) == 992#11 && t.mem.slot (slotKey .posDec 17) == 1056#11 && t.mem.slot (slotKey .posDec 20) == 992#11) = true := by decide
/-- R208: the largest legal distance. -/
theorem test_rangeCheck : after (exec (.rangeCheck 1#32) stream) (fun t => t.status == .ok && t.phase == .decoding) = true := by decide
/-- R208: `d = position`. -/
theorem test_rangeCheck_fails : after (exec (.rangeCheck 2#32) stream) (fun t => t.status == .failure .corruptStream) = true := by decide
/-- R209 after the check of R203's example. -/
theorem test_copy : after (exec (.copy 8) { stream with rep0 := 1#32 }) (fun t => t.position == 10#64 && t.prevByte == 0x42#8 && t.writeCursor == 10#32) = true := by decide
/-- R191: `dictionarySizeCheck` limits, not the window. -/
theorem test_copy_corrupt : after (exec (.copy 1) { longer 9 0 0 0 with dictionarySizeCheck := 9#32 }) (fun t => t.status == .failure .corruptStream) = true := by decide
/-- R221 table. -/
theorem test_afterLiteral : after (exec (.afterLiteral 10#4) stream) (fun t => t.result == some 4) = true := by decide
/-- R222 table. -/
theorem test_afterMatch : after (exec (.afterMatch 6#4) stream) (fun t => t.result == some 7) = true := by decide
/-- R223 table. -/
theorem test_afterRep : after (exec (.afterRep 7#4) stream) (fun t => t.result == some 11) = true := by decide
/-- R224 table. -/
theorem test_afterShortRep : after (exec (.afterShortRep 0#4) stream) (fun t => t.result == some 9) = true := by decide
/-- R202 example. -/
theorem test_lit : after (exec (.lit 0x41#8) { stream with position := 0#64, prevByte := 0#8, writeCursor := 0#32, mem := Memory.streamStart }) (fun t => t.prevByte == 0x41#8 && t.position == 1#64 && t.mem.slot (slotKey .lit 160) == 992#11 && t.mem.slot (slotKey .isMatch 0) == 1056#11) = true := by decide
/-- V-M1: after a match the match byte chooses the slot. -/
theorem test_lit_matched : after (exec (.lit 0x11#8) { longer 7 0 0 0 with state := 7#4, prevByte := 0x40#8 }) (fun t => t.state == 4#4 && t.mem.slot (slotKey .lit 1793) == 1056#11 && t.mem.slot (slotKey .lit 2056) == 992#11) = true := by decide
/-- R203 example. -/
theorem test_match : after (exec (.matchNew 8 1#32) stream) (fun t => t.position == 10#64 && t.prevByte == 0x42#8 && t.state == 7#4 && t.rep0 == 1#32 && t.mem.slot (slotKey .posSlot 224) == 992#11) = true := by decide
/-- V-C1: a match at position 0. -/
theorem test_match_corrupt : after (exec (.matchNew 2 0#32) { stream with position := 0#64 }) (fun t => t.status == .failure .corruptStream) = true := by decide
/-- R207: `0xFFFFFFFF` on the history, nothing emitted. -/
theorem test_eos : after (exec (.eos 2) matched) (fun t => t.result == some 1 && t.rep0 == 0xFFFFFFFF#32 && t.rep1 == 1#32 && t.position == 2#64 && t.state == 7#4) = true := by decide
/-- R211 example. -/
theorem test_shortrep : after (exec (.shortrep) { stream with position := 1#64, writeCursor := 1#32, prevByte := 0x61#8, mem := { stream.mem with win := [(0, 0x61#8)] } }) (fun t => t.state == 9#4 && t.position == 2#64 && Cells.find t.mem.win 1 == some 0x61#8) = true := by decide
/-- R37: with state 9, pb 2 and position 2 the index (9 << 2) + 2 is 38, the other flags stand at 9. -/
theorem test_shortrep_slots : after (exec (.shortrep) { matched with state := 9#4 }) (fun t => t.mem.prob.map Prod.fst == [slotKey .isRep 9, slotKey .isRepG0 9, slotKey .isMatch 38, slotKey .isRep0Long 38]) = true := by decide
/-- R212 example: reps 7,2,0,4. -/
theorem test_longrep0 : after (exec (.longrep0 2) { longer 7 2 0 4 with state := 11#4 }) (fun t => t.rep0 == 7#32 && t.rep1 == 2#32 && t.position == 26#64 && t.state == 11#4 && t.prevByte == 17#8) = true := by decide
/-- R213 example: reps 2,7,0,4 become 7,2,0,4. -/
theorem test_longrep1 : after (exec (.longrep1 2) (longer 2 7 0 4)) (fun t => t.rep0 == 7#32 && t.rep1 == 2#32 && t.rep2 == 0#32 && t.rep3 == 4#32 && t.state == 8#4) = true := by decide
/-- R214 example: reps 7,0,2,4 become 2,7,0,4. -/
theorem test_longrep2 : after (exec (.longrep2 3) (longer 7 0 2 4)) (fun t => t.rep0 == 2#32 && t.rep1 == 7#32 && t.rep2 == 0#32 && t.rep3 == 4#32 && t.position == 27#64) = true := by decide
/-- R215 example: reps 0,2,4,7 become 7,0,2,4. -/
theorem test_longrep3 : after (exec (.longrep3 2) (longer 0 2 4 7)) (fun t => t.rep0 == 7#32 && t.rep1 == 0#32 && t.rep2 == 2#32 && t.rep3 == 4#32 && t.mem.slot (slotKey .isRepG2 0) == 992#11) = true := by decide
/-- V-L3 in position state 3: slots 25, 26, 28. -/
theorem test_lenLow : after (exec (.lenLow .mlen 1#3) { stream with position := 3#64 }) (fun t => t.result == some 3 && t.mem.slot (slotKey .mlenLow 25) == 1056#11 && t.mem.slot (slotKey .mlenLow 28) == 992#11) = true := by decide
/-- V-L5 in position state 2: slots 17, 18, 20. -/
theorem test_lenMid : after (exec (.lenMid .rlen 0#3) stream) (fun t => t.result == some 10 && t.mem.slot (slotKey .rlenMid 20) == 1056#11 && t.mem.slot (slotKey .rlenChoice 0) == 992#11) = true := by decide
/-- V-L8: slots 1 to 255. -/
theorem test_lenHigh : after (exec (.lenHigh .mlen 255#8) stream) (fun t => t.result == some 273 && t.mem.slot (slotKey .mlenHigh 255) == 992#11) = true := by decide
/-- V-X1: distance 0 on `POS_SLOT[1..32]`. -/
theorem test_distSlot0 : after (exec (.distSlot0 0) stream) (fun t => t.result == some 0 && t.mem.slot (slotKey .posSlot 32) == 1056#11) = true := by decide
/-- V-X4: distance 5. -/
theorem test_distSlot4 : after (exec (.distSlot4 3 1#1) stream) (fun t => t.result == some 5 && t.mem.slot (slotKey .posSlot 226) == 1056#11 && t.mem.slot (slotKey .posDec 0) == 992#11) = true := by decide
/-- R206 example 1: distance 29 on `POS_DEC[15, 17, 20]`. -/
theorem test_distSlot9 : after (exec (.distSlot9 0 5#3) stream) (fun t => t.result == some 29 && t.mem.slot (slotKey .posDec 20) == 992#11) = true := by decide
/-- R206 example 2: distance 163, `ALIGN[14]` last. -/
theorem test_distSlot14 : after (exec (.distSlot14 0 2#2 3#4) stream) (fun t => t.result == some 163 && t.mem.slot (slotKey .align 14) == 1056#11) = true := by decide
/-- R206: the largest distance. -/
theorem test_distSlot63 : after (exec (.distSlot63 0 0x3FFFFFF#26 15#4) stream) (fun t => t.result == some 0xFFFFFFFF && t.mem.slot (slotKey .align 15) == 992#11) = true := by decide
/-- R241 example. -/
theorem test_reset_command : after (exec (.cmdReset) { stream with phase := .failed, status := .failure .corruptStream }) (fun t => t.phase == .unconfigured && t.status == .ok) = true := by decide
/-- R240: not during a stream. -/
theorem test_reset_command_decoding : exec .cmdReset stream = .refused .resetWhileDecoding := rfl
/-- V-SP3: a dictionary of 0. -/
theorem test_setProperties : after (exec (.cmdSetProperties [0x03#8, 0#8, 0#8, 0#8, 0#8]) State.reset) (fun t => t.lc == 3#4 && t.dictionarySizeCheck == 1#32 && t.windowSize == 4096#32 && t.phase == .configured) = true := by decide
/-- V-SP7: bit 31 of the size. -/
theorem test_setProperties_fails : after (exec (.cmdSetProperties [0x5D#8, 0#8, 0#8, 0#8, 0x80#8]) (ready [])) (fun t => t.phase == .unconfigured && t.status == .failure .formatError) = true := by decide
/-- R244 example. -/
theorem test_decode_starts : after (exec (.cmdDecode 10#64) (ready [0#8, 0x20#8, 0x91#8, 0x28#8, 0xDC#8, 0x29#8])) (fun t => t.phase == .decoding && t.code == 0x209128DC#32 && t.ipos == 5#64 && t.position == 0#64 && t.mem == Memory.streamStart) = true := by decide
/-- V-Z2. -/
theorem test_decode_truncated : after (exec (.cmdDecode 0#64) (ready [0#8, 0#8, 0#8, 0#8])) (fun t => t.phase == .failed && t.status == .failure .streamTruncated) = true := by decide
/-- R300: in any phase. -/
theorem test_step_reset_input : after (step { stream with resetInput := true, sink := [7#8] }) (fun t => t.phase == .unconfigured && t.sink == [7#8]) = true := by decide
/-- One pass of the loop: zero bits decode to `LIT 0x00` (V-Z5). -/
theorem test_step_symbol : after (step stream) (fun t => t.position == 3#64 && t.prevByte == 0#8 && t.phase == .decoding) = true := by decide
/-- R247: at the length no symbol is decoded. -/
theorem test_step_length : after (step { stream with expectedLength := 2#64, source := [] }) (fun t => t.phase == .done && t.status == .ok && t.sink == [0x41#8, 0x42#8]) = true := by decide
/-- The table word of `SHORTREP` is what the next step runs (log 16). -/
theorem test_withFetchWord : after (step (State.withFetchWord { stream with source := [] } 8 0xC)) (fun t => t.position == 3#64 && t.state == 9#4 && t.issued == []) = true := by decide

/-! ### Witnesses

Sound states by a finite check, then for every statement with hypotheses states and operands that meet them, for each of its
clauses at the ends of its range. -/

theorem coderOk_of (s : State)
    (h : 2 ^ 24 ≤ s.range.toNat ∧ s.mem.probFill = none ∧ ∀ c ∈ s.mem.prob, 31 ≤ c.2.toNat ∧ c.2.toNat ≤ 2017) : CoderOk s :=
  ⟨h.1, h.2.1, h.2.2⟩

theorem propertiesOk_of (s : State)
    (h : s.lc.toNat ≤ 8 ∧ s.lp.toNat ≤ 4 ∧ s.pb.toNat ≤ 4 ∧ s.dictionarySize.toNat < 2 ^ 31 ∧
      s.posStateMask.toNat = 2 ^ s.pb.toNat - 1 ∧ s.literalPosMask.toNat = 2 ^ s.lp.toNat - 1 ∧
      s.dictionarySizeCheck.toNat = max s.dictionarySize.toNat 1 ∧
      s.windowSize.toNat = max s.dictionarySizeCheck.toNat 4096) : PropertiesOk s :=
  ⟨h.1, h.2.1, h.2.2.1, h.2.2.2.1, h.2.2.2.2.1, h.2.2.2.2.2.1, h.2.2.2.2.2.2.1, h.2.2.2.2.2.2.2⟩

theorem inv_of (s : State) (hc : CoderOk s) (hp : PropertiesOk s)
    (h : s.mem.wf = true ∧ s.state.toNat < 12 ∧ s.watermark.toNat ≤ s.writeCursor.toNat ∧
      s.writeCursor.toNat < s.windowSize.toNat ∧ s.status = .ok ∧ (s.phase = .decoding ∨ s.phase = .configured)) : Inv s where
  memory := h.1
  properties _ := hp
  coder _ := hc
  automaton _ := h.2.1
  cursors _ := ⟨h.2.2.1, h.2.2.2.1⟩
  statusOk _ := h.2.2.2.2.1
  statusFailed hf := by rcases h.2.2.2.2.2 with h | h <;> rw [h] at hf <;> cases hf

theorem streamInv_of (s : State) (hi : Inv s)
    (h : s.phase = .decoding ∧ s.position.toNat ≤ (emitted s).length ∧
      (∀ d < s.position.toNat, Cells.find s.mem.win (srcIndex s (BitVec.ofNat 32 d)) = (emitted s).reverse[d]?) ∧
      s.writeCursor.toNat ≤ s.watermark.toNat + s.position.toNat ∧
      (7 ≤ s.state.toNat → s.rep0.toNat < s.position.toNat ∧ s.rep0.toNat < s.dictionarySizeCheck.toNat)) : StreamInv s where
  inv := hi
  decoding := h.1
  produced := h.2.1
  window d hd _ := h.2.2.1 d hd
  unflushed := h.2.2.2.1
  rep0 := h.2.2.2.2

theorem ready_of (s : State) (hs : StreamInv s)
    (h : supplies 48 s.source = true ∧ sinkAccepts s = true ∧ s.position.toNat + 273 < 2 ^ 64) : Ready s :=
  ⟨hs, h.1, h.2.1, h.2.2⟩

theorem test_stream_coderOk : CoderOk stream := coderOk_of _ (by decide)
theorem test_stream_propertiesOk : PropertiesOk stream := propertiesOk_of _ (by decide)

/-- At position 0 the all-ones input decodes to `LONGREP3` with the illegal distance 0 (V-FF). -/
def allOnes : State :=
  { stream with position := 0#64, prevByte := 0#8, writeCursor := 0#32, mem := Memory.streamStart
                code := 0xFFFFFFFF#32, source := List.replicate 64 (.byte 0xFF#8) }

/-- The stream of V-E5 after `RC_INIT`: the end marker is its first symbol. -/
def endMarker : State :=
  { stream with position := 0#64, prevByte := 0#8, writeCursor := 0#32, mem := Memory.streamStart, lc := 3#4, pb := 0#3
                posStateMask := 0#4, code := 0x83FFFBFF#32
                source := [.byte 0xFF#8, .byte 0xC0#8, .byte 0#8, .byte 0#8, .byte 0#8] }

theorem test_stream_streamInv : StreamInv stream :=
  streamInv_of _ (inv_of _ (coderOk_of _ (by decide)) (propertiesOk_of _ (by decide)) (by decide)) (by decide)
theorem test_matched_streamInv : StreamInv matched :=
  streamInv_of _ (inv_of _ (coderOk_of _ (by decide)) (propertiesOk_of _ (by decide)) (by decide)) (by decide)
theorem test_lastPlace_streamInv : StreamInv lastPlace :=
  streamInv_of _ (inv_of _ (coderOk_of _ (by decide)) (propertiesOk_of _ (by decide)) (by decide)) (by decide)
theorem test_allOnes_streamInv : StreamInv allOnes :=
  streamInv_of _ (inv_of _ (coderOk_of _ (by decide)) (propertiesOk_of _ (by decide)) (by decide)) (by decide)
theorem test_endMarker_streamInv : StreamInv endMarker :=
  streamInv_of _ (inv_of _ (coderOk_of _ (by decide)) (propertiesOk_of _ (by decide)) (by decide)) (by decide)
theorem test_stream_ready : Ready stream := ready_of _ test_stream_streamInv (by decide)
theorem test_matched_ready : Ready matched := ready_of _ test_matched_streamInv (by decide)
theorem test_lastPlace_ready : Ready lastPlace := ready_of _ test_lastPlace_streamInv (by decide)
theorem test_allOnes_ready : Ready allOnes := ready_of _ test_allOnes_streamInv (by decide)

theorem test_witness_ResetLeavesPhaseAndStatus : { stream with resetInput := true }.resetInput = true ∧ State.reset.phase ≠ .decoding := by decide
theorem test_witness_ResetCommand : (ready []).phase ≠ .decoding := by decide
theorem test_witness_SetProperties : State.reset.phase ≠ .decoding ∧ (0xE0#8 : Byte).toNat < 225 ∧ (0x7F#8 : Byte).toNat < 128 := by decide
theorem test_witness_SetProperties_fails : ([0x5D#8, 0#8, 0#8, 0#8] : List Byte).length < 5 ∧ 225 ≤ (([0xE1#8] : List Byte).getD 0 0#8).toNat ∧
    128 ≤ (([0#8, 0#8, 0#8, 0#8, 0x80#8] : List Byte).getD 4 0#8).toNat := by decide
theorem test_witness_SetProperties_refused : stream.phase = .decoding := by decide
theorem test_witness_PropertiesByteRoundTrip : 8 ≤ 8 ∧ 4 ≤ 4 ∧ (encodeProps 8 4 4).toNat = 224 := by decide
theorem test_witness_DecodeStarts : (ready [1#8, 2#8, 3#8, 4#8, 5#8, 6#8]).phase = .configured ∧
    (ready [1#8, 2#8, 3#8, 4#8, 5#8, 6#8]).source =
      .byte 1#8 :: .byte 2#8 :: .byte 3#8 :: .byte 4#8 :: .byte 5#8 :: [.byte 6#8] := by decide
theorem test_witness_DecodeShortStream : (ready [1#8, 2#8, 3#8, 4#8]).source.length < 5 ∧ (ready []).source.length < 5 ∧
    supplies 4 (ready [1#8, 2#8, 3#8, 4#8]).source = true ∧ supplies 0 (ready []).source = true := by decide
theorem test_witness_DecodeShortStream_io : supplies 4 ([.byte 1#8, .byte 2#8, .byte 3#8, .byte 4#8, .failure] : List SourceAnswer) = true ∧
    ([.byte 1#8, .byte 2#8, .byte 3#8, .byte 4#8, .failure] : List SourceAnswer).drop 4 = .failure :: [] ∧
    supplies 0 ([.failure] : List SourceAnswer) = true := by decide
theorem test_witness_DecodeForgetsThePast : ∃ s s' : State, s.phase = .configured ∧ s ≠ s' ∧ s' = { s with
      range := s'.range, code := s'.code, state := s'.state, rep0 := s'.rep0, rep1 := s'.rep1, rep2 := s'.rep2, rep3 := s'.rep3
      position := s'.position, prevByte := s'.prevByte, ipos := s'.ipos, expectedLength := s'.expectedLength
      mem := s'.mem, writeCursor := s'.writeCursor, watermark := s'.watermark, result := s'.result } := 
  ⟨ready [], { ready [] with range := 0#32, state := 11#4, mem := Memory.unspecified 3 }, by decide, by decide, by decide⟩
theorem test_witness_StepRunsWhatIsIssued : { stream with issued := [.winFlush] }.issued = .winFlush :: [] ∧ decodeTableWord 8 0xC = some .shortrep ∧
    State.reset.issued = [] ∧ State.reset.phase ≠ .decoding ∧ State.reset.resetInput = false := by decide
theorem test_witness_StepRunsTheDecodedSymbol : ∃ y u, fetchSymbol stream = .ok y u ∧ endsLoop y = false ∧ stream.issued = [] ∧ stream.phase = .decoding ∧
    lengthReached stream = false := by
  obtain ⟨y, u, h, hy⟩ := yields_ok (r := fetchSymbol stream) (p := fun y _ => !endsLoop y) (by decide)
  exact ⟨y, u, h, by simpa using hy, by decide, by decide, by decide⟩
theorem test_witness_StepRunsTheDecodedSymbol_next : ∃ y u t, fetchSymbol stream = .ok y u ∧ exec y.toInstr stream = .next t := by
  obtain ⟨y, u, h, hy⟩ := yields_ok (r := fetchSymbol stream) (p := fun y _ => decide (y = .lit 0#8)) (by decide)
  obtain ⟨t, ht, -⟩ := after_next (o := exec (.lit 0#8) stream) (p := fun _ => true) (by decide)
  exact ⟨y, u, t, h, by rw [of_decide_eq_true hy]; exact ht⟩
theorem test_witness_SymbolIsItsRow : PropertiesOk endMarker ∧ ∃ u, fetchSymbol endMarker = .ok (.eos 2) u := by
  obtain ⟨y, u, h, hy⟩ := yields_ok (r := fetchSymbol endMarker) (p := fun y _ => decide (y = .eos 2)) (by decide)
  exact ⟨propertiesOk_of _ (by decide), u, by rw [h, of_decide_eq_true hy]⟩
theorem test_witness_SymbolRuns : Ready stream ∧ copyDistance stream (.lit 0#8) = none := ⟨test_stream_ready, by decide⟩
theorem test_witness_SymbolRuns_corrupt : Ready allOnes ∧ ∃ y u d, fetchSymbol allOnes = .ok y u ∧ copyDistance allOnes y = some d ∧
    ¬ (d.toNat < allOnes.position.toNat ∧ d.toNat < allOnes.dictionarySizeCheck.toNat) := by
  obtain ⟨y, u, h, hy⟩ := yields_ok (r := fetchSymbol allOnes) (p := fun y _ => decide (y = .longrep3 273)) (by decide)
  exact ⟨test_allOnes_ready, y, u, 0#32, h, by rw [of_decide_eq_true hy]; decide, by decide⟩
theorem test_atLength_streamInv : StreamInv { stream with expectedLength := 2#64 } :=
  streamInv_of _ (inv_of _ (coderOk_of _ (by decide)) (propertiesOk_of _ (by decide)) (by decide)) (by decide)
theorem test_pastLength_streamInv : StreamInv { stream with expectedLength := 0#64 } :=
  streamInv_of _ (inv_of _ (coderOk_of _ (by decide)) (propertiesOk_of _ (by decide)) (by decide)) (by decide)
theorem test_witness_LengthTestEndsTheLoop : sinkAccepts stream = true ∧ 0 ≤ (2#64 : DWord).toInt ∧ (2#64 : DWord).toInt ≤ (stream.position.toNat : Int) ∧ 0 ≤ (0#64 : DWord).toInt := by decide
theorem test_witness_LengthTestContinues : Ready { stream with expectedLength := 3#64 } ∧ stream.expectedLength.toInt < 0 ∧ (stream.position.toNat : Int) < (3#64 : DWord).toInt := 
  ⟨ready_of _ (streamInv_of _ (inv_of _ (coderOk_of _ (by decide)) (propertiesOk_of _ (by decide)) (by decide)) (by decide)) (by decide),
    by decide, by decide⟩
theorem test_witness_EndMarkerEndsTheLoop : StreamInv endMarker ∧ sinkAccepts endMarker = true ∧ endMarker.expectedLength.toInt < 0 ∧
    ∃ u, fetchSymbol endMarker = .ok (.eos 2) u := 
  ⟨test_endMarker_streamInv, by decide, by decide, test_witness_SymbolIsItsRow.2⟩
theorem test_failingSink_streamInv : StreamInv { stream with expectedLength := 2#64, sinkAnswers := [.failure] } :=
  streamInv_of _ (inv_of _ (coderOk_of _ (by decide)) (propertiesOk_of _ (by decide)) (by decide)) (by decide)
theorem test_witness_FinalFlushCanFail : { stream with sinkAnswers := [.failure] }.sinkAnswers = .failure :: [] ∧ stream.watermark.toNat < stream.writeCursor.toNat ∧
    (2#64 : DWord).toInt ≤ (stream.position.toNat : Int) := by decide
theorem test_witness_StreamFailureEndsTheLoop : ∃ u, fetchSymbol { stream with range := 0x01000000#32, source := [] } = .raise .streamTruncated u := 
  raises_raise (by decide)
theorem test_witness_StreamFailureEndsTheLoop_io : ∃ u, fetchSymbol { stream with range := 0x01000000#32, source := [.failure] } = .raise .ioError u := 
  raises_raise (by decide)
theorem test_witness_OperationsCompleteOrFail : ∃ t, isCommand .inByte = false ∧ exec .inByte stream = .next t := by
  obtain ⟨t, ht, -⟩ := after_next (o := exec .inByte stream) (p := fun _ => true) (by decide)
  exact ⟨t, rfl, ht⟩
theorem test_witness_PortsAreMonotone : ∃ t, step stream = .next t := by
  obtain ⟨t, ht, -⟩ := after_next (o := step stream) (p := fun _ => true) (by decide)
  exact ⟨t, ht⟩
theorem test_witness_InvKeptByEveryStep : Inv stream ∧ ∃ t, step stream = .next t := ⟨test_stream_streamInv.inv, test_witness_PortsAreMonotone⟩
theorem test_witness_DecodeBeginsASoundStream : Inv (ready [0#8, 0#8, 0#8, 0#8, 0#8]) ∧
    ∃ t, exec (.cmdDecode (-1#64)) (ready [0#8, 0#8, 0#8, 0#8, 0#8]) = .next t ∧ t.phase = .decoding := by
  obtain ⟨t, ht, hp⟩ := after_next (o := exec (.cmdDecode (-1#64)) (ready [0#8, 0#8, 0#8, 0#8, 0#8]))
    (p := fun t => decide (t.phase = .decoding)) (by decide)
  exact ⟨inv_of _ (coderOk_of _ (by decide)) (propertiesOk_of _ (by decide)) (by decide), t, ht, of_decide_eq_true hp⟩
theorem test_witness_SoundStreamsNeverFault : StreamInv matched ∧ StreamInv lastPlace ∧ stream.position.toNat + 273 < 2 ^ 64 := 
  ⟨test_matched_streamInv, test_lastPlace_streamInv, by decide⟩
theorem test_witness_SinkReceivesTheOutput : ∃ t, stream.sink.length + (stream.writeCursor.toNat - stream.watermark.toNat) = 0 + stream.position.toNat ∧ step stream = .next t := by
  obtain ⟨t, ht⟩ := test_witness_PortsAreMonotone
  exact ⟨t, by decide, ht⟩
theorem test_witness_SinkReceivesTheOutput_goes_on : ∃ t, step stream = .next t ∧ t.phase = .decoding := by
  obtain ⟨t, ht, hp⟩ := after_next (o := step stream) (p := fun t => decide (t.phase = .decoding)) (by decide)
  exact ⟨t, ht, of_decide_eq_true hp⟩
theorem test_witness_SinkReceivesTheOutput_ends : ∃ t, step { stream with expectedLength := 2#64 } = .next t ∧ t.phase = .done := by
  obtain ⟨t, ht, hp⟩ := after_next (o := step { stream with expectedLength := 2#64 }) (p := fun t => decide (t.phase = .done)) (by decide)
  exact ⟨t, ht, of_decide_eq_true hp⟩
theorem test_witness_InByteTakesTheNextByte : ∃ b rest, stream.source = SourceAnswer.byte b :: rest := ⟨0#8, List.replicate 63 (.byte 0#8), by decide⟩
theorem test_witness_RcInitLoadsTheCode : supplies 4 ([.byte 1#8, .byte 2#8, .byte 3#8, .byte 4#8] : List SourceAnswer) = true ∧ supplies 4
    ([.byte 1#8, .byte 2#8, .byte 3#8, .byte 4#8, .failure] : List SourceAnswer) = true ∧
    ([.byte 1#8, .byte 2#8, .byte 3#8, .byte 4#8, .failure] : List SourceAnswer).drop 4 = .failure :: [] := by decide
theorem test_witness_RcNormalizeLoops : 2 ^ 24 ≤ (0x01000000#32 : Word).toNat ∧ (0x00FFFFFF#32 : Word).toNat < 2 ^ 24 := by decide
theorem test_witness_AdaptationLaw : 31 ≤ (31#11 : Slot).toNat ∧ (2017#11 : Slot).toNat ≤ 2017 := by decide
/-- The largest code that gives 0 and the smallest that gives 1 (V-B2, V-B3), on the last slot of a group. -/
theorem test_witness_RcBitDecodes : CoderOk { stream with code := 0x7FFFFBFF#32 } ∧ 11 < groupSize stream .isRep ∧
    (0x7FFFFBFF#32 : Word).toNat < stream.range.toNat / 2048 * 1024 ∧ stream.range.toNat / 2048 * 1024 ≤ (0x7FFFFC00#32 : Word).toNat := 
  ⟨coderOk_of _ (by decide), by decide⟩
theorem test_witness_RcBitDecodes_normalizes : CoderOk { stream with range := 0x01000000#32 } ∧ (0x01000000 : Nat) / 2048 * 1024 < 2 ^ 24 ∧ supplies 1 stream.source = true := 
  ⟨coderOk_of _ (by decide), by decide⟩
theorem test_witness_RangeInvariant : CoderOk stream ∧ 47 < groupSize stream .isMatch ∧ supplies 64 stream.source = true ∧ groupSize stream .isMatch ≤ 48 := 
  ⟨test_stream_coderOk, by decide⟩
theorem test_witness_RcDirectDecodes : CoderOk stream ∧ 31 + 1 ≤ 32 ∧ after (exec (.rcDirect 31) stream) (fun t => t.result.isSome) = true ∧
    after (exec (.rcDirect 31) { stream with source := [] }) (fun t => t.result.isNone) = true := 
  ⟨test_stream_coderOk, by decide⟩
theorem test_witness_BtDecodeWalks : CoderOk stream ∧ (-1 : Int) + 2 ^ (0 + 1) ≤ (groupSize stream .posDec : Int) ∧
    (0 : Int) + 2 ^ (7 + 1) ≤ (groupSize stream .mlenHigh : Int) ∧ supplies (7 + 1) stream.source = true := 
  ⟨test_stream_coderOk, by decide⟩
theorem test_witness_BtReverseMirrors : CoderOk stream ∧ (82 : Int) + 2 ^ 5 ≤ (groupSize stream .posDec : Int) ∧ supplies 5 stream.source = true := 
  ⟨test_stream_coderOk, by decide⟩
theorem test_witness_LenDecodeChooses : CoderOk stream ∧ 3 < 2 ^ stream.pb.toNat ∧ supplies 10 stream.source = true ∧
    after (exec (.rcBit .mlenChoice 0) stream) (fun t => t.result == some 0) = true ∧
    after (exec (.rcBit .mlenChoice 0) { stream with code := 0xFFFFFFFF#32 }) (fun t => t.result == some 1) = true := 
  ⟨test_stream_coderOk, by decide⟩
theorem test_witness_LengthRows : PropertiesOk stream ∧ CoderOk stream ∧ supplies 10 stream.source = true ∧ lenRowInst (.lenHigh .rlen 255#8) = some .rlen ∧ lenRowValue (.lenHigh .rlen 255#8) = some 273 ∧
    lenRowValue (.lenLow .mlen 0#3) = some 2 ∧ lenRowValue (.lenMid .mlen 7#3) = some 17 := 
  ⟨test_stream_propertiesOk, test_stream_coderOk, by decide⟩
theorem test_witness_LitSelects : PropertiesOk stream ∧ PropertiesOk { stream with lc := 8#4, lp := 4#3, literalPosMask := 15#4 } := 
  ⟨test_stream_propertiesOk, propertiesOk_of _ (by decide)⟩
theorem test_witness_LitNormalIsATree : CoderOk stream ∧ 7 * 0x300 + 0x300 ≤ groupSize stream .lit ∧ supplies 8 stream.source = true := ⟨test_stream_coderOk, by decide⟩
theorem test_witness_LitMatchedSlots : CoderOk stream ∧ 7 * 0x300 + 0x300 ≤ groupSize stream .lit ∧ supplies 8 stream.source = true := ⟨test_stream_coderOk, by decide⟩
theorem test_witness_LitMatchedSlots_example : [matchedSlot 1536 0x30 0 0, matchedSlot 1536 0x30 1 0, matchedSlot 1536 0x30 2 0, matchedSlot 1536 0x30 3 1,
    matchedSlot 1536 0x30 4 2, matchedSlot 1536 0x30 5 4, matchedSlot 1536 0x30 6 8, matchedSlot 1536 0x30 7 16] =
    [1793, 1794, 2052, 2057, 1554, 1572, 1608, 1680] := by decide
theorem test_witness_WinPutStores : (4094#32 : Word).toNat + 1 < stream.windowSize.toNat ∧ lastPlace.writeCursor.toNat + 1 = lastPlace.windowSize.toNat ∧
    lastPlace.watermark.toNat ≤ lastPlace.writeCursor.toNat ∧ (Cells.find lastPlace.mem.win 4094).isSome = true ∧ sinkAccepts lastPlace = true := by decide
theorem test_witness_WinGetReads : (1#32 : Word).toNat < stream.position.toNat ∧ ¬ (2#32 : Word).toNat < stream.position.toNat ∧
    Cells.find stream.mem.win (if (1#32 : Word).toNat < stream.writeCursor.toNat then stream.writeCursor.toNat - (1#32 : Word).toNat - 1
      else stream.windowSize.toNat + stream.writeCursor.toNat - (1#32 : Word).toNat - 1) = some 0x41#8 := by decide
theorem test_witness_WinGetReads_wraps : Cells.find lastPlace.mem.win (lastPlace.windowSize.toNat + (1#32 : Word).toNat - (3#32 : Word).toNat - 1) = some 0x41#8 := by decide
theorem test_witness_WinCopyIsByteSerial : ∃ u, winGet 1#32 lastPlace = .ok 0x41#8 lastPlace ∧ winPut 0x41#8 lastPlace = .ok () u := by
  obtain ⟨b, t, h, hb⟩ := yields_ok (r := winGet 1#32 lastPlace) (p := fun b t => decide (b = 0x41#8 ∧ t = lastPlace)) (by decide)
  obtain ⟨rfl, rfl⟩ := of_decide_eq_true hb
  obtain ⟨_, u, hu, -⟩ := yields_ok (r := winPut 0x41#8 lastPlace) (p := fun _ _ => true) (by decide)
  exact ⟨u, h, hu⟩
theorem test_witness_WinCopyIsByteSerial_fails : ∃ u, winPut 0x41#8 { lastPlace with sinkAnswers := [.failure] } = .raise .ioError u := 
  raises_raise (by decide)
theorem test_witness_WinCopyIsByteSerial_stops : ∃ f g, winGet 1#32 { stream with mem := Memory.streamStart } = .fault f ∧
    winPut 0x41#8 { stream with writeCursor := 4096#32, watermark := 4096#32 } = .fault g ∧
    (1#32 : Word).toNat < stream.position.toNat := ⟨.windowUnwritten, .windowIndexOutside, by rfl, by rfl, by decide⟩
theorem test_witness_CopiesArePeriodic : StreamInv lastPlace ∧ (1#32 : Word).toNat < lastPlace.position.toNat ∧ 273 ≤ 273 ∧ sinkAccepts lastPlace = true := ⟨test_lastPlace_streamInv, by decide⟩
theorem test_witness_WinFlushDelivers : stream.watermark.toNat < stream.writeCursor.toNat ∧ (Cells.find stream.mem.win 0).isSome = true ∧
    (Cells.find stream.mem.win 1).isSome = true ∧ { stream with watermark := 2#32 }.watermark = stream.writeCursor := by decide
theorem test_witness_SinkWriteAppends : sinkAccepts stream = true ∧ { stream with sinkAnswers := [.failure] }.sinkAnswers = .failure :: [] := by decide
theorem test_witness_DistanceRows : CoderOk stream ∧ supplies 36 stream.source = true ∧ distRowValue (.distSlot0 0) = some 0 ∧
    distRowValue (.distSlot63 3 0x3FFFFFF#26 15#4) = some 0xFFFFFFFF := ⟨test_stream_coderOk, by decide⟩
theorem test_witness_DistDecodeIsARow : CoderOk stream ∧ supplies 36 stream.source = true := ⟨test_stream_coderOk, by decide⟩
theorem test_witness_DistDecodeIsARow_clauses : CoderOk { stream with code := 0x0C000000#32 } ∧
    after (exec (.btDecode .posSlot 0 6) { stream with code := 0x0C000000#32 }) (fun t => t.result == some 3) = true ∧
    after (exec (.btDecode .posSlot 0 6) { stream with code := 0x10000000#32 }) (fun t => t.result == some 4) = true ∧
    after (exec (.btDecode .posSlot 0 6) { stream with code := 0x34000000#32 }) (fun t => t.result == some 13) = true ∧
    after (exec (.btDecode .posSlot 0 6) { stream with code := 0x38000000#32 }) (fun t => t.result == some 14) = true := 
  ⟨coderOk_of _ (by decide), by decide⟩
theorem test_witness_RowsTakeTheirBits : (Symbol.eos 273).toInstr.wf = true ∧ (Instr.lenMid .rlen 7#3).wf = true ∧
    encode (.lenMid .rlen 7#3) = some (.len .rlen, [true, false, true, true, true]) ∧ lenRowValue (.lenMid .rlen 7#3) = some 17 ∧
    encode (.distSlot4 2 1#1) = some (.dist 2, [false, false, false, true, false, false, true]) ∧ distRowValue (.distSlot4 2 1#1) = some 5 := by decide
theorem test_witness_RowsTakeTheirBits_literal : PropertiesOk stream ∧ IsMatchByte stream none ∧ IsMatchByte matched (some 0x41#8) := by
  refine ⟨test_stream_propertiesOk, rfl, 0x41#8, rfl, ?_⟩
  obtain ⟨t, ht, he⟩ := after_next (o := exec (.winGet matched.rep0) matched) (p := fun t => decide (t = { matched with result := some 0x41 })) (by decide)
  rw [ht, of_decide_eq_true he]; rfl
theorem test_witness_RangeCheck : (1#32 : Word).toNat < stream.position.toNat ∧ (1#32 : Word).toNat < stream.dictionarySizeCheck.toNat ∧
    stream.position.toNat ≤ (2#32 : Word).toNat := by decide
theorem test_witness_RangeCheck_symbol : Ready stream ∧ (Symbol.matchNew 2 2#32).toInstr.wf = true ∧ copyDistance stream (.matchNew 2 2#32) = some 2#32 ∧
    stream.position.toNat ≤ (2#32 : Word).toNat := ⟨test_stream_ready, by decide⟩
theorem test_copyFails_streamInv : StreamInv { lastPlace with rep0 := 1#32, sinkAnswers := [.failure] } :=
  streamInv_of _ (inv_of _ (coderOk_of _ (by decide)) (propertiesOk_of _ (by decide)) (by decide)) (by decide)
theorem test_wildRep_streamInv : StreamInv { stream with rep0 := 2#32 } :=
  streamInv_of _ (inv_of _ (coderOk_of _ (by decide)) (propertiesOk_of _ (by decide)) (by decide)) (by decide)
theorem test_witness_CopyTail : matched.rep0.toNat < matched.position.toNat ∧ matched.rep0.toNat < matched.dictionarySizeCheck.toNat ∧
    lastPlace.windowSize.toNat ≤ lastPlace.writeCursor.toNat + 1 ∧ matched.writeCursor.toNat + 273 < matched.windowSize.toNat ∧
    stream.position.toNat ≤ (2#32 : Word).toNat := by decide
theorem test_witness_LiteralEmits : Ready stream ∧ Ready matched ∧ Ready lastPlace := ⟨test_stream_ready, test_matched_ready, test_lastPlace_ready⟩
theorem test_witness_MatchCopies : Ready lastPlace ∧ (1#32 : Word).toNat < lastPlace.position.toNat ∧ (1#32 : Word).toNat < lastPlace.dictionarySizeCheck.toNat := ⟨test_lastPlace_ready, by decide⟩
theorem test_witness_EndMarkerStops : Ready matched ∧ 2 ≤ 273 ∧ 273 ≤ 273 := ⟨test_matched_ready, by decide⟩
theorem test_witness_RepSymbolsCopy : Ready matched ∧ matched.rep0.toNat < matched.position.toNat ∧ matched.rep1.toNat < matched.position.toNat ∧
    matched.rep2.toNat < matched.position.toNat ∧ matched.rep3.toNat < matched.position.toNat ∧
    matched.rep0.toNat < matched.dictionarySizeCheck.toNat ∧ matched.rep1.toNat < matched.dictionarySizeCheck.toNat ∧
    matched.rep2.toNat < matched.dictionarySizeCheck.toNat ∧ matched.rep3.toNat < matched.dictionarySizeCheck.toNat := ⟨test_matched_ready, by decide⟩
theorem test_witness_SymbolsCompleteOrFail : StreamInv matched ∧ (Symbol.longrep3 273).toInstr.wf = true ∧ matched.position.toNat + 273 < 2 ^ 64 := ⟨test_matched_streamInv, by decide⟩
theorem test_witness_AutomatonTables : (11#4 : BitVec 4).toNat < 12 := by decide
theorem test_witness_DecodeEncode : (Instr.matchNew 273 0xFFFFFFFE#32).wf = true ∧ (encode (.matchNew 273 0xFFFFFFFE#32)).isSome = true := by decide
theorem test_witness_EncodeDecode : decode (.len .mlen) [false, true, true, false, true] = .ok (.lenLow .mlen 6#3, [true]) := by decide
theorem test_witness_EveryDecisionStringIsLegal : 48 ≤ (List.replicate 48 true).length ∧ 10 ≤ (List.replicate 10 false).length ∧ 36 ≤ (List.replicate 36 true).length := by decide
theorem test_witness_StatusCodes : State.reset.phase ≠ .decoding ∧ ([0x5D#8, 0#8, 0#8, 0#8] : List Byte).length < 5 ∧ State.reset.source = [] ∧
    stream.position.toNat ≤ (2#32 : Word).toNat ∧ { stream with source := [.failure] }.source.head? = some SourceAnswer.failure ∧
    { stream with sinkAnswers := [.failure] }.sinkAnswers.head? = some SinkAnswer.failure := by decide

end Sys2Proof.Tests
end

section
/-! SUPPORT. The life of the state: what every instruction but the commands leaves alone and keeps, said once for all of them
(`Operation`, `exec_settles`), and from it that every step keeps the invariant. -/

namespace Sys2Proof.Machine

/-! ### What an operation writes -/

/-- `t` differs from `s` only in what an operation that completes may write: neither the property registers and what is derived from
them, nor `expectedLength`, `phase` and `status` (`10_state.md` R27, R28, `60_exceptions.md` R265), nor what has been issued. -/
structure OperationFrame (s t : State) : Prop where
  rest : t = { s with
    range := t.range, code := t.code, state := t.state, rep0 := t.rep0, rep1 := t.rep1, rep2 := t.rep2, rep3 := t.rep3
    position := t.position, prevByte := t.prevByte, ipos := t.ipos, mem := t.mem
    writeCursor := t.writeCursor, watermark := t.watermark
    source := t.source, sink := t.sink, sinkAnswers := t.sinkAnswers, result := t.result }
  source : t.source <:+ s.source
  sink : s.sink <+: t.sink

theorem OperationFrame.refl (s : State) : OperationFrame s s := ⟨rfl, List.suffix_refl _, List.prefix_refl _⟩

theorem OperationFrame.trans {s t u : State} (h : OperationFrame s t) (h' : OperationFrame t u) : OperationFrame s u where
  rest := by
    rw [h'.rest]
    conv_lhs => rw [h.rest]
  source := h'.source.trans h.source
  sink := h.sink.trans h'.sink

theorem CoderFrame.operationFrame {gs : List ProbGroup} {s t : State} (h : CoderFrame gs s t) : OperationFrame s t where
  rest := by rw [h.rest]
  source := h.source
  sink := h.ports.sink

theorem WinFrame.operationFrame {s t : State} (h : WinFrame s t) : OperationFrame s t where
  rest := by rw [h.rest]
  source := h.ports.source
  sink := h.sink

theorem OperationFrame.ports {s t : State} (h : OperationFrame s t) : Ports s t where
  issued := by rw [h.rest]
  resetInput := by rw [h.rest]
  freeCount := by rw [h.rest]
  source := h.source
  sink := h.sink

theorem OperationFrame.phase {s t : State} (h : OperationFrame s t) : t.phase = s.phase := by rw [h.rest]

theorem OperationFrame.status {s t : State} (h : OperationFrame s t) : t.status = s.status := by rw [h.rest]

/-- Legal properties stay legal in every state with the same property registers; where they are the same by computation, nothing is
left to show. -/
theorem PropertiesOk.congr {s t : State} (h : PropertiesOk s) (hlc : t.lc = s.lc := by rfl) (hlp : t.lp = s.lp := by rfl)
    (hpb : t.pb = s.pb := by rfl) (hds : t.dictionarySize = s.dictionarySize := by rfl)
    (hpm : t.posStateMask = s.posStateMask := by rfl) (hlm : t.literalPosMask = s.literalPosMask := by rfl)
    (hdc : t.dictionarySizeCheck = s.dictionarySizeCheck := by rfl) (hws : t.windowSize = s.windowSize := by rfl) :
    PropertiesOk t where
  lc := hlc ▸ h.lc
  lp := hlp ▸ h.lp
  pb := hpb ▸ h.pb
  dictionarySize := hds ▸ h.dictionarySize
  posStateMask := hpm ▸ hpb ▸ h.posStateMask
  literalPosMask := hlm ▸ hlp ▸ h.literalPosMask
  dictionarySizeCheck := hdc ▸ hds ▸ h.dictionarySizeCheck
  windowSize := hws ▸ hdc ▸ h.windowSize

theorem OperationFrame.propertiesOk {s t : State} (h : OperationFrame s t) (hp : PropertiesOk s) : PropertiesOk t := by
  rw [h.rest]
  exact hp.congr

/-! ### What an operation keeps -/

/-- What `Inv` says of a state that is DECODING, its phase apart: the bounds of the coder, of the automaton (`45_symbols.md` R225) and
of the cursors (`44_output_window.md` R190). -/
structure Running (s : State) : Prop where
  coder : CoderOk s
  automaton : s.state.toNat < 12
  ordered : s.watermark.toNat ≤ s.writeCursor.toNat
  inside : s.writeCursor.toNat < s.windowSize.toNat

/-- An operation has led from `s` to `t`: what it left alone, and what it kept. -/
structure OperationStep (s t : State) : Prop where
  frame : OperationFrame s t
  memory : s.mem.wf = true → t.mem.wf = true
  running : Running s → Running t

theorem OperationStep.refl (s : State) : OperationStep s s := ⟨OperationFrame.refl s, id, id⟩

theorem OperationStep.trans {s t u : State} (h : OperationStep s t) (h' : OperationStep t u) : OperationStep s u :=
  ⟨h.frame.trans h'.frame, h'.memory ∘ h.memory, h'.running ∘ h.running⟩

theorem OperationStep.setResult (s : State) (v : Option Nat) : OperationStep s { s with result := v } where
  frame := ⟨rfl, List.suffix_refl _, List.prefix_refl _⟩
  memory := id
  running h := ⟨h.coder.same rfl rfl, h.automaton, h.ordered, h.inside⟩

/-- The coder registers of a symbol are written, the automaton with a state it may have. -/
theorem OperationStep.registers (s : State) {st : BitVec 4} (r0 r1 r2 r3 : Word) (p : DWord) (b : Byte)
    (hst : s.state.toNat < 12 → st.toNat < 12) :
    OperationStep s { s with state := st, rep0 := r0, rep1 := r1, rep2 := r2, rep3 := r3, position := p, prevByte := b } where
  frame := ⟨rfl, List.suffix_refl _, List.prefix_refl _⟩
  memory := id
  running h := ⟨h.coder.same rfl rfl, hst h.automaton, h.ordered, h.inside⟩

/-- `r`, begun in `s`, completes as an operation may, or raises a failure that is not `FormatError` with the ports as it left them
(`60_exceptions.md` R261, R267). -/
structure Operation {α : Type} (s : State) (r : Res α) : Prop where
  post : r.Post (fun _ t => OperationStep s t) fun k t => Ports s t ∧ k ≠ .formatError

section
variable {α β : Type} {s : State}

theorem Operation.ok (a : α) : Operation s (.ok a s) := ⟨OperationStep.refl s⟩

theorem Operation.raise {k : FailureKind} (h : k ≠ .formatError) : Operation s (.raise k s : Res α) := ⟨Ports.refl s, h⟩

theorem Operation.fault (e : Fault) : Operation s (.fault e : Res α) := ⟨trivial⟩

theorem Operation.after {t : State} {r : Res α} (h : OperationStep s t) (hr : Operation t r) : Operation s r :=
  ⟨hr.post.imp (fun _ _ h' => h.trans h') fun _ _ h' => ⟨h.frame.ports.trans h'.1, h'.2⟩⟩

theorem Operation.bind {r : Res α} {f : α → State → Res β} (h : Operation s r) (hf : ∀ a t, Operation t (f a t)) :
    Operation s (r.bind f) :=
  ⟨h.post.bind fun a t ht => (Operation.after ht (hf a t)).post⟩

theorem Operation.map {r : Res α} {f : α → β} (h : Operation s r) : Operation s (r.map f) :=
  ⟨Res.Post.map (P := fun _ t => OperationStep s t) h.post⟩

/-- The range coder's operations are operations: their frame and what they keep are known. -/
theorem CoderOp.operation {gs : List ProbGroup} {r : Res α} (hf : CoderOp gs s r) (hk : Keeps s r) : Operation s r := by
  obtain ⟨hf⟩ := hf
  obtain ⟨hk⟩ := hk
  cases r with
  | ok a t =>
    obtain ⟨hmem, hcoder⟩ := hk
    obtain ⟨hst, -, -, -, -, -, -, -, -, -, -, -, -, -, hws, -, -, -, hwc, hwm, -⟩ := CoderFrame.fields hf
    exact ⟨CoderFrame.operationFrame hf, hmem, fun h =>
      ⟨hcoder h.coder, hst ▸ h.automaton, hwm ▸ hwc ▸ h.ordered, hwc ▸ hws ▸ h.inside⟩⟩
  | raise k t =>
    obtain ⟨hframe, hkind⟩ := hf
    exact ⟨hframe.ports, by rcases hkind with rfl | rfl <;> decide⟩
  | fault e => exact Operation.fault e

/-- An operation of the window that keeps the cursors' bounds is an operation. -/
theorem WinOp.operation {r : Res α} (h : WinOp s r)
    (hc : ∀ a t, r = .ok a t → s.watermark.toNat ≤ s.writeCursor.toNat → s.writeCursor.toNat < s.windowSize.toNat →
      t.watermark.toNat ≤ t.writeCursor.toNat ∧ t.writeCursor.toNat < t.windowSize.toNat) : Operation s r := by
  have hk := h.keeps
  obtain ⟨h⟩ := h
  cases r with
  | ok a t =>
    obtain ⟨hframe, hmem⟩ := h
    obtain ⟨-, -, hst, -⟩ := hframe.fields
    refine ⟨hframe.operationFrame, hmem, fun hr => ?_⟩
    obtain ⟨hordered, hinside⟩ := hc a t rfl hr.ordered hr.inside
    exact ⟨(hk.of_ok rfl).2 hr.coder, hst ▸ hr.automaton, hordered, hinside⟩
  | raise k t =>
    obtain ⟨hframe, rfl⟩ := h
    exact ⟨hframe.ports, by decide⟩
  | fault e => exact Operation.fault e

end

/-! ### The range coder, the trees, the lengths and the literals -/

theorem rcBit_operation (g : ProbGroup) (i : Int) (s : State) : Operation s (rcBit g i s) :=
  (rcBit_frame (List.mem_singleton_self g) i s).operation (rcBit_keeps g i s)

theorem btDecode_operation (g : ProbGroup) (base : Int) (d : Nat) (s : State) : Operation s (btDecode g base d s) :=
  (btDecode_frame (List.mem_singleton_self g) base d s).operation (btDecode_keeps g base d s)

theorem btReverse_operation (g : ProbGroup) (base : Int) (d : Nat) (s : State) : Operation s (btReverse g base d s) :=
  (btReverse_frame (List.mem_singleton_self g) base d s).operation (btReverse_keeps g base d s)

theorem lenDecode_operation (x : LenInst) (ps : Nat) (s : State) : Operation s (lenDecode x ps s) :=
  (lenDecode_frame x (List.Subset.refl _) ps s).operation (lenDecode_keeps x ps s)

theorem distDecode_operation (len : Nat) (s : State) : Operation s (distDecode len s) :=
  (distDecode_frame (List.Subset.refl _) len s).operation (distDecode_keeps len s)

theorem litNormal_operation (base : Nat) (s : State) : Operation s (litNormal base s) :=
  (litNormal_frame (List.mem_singleton_self _) base s).operation (litNormal_keeps base s)

theorem litMatched_operation (base : Nat) (mb : Byte) (s : State) : Operation s (litMatched base mb s) :=
  (litMatched_frame (List.mem_singleton_self _) base mb s).operation (litMatched_keeps base mb s)

theorem takeBit_operation (d : Decision) (s : State) : Operation s (takeBit d s) := by
  obtain ⟨src, bit⟩ := d
  cases src with
  | slot g i => exact (takeSlotBit_frame (List.mem_singleton_self g) i bit s).operation (takeSlotBit_keeps g i bit s)
  | direct => exact (takeDirectBit_frame [] bit s).operation (takeDirectBit_keeps bit s)

theorem takeBits_operation (ds : List Decision) (s : State) : Operation s (takeBits ds s) := by
  induction ds generalizing s with
  | nil => exact Operation.ok ()
  | cons d ds ih => exact (takeBit_operation d s).bind fun _ t => ih t

/-! ### The window and its cursors (`44_output_window.md` R190) -/

theorem winRead_state {a : Nat} {s t : State} {b : Byte} (h : winRead a s = .ok b t) : t = s := by
  unfold winRead at h
  split at h
  · split at h <;> cases h
    rfl
  · cases h

theorem winGet_state {d : Word} {s t : State} {b : Byte} (h : winGet d s = .ok b t) : t = s := by
  unfold winGet at h
  split at h
  · exact winRead_state h
  · cases h

theorem winRegion_state {n a : Nat} {s t : State} {bs : List Byte} (h : winRegion n a s = .ok bs t) : t = s := by
  induction n generalizing a bs s with
  | zero => cases h; rfl
  | succ n ih =>
    obtain ⟨b, u, hread, hrest⟩ := Res.bind_eq_ok.1 h
    obtain ⟨bs', hregion, -⟩ := Res.map_eq_ok.1 hrest
    exact (ih hregion).trans (winRead_state hread)

theorem sinkWrite_cursors {bytes : List Byte} {s t : State} (h : sinkWrite bytes s = .ok () t) :
    t.writeCursor = s.writeCursor ∧ t.watermark = s.watermark ∧ t.windowSize = s.windowSize := by
  unfold sinkWrite at h
  split at h <;> cases h <;> exact ⟨rfl, rfl, rfl⟩

/-- `WIN_FLUSH` leaves nothing unflushed and takes a cursor at the window's end back to 0 (R186). -/
theorem winFlush_cursors {s t : State} (h : winFlush s = .ok () t) (hpos : 0 < s.windowSize.toNat)
    (hle : s.writeCursor.toNat ≤ s.windowSize.toNat) :
    t.watermark.toNat ≤ t.writeCursor.toNat ∧ t.writeCursor.toNat < t.windowSize.toNat := by
  obtain ⟨⟨⟩, u, hwrite, hend⟩ := Res.bind_eq_ok.1 h
  have hu : u.writeCursor = s.writeCursor ∧ u.windowSize = s.windowSize := by
    split at hwrite
    · obtain ⟨bytes, v, hregion, hsink⟩ := Res.bind_eq_ok.1 hwrite
      obtain rfl := winRegion_state hregion
      obtain ⟨hwc, -, hws⟩ := sinkWrite_cursors hsink
      exact ⟨hwc, hws⟩
    · cases hwrite
      exact ⟨rfl, rfl⟩
  obtain ⟨hwc, hws⟩ := hu
  cases hend
  refine ⟨le_refl _, ?_⟩
  simp only [hwc, hws]
  split
  · exact hpos
  · next hne => exact lt_of_le_of_ne hle fun he => hne (BitVec.eq_of_toNat_eq he)

theorem winPut_cursors {b : Byte} {s t : State} (h : winPut b s = .ok () t)
    (ho : s.watermark.toNat ≤ s.writeCursor.toNat) (hi : s.writeCursor.toNat < s.windowSize.toNat) :
    t.watermark.toNat ≤ t.writeCursor.toNat ∧ t.writeCursor.toNat < t.windowSize.toNat := by
  have hsucc := succ_toNat hi
  unfold winPut at h
  rw [if_pos (BitVec.lt_def.2 hi)] at h
  simp only at h
  split at h
  · exact winFlush_cursors h (by simp only; omega) (by simp only [hsucc]; omega)
  · next hne =>
    cases h
    simp only [hsucc]
    have hne' : s.writeCursor.toNat + 1 ≠ s.windowSize.toNat := fun he => hne (BitVec.eq_of_toNat_eq (hsucc.trans he))
    omega

theorem winRead_operation (a : Nat) (s : State) : Operation s (winRead a s) :=
  (winRead_frame a s).operation fun _ _ h ho hi => by rw [winRead_state h]; exact ⟨ho, hi⟩

theorem winGet_operation (d : Word) (s : State) : Operation s (winGet d s) :=
  (winGet_frame d s).operation fun _ _ h ho hi => by rw [winGet_state h]; exact ⟨ho, hi⟩

theorem sinkWrite_operation (bytes : List Byte) (s : State) : Operation s (sinkWrite bytes s) :=
  (sinkWrite_frame bytes s).operation fun _ _ h ho hi => by
    obtain ⟨hwc, hwm, hws⟩ := sinkWrite_cursors h
    rw [hwc, hwm, hws]
    exact ⟨ho, hi⟩

theorem winFlush_operation (s : State) : Operation s (winFlush s) :=
  (winFlush_frame s).operation fun _ _ h _ hi => winFlush_cursors h (by omega) hi.le

theorem winPut_operation (b : Byte) (s : State) : Operation s (winPut b s) :=
  (winPut_frame b s).operation fun _ _ h ho hi => winPut_cursors h ho hi

theorem copyLoop_operation (n pos : Nat) (s : State) : Operation s (copyLoop n pos s) := by
  induction n generalizing pos s with
  | zero => exact Operation.ok ()
  | succ n ih => exact (winRead_operation pos s).bind fun b t => (winPut_operation b t).bind fun _ u => ih _ u

theorem winCopy_operation (d : Word) (len : Nat) (s : State) : Operation s (winCopy d len s) := by
  unfold winCopy
  split
  · exact copyLoop_operation _ _ s
  · exact Operation.fault _

/-! ### Symbols (`45_symbols.md`) -/

theorem rangeCheck_operation (d : Word) (s : State) : Operation s (rangeCheck d s) := by
  unfold rangeCheck
  split
  · exact Operation.ok ()
  · exact Operation.raise (by decide)

theorem advance_operation (n : Nat) (s : State) : Operation s (advance n s) := by
  unfold advance
  split
  · exact Operation.after (OperationStep.registers s s.rep0 s.rep1 s.rep2 s.rep3 _ s.prevByte id) (Operation.ok ())
  · exact Operation.fault _

theorem copyTail_operation (len : Nat) (s : State) : Operation s (copyTail len s) :=
  (rangeCheck_operation _ s).bind fun _ s1 => (winCopy_operation _ len s1).bind fun _ s2 =>
    (advance_operation len s2).bind fun _ s3 => (winGet_operation _ s3).bind fun b s4 =>
      Operation.after (OperationStep.registers s4 s4.rep0 s4.rep1 s4.rep2 s4.rep3 s4.position b id) (Operation.ok ())

theorem litEffect_operation (b : Byte) (s : State) : Operation s (litEffect b s) :=
  (winPut_operation b s).bind fun _ t =>
    Operation.after (OperationStep.registers t t.rep0 t.rep1 t.rep2 t.rep3 t.position b fun h => by
      have := afterLiteral_lt t.state h; omega) (advance_operation 1 _)

/-- A copying symbol sets the history and the automaton and copies. -/
theorem copyTail_afterRegisters (len : Nat) (s : State) {st : BitVec 4} (r0 r1 r2 r3 : Word)
    (hst : s.state.toNat < 12 → st.toNat < 12) :
    Operation s (copyTail len { s with state := st, rep0 := r0, rep1 := r1, rep2 := r2, rep3 := r3 }) :=
  Operation.after (OperationStep.registers s r0 r1 r2 r3 s.position s.prevByte hst) (copyTail_operation len _)

theorem matchEffect_operation (len : Nat) (dist : Word) (s : State) : Operation s (matchEffect len dist s) := by
  by_cases h : dist = eosDistance
  · subst h
    rw [matchEffect_eos]
    exact Operation.after (OperationStep.registers s eosDistance s.rep0 s.rep1 s.rep2 s.position s.prevByte id) (Operation.ok true)
  · rw [matchEffect_copy h]
    exact (copyTail_afterRegisters len s dist s.rep0 s.rep1 s.rep2 fun hs => (afterMatch_range s.state hs).2).map

theorem symbolEffect_operation (y : Symbol) (s : State) : Operation s (symbolEffect y s) := by
  have hrep := fun hs => (afterRep_range s.state hs).2
  cases y with
  | lit b => exact (litEffect_operation b s).map
  | matchNew len dist => exact matchEffect_operation len dist s
  | eos len => exact matchEffect_operation len eosDistance s
  | shortrep =>
    exact (copyTail_afterRegisters 1 s s.rep0 s.rep1 s.rep2 s.rep3 fun hs => (afterShortRep_range s.state hs).2).map
  | longrep0 len => exact (copyTail_afterRegisters len s s.rep0 s.rep1 s.rep2 s.rep3 hrep).map
  | longrep1 len => exact (copyTail_afterRegisters len s s.rep1 s.rep0 s.rep2 s.rep3 hrep).map
  | longrep2 len => exact (copyTail_afterRegisters len s s.rep2 s.rep0 s.rep1 s.rep3 hrep).map
  | longrep3 len => exact (copyTail_afterRegisters len s s.rep3 s.rep0 s.rep1 s.rep2 hrep).map

theorem literalContext_operation (s : State) : Operation s (literalContext s) := by
  unfold literalContext
  split
  · exact Operation.ok none
  · exact (winGet_operation _ s).map

theorem fetchLit_operation (s : State) : Operation s (fetchLit s) := by
  refine (literalContext_operation s).bind fun mb t => ?_
  cases mb with
  | none => exact litNormal_operation _ t
  | some mb => exact litMatched_operation _ mb t

theorem fetchSymbol_operation (s : State) : Operation s (fetchSymbol s) := by
  refine (rcBit_operation _ _ s).bind fun isMatch s1 => ?_
  split
  · exact (fetchLit_operation s1).map
  refine (rcBit_operation _ _ s1).bind fun isRep s2 => ?_
  split
  · exact (lenDecode_operation _ _ s2).bind fun len s3 => (distDecode_operation len s3).map
  refine (rcBit_operation _ _ s2).bind fun isRepG0 s3 => ?_
  split
  · refine (rcBit_operation _ _ s3).bind fun isRep0Long s4 => ?_
    split
    · exact Operation.ok _
    · exact (lenDecode_operation _ _ s4).map
  refine (rcBit_operation _ _ s3).bind fun isRepG1 s4 => ?_
  split
  · exact (lenDecode_operation _ _ s4).map
  refine (rcBit_operation _ _ s4).bind fun isRepG2 s5 => ?_
  split <;> exact (lenDecode_operation _ _ s5).map

theorem symbol_operation (s : State) : Operation s (symbol s) :=
  (fetchSymbol_operation s).bind fun y t => symbolEffect_operation y t

theorem takeSymbol_operation (y : Symbol) (s : State) : Operation s (takeSymbol y s) := by
  refine Operation.bind ?_ fun mb t => (takeBits_operation _ t).bind fun _ u => symbolEffect_operation y u
  cases y with
  | lit b => exact literalContext_operation s
  | _ => exact Operation.ok none

/-! ### How an instruction that is no command ends -/

/-- Where `o`, begun in `s`, answers a next state, an operation has completed or a failure that is not `FormatError` is taken. -/
def Settles (s : State) (o : Host.Outcome State Fault Refusal) : Prop :=
  ∀ t, o = .next t → OperationStep s t ∨ ∃ k, k ≠ .formatError ∧ FailedFrom k s t

theorem Operation.finish {α : Type} {s : State} {r : Res α} (h : Operation s r) (val : α → Option Nat) :
    Settles s (r.finish val) := by
  obtain ⟨h⟩ := h
  intro t ht
  cases r with
  | ok a u =>
    cases ht
    exact .inl (OperationStep.trans h (OperationStep.setResult u _))
  | raise k u =>
    obtain ⟨hports, hk⟩ := h
    cases ht
    exact .inr ⟨k, hk, hports.failedFrom k⟩
  | fault e => cases ht

theorem takeSymbol_settles (y : Symbol) (s : State) : Settles s (finishSymbol (takeSymbol y s)) :=
  (takeSymbol_operation y s).finish _

theorem takeLen_settles (x : LenInst) (len : Nat) (s : State) : Settles s (takeLen x len s) :=
  (takeBits_operation _ s).finish _

theorem takeDist_settles (c : LenClass) (posSlot e : Nat) (s : State) : Settles s (takeDist c posSlot e s) :=
  (takeBits_operation _ s).finish _

theorem exec_settles {i : Instr} (hi : isCommand i = false) (s : State) : Settles s (exec i s) := by
  cases i with
  | lit b => exact takeSymbol_settles (.lit b) s
  | matchNew len dist => exact takeSymbol_settles (.matchNew len dist) s
  | eos len => exact takeSymbol_settles (.eos len) s
  | shortrep => exact takeSymbol_settles .shortrep s
  | longrep0 len => exact takeSymbol_settles (.longrep0 len) s
  | longrep1 len => exact takeSymbol_settles (.longrep1 len) s
  | longrep2 len => exact takeSymbol_settles (.longrep2 len) s
  | longrep3 len => exact takeSymbol_settles (.longrep3 len) s
  | lenLow x t => exact takeLen_settles x _ s
  | lenMid x t => exact takeLen_settles x _ s
  | lenHigh x t => exact takeLen_settles x _ s
  | inByte => exact ((inByte_frame [] s).operation (inByte_keeps s)).finish _
  | rcInit => exact ((rcInit_frame [] s).operation (rcInit_keeps s)).finish _
  | rcNormalize => exact ((rcNormalize_frame [] s).operation (rcNormalizeSelf_keeps s)).finish _
  | rcBit g idx => exact (rcBit_operation g idx s).finish _
  | rcDirect n => exact ((rcDirect_frame [] n s).operation (rcDirect_keeps n s)).finish _
  | btDecode g base d => exact (btDecode_operation g base d s).finish _
  | btReverse g base d => exact (btReverse_operation g base d s).finish _
  | lenDecode x ps => exact (lenDecode_operation x ps s).finish _
  | litSelect => exact (Operation.ok _).finish _
  | litNormal base => exact (litNormal_operation base s).finish _
  | litMatched base mb => exact (litMatched_operation base mb s).finish _
  | winPut b => exact (winPut_operation b s).finish _
  | winGet d => exact (winGet_operation d s).finish _
  | winCopy d len => exact (winCopy_operation d len s).finish _
  | winFlush => exact (winFlush_operation s).finish _
  | sinkWrite bytes => exact (sinkWrite_operation bytes s).finish _
  | symbol => exact (symbol_operation s).finish _
  | distDecode len => exact (distDecode_operation len s).finish fun d => some d.toNat
  | rangeCheck d => exact (rangeCheck_operation d s).finish _
  | copy len => exact (copyTail_operation len s).finish _
  | afterLiteral st => exact (Operation.ok _).finish _
  | afterMatch st => exact (Operation.ok _).finish _
  | afterRep st => exact (Operation.ok _).finish _
  | afterShortRep st => exact (Operation.ok _).finish _
  | cmdReset => cases hi
  | cmdSetProperties bytes => cases hi
  | cmdDecode el => cases hi
  -- the DIST rows
  | _ => unfold exec; exact takeDist_settles _ _ _ s

/-- Settles O18: every instruction that is no command is an operation, which keeps its frame or takes its failure. -/
theorem operationsCompleteOrFail : Obligations.OperationsCompleteOrFail := by
  unfold Obligations.OperationsCompleteOrFail
  intro i s t hi ht
  rcases exec_settles hi s t ht with h | h
  · exact .inl ⟨h.frame.rest, h.frame.source, h.frame.sink⟩
  · exact .inr h

/-! ### The invariant -/

theorem Inv.running {s : State} (h : Inv s) (hp : s.phase = .decoding) : Running s :=
  ⟨h.coder hp, h.automaton hp, (h.cursors hp).1, (h.cursors hp).2⟩

/-- `Inv` from its clauses on a state with the phase and status of one that has it. -/
theorem Inv.of_samePhase {s t : State} (h : Inv s) (hphase : t.phase = s.phase) (hstatus : t.status = s.status)
    (hmem : s.mem.wf = true → t.mem.wf = true) (hprops : PropertiesOk s → PropertiesOk t) (hrun : Running s → Running t) :
    Inv t where
  memory := hmem h.memory
  properties hp := hprops (h.properties (hphase ▸ hp))
  coder hp := (hrun (h.running (hphase ▸ hp))).coder
  automaton hp := (hrun (h.running (hphase ▸ hp))).automaton
  cursors hp := ⟨(hrun (h.running (hphase ▸ hp))).ordered, (hrun (h.running (hphase ▸ hp))).inside⟩
  statusOk hp := hstatus.trans (h.statusOk (hphase ▸ hp))
  statusFailed hp := hstatus ▸ h.statusFailed (hphase ▸ hp)

theorem Inv.operationStep {s t : State} (h : Inv s) (ht : OperationStep s t) : Inv t :=
  h.of_samePhase ht.frame.phase ht.frame.status ht.memory ht.frame.propertiesOk ht.running

/-- What stands at the port `CMD` is no part of the invariant. -/
theorem Inv.setIssued {s : State} (h : Inv s) (is : List Instr) : Inv { s with issued := is } :=
  h.of_samePhase rfl rfl id (fun hp => hp.congr) fun hr => ⟨hr.coder.same rfl rfl, hr.automaton, hr.ordered, hr.inside⟩

/-- With no properties in force and no stream, only the memory's form and the status are left of the invariant. -/
theorem inv_of_idle {s : State} (hm : s.mem.wf = true)
    (hp : s.phase = .unconfigured ∨ (s.phase = .done ∧ s.status = .ok) ∨ (s.phase = .failed ∧ s.status ≠ .ok)) : Inv s := by
  have hc : s.phase ≠ .configured := fun h => by simp [h] at hp
  have hd : s.phase ≠ .decoding := fun h => by simp [h] at hp
  exact {
    memory := hm
    properties := fun h => absurd h (not_or.2 ⟨hc, hd⟩)
    coder := fun h => absurd h hd
    automaton := fun h => absurd h hd
    cursors := fun h => absurd h hd
    statusOk := fun h => by
      have hdone := (h.resolve_left hc).resolve_left hd
      simpa [hdone] using hp
    statusFailed := fun h => by simpa [h] using hp }

theorem inv_takeFailure_failed (k : FailureKind) (s : State) : Inv (takeFailure .failed k s) :=
  inv_of_idle (by simp) (.inr (.inr (by simp)))

theorem inv_takeFailure_unconfigured (k : FailureKind) (s : State) : Inv (takeFailure .unconfigured k s) :=
  inv_of_idle (by simp) (.inl rfl)

theorem Inv.settles {s t : State} {o : Host.Outcome State Fault Refusal} (h : Inv s) (ho : Settles s o) (ht : o = .next t) :
    Inv t := by
  rcases ho t ht with hstep | ⟨k, -, hfail⟩
  · exact h.operationStep hstep
  · rw [hfail.taken]
    exact inv_takeFailure_failed k _

/-- Settles O20: at reset no properties are in force and no stream runs. -/
theorem invAtReset : Obligations.InvAtReset := inv_of_idle reset_mem_wf (.inl rfl)

/-! ### The commands (`46_control.md`) -/

/-- Legal properties, loaded, are legal with the registers derived from them (R242, `10_state.md` R28). -/
theorem propertiesOk_loadProperties {lc lp pb : Nat} {ds : Word} (hlc : lc ≤ 8) (hlp : lp ≤ 4) (hpb : pb ≤ 4)
    (hds : ds.toNat < 2 ^ 31) (s : State) (p : Phase) (st : Status) :
    PropertiesOk { loadProperties lc lp pb ds s with phase := p, status := st } := by
  have hmask : ∀ n ≤ 4, 2 ^ n - 1 < 16 := by decide
  have hlpMask := hmask lp hlp
  have hpbMask := hmask pb hpb
  have hwin : windowMin = 4096 := rfl
  have hlc' : lc % 16 = lc := by omega
  have hlp' : lp % 8 = lp := by omega
  have hpb' : pb % 8 = pb := by omega
  constructor <;> simp [hlc', hlp', hpb', hwin] <;> omega

theorem inv_setProperties (bytes : List Byte) (s : State) : Inv (setProperties bytes s) := by
  unfold setProperties
  split
  · next v b1 b2 b3 b4 rest =>
    simp only
    split
    · exact inv_takeFailure_unconfigured _ s
    split
    · exact inv_takeFailure_unconfigured _ s
    split
    · exact inv_takeFailure_unconfigured _ s
    next hpb _ hds =>
      have hlc : (decodeProps v).1 ≤ 8 := Nat.le_of_lt_succ (Nat.mod_lt _ (by decide))
      have hlp : (decodeProps v).2.1 ≤ 4 := Nat.le_of_lt_succ (Nat.mod_lt _ (by decide))
      exact {
        memory := Memory.wf_unspecified _
        properties := fun _ => propertiesOk_loadProperties hlc hlp (not_lt.1 hpb) (not_le.1 fun h => hds (.inl h)) s _ _
        coder := nofun
        automaton := nofun
        cursors := nofun
        statusOk := fun _ => rfl
        statusFailed := nofun }
  · exact inv_takeFailure_unconfigured _ s

theorem inByte_mem {s t : State} {b : Byte} (h : inByte s = .ok b t) : t.mem = s.mem := by
  unfold inByte at h
  split at h <;> cases h
  rfl

theorem loadCode_mem {n : Nat} {s t : State} (h : loadCode n s = .ok () t) : t.mem = s.mem := by
  induction n generalizing s with
  | zero => cases h; rfl
  | succ n ih =>
    obtain ⟨b, u, hbyte, hload⟩ := Res.bind_eq_ok.1 h
    exact (ih hload).trans (inByte_mem hbyte :)

/-- `RC_INIT` writes no slot and sets `range` (R132). -/
theorem rcInit_mem_range {s t : State} (h : rcInit s = .ok () t) : t.mem = s.mem ∧ t.range = 0xFFFFFFFF#32 := by
  obtain ⟨b, u, hbyte, hrest⟩ := Res.bind_eq_ok.1 h
  obtain ⟨⟨⟩, v, hload, hend⟩ := Res.bind_eq_ok.1 hrest
  cases hend
  exact ⟨(loadCode_mem hload).trans (inByte_mem hbyte :), rfl⟩

/-- A stream starts within every bound: the arrays and the cursors from R245, `range` from `RC_INIT`. -/
theorem inv_rcInit_startStream {el : DWord} {s t : State} (h : Inv s) (hphase : s.phase = .configured)
    (ht : rcInit (startStream el s) = .ok () t) : Inv t := by
  have hp := h.properties (.inl hphase)
  have hframe : CoderFrame [] (startStream el s) t := by
    have := (rcInit_frame [] (startStream el s)).post
    rwa [ht] at this
  obtain ⟨hmem, hrange⟩ := rcInit_mem_range ht
  obtain ⟨hst, -, -, -, -, -, -, -, -, -, -, -, -, -, hws, -, hph, hstatus, hwc, hwm, -⟩ := hframe.fields
  have hmin := hp.window_min
  constructor
  case memory => rw [hmem]; rfl
  case properties => exact fun _ => hframe.operationFrame.propertiesOk hp.congr
  case coder => exact fun _ => ⟨by rw [hrange]; decide, by rw [hmem]; rfl, by rw [hmem]; nofun⟩
  case automaton => simp [hst]
  case cursors =>
    simp only [hwm, hwc, hws, startStream_watermark, startStream_writeCursor, startStream_windowSize, BitVec.toNat_ofNat]
    omega
  case statusOk => exact fun _ => hstatus.trans (h.statusOk (.inl hphase))
  case statusFailed => simp [hph]

theorem inv_execCmdDecode {el : DWord} {s t : State} (h : Inv s) (ht : execCmdDecode el s = .next t) : Inv t := by
  unfold execCmdDecode at ht
  split at ht
  · next hphase =>
    rcases hr : rcInit (startStream el s) with ⟨⟨⟩, u⟩ | ⟨k, u⟩ | e <;> rw [hr] at ht <;> cases ht
    · exact (inv_rcInit_startStream h hphase hr).operationStep (OperationStep.setResult u none)
    · exact inv_takeFailure_failed k u
  · cases ht

theorem inv_resetState (s : State) (r : Bool) : Inv { resetState s with resetInput := r } :=
  inv_of_idle (Memory.wf_unspecified _) (.inl rfl)

theorem inv_execCmdReset {s t : State} (ht : execCmdReset s = .next t) : Inv t := by
  unfold execCmdReset at ht
  split at ht <;> cases ht
  exact inv_resetState s s.resetInput

theorem inv_execCmdSetProperties {bytes : List Byte} {s t : State} (ht : execCmdSetProperties bytes s = .next t) : Inv t := by
  unfold execCmdSetProperties at ht
  split at ht <;> cases ht
  exact inv_setProperties bytes s

/-- Every instruction keeps the invariant: the commands establish it, the others are operations. -/
theorem inv_exec {i : Instr} {s t : State} (h : Inv s) (ht : exec i s = .next t) : Inv t := by
  by_cases hi : isCommand i = false
  · exact h.settles (exec_settles hi s) ht
  cases i with
  | cmdReset => exact inv_execCmdReset ht
  | cmdSetProperties bytes => exact inv_execCmdSetProperties ht
  | cmdDecode el => exact inv_execCmdDecode h ht
  | _ => exact absurd rfl hi

/-! ### The loop of `DECODE` -/

theorem inv_finishDecode {s t : State} (ht : finishDecode s = .next t) : Inv t := by
  unfold finishDecode at ht
  split at ht <;> cases ht
  · exact inv_of_idle (Memory.wf_unspecified _) (.inr (.inl ⟨rfl, rfl⟩))
  · exact inv_takeFailure_failed _ _

theorem inv_pass {s t : State} (h : Inv s) (ht : pass s = .next t) : Inv t := by
  unfold pass at ht
  split at ht
  · exact inv_finishDecode ht
  split at ht
  · next y u _ =>
    rcases hexec : exec y.toInstr s with v | f | r
    · rw [hexec] at ht
      unfold afterSymbol at ht
      simp only at ht
      split at ht
      · exact inv_finishDecode ht
      · cases ht
        exact inv_exec h hexec
    · rw [hexec] at ht; cases ht
    · rw [hexec] at ht; cases ht
  · cases ht
    exact inv_takeFailure_failed _ _
  · cases ht

/-- Settles O21, by what a step can be: a reset, an instruction, a pass of the loop, or nothing. -/
theorem invKeptByEveryStep : Obligations.InvKeptByEveryStep := by
  unfold Obligations.InvKeptByEveryStep
  intro s t h ht
  unfold step at ht
  split at ht
  · cases ht
    exact inv_resetState s false
  split at ht
  · next i rest _ => exact inv_exec (h.setIssued rest) ht
  split at ht
  · exact inv_pass h ht
  · cases ht
    exact h

end Sys2Proof.Machine
end

section
/-! SUPPORT. The ports (`20_memory.md` R61, R62): over every step the source only shrinks and the sink only grows, and what `SinkWrite`
does to the sink. -/

namespace Sys2Proof.Machine

/-! ### The ports move one way -/

/-- From `s` to `t` the source has only been taken from (R61), and the sink has only been appended to (R62). -/
structure PortsAdvance (s t : State) : Prop where
  source : t.source <:+ s.source
  sink : s.sink <+: t.sink

theorem PortsAdvance.of_eq {s t : State} (hsource : t.source = s.source) (hsink : t.sink = s.sink) : PortsAdvance s t :=
  ⟨hsource ▸ List.suffix_refl _, hsink ▸ List.prefix_refl _⟩

theorem PortsAdvance.trans {s t u : State} (h : PortsAdvance s t) (h' : PortsAdvance t u) : PortsAdvance s u :=
  ⟨h'.source.trans h.source, h.sink.trans h'.sink⟩

theorem Ports.advance {s t : State} (h : Ports s t) : PortsAdvance s t := ⟨h.source, h.sink⟩

theorem Operation.advance_of_ok {α : Type} {s t : State} {r : Res α} {a : α} (h : Operation s r) (hr : r = .ok a t) :
    PortsAdvance s t := by
  obtain ⟨hpost⟩ := h
  rw [hr] at hpost
  exact hpost.frame.ports.advance

theorem Operation.advance_of_raise {α : Type} {s t : State} {r : Res α} {k : FailureKind} (h : Operation s r)
    (hr : r = .raise k t) : PortsAdvance s t := by
  obtain ⟨hpost⟩ := h
  rw [hr] at hpost
  obtain ⟨hports, -⟩ := hpost
  exact hports.advance

theorem Settles.advance {s t : State} {o : Host.Outcome State Fault Refusal} (h : Settles s o) (ht : o = .next t) :
    PortsAdvance s t := by
  rcases h t ht with hstep | ⟨k, -, hfail⟩
  · exact hstep.frame.ports.advance
  · exact ⟨hfail.source, hfail.sink⟩

/-! ### The commands -/

/-- `SET_PROPERTIES` leaves the ports alone, whether it succeeds or fails (R242, R243). -/
theorem setProperties_advance (bytes : List Byte) (s : State) : PortsAdvance s (setProperties bytes s) := by
  unfold setProperties
  split
  · dsimp only
    split_ifs <;> exact .of_eq rfl rfl
  · exact .of_eq rfl rfl

theorem execCmdReset_advance {s t : State} (ht : execCmdReset s = .next t) : PortsAdvance s t := by
  unfold execCmdReset at ht
  split at ht <;> cases ht
  exact .of_eq rfl rfl

theorem execCmdSetProperties_advance {bytes : List Byte} {s t : State} (ht : execCmdSetProperties bytes s = .next t) :
    PortsAdvance s t := by
  unfold execCmdSetProperties at ht
  split at ht <;> cases ht
  exact setProperties_advance bytes s

/-- `DECODE` up to its loop moves the ports as `RC_INIT` does: starting the stream touches none. -/
theorem execCmdDecode_advance {el : DWord} {s t : State} (ht : execCmdDecode el s = .next t) : PortsAdvance s t := by
  unfold execCmdDecode at ht
  split at ht
  · have hinit : Operation (startStream el s) (rcInit (startStream el s)) := (rcInit_frame [] _).operation (rcInit_keeps _)
    have hstart : PortsAdvance s (startStream el s) := .of_eq rfl rfl
    exact hstart.trans ((hinit.finish _).advance ht)
  · cases ht

theorem exec_advance {i : Instr} {s t : State} (ht : exec i s = .next t) : PortsAdvance s t := by
  by_cases hi : isCommand i = false
  · exact (exec_settles hi s).advance ht
  cases i with
  | cmdReset => exact execCmdReset_advance ht
  | cmdSetProperties bytes => exact execCmdSetProperties_advance ht
  | cmdDecode el => exact execCmdDecode_advance ht
  | _ => exact absurd rfl hi

/-! ### The loop of `DECODE` -/

/-- The end of `DECODE` moves the ports as its final flush does (R249). -/
theorem finishDecode_advance {s t : State} (ht : finishDecode s = .next t) : PortsAdvance s t := by
  unfold finishDecode at ht
  split at ht <;> cases ht
  · next hflush => exact ((winFlush_operation s).advance_of_ok hflush).trans (.of_eq rfl rfl)
  · next hflush => exact ((winFlush_operation s).advance_of_raise hflush).trans (.of_eq rfl rfl)

/-- What follows a symbol moves the ports no further, or as the end of `DECODE` does. -/
theorem afterSymbol_advance {y : Symbol} {s t : State} {o : Host.Outcome State Fault Refusal}
    (ho : ∀ u, o = .next u → PortsAdvance s u) (ht : afterSymbol y o = .next t) : PortsAdvance s t := by
  unfold afterSymbol at ht
  split at ht
  · next u =>
    split at ht
    · exact (ho u rfl).trans (finishDecode_advance ht)
    · exact ho t ht
  · cases ht
  · cases ht

theorem pass_advance {s t : State} (ht : pass s = .next t) : PortsAdvance s t := by
  unfold pass at ht
  split at ht
  · exact finishDecode_advance ht
  split at ht
  · exact afterSymbol_advance (fun _ hu => exec_advance hu) ht
  · next hfetch =>
    cases ht
    exact ((fetchSymbol_operation s).advance_of_raise hfetch).trans (.of_eq rfl rfl)
  · cases ht

theorem step_advance {s t : State} (ht : step s = .next t) : PortsAdvance s t := by
  unfold step at ht
  split at ht
  · cases ht
    exact .of_eq rfl rfl
  split at ht
  · next i rest _ =>
    have hport : PortsAdvance s { s with issued := rest } := .of_eq rfl rfl
    exact hport.trans (exec_advance ht)
  split at ht
  · exact pass_advance ht
  · cases ht
    exact .of_eq rfl rfl

/-- Settles O19, by what a step can be: a reset, an instruction, a pass of the loop, or nothing. -/
theorem portsAreMonotone : Obligations.PortsAreMonotone := by
  unfold Obligations.PortsAreMonotone
  intro s t ht
  have hports := step_advance ht
  exact ⟨hports.source, hports.sink⟩

/-! ### `SinkWrite` -/

/-- The outcome of `SINK_WRITE` is that of the operation, with no result. -/
theorem exec_sinkWrite (bytes : List Byte) (s : State) :
    exec (.sinkWrite bytes) s = (sinkWrite bytes s).finish fun _ => none := rfl

/-- Settles O44, by the two ends `sinkWrite` can have: an accepting sink and a failing one. -/
theorem sinkWriteAppends : Obligations.SinkWriteAppends := by
  unfold Obligations.SinkWriteAppends
  refine fun s bytes => ⟨fun haccepts => ?_, fun rest hfails => ?_⟩
  · rw [exec_sinkWrite, sinkWrite_eq haccepts, Res.finish_ok]
  · rw [exec_sinkWrite, sinkWrite_fails hfails, Res.finish_raise]

end Sys2Proof.Machine
end

section
/-! SUPPORT. Decision strings (`30_encoding.md`): the encoder and the decoder undo each other, and every long enough string decodes. -/

namespace Sys2Proof

open Sys2Proof.Laws

/-! ### Decoding undoes encoding -/

/-- The round trip of `Laws/PerInstr.lean`, for every instruction. -/
theorem roundTrip (i : Instr) : RoundTrip.Statement i := by
  cases i with
  | lit b => exact RoundTrip.lit b
  | matchNew len dist => exact RoundTrip.matchNew len dist
  | eos len => exact RoundTrip.eos len
  | shortrep => exact RoundTrip.shortrep
  | longrep0 len => exact RoundTrip.longrep0 len
  | longrep1 len => exact RoundTrip.longrep1 len
  | longrep2 len => exact RoundTrip.longrep2 len
  | longrep3 len => exact RoundTrip.longrep3 len
  | lenLow x t => exact RoundTrip.lenLow x t
  | lenMid x t => exact RoundTrip.lenMid x t
  | lenHigh x t => exact RoundTrip.lenHigh x t
  | distSlot0 c => exact RoundTrip.distSlot0 c
  | distSlot1 c => exact RoundTrip.distSlot1 c
  | distSlot2 c => exact RoundTrip.distSlot2 c
  | distSlot3 c => exact RoundTrip.distSlot3 c
  | distSlot4 c r => exact RoundTrip.distSlot4 c r
  | distSlot5 c r => exact RoundTrip.distSlot5 c r
  | distSlot6 c r => exact RoundTrip.distSlot6 c r
  | distSlot7 c r => exact RoundTrip.distSlot7 c r
  | distSlot8 c r => exact RoundTrip.distSlot8 c r
  | distSlot9 c r => exact RoundTrip.distSlot9 c r
  | distSlot10 c r => exact RoundTrip.distSlot10 c r
  | distSlot11 c r => exact RoundTrip.distSlot11 c r
  | distSlot12 c r => exact RoundTrip.distSlot12 c r
  | distSlot13 c r => exact RoundTrip.distSlot13 c r
  | distSlot14 c d a => exact RoundTrip.distSlot14 c d a
  | distSlot15 c d a => exact RoundTrip.distSlot15 c d a
  | distSlot16 c d a => exact RoundTrip.distSlot16 c d a
  | distSlot17 c d a => exact RoundTrip.distSlot17 c d a
  | distSlot18 c d a => exact RoundTrip.distSlot18 c d a
  | distSlot19 c d a => exact RoundTrip.distSlot19 c d a
  | distSlot20 c d a => exact RoundTrip.distSlot20 c d a
  | distSlot21 c d a => exact RoundTrip.distSlot21 c d a
  | distSlot22 c d a => exact RoundTrip.distSlot22 c d a
  | distSlot23 c d a => exact RoundTrip.distSlot23 c d a
  | distSlot24 c d a => exact RoundTrip.distSlot24 c d a
  | distSlot25 c d a => exact RoundTrip.distSlot25 c d a
  | distSlot26 c d a => exact RoundTrip.distSlot26 c d a
  | distSlot27 c d a => exact RoundTrip.distSlot27 c d a
  | distSlot28 c d a => exact RoundTrip.distSlot28 c d a
  | distSlot29 c d a => exact RoundTrip.distSlot29 c d a
  | distSlot30 c d a => exact RoundTrip.distSlot30 c d a
  | distSlot31 c d a => exact RoundTrip.distSlot31 c d a
  | distSlot32 c d a => exact RoundTrip.distSlot32 c d a
  | distSlot33 c d a => exact RoundTrip.distSlot33 c d a
  | distSlot34 c d a => exact RoundTrip.distSlot34 c d a
  | distSlot35 c d a => exact RoundTrip.distSlot35 c d a
  | distSlot36 c d a => exact RoundTrip.distSlot36 c d a
  | distSlot37 c d a => exact RoundTrip.distSlot37 c d a
  | distSlot38 c d a => exact RoundTrip.distSlot38 c d a
  | distSlot39 c d a => exact RoundTrip.distSlot39 c d a
  | distSlot40 c d a => exact RoundTrip.distSlot40 c d a
  | distSlot41 c d a => exact RoundTrip.distSlot41 c d a
  | distSlot42 c d a => exact RoundTrip.distSlot42 c d a
  | distSlot43 c d a => exact RoundTrip.distSlot43 c d a
  | distSlot44 c d a => exact RoundTrip.distSlot44 c d a
  | distSlot45 c d a => exact RoundTrip.distSlot45 c d a
  | distSlot46 c d a => exact RoundTrip.distSlot46 c d a
  | distSlot47 c d a => exact RoundTrip.distSlot47 c d a
  | distSlot48 c d a => exact RoundTrip.distSlot48 c d a
  | distSlot49 c d a => exact RoundTrip.distSlot49 c d a
  | distSlot50 c d a => exact RoundTrip.distSlot50 c d a
  | distSlot51 c d a => exact RoundTrip.distSlot51 c d a
  | distSlot52 c d a => exact RoundTrip.distSlot52 c d a
  | distSlot53 c d a => exact RoundTrip.distSlot53 c d a
  | distSlot54 c d a => exact RoundTrip.distSlot54 c d a
  | distSlot55 c d a => exact RoundTrip.distSlot55 c d a
  | distSlot56 c d a => exact RoundTrip.distSlot56 c d a
  | distSlot57 c d a => exact RoundTrip.distSlot57 c d a
  | distSlot58 c d a => exact RoundTrip.distSlot58 c d a
  | distSlot59 c d a => exact RoundTrip.distSlot59 c d a
  | distSlot60 c d a => exact RoundTrip.distSlot60 c d a
  | distSlot61 c d a => exact RoundTrip.distSlot61 c d a
  | distSlot62 c d a => exact RoundTrip.distSlot62 c d a
  | distSlot63 c d a => exact RoundTrip.distSlot63 c d a
  -- the OP and CMD rows have no bits
  | _ => exact RoundTrip.none_of_op rfl

/-- Settles O57, by the round trip of each row. -/
theorem decodeEncode : Obligations.DecodeEncode := by
  unfold Obligations.DecodeEncode
  exact fun i ctx bits rest hwf henc => roundTrip i hwf ctx bits henc rest

/-! ### Rows as fields -/

/-- The LEN row of a length (`30_encoding.md` R100). -/
def lenRow (x : LenInst) (len : Nat) : Instr :=
  if len < 10 then .lenLow x (BitVec.ofNat 3 (len - 2))
  else if len < 18 then .lenMid x (BitVec.ofNat 3 (len - 10))
  else .lenHigh x (BitVec.ofNat 8 (len - 18))

theorem lenOk_iff (len : Nat) : lenOk len = true ↔ 2 ≤ len ∧ len ≤ 273 := by
  simp [lenOk]

theorem lenBits_low {t : Nat} (ht : t < 8) : lenBits (2 + t) = false :: bitsMsb 3 t := by
  rw [lenBits, if_pos (by omega), Nat.add_sub_cancel_left]

theorem lenBits_mid {t : Nat} (ht : t < 8) : lenBits (10 + t) = true :: false :: bitsMsb 3 t := by
  rw [lenBits, if_neg (by omega), if_pos (by omega), Nat.add_sub_cancel_left]

theorem lenBits_high (t : Nat) : lenBits (18 + t) = true :: true :: bitsMsb 8 t := by
  rw [lenBits, if_neg (by omega), if_neg (by omega), Nat.add_sub_cancel_left]

theorem lenRow_low (x : LenInst) {t : Nat} (ht : t < 8) : lenRow x (2 + t) = .lenLow x (BitVec.ofNat 3 t) := by
  rw [lenRow, if_pos (by omega), Nat.add_sub_cancel_left]

theorem lenRow_mid (x : LenInst) {t : Nat} (ht : t < 8) : lenRow x (10 + t) = .lenMid x (BitVec.ofNat 3 t) := by
  rw [lenRow, if_neg (by omega), if_pos (by omega), Nat.add_sub_cancel_left]

theorem lenRow_high (x : LenInst) (t : Nat) : lenRow x (18 + t) = .lenHigh x (BitVec.ofNat 8 t) := by
  rw [lenRow, if_neg (by omega), if_neg (by omega), Nat.add_sub_cancel_left]

theorem lenRow_wf (x : LenInst) (len : Nat) : (lenRow x len).wf = true := by
  unfold lenRow
  split_ifs <;> rfl

theorem encode_lenRow (x : LenInst) (len : Nat) : encode (lenRow x len) = some (.len x, lenBits len) := by
  unfold lenRow lenBits
  split_ifs
  · simp only [encode, BitVec.toNat_ofNat, bitsMsb_mod]
  · simp only [encode, BitVec.toNat_ofNat, bitsMsb_mod]
  · simp only [encode, BitVec.toNat_ofNat, bitsMsb_mod]

/-- `i` is the DIST row of the position slot `slot` with the extra bits `e` in the length class `c` (R102): it is written, it stands for the
distance, and it is executed as that field. -/
structure DistField (i : Instr) (c : LenClass) (slot e : Nat) : Prop where
  wf : i.wf = true
  encode : encode i = some (.dist c, distBits slot e)
  value : Machine.distRowValue i = some (distBase slot + e)
  exec : ∀ s, Machine.exec i s = Machine.takeDist c slot e s

/-- The row `distRow` names is the DIST row of its position slot. -/
theorem distField_distRow (c : LenClass) {slot e : Nat} (hs : slot < 64) (he : e < 2 ^ extraWidth slot) :
    DistField (distRow c slot e) c slot e := by
  by_cases h4 : slot < 4
  · obtain rfl : e = 0 := by rw [extraWidth, if_pos h4] at he; omega
    interval_cases slot <;> exact ⟨rfl, rfl, rfl, fun _ => rfl⟩
  rw [extraWidth, if_neg h4] at he
  by_cases h14 : slot < 14
  · -- one reverse tree: the field is `r`
    suffices h : DistField (distRow c slot e) c slot (BitVec.ofNat (directBits slot) e).toNat by
      rwa [BitVec.toNat_ofNat, Nat.mod_eq_of_lt he] at h
    interval_cases slot <;> exact ⟨rfl, rfl, rfl, fun _ => rfl⟩
  · -- direct bits `d` and the aligned bits `a`
    suffices h : DistField (distRow c slot e) c slot
        ((BitVec.ofNat (directBits slot - 4) (e / 16)).toNat * 16 + (BitVec.ofNat 4 e).toNat) by
      have hsplit : 2 ^ directBits slot = 2 ^ (directBits slot - 4) * 16 := by
        rw [directBits_eq, show (16 : Nat) = 2 ^ 4 by norm_num, ← pow_add, Nat.sub_add_cancel (by omega)]
      rwa [BitVec.toNat_ofNat, BitVec.toNat_ofNat, Nat.mod_eq_of_lt (a := e / 16) (by omega), Nat.div_add_mod'] at h
    interval_cases slot <;> exact ⟨rfl, rfl, congrArg some (Nat.add_assoc _ _ _), fun _ => rfl⟩

/-! ### Encoding undoes decoding -/

/-- What is read of a length field is that field (R100, `42_length_decoder.md` R163). -/
theorem readLen_ok {bs rest : List Bool} {len : Nat} (h : readLen bs = .ok (len, rest)) :
    lenOk len = true ∧ bs = lenBits len ++ rest := by
  rw [lenOk_iff]
  match bs with
  | [] => simp [readLen] at h
  | [true] => simp [readLen] at h
  | false :: bs =>
    simp only [readLen] at h
    split at h <;> cases h
    next t hread =>
    obtain ⟨hlt, rfl⟩ := readMsb_ok hread
    exact ⟨by omega, by rw [lenBits_low hlt]; rfl⟩
  | true :: false :: bs =>
    simp only [readLen] at h
    split at h <;> cases h
    next t hread =>
    obtain ⟨hlt, rfl⟩ := readMsb_ok hread
    exact ⟨by omega, by rw [lenBits_mid hlt]; rfl⟩
  | true :: true :: bs =>
    simp only [readLen] at h
    split at h <;> cases h
    next t hread =>
    obtain ⟨hlt, rfl⟩ := readMsb_ok hread
    exact ⟨by omega, by rw [lenBits_high t]; rfl⟩

/-- A LEN row is read as its length is. -/
theorem readLenRow_eq (x : LenInst) (bs : List Bool) :
    readLenRow x bs = (readLen bs).map fun p => (lenRow x p.1, p.2) := by
  match bs with
  | [] => rfl
  | [true] => rfl
  | false :: bs =>
    simp only [readLenRow, readLen]
    split
    · next hread => rw [Except.map, lenRow_low x (readMsb_ok hread).1]
    · rfl
  | true :: false :: bs =>
    simp only [readLenRow, readLen]
    split
    · next hread => rw [Except.map, lenRow_mid x (readMsb_ok hread).1]
    · rfl
  | true :: true :: bs =>
    simp only [readLenRow, readLen]
    split
    · rw [Except.map, lenRow_high]
    · rfl

/-- What is read of the extra bits is extra bits of that position slot (R102). -/
theorem readExtra_ok {slot e : Nat} {bs rest : List Bool} (h : readExtra slot bs = .ok (e, rest)) :
    e < 2 ^ extraWidth slot ∧ bs = extraBits slot e ++ rest := by
  unfold readExtra at h
  unfold extraWidth extraBits
  split_ifs at h ⊢ with h4 h14
  · cases h
    exact ⟨by simp, rfl⟩
  · exact readLsb_ok h
  · split at h
    · cases h
    next hi bs1 hreadHi =>
    split at h <;> cases h
    next lo hreadLo =>
    obtain ⟨hhi, rfl⟩ := readMsb_ok hreadHi
    obtain ⟨hlo, rfl⟩ := readLsb_ok hreadLo
    have hlo : lo < 16 := hlo
    have hsplit : 2 ^ directBits slot = 2 ^ (directBits slot - alignBits) * 16 := by
      simp only [endPosModelIndex] at h14
      rw [directBits_eq, show (16 : Nat) = 2 ^ 4 by norm_num, ← pow_add, Nat.sub_add_cancel (by simp only [alignBits]; omega)]
    refine ⟨by omega, ?_⟩
    rw [show (hi * 16 + lo) / 16 = hi by omega, show (hi * 16 + lo) % 16 = lo by omega, List.append_assoc]

/-- What is read of a distance field is that field (R101, R102). -/
theorem readDist_ok {bs rest : List Bool} {slot e : Nat} (h : readDist bs = .ok (slot, e, rest)) :
    slot < 64 ∧ e < 2 ^ extraWidth slot ∧ bs = distBits slot e ++ rest := by
  unfold readDist at h
  split at h
  · cases h
  next hreadSlot =>
  split at h <;> cases h
  next hreadExtra =>
  obtain ⟨hslot, rfl⟩ := readMsb_ok hreadSlot
  obtain ⟨he, rfl⟩ := readExtra_ok hreadExtra
  exact ⟨hslot, he, by rw [distBits, List.append_assoc]⟩

theorem encode_toInstr (y : Symbol) : encode y.toInstr = some (.sym, y.bits) := by
  cases y <;> rfl

/-- The distances of R102 have 32 bits. -/
theorem distBase_add_lt {slot e : Nat} (hs : slot < 64) (he : e < 2 ^ extraWidth slot) : distBase slot + e < 2 ^ 32 := by
  by_cases h4 : slot < 4
  · rw [extraWidth, if_pos h4] at he
    rw [distBase_of_lt h4]
    omega
  · rw [extraWidth, if_neg h4, directBits_eq] at he
    rw [distBase_eq (by omega)]
    have hmul := Nat.mul_le_mul_right (2 ^ (slot / 2 - 1)) (show 2 + slot % 2 ≤ 3 by omega)
    have hpow : 2 ^ (slot / 2 - 1) ≤ 2 ^ 30 := Nat.pow_le_pow_right (by norm_num) (by omega)
    omega

/-- The fields of the distance that a position slot and its extra bits give. -/
theorem distance_fields {dist : Word} {slot e : Nat} (he : e < 2 ^ extraWidth slot) (hdist : dist.toNat = distBase slot + e) :
    posSlotOf dist.toNat = slot ∧ dist.toNat - distBase (posSlotOf dist.toNat) = e := by
  have hslot : posSlotOf dist.toNat = slot := hdist ▸ posSlotOf_distBase he
  rw [hslot]
  exact ⟨rfl, by omega⟩

theorem ofMatch_wf {len : Nat} (h : lenOk len = true) (dist : Word) : (Symbol.ofMatch len dist).toInstr.wf = true := by
  unfold Symbol.ofMatch
  split_ifs with heos
  · exact h
  · simp [Symbol.toInstr, Instr.wf, h, heos]

/-- A match and the end marker are written alike, the latter with the distance `0xFFFFFFFF` (R99, R103). -/
theorem ofMatch_bits (len : Nat) (dist : Word) : (Symbol.ofMatch len dist).bits = true :: false ::
    (lenBits len ++ distBits (posSlotOf dist.toNat) (dist.toNat - distBase (posSlotOf dist.toNat))) := by
  unfold Symbol.ofMatch
  split_ifs with heos
  · have hfields := distance_fields (slot := 63) (e := 2 ^ 30 - 1) (dist := dist) (by decide) (heos ▸ by decide)
    rw [hfields.2, hfields.1]
    rfl
  · rfl

/-- What is read of a symbol that ends in a length field is that symbol. -/
theorem readWithLen_ok {f : Nat → Symbol} {bs rest : List Bool} {y : Symbol} (h : readWithLen f bs = .ok (y, rest)) :
    ∃ len, lenOk len = true ∧ y = f len ∧ bs = lenBits len ++ rest := by
  unfold readWithLen at h
  split at h <;> cases h
  next len hread => exact ⟨len, (readLen_ok hread).1, rfl, (readLen_ok hread).2⟩

/-- What is read of a symbol is a well-formed symbol's decision string (R97). -/
theorem readSymbol_ok {bs rest : List Bool} {y : Symbol} (h : readSymbol bs = .ok (y, rest)) :
    y.toInstr.wf = true ∧ bs = y.bits ++ rest := by
  unfold readSymbol at h
  split at h
  · -- `LIT`
    split at h <;> cases h
    next v hread =>
    obtain ⟨hv, rfl⟩ := readMsb_ok hread
    refine ⟨rfl, ?_⟩
    rw [Symbol.bits, BitVec.toNat_ofNat, bitsMsb_mod]
    rfl
  · -- `MATCH` and `EOS`
    split at h
    · cases h
    next len bs1 hreadLen =>
    split at h <;> cases h
    next slot e hreadDist =>
    obtain ⟨hlen, rfl⟩ := readLen_ok hreadLen
    obtain ⟨hslot, he, rfl⟩ := readDist_ok hreadDist
    refine ⟨ofMatch_wf hlen _, ?_⟩
    obtain ⟨hp, hd⟩ := distance_fields he (dist := BitVec.ofNat 32 (distBase slot + e))
      (by rw [BitVec.toNat_ofNat, Nat.mod_eq_of_lt (distBase_add_lt hslot he)])
    rw [ofMatch_bits, hd, hp]
    simp only [List.cons_append, List.append_assoc]
  · cases h
    exact ⟨rfl, rfl⟩
  case h_8 => cases h
  all_goals -- the `LONGREP`s
    obtain ⟨len, hlen, rfl, rfl⟩ := readWithLen_ok h
    exact ⟨hlen, rfl⟩

/-- What is read of a DIST row is the row of a position slot and its extra bits. -/
theorem decode_dist_ok {c : LenClass} {bits rest : List Bool} {i : Instr} (h : decode (.dist c) bits = .ok (i, rest)) :
    ∃ slot e, slot < 64 ∧ e < 2 ^ extraWidth slot ∧ i = distRow c slot e ∧ bits = distBits slot e ++ rest := by
  simp only [decode, readDistRow] at h
  split at h <;> cases h
  next slot e hread =>
  obtain ⟨hslot, he, hbits⟩ := readDist_ok hread
  exact ⟨slot, e, hslot, he, rfl, hbits⟩

/-- Settles O58, context by context. -/
theorem encodeDecode : Obligations.EncodeDecode := by
  unfold Obligations.EncodeDecode
  intro ctx bits rest i h
  cases ctx with
  | sym =>
    simp only [decode] at h
    split at h <;> cases h
    next y hread =>
    obtain ⟨hwf, rfl⟩ := readSymbol_ok hread
    exact ⟨hwf, y.bits, encode_toInstr y, rfl⟩
  | len x =>
    rw [decode, readLenRow_eq] at h
    rcases hread : readLen bits with e | ⟨len, rest'⟩ <;> rw [hread] at h <;> cases h
    exact ⟨lenRow_wf x len, lenBits len, encode_lenRow x len, (readLen_ok hread).2⟩
  | dist c =>
    obtain ⟨slot, e, hslot, he, rfl, rfl⟩ := decode_dist_ok h
    have hrow := distField_distRow c hslot he
    exact ⟨hrow.wf, distBits slot e, hrow.encode, rfl⟩

/-! ### Every long enough string decodes (R105, R106) -/

theorem readLen_total {bs : List Bool} (h : 10 ≤ bs.length) :
    ∃ len rest, readLen bs = .ok (len, rest) ∧ bs.length ≤ rest.length + 10 := by
  match bs with
  | [] => simp at h
  | [true] => simp at h
  | false :: bs =>
    rw [List.length_cons] at h
    obtain ⟨t, rest, hread, hlen⟩ := readMsb_total (n := 3) (bs := bs) (by omega)
    exact ⟨2 + t, rest, by rw [readLen, hread], by rw [List.length_cons]; omega⟩
  | true :: false :: bs =>
    rw [List.length_cons, List.length_cons] at h
    obtain ⟨t, rest, hread, hlen⟩ := readMsb_total (n := 3) (bs := bs) (by omega)
    exact ⟨10 + t, rest, by rw [readLen, hread], by rw [List.length_cons, List.length_cons]; omega⟩
  | true :: true :: bs =>
    rw [List.length_cons, List.length_cons] at h
    obtain ⟨t, rest, hread, hlen⟩ := readMsb_total (n := 8) (bs := bs) (by omega)
    exact ⟨18 + t, rest, by rw [readLen, hread], by rw [List.length_cons, List.length_cons]; omega⟩

theorem readExtra_total {slot : Nat} (hs : slot < 64) {bs : List Bool} (h : 30 ≤ bs.length) :
    ∃ e rest, readExtra slot bs = .ok (e, rest) := by
  unfold readExtra
  have hwidth := directBits_eq slot
  split_ifs
  · exact ⟨0, bs, rfl⟩
  · obtain ⟨e, rest, hread, -⟩ := readLsb_total (n := directBits slot) (bs := bs) (by omega)
    exact ⟨e, rest, hread⟩
  · obtain ⟨hi, bs1, hhi, hlen⟩ := readMsb_total (n := directBits slot - alignBits) (bs := bs) (by omega)
    simp only [alignBits] at hlen
    obtain ⟨lo, rest, hlo, -⟩ := readLsb_total (n := alignBits) (bs := bs1) (by simp only [alignBits]; omega)
    exact ⟨hi * 16 + lo, rest, by simp only [hhi, hlo]⟩

theorem readDist_total {bs : List Bool} (h : 36 ≤ bs.length) : ∃ slot e rest, readDist bs = .ok (slot, e, rest) := by
  obtain ⟨slot, bs1, hslot, hlen⟩ := readMsb_total (n := 6) (bs := bs) (by omega)
  obtain ⟨e, rest, he⟩ := readExtra_total (readMsb_ok hslot).1 (bs := bs1) (by omega)
  exact ⟨slot, e, rest, by rw [readDist, config_posSlotBits, hslot]; simp only [he]⟩

theorem readWithLen_total (f : Nat → Symbol) {bs : List Bool} (h : 10 ≤ bs.length) :
    ∃ y rest, readWithLen f bs = .ok (y, rest) := by
  obtain ⟨len, rest, hread, -⟩ := readLen_total h
  exact ⟨f len, rest, by rw [readWithLen, hread]⟩

theorem readSymbol_total {bs : List Bool} (h : 48 ≤ bs.length) : ∃ y rest, readSymbol bs = .ok (y, rest) := by
  match bs with
  | [] | [true] | [true, true] | [true, true, true] | [true, true, true, true] => simp at h
  | false :: bs =>
    rw [List.length_cons] at h
    obtain ⟨v, rest, hread, -⟩ := readMsb_total (n := 8) (bs := bs) (by omega)
    exact ⟨.lit (BitVec.ofNat 8 v), rest, by rw [readSymbol, hread]⟩
  | true :: false :: bs =>
    rw [List.length_cons, List.length_cons] at h
    obtain ⟨len, bs1, hlen, hleft⟩ := readLen_total (bs := bs) (by omega)
    obtain ⟨slot, e, rest, hdist⟩ := readDist_total (bs := bs1) (by omega)
    exact ⟨Symbol.ofMatch len (BitVec.ofNat 32 (distBase slot + e)), rest, by simp only [readSymbol, hlen, hdist]⟩
  | true :: true :: false :: false :: bs => exact ⟨.shortrep, bs, rfl⟩
  | true :: true :: false :: true :: bs => exact readWithLen_total .longrep0 (by simp at h; omega)
  | true :: true :: true :: false :: bs => exact readWithLen_total .longrep1 (by simp at h; omega)
  | true :: true :: true :: true :: false :: bs => exact readWithLen_total .longrep2 (by simp at h; omega)
  | true :: true :: true :: true :: true :: bs => exact readWithLen_total .longrep3 (by simp at h; omega)

/-- Settles O59, field by field. -/
theorem everyDecisionStringIsLegal : Obligations.EveryDecisionStringIsLegal := by
  unfold Obligations.EveryDecisionStringIsLegal
  refine ⟨fun bits h => ?_, fun x bits h => ?_, fun c bits h => ?_⟩
  · obtain ⟨y, rest, hread⟩ := readSymbol_total h
    exact ⟨y.toInstr, rest, by rw [decode, hread]⟩
  · obtain ⟨len, rest, hread, -⟩ := readLen_total h
    exact ⟨lenRow x len, rest, by rw [decode, readLenRow_eq, hread]; rfl⟩
  · obtain ⟨slot, e, rest, hread⟩ := readDist_total h
    exact ⟨distRow c slot e, rest, by rw [decode, readDistRow, hread]⟩

/-! ### The properties byte, and words written out -/

/-- The number a legal triple stands for (R92). -/
theorem encodeProps_toNat {lc lp pb : Nat} (hlc : lc ≤ 8) (hlp : lp ≤ 4) (hpb : pb ≤ 4) :
    (encodeProps lc lp pb).toNat = (pb * 5 + lp) * 9 + lc := by
  rw [encodeProps, BitVec.toNat_ofNat, Nat.mod_eq_of_lt (by omega)]

/-- Settles O5: the byte is a number of three digits in the radices 9, 5 and the rest. -/
theorem propertiesByteRoundTrip : Obligations.PropertiesByteRoundTrip := by
  unfold Obligations.PropertiesByteRoundTrip
  refine ⟨fun lc lp pb hlc hlp hpb => ?_, fun v => ?_⟩
  · have hv := encodeProps_toNat hlc hlp hpb
    refine ⟨by omega, ?_⟩
    simp only [decodeProps, hv, Prod.mk.injEq]
    omega
  · have hlt := v.isLt
    simp only [decodeProps]
    refine ⟨by omega, by omega, by omega, ?_⟩
    rw [encodeProps, show (v.toNat / 9 / 5 * 5 + v.toNat / 9 % 5) * 9 + v.toNat % 9 = v.toNat by omega]
    exact RoundTrip.ofNat_self v

/-- Settles O56, by running the decoder on the words. -/
theorem wordsDecode : Obligations.WordsDecode := by
  unfold Obligations.WordsDecode
  exact ⟨rfl, rfl, rfl, rfl, rfl, rfl, rfl⟩

end Sys2Proof
end

section
/-! SUPPORT. The decisions of the rows (`30_encoding.md` R97 to R104): their bits are those of the encoder, their slots those of the rules,
and a LEN or DIST row is executed by taking them. -/

namespace Sys2Proof.Machine

open Sys2Proof.Laws

/-! ### The bits of a decision sequence -/

@[simp] theorem lenPath_bits (x : LenInst) (ps len : Nat) : (lenPath x ps len).map Prod.snd = lenBits len := by
  unfold lenPath lenBits
  split_ifs <;> simp

@[simp] theorem extraPath_bits (slot e : Nat) : (extraPath slot e).map Prod.snd = extraBits slot e := by
  unfold extraPath extraBits
  split_ifs
  · rfl
  · exact treePath_bits _ _ _ _
  · rw [List.map_append, List.map_map, treePath_bits]
    exact congrArg (· ++ _) (List.map_id' _)

@[simp] theorem distPath_bits (c : LenClass) (slot e : Nat) : (distPath c slot e).map Prod.snd = distBits slot e := by
  simp [distPath, distBits]

@[simp] theorem litPath_bits (s : State) (mb : Option Byte) (b : Byte) : (litPath s mb b).map Prod.snd = bitsMsb 8 b.toNat := by
  cases mb
  · exact treePath_bits _ _ _ _
  · exact matchedPath_bits _ _ _ _ _

/-- The decisions of a symbol are the bits the encoder writes for it (R97 to R104). -/
theorem symbolPath_bits (s : State) (mb : Option Byte) (y : Symbol) : (symbolPath s mb y).map Prod.snd = y.bits := by
  cases y with
  | lit b => exact congrArg (false :: ·) (litPath_bits s mb b)
  | matchNew len dist =>
    rw [symbolPath, List.map_cons, List.map_cons, List.map_append, lenPath_bits, distancePath, distPath_bits]
    rfl
  | eos len =>
    rw [symbolPath, List.map_cons, List.map_cons, List.map_append, lenPath_bits, distancePath, distPath_bits]
    exact (ofMatch_bits len eosDistance).symm
  | shortrep => rfl
  | longrep0 len => exact congrArg ([true, true, false, true] ++ ·) (lenPath_bits _ _ len)
  | longrep1 len => exact congrArg ([true, true, true, false] ++ ·) (lenPath_bits _ _ len)
  | longrep2 len => exact congrArg ([true, true, true, true, false] ++ ·) (lenPath_bits _ _ len)
  | longrep3 len => exact congrArg ([true, true, true, true, true] ++ ·) (lenPath_bits _ _ len)

/-! ### LEN and DIST rows -/

/-- A row that takes the decisions `ds` takes their bits on their slots. -/
theorem takesField_of_path {i : Instr} {ds : List Decision} {v : Nat} {s : State}
    (h : exec i s = (takeBits ds s).finish fun _ => some v) : TakesField i (ds.map Prod.fst) (ds.map Prod.snd) v s :=
  ⟨by rw [List.length_map, List.length_map], by rw [path_eq_zip]; exact h⟩

/-- Given decisions complete when the bytes are there, and change only the slots they name. -/
theorem takeBits_completes {gs : List ProbGroup} {ds : List Decision} {s : State} {n : Nat} (h : CoderOk s) (hok : PathOk s ds)
    (hin : PathIn gs ds) (hn : ds.length ≤ n) (hs : supplies n s.source = true) :
    ∃ t, takeBits ds s = .ok () t ∧ CoderOk t ∧ CoderFrame gs s t := by
  obtain ⟨_, t, ht, hcoder, -⟩ := (takeBits_runs h hok).run 0 (by rw [Nat.zero_add]; exact supplies_mono hn hs)
  have hframe := (takeBits_frame ds hin s).post
  rw [ht] at hframe
  exact ⟨t, ht, hcoder, hframe⟩

theorem CoderFrame.setResult {gs : List ProbGroup} {s t : State} (h : CoderFrame gs s t) (v : Option Nat) :
    CoderFrame gs s { t with result := v } :=
  ⟨by conv_lhs => rw [h.rest], h.win, h.fill, h.slots, h.source⟩

/-- A field executed with its bits given completes when the bytes are there. -/
theorem takeField_completes {gs : List ProbGroup} {ds : List Decision} {s : State} {n : Nat} (v : Nat) (h : CoderOk s)
    (hok : PathOk s ds) (hin : PathIn gs ds) (hn : ds.length ≤ n) (hs : supplies n s.source = true) :
    ∃ t, ((takeBits ds s).finish fun _ => some v) = .next t ∧ t.result = some v ∧ CoderOk t ∧ CoderFrame gs s t := by
  obtain ⟨t, ht, hcoder, hframe⟩ := takeBits_completes h hok hin hn hs
  exact ⟨{ t with result := some v }, by rw [ht, Res.finish_ok], rfl, hcoder.same rfl rfl, hframe.setResult _⟩

/-- `i` is the LEN row of the length `len` on the decoder `x` (R100): it is written and executed as that field. -/
structure LenField (i : Instr) (x : LenInst) (len : Nat) : Prop where
  lenOk : lenOk len = true
  encode : encode i = some (.len x, lenBits len)
  exec : ∀ s, exec i s = takeLen x len s

/-- Every LEN row is the field of the length it stands for. -/
theorem lenField_of_value {i : Instr} {x : LenInst} {v : Nat} (hx : lenRowInst i = some x) (hv : lenRowValue i = some v) :
    LenField i x v := by
  cases i with
  | lenLow x t =>
    cases hx; cases hv
    exact ⟨(lenOk_iff _).2 (by omega), by rw [lenBits_low t.isLt]; rfl, fun _ => rfl⟩
  | lenMid x t =>
    cases hx; cases hv
    exact ⟨(lenOk_iff _).2 (by omega), by rw [lenBits_mid t.isLt]; rfl, fun _ => rfl⟩
  | lenHigh x t =>
    cases hx; cases hv
    exact ⟨(lenOk_iff _).2 (by omega), by rw [lenBits_high]; rfl, fun _ => rfl⟩
  | _ => cases hx

theorem exists_lenRowInst {i : Instr} {v : Nat} (hv : lenRowValue i = some v) : ∃ x, lenRowInst i = some x := by
  cases i with
  | lenLow x t => exact ⟨x, rfl⟩
  | lenMid x t => exact ⟨x, rfl⟩
  | lenHigh x t => exact ⟨x, rfl⟩
  | _ => cases hv

/-- Every DIST row is the field of a position slot and extra bits, of the distance it stands for. -/
theorem exists_distField {i : Instr} {v : Nat} (hv : distRowValue i = some v) :
    ∃ c slot e, slot < 64 ∧ e < 2 ^ extraWidth slot ∧ v = distBase slot + e ∧ DistField i c slot e := by
  -- row by row: there is no distance, or the row is written in a distance's context
  have hrow : i.wf = true ∧ ∃ c bits, encode i = some (.dist c, bits) := by
    cases i <;> cases hv <;> exact ⟨rfl, _, _, rfl⟩
  obtain ⟨hwf, c, bits, henc⟩ := hrow
  obtain ⟨slot, e, hslot, he, rfl, -⟩ := decode_dist_ok (roundTrip i hwf _ bits henc [])
  have hfield := distField_distRow c hslot he
  exact ⟨c, slot, e, hslot, he, Option.some.inj (hv.symm.trans hfield.value), hfield⟩

/-- Settles O35, by the length field each row is. -/
theorem lengthRows : Obligations.LengthRows := by
  unfold Obligations.LengthRows
  intro s i x v hprops hx hv
  have hrow := lenField_of_value hx hv
  obtain ⟨hlow, hhigh⟩ := (lenOk_iff v).1 hrow.lenOk
  refine ⟨hlow, hhigh, ⟨lenBits v, hrow.encode, ?_⟩, fun hcoder hs => ?_⟩
  · have hfield := takesField_of_path (hrow.exec s)
    rwa [lenPath_bits, lenPath_slots x _ v hrow.lenOk, posState_eq hprops] at hfield
  · rw [hrow.exec]
    exact takeField_completes v hcoder (lenPath_ok x (posState_lt hprops) v) (lenPath_in (List.Subset.refl _) _ v)
      (lenPath_length x _ v) hs

/-- Settles O45, by the position slot and the extra bits each row is. -/
theorem distanceRows : Obligations.DistanceRows := by
  unfold Obligations.DistanceRows
  intro s i v hv
  obtain ⟨c, slot, e, hslot, he, rfl, hrow⟩ := exists_distField hv
  refine ⟨distBase_add_lt hslot he, ⟨c, distBits slot e, hrow.encode, ?_⟩, fun hcoder hs => ?_⟩
  · have hfield := takesField_of_path (hrow.exec s)
    rwa [distPath_bits, distPath_slots c hslot he] at hfield
  · rw [hrow.exec]
    exact takeField_completes _ hcoder (distPath_ok s c slot e) (distPath_in (List.Subset.refl _) c slot e)
      (distPath_length c hslot e) hs

/-! ### The slots of a literal (`43_literal_decoder.md` R171, R172) -/

/-- The first bits of a number with `n` more bits behind the leading ones: those of its leading part, then those of its rest. -/
theorem div_split (v : Nat) {k n : Nat} (hk : k ≤ n) : v / 2 ^ (n - k) = 2 ^ k * (v / 2 ^ n) + v % 2 ^ n / 2 ^ (n - k) := by
  have hpow : 2 ^ n = 2 ^ (n - k) * 2 ^ k := by rw [← pow_add, Nat.sub_add_cancel hk]
  conv_lhs => rw [← Nat.div_add_mod v (2 ^ n), hpow, Nat.mul_assoc]
  rw [Nat.mul_add_div (by positivity), ← hpow]

/-- The first `k + 1` bits of two numbers agree when their first bits do and then the `k` bits behind. -/
theorem div_eq_div_iff_split (v w : Nat) {k n : Nat} (hk : k ≤ n) :
    v / 2 ^ (n - k) = w / 2 ^ (n - k) ↔
      v / 2 ^ n = w / 2 ^ n ∧ v % 2 ^ n / 2 ^ (n - k) = w % 2 ^ n / 2 ^ (n - k) := by
  have hlt : ∀ u, u % 2 ^ n / 2 ^ (n - k) < 2 ^ k := fun u => by
    rw [Nat.div_lt_iff_lt_mul (by positivity), ← pow_add, Nat.add_sub_cancel' hk]
    exact Nat.mod_lt _ (by positivity)
  rw [div_split v hk, div_split w hk]
  constructor
  · intro h
    have hdiv := congrArg (· / 2 ^ k) h
    simp only [Nat.mul_add_div (show 2 ^ k > 0 by positivity), Nat.div_eq_of_lt (hlt _), Nat.add_zero] at hdiv
    exact ⟨hdiv, by rw [hdiv] at h; omega⟩
  · rintro ⟨h1, h2⟩
    rw [h1, h2]

/-- Out of the matched mode a literal is a walk down the plain tree. -/
theorem matchedPath_false (base : Nat) (mm : Byte) (m : Nat) (bs : List Bool) :
    matchedPath base false mm m bs = treePath .lit base m bs := by
  induction bs generalizing m with
  | nil => rfl
  | cons b bs ih =>
    rw [matchedPath, treePath, ih]
    push_cast
    rfl

/-- The slot of level `k`, of `d` levels left, in matched mode from node `m`, for the byte's bits `v` and the match byte's bits `w`. -/
def matchedLevel (base m d v w k : Nat) : BitSource :=
  .slot .lit (base + (if w / 2 ^ (d - k) = v / 2 ^ (d - k) then (1 + w / 2 ^ (d - 1 - k) % 2) * 256 else 0) +
    (m * 2 ^ k + v / 2 ^ (d - k)) : Nat)

/-- The node of level `k + 1`, by the step from the first level. -/
theorem node_succ (m v : Nat) {k d : Nat} (hk : k ≤ d) :
    m * 2 ^ (k + 1) + v / 2 ^ (d - k) = (2 * m + v / 2 ^ d) * 2 ^ k + v % 2 ^ d / 2 ^ (d - k) := by
  rw [div_split v hk, pow_succ]
  ring

theorem matchedLevel_succ_of_eq {base m d v w k : Nat} (hk : k < d) (h : w / 2 ^ d = v / 2 ^ d) :
    matchedLevel base m (d + 1) v w (k + 1) = matchedLevel base (2 * m + v / 2 ^ d) d (v % 2 ^ d) (w % 2 ^ d) k := by
  have hagree := div_eq_div_iff_split w v hk.le
  have hbit : w / 2 ^ (d - (k + 1)) % 2 = w % 2 ^ d / 2 ^ (d - (k + 1)) % 2 := by
    rw [div_split w hk, pow_succ, Nat.mul_assoc, Nat.mul_left_comm, Nat.mul_add_mod]
  unfold matchedLevel
  simp only [Nat.add_sub_add_right, Nat.add_sub_cancel, hagree, h, true_and, hbit, node_succ m v hk.le, Nat.sub_sub, Nat.add_comm 1 k]

theorem matchedLevel_succ_of_ne {base m d v w k : Nat} (hk : k < d) (h : w / 2 ^ d ≠ v / 2 ^ d) :
    matchedLevel base m (d + 1) v w (k + 1) =
      .slot .lit (base + ((2 * m + v / 2 ^ d) * 2 ^ k + v % 2 ^ d / 2 ^ (d - k) : Nat)) := by
  have hagree := div_eq_div_iff_split w v hk.le
  unfold matchedLevel
  rw [Nat.add_sub_add_right, if_neg fun hc => h (hagree.1 hc).1, node_succ m v hk.le]
  push_cast
  rfl

theorem top_lt_two {v d : Nat} (hv : v < 2 ^ (d + 1)) : v / 2 ^ d < 2 := by
  rwa [Nat.div_lt_iff_lt_mul (by positivity), Nat.mul_comm, ← pow_succ]

/-- The match bit of level 0 is the leading one of the bits that are left. -/
theorem msb_of_shifted {mm : Byte} {w d : Nat} (hd : d + 1 ≤ 8) (hw : w < 2 ^ (d + 1)) (hmm : mm.toNat = w * 2 ^ (8 - (d + 1))) :
    mm.msb.toNat = w / 2 ^ d := by
  have hpow : 2 ^ 7 = 2 ^ d * 2 ^ (8 - (d + 1)) := by rw [← pow_add]; congr 1; omega
  have hle : 2 ^ 7 ≤ mm.toNat ↔ 1 ≤ w / 2 ^ d := by
    rw [hmm, hpow, Nat.mul_le_mul_right_iff (by positivity), Nat.le_div_iff_mul_le (by positivity), Nat.one_mul]
  have hlt := top_lt_two hw
  rw [BitVec.msb_eq_decide]
  by_cases h : 2 ^ 7 ≤ mm.toNat
  · rw [decide_eq_true h]
    exact (Nat.le_antisymm (by omega) (hle.1 h)).symm
  · rw [decide_eq_false h]
    exact (Nat.lt_one_iff.1 (Nat.not_le.1 (mt hle.2 h))).symm

/-- Shifting the match byte drops that bit. -/
theorem shifted_succ {mm : Byte} {w d : Nat} (hd : d + 1 ≤ 8) (hmm : mm.toNat = w * 2 ^ (8 - (d + 1))) :
    (mm <<< 1).toNat = w % 2 ^ d * 2 ^ (8 - d) := by
  have hpow : 2 ^ 8 = 2 ^ d * 2 ^ (8 - d) := by rw [← pow_add]; congr 1; omega
  rw [BitVec.toNat_shiftLeft, Nat.shiftLeft_eq, hmm, Nat.mul_assoc, ← pow_succ, show 8 - (d + 1) + 1 = 8 - d by omega, hpow,
    Nat.mul_mod_mul_right]

theorem testBit_of_lt {v d : Nat} (hv : v < 2 ^ (d + 1)) : (v.testBit d).toNat = v / 2 ^ d := by
  rw [testBit_toNat, Nat.mod_eq_of_lt (top_lt_two hv)]

/-- The levels of the matched mode (R172): as long as the bits agree with those of the match byte on its tree, and from the first that differs
down the plain tree. -/
theorem matchedPath_levels (base : Nat) (mm : Byte) (m d v w : Nat) (hd : d ≤ 8) (hv : v < 2 ^ d) (hw : w < 2 ^ d)
    (hmm : mm.toNat = w * 2 ^ (8 - d)) :
    (matchedPath base true mm m (bitsMsb d v)).map Prod.fst = (List.range d).map (matchedLevel base m d v w) := by
  induction d generalizing mm m v w with
  | zero => rfl
  | succ d ih =>
    have hbit := testBit_of_lt hv
    have hmsb := msb_of_shifted hd hw hmm
    rw [bitsMsb, ← bitsMsb_mod, matchedPath, List.map_cons, List.range_succ_eq_map, List.map_cons, List.map_map, hbit]
    refine congrArg₂ _ ?_ ?_
    · -- level 0
      rw [matchedLevel, Nat.sub_zero, Nat.div_eq_of_lt hv, Nat.div_eq_of_lt hw, if_pos rfl, hmsb, Nat.add_sub_cancel, Nat.sub_zero,
        Nat.mod_eq_of_lt (top_lt_two hw), pow_zero, Nat.mul_one, Nat.add_zero]
    · by_cases hagree : w / 2 ^ d = v / 2 ^ d
      · -- the bit is the match bit
        have hb : (v.testBit d == mm.msb) = true := by
          rw [beq_iff_eq, ← Bool.ofNat_toNat (v.testBit d), hbit, ← hagree, ← hmsb, Bool.ofNat_toNat]
        rw [hb, ih _ _ _ _ (by omega) (Nat.mod_lt _ (by positivity)) (Nat.mod_lt _ (by positivity)) (shifted_succ hd hmm)]
        exact List.map_congr_left fun k hk => (matchedLevel_succ_of_eq (List.mem_range.1 hk) hagree).symm
      · have hb : (v.testBit d == mm.msb) = false := by
          rw [beq_eq_false_iff_ne]
          intro h
          exact hagree (by rw [← hbit, ← hmsb, h])
        rw [hb, matchedPath_false, treePath_levels _ _ _ _ _ (Nat.mod_lt _ (by positivity))]
        exact List.map_congr_left fun k hk => (matchedLevel_succ_of_ne (List.mem_range.1 hk) hagree).symm

theorem litPath_slots {s : State} (h : PropertiesOk s) (mb : Option Byte) (b : Byte) :
    (litPath s mb b).map Prod.fst = litSlots (litBase s) mb b.toNat := by
  have hbase : litSubDecoder s * litSubSize = litBase s := by rw [litSubDecoder_eq h]; rfl
  unfold litPath litSlots
  rw [hbase]
  cases mb with
  | none =>
    rw [treePath_slots _ _ _ _ b.isLt]
    refine List.map_congr_left fun k _ => ?_
    simp
  | some mm =>
    rw [matchedPath_levels _ _ _ 8 _ mm.toNat le_rfl b.isLt mm.isLt (by simp)]
    refine List.map_congr_left fun k _ => ?_
    rw [matchedLevel, Nat.one_mul]

/-! ### The slots of a symbol (R97 to R104, R200) -/

theorem stateIndex_eq {s : State} (h : PropertiesOk s) : stateIndex s = s.state.toNat * 2 ^ s.pb.toNat + posStateOf s := by
  rw [stateIndex, Nat.shiftLeft_eq, posState_eq h]
  rfl

theorem lenClassOf_val (len : Nat) : (lenClassOf len).val = min (len - 2) 3 := by
  unfold lenClassOf
  split_ifs with h0 h1 h2
  · rw [h0]; rfl
  · rw [h1]; rfl
  · rw [h2]; rfl
  · exact (min_eq_right (by omega)).symm

theorem distancePath_slots (len : Nat) (dist : Word) :
    (distancePath (lenClassOf len) dist).map Prod.fst = distSlots (min (len - 2) 3) dist.toNat := by
  obtain ⟨hslot, hbase, he⟩ := posSlotOf_range dist.isLt
  rw [distancePath, distPath_slots _ hslot he, lenClassOf_val, Nat.add_sub_cancel' hbase]

/-- The decisions of a well-formed symbol stand on the slots the rules name. -/
theorem symbolPath_slots {s : State} (h : PropertiesOk s) (mb : Option Byte) {y : Symbol} (hy : y.toInstr.wf = true) :
    (symbolPath s mb y).map Prod.fst = symbolSlots s mb y := by
  have hps : posState s = posStateOf s := posState_eq h
  have hlen : ∀ x len, lenOk len = true → (lenPath x (posState s) len).map Prod.fst = lenSlots x (posStateOf s) len :=
    fun x len hok => by rw [lenPath_slots x _ len hok, hps]
  cases y with
  | lit b =>
    rw [symbolPath, List.map_cons, litPath_slots h, isMatchBit, stateIndex_eq h]
    rfl
  | matchNew len dist =>
    rw [Symbol.toInstr, Instr.wf, Bool.and_eq_true] at hy
    simp only [symbolPath, List.map_cons, List.map_append, isMatchBit, isRepBit, stateIndex_eq h, hlen _ _ hy.1, distancePath_slots]
    rfl
  | eos len =>
    simp only [symbolPath, List.map_cons, List.map_append, isMatchBit, isRepBit, stateIndex_eq h, hlen _ _ hy, distancePath_slots]
    rfl
  | shortrep =>
    simp only [symbolPath, List.map_cons, isMatchBit, isRepBit, isRepG0Bit, isRep0LongBit, stateIndex_eq h]
    rfl
  | longrep0 len =>
    simp only [symbolPath, List.map_cons, isMatchBit, isRepBit, isRepG0Bit, isRep0LongBit, stateIndex_eq h, hlen _ _ hy]
    rfl
  | longrep1 len =>
    simp only [symbolPath, List.map_cons, isMatchBit, isRepBit, isRepG0Bit, isRepG1Bit, stateIndex_eq h, hlen _ _ hy]
    rfl
  | longrep2 len =>
    simp only [symbolPath, List.map_cons, isMatchBit, isRepBit, isRepG0Bit, isRepG1Bit, isRepG2Bit, stateIndex_eq h, hlen _ _ hy]
    rfl
  | longrep3 len =>
    simp only [symbolPath, List.map_cons, isMatchBit, isRepBit, isRepG0Bit, isRepG1Bit, isRepG2Bit, stateIndex_eq h, hlen _ _ hy]
    rfl

/-! ### A symbol row takes its decisions -/

theorem exec_toInstr (y : Symbol) (s : State) : exec y.toInstr s = finishSymbol (takeSymbol y s) := by
  cases y <;> rfl

theorem exec_winGet (d : Word) (s : State) : exec (.winGet d) s = (winGet d s).finish fun b => some b.toNat := rfl

/-- `WIN_GET` yields a byte as an instruction when it does as an operation. -/
theorem exec_winGet_eq_iff (d : Word) (m : Byte) (s : State) :
    exec (.winGet d) s = .next { s with result := some m.toNat } ↔ winGet d s = .ok m s := by
  rw [exec_winGet]
  constructor
  · intro h
    rcases hget : winGet d s with ⟨b, t⟩ | ⟨k, t⟩ | f <;> rw [hget] at h
    · obtain rfl := winGet_state hget
      have hres := congrArg State.result (Host.Outcome.next.inj h)
      rw [BitVec.eq_of_toNat_eq (Option.some.inj hres)]
    · have hres := congrArg State.result (Host.Outcome.next.inj h)
      cases hres
    · cases h
  · intro h
    rw [h, Res.finish_ok]

/-- The match byte of the rules is the one the model decodes a literal with. -/
theorem isMatchByte_iff (s : State) (mb : Option Byte) : IsMatchByte s mb ↔ literalContext s = .ok mb s := by
  unfold IsMatchByte literalContext
  by_cases hchar : s.state.toNat < 7
  · have hchar' : isCharState s.state = true := by simpa [isCharState] using hchar
    rw [if_pos hchar, if_pos hchar']
    simp [eq_comm]
  · have hchar' : ¬ isCharState s.state = true := by simpa [isCharState] using hchar
    rw [if_neg hchar, if_neg hchar', Res.map_eq_ok]
    simp only [exec_winGet_eq_iff]
    exact exists_congr fun m => by rw [and_comm, eq_comm (a := mb)]

/-- A symbol whose fields are given takes its decisions, a literal with its match byte, and then has its effect. -/
theorem takeSymbol_eq {s : State} {mb : Option Byte} {y : Symbol} (hmb : ∀ b, y = .lit b → literalContext s = .ok mb s) :
    takeSymbol y s = (takeBits (symbolPath s mb y) s).bind fun _ t => symbolEffect y t := by
  cases y with
  | lit b => rw [takeSymbol, hmb b rfl, Res.bind_ok]
  | _ => rfl

/-- Settles O47, by the decision sequences of symbols, and the fields LEN and DIST rows are. -/
theorem rowsTakeTheirBits : Obligations.RowsTakeTheirBits := by
  unfold Obligations.RowsTakeTheirBits
  refine ⟨fun s mb y hwf => ⟨symbolPath_bits s mb y, fun hprops => symbolPath_slots hprops mb hwf⟩,
    fun s mb y hprops hwf hmb => ?_, fun s i v ctx bits hwf henc hv => ?_⟩
  · rw [← symbolPath_slots hprops mb hwf, ← symbolPath_bits s mb y, path_eq_zip, exec_toInstr,
      takeSymbol_eq fun b hb => (isMatchByte_iff s mb).1 (hmb b hb)]
    exact ⟨by rw [List.length_map, List.length_map], rfl⟩
  · rcases hv with hv | hv
    · obtain ⟨x, hx⟩ := exists_lenRowInst hv
      have hrow := lenField_of_value hx hv
      obtain ⟨rfl, rfl⟩ := Prod.mk.inj (Option.some.inj (henc.symm.trans hrow.encode))
      exact ⟨lenPath x (posState s) v, lenPath_bits _ _ _, hrow.exec s⟩
    · obtain ⟨c, slot, e, -, -, rfl, hrow⟩ := exists_distField hv
      obtain ⟨rfl, rfl⟩ := Prod.mk.inj (Option.some.inj (henc.symm.trans hrow.encode))
      exact ⟨distPath c slot e, distPath_bits _ _ _, hrow.exec s⟩

end Sys2Proof.Machine
end

section
/-! SUPPORT. `SYMBOL()` and the row it decodes: every bit of the symbol is the bit `RC_BIT` or `RC_DIRECT` decodes from `code`
(`30_encoding.md` R97, R109), and the end marker (`45_symbols.md` R207). -/

namespace Sys2Proof.Machine

/-! ### Decisions that are decoded -/

/-- From `s` the decisions are decoded from `code` one after another, and lead to `t`: each bit is what `RC_BIT` on its slot, or a turn of
`RC_DIRECT`, yields in the state the decisions before it left. -/
inductive Decoded : List Decision → State → State → Prop where
  | nil (s : State) : Decoded [] s s
  | slot {g : ProbGroup} {i : Int} {bit : Bool} {ds : List Decision} {s t u : State} (hbit : rcBit g i s = .ok bit t)
      (hrest : Decoded ds t u) : Decoded ((.slot g i, bit) :: ds) s u
  | direct {bit : Bool} {ds : List Decision} {s t u : State} (hbit : directBit s = .ok bit t) (hrest : Decoded ds t u) :
      Decoded ((.direct, bit) :: ds) s u

theorem Decoded.append {ds es : List Decision} {s t u : State} (h : Decoded ds s t) (h' : Decoded es t u) : Decoded (ds ++ es) s u := by
  induction h with
  | nil => exact h'
  | slot hbit _ ih => exact .slot hbit (ih h')
  | direct hbit _ ih => exact .direct hbit (ih h')

/-- Decoded decisions are taken the same way when their bits are given (log 3). -/
theorem Decoded.takeBits_eq {ds : List Decision} {s t : State} (h : Decoded ds s t) : takeBits ds s = .ok () t := by
  induction h with
  | nil => rfl
  | slot hbit _ ih => exact (takeBits_cons_ok (rcBit_forced hbit)).trans ih
  | direct hbit _ ih => exact (takeBits_cons_ok (directBit_forced hbit)).trans ih

theorem rcBit_result {g : ProbGroup} {i : Int} {s t : State} {bit : Bool} (h : rcBit g i s = .ok bit t) : t.result = s.result := by
  have hset := rcBit_setResult s.result g i s
  rw [h] at hset
  obtain ⟨-, ht⟩ := Res.ok.inj hset
  rw [ht]

theorem directBit_result {s t : State} {bit : Bool} (h : directBit s = .ok bit t) : t.result = s.result := by
  have hset := directBit_setResult s.result s
  rw [h] at hset
  obtain ⟨-, ht⟩ := Res.ok.inj hset
  rw [ht]

theorem Decoded.result {ds : List Decision} {s t : State} (h : Decoded ds s t) : t.result = s.result := by
  induction h with
  | nil => rfl
  | slot hbit _ ih => exact ih.trans (rcBit_result hbit)
  | direct hbit _ ih => exact ih.trans (directBit_result hbit)

/-- The bits are those of `RC_BIT` and `RC_DIRECT` run as instructions, which differ in the field `result` only (log 5). -/
theorem Decoded.fromCode {ds : List Decision} {s t : State} (h : Decoded ds s t) (v : Option Nat) :
    ∃ v', DecodedFromCode ds { s with result := v } { t with result := v' } := by
  induction h generalizing v with
  | nil => exact ⟨v, rfl⟩
  | slot hbit _ ih =>
    obtain ⟨v', hrest⟩ := ih (some _)
    exact ⟨v', .slot hbit hrest⟩
  | direct hbit _ ih =>
    obtain ⟨v', hrest⟩ := ih (some _)
    exact ⟨v', .direct hbit hrest⟩

/-! ### Trees and direct bits -/

/-- The bit that enters a number from the right is the one in front of the `d` bits behind it. -/
theorem testBit_entered (m : Nat) (bit : Bool) {d v : Nat} (hv : v < 2 ^ d) : ((2 * m + bit.toNat) * 2 ^ d + v).testBit d = bit := by
  rw [Nat.testBit_eq_decide_div_mod_eq, Nat.mul_comm, Nat.mul_add_div (by positivity), Nat.div_eq_of_lt hv]
  cases bit <;> simp [Nat.add_mod]

theorem treeWalk_decoded {g : ProbGroup} {base : Int} {d m r : Nat} {s t : State} (h : treeWalk g base d m s = .ok r t) :
    Decoded (treePath g base m (bitsMsb d r)) s t := by
  induction d generalizing m s with
  | zero => cases h; exact .nil _
  | succ d ih =>
    obtain ⟨bit, u, hbit, hwalk⟩ := Res.bind_eq_ok.1 h
    obtain ⟨v, hv, hr, -⟩ := treeWalk_forced hwalk
    rw [bitsMsb, show r.testBit d = bit from hr ▸ testBit_entered m bit hv]
    exact .slot hbit (ih hwalk)

theorem btDecode_decoded {g : ProbGroup} {base : Int} {d v : Nat} {s t : State} (h : btDecode g base d s = .ok v t) :
    Decoded (treePath g base 1 (bitsMsb d v)) s t := by
  obtain ⟨r, hwalk, rfl⟩ := Res.map_eq_ok.1 h
  obtain ⟨v, hv, rfl, -⟩ := treeWalk_forced hwalk
  have hbits : bitsMsb d (1 * 2 ^ d + v - 2 ^ d) = bitsMsb d (1 * 2 ^ d + v) := by
    rw [← bitsMsb_mod d (1 * 2 ^ d + v), Nat.one_mul, Nat.add_mod_left, Nat.mod_eq_of_lt hv, Nat.add_sub_cancel_left]
  rw [hbits]
  exact treeWalk_decoded hwalk

theorem reverseWalk_decoded {g : ProbGroup} {base : Int} {d k m r x : Nat} {s t : State}
    (h : reverseWalk g base d k m r s = .ok x t) (hr : r < 2 ^ k) : Decoded (treePath g base m (bitsLsb d (x / 2 ^ k))) s t := by
  induction d generalizing k m r s with
  | zero => cases h; exact .nil _
  | succ d ih =>
    obtain ⟨bit, u, hbit, hwalk⟩ := Res.bind_eq_ok.1 h
    have hlt : r ||| bit.toNat <<< k < 2 ^ (k + 1) := by
      refine Nat.or_lt_two_pow (hr.trans (Nat.pow_lt_pow_right (by norm_num) k.lt_succ_self)) ?_
      rw [Nat.shiftLeft_eq, pow_succ, Nat.mul_comm]
      exact Nat.mul_lt_mul_of_pos_left (Bool.toNat_lt bit) (by positivity)
    obtain ⟨v, -, hx, -⟩ := reverseWalk_forced hwalk hlt
    have hodd : (x / 2 ^ k % 2 == 1) = bit := by
      have htest : x.testBit k = bit := by
        rw [hx, Nat.add_comm, Nat.mul_comm, Nat.testBit_two_pow_mul_add _ hlt]
        cases bit <;> simp [Nat.testBit_lt_two_pow hr]
      rw [← htest, Nat.testBit_eq_decide_div_mod_eq]
      rfl
    rw [bitsLsb, hodd, Nat.div_div_eq_div_mul, ← pow_succ]
    exact .slot hbit (ih hwalk hlt)

theorem btReverse_decoded {g : ProbGroup} {base : Int} {d v : Nat} {s t : State} (h : btReverse g base d s = .ok v t) :
    Decoded (treePath g base 1 (bitsLsb d v)) s t := by
  have hwalk := reverseWalk_decoded h (by simp)
  rwa [pow_zero, Nat.div_one] at hwalk

theorem getLsbD_entered_zero (acc : Word) (bit : Bool) : ((acc <<< 1) ||| BitVec.ofNat 32 bit.toNat).getLsbD 0 = bit := by
  cases bit <;> simp

theorem getLsbD_entered_succ (acc : Word) (bit : Bool) {j : Nat} (hj : j + 1 < 32) :
    ((acc <<< 1) ||| BitVec.ofNat 32 bit.toNat).getLsbD (j + 1) = acc.getLsbD j := by
  rw [BitVec.getLsbD_or, BitVec.getLsbD_shiftLeft]
  cases bit <;> simp [hj]

/-- The bits decoded so far stand in front of the `n` that are left. -/
theorem directLoop_getLsbD {n : Nat} {acc x : Word} {s t : State} (h : directLoop n acc s = .ok x t) {j : Nat} (hj : n + j < 32) :
    x.getLsbD (n + j) = acc.getLsbD j := by
  induction n generalizing acc s j with
  | zero => cases h; rw [Nat.zero_add]
  | succ n ih =>
    obtain ⟨bit, u, -, hloop⟩ := Res.bind_eq_ok.1 h
    rw [Nat.add_right_comm, Nat.add_assoc, ih hloop (by omega), getLsbD_entered_succ acc bit (by omega)]

theorem directLoop_decoded {n : Nat} {acc x : Word} {s t : State} (h : directLoop n acc s = .ok x t) (hn : n ≤ 32) :
    Decoded ((bitsMsb n x.toNat).map fun b => (BitSource.direct, b)) s t := by
  induction n generalizing acc s with
  | zero => cases h; exact .nil _
  | succ n ih =>
    obtain ⟨bit, u, hbit, hloop⟩ := Res.bind_eq_ok.1 h
    have hx : x.toNat.testBit n = bit := by
      have hlow := directLoop_getLsbD hloop (j := 0) (by omega)
      rwa [getLsbD_entered_zero] at hlow
    rw [bitsMsb, hx, List.map_cons]
    exact .direct hbit (ih hloop (by omega))

/-! ### Fields -/

theorem lenDecode_decoded {x : LenInst} {ps len : Nat} {s t : State} (h : lenDecode x ps s = .ok len t) :
    Decoded (lenPath x ps len) s t := by
  obtain ⟨c0, u, h0, h⟩ := Res.bind_eq_ok.1 h
  split_ifs at h with hlow
  · -- `LEN.low`
    subst hlow
    obtain ⟨r, hr, rfl⟩ := Res.map_eq_ok.1 h
    have hlt : r < 8 := (btDecode_forced hr).1
    rw [lenPath, if_pos (by simp only [matchMinLen]; omega), Nat.add_sub_cancel]
    exact .slot h0 (btDecode_decoded hr)
  obtain rfl := Bool.eq_true_of_not_eq_false hlow
  obtain ⟨c1, w, h1, h⟩ := Res.bind_eq_ok.1 h
  split_ifs at h with hmid
  · -- `LEN.mid`
    subst hmid
    obtain ⟨r, hr, rfl⟩ := Res.map_eq_ok.1 h
    have hlt : r < 8 := (btDecode_forced hr).1
    rw [lenPath, if_neg (by simp only [matchMinLen]; omega), if_pos (by simp only [matchMinLen]; omega),
      show 8 + r + matchMinLen - 10 = r by simp only [matchMinLen]; omega]
    exact .slot h0 (.slot h1 (btDecode_decoded hr))
  · -- `LEN.high`
    obtain rfl := Bool.eq_true_of_not_eq_false hmid
    obtain ⟨r, hr, rfl⟩ := Res.map_eq_ok.1 h
    rw [lenPath, if_neg (by simp only [matchMinLen]; omega), if_neg (by simp only [matchMinLen]; omega),
      show 16 + r + matchMinLen - 18 = r by simp only [matchMinLen]; omega]
    exact .slot h0 (.slot h1 (btDecode_decoded hr))

/-- `DIST_DECODE` decodes the distance field of its result (`45_symbols.md` R206). -/
theorem distDecode_decoded {len : Nat} {dist : Word} {s t : State} (h : distDecode len s = .ok dist t) :
    Decoded (distancePath (lenClassOf len) dist) s t := by
  obtain ⟨slot, u, hslot, h⟩ := Res.bind_eq_ok.1 h
  have hlt : slot < 64 := (btDecode_forced hslot).1
  obtain ⟨e, he, hdist, hextra⟩ : ∃ e, e < 2 ^ extraWidth slot ∧ dist = BitVec.ofNat 32 (distBase slot + e) ∧
      Decoded (extraPath slot e) u t := by
    unfold extraWidth extraPath
    split_ifs at h ⊢ with h4 h14
    · cases h
      exact ⟨0, by simp, by rw [distBase_of_lt h4, Nat.add_zero], .nil _⟩
    · obtain ⟨r, hr, rfl⟩ := Res.map_eq_ok.1 h
      exact ⟨r, (btReverse_forced hr).1, rfl, btReverse_decoded hr⟩
    · obtain ⟨hi, w, hdirect, h⟩ := Res.bind_eq_ok.1 h
      obtain ⟨lo, hlo, rfl⟩ := Res.map_eq_ok.1 h
      have hwidth := directBits_eq slot
      have hn : directBits slot - alignBits ≤ 32 := by omega
      have hhi := (rcDirect_forced hdirect hn).1
      have hlo16 : lo < 16 := (btReverse_forced hlo).1
      have hsplit : 2 ^ directBits slot = 2 ^ (directBits slot - alignBits) * 16 := by
        simp only [endPosModelIndex] at h14
        rw [show (16 : Nat) = 2 ^ alignBits by norm_num, ← pow_add, Nat.sub_add_cancel (by simp only [alignBits]; omega)]
      refine ⟨hi.toNat * 16 + lo, by omega, by rw [Nat.shiftLeft_eq, Nat.add_assoc]; rfl, ?_⟩
      rw [show (hi.toNat * 16 + lo) / 16 = hi.toNat by omega, show (hi.toNat * 16 + lo) % 16 = lo by omega]
      exact (directLoop_decoded hdirect hn).append (btReverse_decoded hlo)
  obtain ⟨hp, hd⟩ := distance_fields he (dist := dist)
    (by rw [hdist, BitVec.toNat_ofNat, Nat.mod_eq_of_lt (distBase_add_lt hlt he)])
  rw [distancePath, hd, hp]
  exact (btDecode_decoded hslot).append hextra

/-! ### Literals -/

theorem litMatchedLoop_decoded {base n m r : Nat} {matched : Bool} {mb : Byte} {s t : State}
    (h : litMatchedLoop base n matched mb m s = .ok r t) : Decoded (matchedPath base matched mb m (bitsMsb n r)) s t := by
  induction n generalizing matched mb m s with
  | zero => cases h; cases matched <;> exact .nil _
  | succ n ih =>
    cases matched <;>
    · obtain ⟨bit, u, hbit, hloop⟩ := Res.bind_eq_ok.1 h
      obtain ⟨v, hv, hr, -⟩ := litMatchedLoop_forced hloop
      rw [bitsMsb, show r.testBit n = bit from hr ▸ testBit_entered m bit hv]
      exact .slot hbit (ih hloop)

/-- The byte of a literal from the node its walk ends in. -/
theorem bitsMsb_leaf (r : Nat) (hr : 256 ≤ r) : bitsMsb 8 (BitVec.ofNat 8 (r - 0x100)).toNat = bitsMsb 8 r := by
  rw [BitVec.toNat_ofNat, ← bitsMsb_mod 8 r, show r % 2 ^ 8 = (r - 0x100) % 2 ^ 8 by omega]

theorem litNormal_decoded {base : Nat} {b : Byte} {s t : State} (h : litNormal base s = .ok b t) :
    Decoded (treePath .lit base 1 (bitsMsb 8 b.toNat)) s t := by
  obtain ⟨r, hloop, rfl⟩ := Res.map_eq_ok.1 h
  rw [litNormalLoop_eq_treeWalk] at hloop
  obtain ⟨v, -, hr, -⟩ := treeWalk_forced hloop
  rw [bitsMsb_leaf r (by omega)]
  exact treeWalk_decoded hloop

theorem litMatched_decoded {base : Nat} {mb b : Byte} {s t : State} (h : litMatched base mb s = .ok b t) :
    Decoded (matchedPath base true mb 1 (bitsMsb 8 b.toNat)) s t := by
  obtain ⟨r, hloop, rfl⟩ := Res.map_eq_ok.1 h
  obtain ⟨v, -, hr, -⟩ := litMatchedLoop_forced hloop
  rw [bitsMsb_leaf r (by omega)]
  exact litMatchedLoop_decoded hloop

theorem literalContext_state {mb : Option Byte} {s t : State} (h : literalContext s = .ok mb t) : t = s := by
  unfold literalContext at h
  split at h
  · cases h; rfl
  · obtain ⟨b, hget, -⟩ := Res.map_eq_ok.1 h
    exact winGet_state hget

/-- A literal decodes the decisions of its byte, in the mode its match byte says. -/
theorem fetchLit_decoded {b : Byte} {s t : State} (h : fetchLit s = .ok b t) :
    ∃ mb, literalContext s = .ok mb s ∧ Decoded (litPath s mb b) s t := by
  obtain ⟨mb, u, hctx, h⟩ := Res.bind_eq_ok.1 h
  obtain rfl := literalContext_state hctx
  cases mb with
  | none => exact ⟨none, hctx, litNormal_decoded h⟩
  | some mm => exact ⟨some mm, hctx, litMatched_decoded h⟩

theorem winGet_eq_ok {d : Word} {b : Byte} {s : State} : winGet d s = .ok b s ↔
    windowReadable s d = true ∧ srcIndex s d < s.windowSize.toNat ∧ Cells.find s.mem.win (srcIndex s d) = some b := by
  unfold winGet winRead
  split_ifs with hread hinside
  · rcases hfind : Cells.find s.mem.win (srcIndex s d) with _ | b' <;> simp [hread, hinside]
  · simp [hinside]
  · simp [hread]

/-- `WIN_GET` reads nothing that the range coder writes. -/
theorem winGet_of_coderFrame {gs : List ProbGroup} {s t : State} (hf : CoderFrame gs s t) {d : Word} {b : Byte}
    (h : winGet d t = .ok b t) : winGet d s = .ok b s := by
  obtain ⟨-, -, -, -, -, hpos, -, -, -, -, -, -, -, -, hws, -, -, -, hwc, -⟩ := hf.fields
  rw [winGet_eq_ok] at h ⊢
  simpa only [windowReadable, srcIndex, hpos, hws, hwc, hf.win] using h

theorem literalContext_of_coderFrame {gs : List ProbGroup} {s t : State} (hf : CoderFrame gs s t) {mb : Option Byte}
    (h : literalContext t = .ok mb t) : literalContext s = .ok mb s := by
  obtain ⟨hstate, hrep0, -⟩ := hf.fields
  unfold literalContext at h ⊢
  rw [hstate, hrep0] at h
  split_ifs at h ⊢
  · cases h; rfl
  · obtain ⟨b, hget, rfl⟩ := Res.map_eq_ok.1 h
    rw [winGet_of_coderFrame hf hget, Res.map_ok]

theorem litPath_of_coderFrame {gs : List ProbGroup} {s t : State} (hf : CoderFrame gs s t) (mb : Option Byte) (b : Byte) :
    litPath t mb b = litPath s mb b := by
  obtain ⟨-, -, -, -, -, hpos, hprev, hlc, -, -, -, -, hmask, -⟩ := hf.fields
  simp only [litPath, litSubDecoder, hpos, hprev, hlc, hmask]

/-! ### Symbols -/

theorem symbolPath_ofMatch (s : State) (mb : Option Byte) (len : Nat) (dist : Word) : symbolPath s mb (Symbol.ofMatch len dist) =
    isMatchBit s true :: isRepBit s false :: (lenPath .mlen (posState s) len ++ distancePath (lenClassOf len) dist) := by
  unfold Symbol.ofMatch
  split_ifs with heos
  · rw [heos]; rfl
  · rfl

theorem ofMatch_ne_lit (len : Nat) (dist : Word) (b : Byte) : Symbol.ofMatch len dist ≠ .lit b := by
  unfold Symbol.ofMatch
  split_ifs <;> exact Symbol.noConfusion

/-- What the stream holds is a well-formed symbol, decoded by its own decisions; the match byte of a literal is read before them. -/
theorem fetchSymbol_decoded {s u : State} {y : Symbol} (h : fetchSymbol s = .ok y u) :
    ∃ mb, y.toInstr.wf = true ∧ (∀ b, y = .lit b → literalContext s = .ok mb s) ∧ Decoded (symbolPath s mb y) s u := by
  obtain ⟨isMatch, s1, h1, h⟩ := Res.bind_eq_ok.1 h
  split_ifs at h with hm
  · subst hm
    obtain ⟨b, hlit, rfl⟩ := Res.map_eq_ok.1 h
    obtain ⟨mb, hctx, hpath⟩ := fetchLit_decoded hlit
    have hframe : CoderFrame [.isMatch] s s1 := by
      have hpost := (rcBit_frame (List.mem_singleton_self .isMatch) (stateIndex s) s).post
      rwa [h1] at hpost
    rw [litPath_of_coderFrame hframe] at hpath
    exact ⟨mb, rfl, fun _ _ => literalContext_of_coderFrame hframe hctx, .slot h1 hpath⟩
  obtain rfl := Bool.eq_true_of_not_eq_false hm
  obtain ⟨isRep, s2, h2, h⟩ := Res.bind_eq_ok.1 h
  split_ifs at h with hr
  · subst hr
    obtain ⟨len, s3, hlen, h⟩ := Res.bind_eq_ok.1 h
    obtain ⟨dist, hdist, rfl⟩ := Res.map_eq_ok.1 h
    refine ⟨none, ofMatch_wf (lenDecode_forced hlen).1 dist, fun b hb => absurd hb (ofMatch_ne_lit len dist b), ?_⟩
    rw [symbolPath_ofMatch]
    exact .slot h1 (.slot h2 ((lenDecode_decoded hlen).append (distDecode_decoded hdist)))
  obtain rfl := Bool.eq_true_of_not_eq_false hr
  refine ⟨none, ?_⟩
  obtain ⟨isRepG0, s3, h3, h⟩ := Res.bind_eq_ok.1 h
  split_ifs at h with hg0
  · subst hg0
    obtain ⟨isRep0Long, s4, h4, h⟩ := Res.bind_eq_ok.1 h
    split_ifs at h with hl
    · subst hl
      cases h
      exact ⟨rfl, nofun, .slot h1 (.slot h2 (.slot h3 (.slot h4 (.nil _))))⟩
    obtain rfl := Bool.eq_true_of_not_eq_false hl
    obtain ⟨len, hlen, rfl⟩ := Res.map_eq_ok.1 h
    exact ⟨(lenDecode_forced hlen).1, nofun, .slot h1 (.slot h2 (.slot h3 (.slot h4 (lenDecode_decoded hlen))))⟩
  obtain rfl := Bool.eq_true_of_not_eq_false hg0
  obtain ⟨isRepG1, s4, h4, h⟩ := Res.bind_eq_ok.1 h
  split_ifs at h with hg1
  · subst hg1
    obtain ⟨len, hlen, rfl⟩ := Res.map_eq_ok.1 h
    exact ⟨(lenDecode_forced hlen).1, nofun, .slot h1 (.slot h2 (.slot h3 (.slot h4 (lenDecode_decoded hlen))))⟩
  obtain rfl := Bool.eq_true_of_not_eq_false hg1
  obtain ⟨isRepG2, s5, h5, h⟩ := Res.bind_eq_ok.1 h
  split_ifs at h with hg2
  · subst hg2
    obtain ⟨len, hlen, rfl⟩ := Res.map_eq_ok.1 h
    exact ⟨(lenDecode_forced hlen).1, nofun, .slot h1 (.slot h2 (.slot h3 (.slot h4 (.slot h5 (lenDecode_decoded hlen)))))⟩
  · obtain rfl := Bool.eq_true_of_not_eq_false hg2
    obtain ⟨len, hlen, rfl⟩ := Res.map_eq_ok.1 h
    exact ⟨(lenDecode_forced hlen).1, nofun, .slot h1 (.slot h2 (.slot h3 (.slot h4 (.slot h5 (lenDecode_decoded hlen)))))⟩

/-- `SYMBOL()` has the effect of the symbol it decodes (R200). -/
theorem exec_symbol_of_fetch {s u : State} {y : Symbol} (h : fetchSymbol s = .ok y u) :
    exec .symbol s = finishSymbol (symbolEffect y u) := by
  show finishSymbol ((fetchSymbol s).bind symbolEffect) = _
  rw [h, Res.bind_ok]

/-- Settles O11, by the decisions of the symbol, each decoded from `code`. -/
theorem symbolIsItsRow : Obligations.SymbolIsItsRow := by
  unfold Obligations.SymbolIsItsRow
  intro s u y hfetch
  obtain ⟨mb, hwf, hmb, hpath⟩ := fetchSymbol_decoded hfetch
  obtain ⟨v, hcode⟩ := hpath.fromCode s.result
  refine ⟨hwf, ⟨symbolPath s mb y, mb, { u with result := v }, symbolPath_bits s mb y, hpath.takeBits_eq, hcode, ?_, fun hprops => ?_⟩, ?_⟩
  · rw [← hpath.result]
  · exact ⟨symbolPath_slots hprops mb hwf, fun b hb => (isMatchByte_iff s mb).2 (hmb b hb)⟩
  · rw [exec_symbol_of_fetch hfetch, exec_toInstr, takeSymbol_eq hmb, hpath.takeBits_eq, Res.bind_ok]

/-! ### The end marker (R207) -/

/-- What the range coder leaves alone is what the output is read from. -/
theorem CoderFrame.emitted_eq {gs : List ProbGroup} {s t : State} (h : CoderFrame gs s t) : emitted t = emitted s := by
  obtain ⟨-, -, -, -, -, -, -, -, -, -, -, -, -, -, -, -, -, -, hwc, hwm, hsink, -⟩ := h.fields
  simp only [emitted, unflushed, hwc, hwm, hsink, h.win]

/-- The end marker, once decoded, only pushes its distance onto the history and answers `eos`. -/
theorem SymbolFrame.of_pushRep {gs : List ProbGroup} {s t : State} (h : CoderFrame gs s t)
    (hinside : s.writeCursor.toNat < s.windowSize.toNat) (dist : Word) (v : Option Nat) :
    SymbolFrame gs 0 s { pushRep dist t with result := v } := by
  obtain ⟨-, -, -, -, -, -, -, -, -, -, -, -, -, -, -, -, -, -, hwc, hwm, hsink, hans, -⟩ := h.fields
  exact {
    rest := by rw [h.rest]; rfl
    fill := h.fill
    slots := h.slots
    source := h.source
    win := fun a _ => congrArg (Cells.find · a) h.win
    cursor := by rw [Nat.add_zero, Nat.mod_eq_of_lt hinside]; exact congrArg BitVec.toNat hwc
    unwrapped := fun _ => ⟨hwm, hsink, hans⟩
    wrapped := fun hle => absurd hinside (Nat.not_lt.2 hle) }

/-- Settles O52: the decisions complete, and the effect is the push of `0xFFFFFFFF`. -/
theorem endMarkerStops : Obligations.EndMarkerStops := by
  unfold Obligations.EndMarkerStops
  intro s len hready _ _
  have hprops := hready.stream.props
  have hautomaton := hready.stream.inv.automaton hready.stream.decoding
  obtain ⟨t, ht, -, hframe⟩ := takeBits_completes hready.stream.coder (symbolPath_ok hprops hautomaton none (.eos len))
    (symbolPath_in s none (.eos len)) (symbolPath_length s none (.eos len)) hready.source
  obtain ⟨hstate, hrep0, hrep1, hrep2, -, hpos, hprev, -⟩ := hframe.fields
  have hexec : exec (.eos len) s = .next { pushRep eosDistance t with result := some 1 } := by
    rw [show Instr.eos len = (Symbol.eos len).toInstr from rfl, exec_toInstr, takeSymbol_eq (mb := none) (y := .eos len) nofun, ht, Res.bind_ok,
      symbolEffect, matchEffect_eos]
    rfl
  exact ⟨_, hexec, rfl, rfl, hrep0, hrep1, hrep2, hstate, hpos, hprev, hframe.emitted_eq,
    SymbolFrame.of_pushRep hframe hready.stream.rep.inside eosDistance (some 1)⟩

end Sys2Proof.Machine
end

section
/-! SUPPORT. The range decoder (`40_range_decoder.md` R130 to R142): what each operation does with the source's next answers, and that a bit
is the narrowing of the interval, the adaptation of its slot and one renormalisation. -/

namespace Sys2Proof.Machine

/-! ### The source's next answer (R131) -/

/-- The next answer is no byte: `k` is the failure `InByte()` raises there, and `rest` the answers it leaves (R131, `60_exceptions.md` R262,
R264). -/
inductive SourceFails : List SourceAnswer → FailureKind → List SourceAnswer → Prop where
  | exhausted : SourceFails [] .streamTruncated []
  | failing (rest : List SourceAnswer) : SourceFails (.failure :: rest) .ioError rest

theorem byte_or_sourceFails (l : List SourceAnswer) :
    (∃ b rest, l = .byte b :: rest) ∨ ∃ k rest, SourceFails l k rest := by
  match l with
  | .byte b :: rest => exact .inl ⟨b, rest, rfl⟩
  | .failure :: rest => exact .inr ⟨_, _, .failing rest⟩
  | [] => exact .inr ⟨_, _, .exhausted⟩

theorem inByte_byte {s : State} {b : Byte} {rest : List SourceAnswer} (h : s.source = .byte b :: rest) :
    inByte s = .ok b { s with source := rest, ipos := s.ipos + 1#64 } := by
  unfold inByte
  rw [h]

theorem inByte_raises {s : State} {k : FailureKind} {rest : List SourceAnswer} (h : SourceFails s.source k rest) :
    inByte s = .raise k { s with source := rest } := by
  cases s
  cases h <;> rfl

/-- What holds at every failing answer holds at the two there are. -/
theorem failures_of_sourceFails {s : State} {o : Host.Outcome State Fault Refusal}
    (h : ∀ k rest, SourceFails s.source k rest → o = .next (takeFailure .failed k { s with source := rest })) :
    (s.source = [] → o = .next (takeFailure .failed .streamTruncated s)) ∧
    (∀ rest, s.source = .failure :: rest → o = .next (takeFailure .failed .ioError { s with source := rest })) := by
  constructor
  · intro hs
    have hself : { s with source := [] } = s := by rw [← hs]
    rw [h .streamTruncated [] (hs ▸ .exhausted), hself]
  · exact fun rest hs => h .ioError rest (hs ▸ .failing rest)

/-- Of the state in which an operation of the range coder raises a failure, only the source is seen once it is taken (R266). -/
theorem CoderOp.finish_of_raise {α : Type} {gs : List ProbGroup} {s u : State} {r : Res α} {k : FailureKind} (h : CoderOp gs s r)
    (hr : r = .raise k u) (val : α → Option Nat) : r.finish val = .next (takeFailure .failed k { s with source := u.source }) := by
  subst hr
  obtain ⟨hframe, -⟩ := h.post
  rw [Res.finish_raise]
  conv_lhs => rw [hframe.rest]
  rfl

theorem exec_inByte (s : State) : exec .inByte s = (inByte s).finish fun b => some b.toNat := rfl

/-- Settles O25: a byte is taken, and at any other answer `InByte()` raises its failure. -/
theorem inByteTakesTheNextByte : Obligations.InByteTakesTheNextByte := by
  unfold Obligations.InByteTakesTheNextByte
  intro s
  refine ⟨fun b rest h => ?_, failures_of_sourceFails fun k rest h => ?_⟩
  · rw [exec_inByte, inByte_byte h, Res.finish_ok]
  · rw [exec_inByte, inByte_raises h, Res.finish_raise]

/-! ### Bits that enter a word from the right -/

theorem shiftLeft_or_toNat (c x : Word) {k : Nat} (hk : k ≤ 32) (hx : x.toNat < 2 ^ k) :
    ((c <<< k) ||| x).toNat = c.toNat * 2 ^ k % 2 ^ 32 + x.toNat := by
  have hsplit : c.toNat * 2 ^ k % 2 ^ 32 = (c.toNat % 2 ^ (32 - k)) <<< k := by
    rw [Nat.shiftLeft_eq, ← Nat.mul_mod_mul_right, ← pow_add, Nat.sub_add_cancel hk]
  rw [BitVec.toNat_or, BitVec.toNat_shiftLeft, Nat.shiftLeft_eq, hsplit, Nat.shiftLeft_add_eq_or_of_lt hx]

/-- `(code << 8) | InByte()` (R132, R133). -/
def shiftByte (c : Word) (b : Byte) : Word := (c <<< 8) ||| b.setWidth 32

theorem shiftByte_toNat (c : Word) (b : Byte) : (shiftByte c b).toNat = c.toNat * 256 % 2 ^ 32 + b.toNat := by
  have hb : (b.setWidth 32).toNat = b.toNat := BitVec.toNat_setWidth_of_le (by decide)
  rw [shiftByte, shiftLeft_or_toNat c _ (by decide) (by rw [hb]; exact b.isLt), hb]
  rfl

/-- A bit enters the result of `RC_DIRECT` (R135). -/
theorem shiftBit_toNat {acc : Word} (h : acc.toNat < 2 ^ 31) (bit : Bool) :
    ((acc <<< 1) ||| BitVec.ofNat 32 bit.toNat).toNat = 2 * acc.toNat + bit.toNat := by
  have hbit : (BitVec.ofNat 32 bit.toNat).toNat = bit.toNat := by cases bit <;> rfl
  rw [shiftLeft_or_toNat acc _ (by decide) (by rw [hbit]; exact Bool.toNat_lt bit), hbit]
  omega

/-! ### RC_INIT (R132) -/

theorem exec_rcInit (s : State) : exec .rcInit s = (rcInit s).finish fun _ => none := rfl

theorem loadCode_byte {n : Nat} {s : State} {b : Byte} {rest : List SourceAnswer} (h : s.source = .byte b :: rest) :
    loadCode (n + 1) s = loadCode n { s with code := shiftByte s.code b, ipos := s.ipos + 1#64, source := rest } := by
  rw [loadCode, inByte_byte h, Res.bind_ok]
  rfl

/-- The bytes that are there are shifted into `code` in order. -/
theorem loadCode_bytes {bs : List Byte} {s : State} {rest : List SourceAnswer} (h : s.source = bs.map .byte ++ rest) :
    loadCode bs.length s = .ok () { s with
      code := bs.foldl shiftByte s.code, ipos := s.ipos + BitVec.ofNat 64 bs.length, source := rest } := by
  induction bs generalizing s with
  | nil =>
    obtain rfl : s.source = rest := h
    rw [List.length_nil, loadCode, List.foldl_nil, BitVec.add_zero]
  | cons b bs ih =>
    rw [List.length_cons, loadCode_byte h, ih rfl, List.foldl_cons, Nat.add_comm, BitVec.ofNat_add, ← BitVec.add_assoc]

/-- With its five bytes `RC_INIT` completes. -/
theorem rcInit_bytes {s : State} {b0 b1 b2 b3 b4 : Byte} {rest : List SourceAnswer}
    (h : s.source = .byte b0 :: .byte b1 :: .byte b2 :: .byte b3 :: .byte b4 :: rest) :
    ∃ c : Word, rcInit s = .ok () { s with range := 0xFFFFFFFF#32, code := c, ipos := s.ipos + 5#64, source := rest } ∧
      c.toNat = b1.toNat * 2 ^ 24 + b2.toNat * 2 ^ 16 + b3.toNat * 2 ^ 8 + b4.toNat := by
  have hload := loadCode_bytes (bs := [b1, b2, b3, b4]) (rest := rest)
    (s := { s with source := [b1, b2, b3, b4].map .byte ++ rest, ipos := s.ipos + 1#64, code := 0#32 }) rfl
  refine ⟨[b1, b2, b3, b4].foldl shiftByte 0#32, ?_, ?_⟩
  · have hipos : s.ipos + 1#64 + BitVec.ofNat 64 4 = s.ipos + 5#64 := BitVec.add_assoc ..
    rw [← hipos, rcInit, inByte_byte h, Res.bind_ok]
    exact congrArg (Res.bind · _) hload
  · simp only [List.foldl_cons, List.foldl_nil, shiftByte_toNat, BitVec.toNat_ofNat]
    omega

/-- The code is loaded up to the first byte that cannot be had. -/
theorem loadCode_raises {m n : Nat} {s : State} {k : FailureKind} {rest : List SourceAnswer} (hm : m < n)
    (hs : supplies m s.source = true) (hf : SourceFails (s.source.drop m) k rest) :
    ∃ u, loadCode n s = .raise k u ∧ u.source = rest := by
  obtain ⟨n, rfl⟩ := Nat.exists_eq_succ_of_ne_zero (Nat.ne_zero_of_lt hm)
  induction m generalizing n s with
  | zero => exact ⟨_, by rw [loadCode, inByte_raises hf, Res.bind_raise], rfl⟩
  | succ m ih =>
    obtain ⟨b, l, hb, hl⟩ := supplies_succ hs
    obtain ⟨n, rfl⟩ := Nat.exists_eq_succ_of_ne_zero (show n ≠ 0 by omega)
    rw [loadCode_byte hb]
    rw [hb, List.drop_succ_cons] at hf
    exact ih hl hf n (by omega)

theorem rcInit_raises {m : Nat} {s : State} {k : FailureKind} {rest : List SourceAnswer} (hm : m < 5)
    (hs : supplies m s.source = true) (hf : SourceFails (s.source.drop m) k rest) :
    ∃ u, rcInit s = .raise k u ∧ u.source = rest := by
  cases m with
  | zero => exact ⟨_, by rw [rcInit, inByte_raises hf, Res.bind_raise], rfl⟩
  | succ m =>
    obtain ⟨b, l, hb, hl⟩ := supplies_succ hs
    rw [hb, List.drop_succ_cons] at hf
    obtain ⟨u, hu, hrest⟩ := loadCode_raises (n := 4) (s := { s with source := l, ipos := s.ipos + 1#64, code := 0#32 })
      (by omega) hl hf
    exact ⟨u, by rw [rcInit, inByte_byte hb, Res.bind_ok, hu, Res.bind_raise], hrest⟩

/-- `RC_INIT` fails as the first of its five bytes that cannot be had. -/
theorem exec_rcInit_fails {m : Nat} {s : State} {k : FailureKind} {rest : List SourceAnswer} (hm : m < 5)
    (hs : supplies m s.source = true) (hf : SourceFails (s.source.drop m) k rest) :
    exec .rcInit s = .next (takeFailure .failed k { s with source := rest }) := by
  obtain ⟨u, hu, rfl⟩ := rcInit_raises hm hs hf
  exact (rcInit_frame [] s).finish_of_raise hu _

/-- Settles O26: five bytes are loaded, or one of them cannot be had. -/
theorem rcInitLoadsTheCode : Obligations.RcInitLoadsTheCode := by
  unfold Obligations.RcInitLoadsTheCode
  intro s
  refine ⟨fun b0 b1 b2 b3 b4 rest h => ?_, fun hlen hs => ?_, fun n rest hn hs hd => ?_⟩
  · obtain ⟨c, hinit, hcode⟩ := rcInit_bytes h
    exact ⟨_, by rw [exec_rcInit, hinit, Res.finish_ok], rfl, hcode⟩
  · exact exec_rcInit_fails hlen hs (by rw [List.drop_length]; exact .exhausted)
  · exact exec_rcInit_fails hn hs (by rw [hd]; exact .failing rest)

/-! ### The start of a stream (`46_control.md` R245, R246) -/

theorem exec_cmdDecode {s : State} (h : s.phase = .configured) (el : DWord) :
    exec (.cmdDecode el) s = (rcInit (startStream el s)).finish fun _ => none := if_pos h

/-- Settles O6: `RC_INIT` on the initialised stream. -/
theorem decodeStarts : Obligations.DecodeStarts := by
  unfold Obligations.DecodeStarts
  intro s el b0 b1 b2 b3 b4 rest hphase hsource
  obtain ⟨c, hinit, hcode⟩ := rcInit_bytes (s := startStream el s) hsource
  exact ⟨_, by rw [exec_cmdDecode hphase, hinit, Res.finish_ok], rfl, hcode, fun g i => rfl⟩

/-! ### RC_NORMALIZE (R133, R141) -/

theorem exec_rcNormalize (s : State) : exec .rcNormalize s = (rcNormalize s).finish fun _ => none := rfl

/-- The state after a turn of the loop that has taken the byte `b` and left `rest` at the source. -/
def afterTurn (b : Byte) (rest : List SourceAnswer) (s : State) : State :=
  { s with range := s.range <<< 8, code := shiftByte s.code b, ipos := s.ipos + 1#64, source := rest }

/-- A turn of the loop with a byte, and what is left of the loop is `RC_NORMALIZE` again. -/
theorem rcNormalize_byte {s : State} {b : Byte} {rest : List SourceAnswer} (hlt : s.range.toNat < 2 ^ 24)
    (h : s.source = .byte b :: rest) : rcNormalize s = rcNormalize (afterTurn b rest s) := by
  rw [rcNormalize, normalizeLoop, if_pos ((lt_top_iff _).2 (by omega)), inByte_byte h, Res.bind_ok, h]
  rfl

theorem rcNormalize_raises {s : State} {k : FailureKind} {rest : List SourceAnswer} (hlt : s.range.toNat < 2 ^ 24)
    (h : SourceFails s.source k rest) : rcNormalize s = .raise k { s with source := rest } := by
  rw [rcNormalize, normalizeLoop, if_pos ((lt_top_iff _).2 (by omega)), inByte_raises h, Res.bind_raise]

/-- Settles O27, by the first turn of the loop. -/
theorem rcNormalizeLoops : Obligations.RcNormalizeLoops := by
  unfold Obligations.RcNormalizeLoops
  intro s
  have hfail := fun hlt : s.range.toNat < 2 ^ 24 => failures_of_sourceFails (s := s) (o := exec .rcNormalize s) fun k rest h => by
    rw [exec_rcNormalize, rcNormalize_raises hlt h, Res.finish_raise]
  refine ⟨fun hle => ?_, fun hlt b rest h => ?_, fun hlt => (hfail hlt).1, fun hlt => (hfail hlt).2⟩
  · rw [exec_rcNormalize, rcNormalize_of_le hle, Res.finish_ok]
  · refine ⟨afterTurn b rest s, rfl, shift_toNat _ hlt, shiftByte_toNat _ b, ?_⟩
    rw [exec_rcNormalize, rcNormalize_byte hlt h, exec_rcNormalize]

theorem normalized_of_le {s : State} (h : 2 ^ 24 ≤ s.range.toNat) : normalized s = s := if_pos h

/-- The ends `RC_NORMALIZE` can have where its loop turns at most once. -/
theorem rcNormalize_cases {s : State} (hr : 2 ^ 16 ≤ s.range.toNat) : rcNormalize s = .ok () (normalized s) ∨
    ∃ k rest, SourceFails s.source k rest ∧ rcNormalize s = .raise k { s with source := rest } := by
  by_cases hle : 2 ^ 24 ≤ s.range.toNat
  · exact .inl (by rw [rcNormalize_of_le hle, normalized_of_le hle])
  · rcases byte_or_sourceFails s.source with ⟨b, rest, h⟩ | ⟨k, rest, h⟩
    · exact .inl (rcNormalize_eq hr (by rw [h]; rfl))
    · exact .inr ⟨k, rest, h, rcNormalize_raises (by omega) h⟩

theorem normalized_source_length (s : State) : s.source.length ≤ (normalized s).source.length + 1 := by
  unfold normalized
  split
  · omega
  · split
    · next h => rw [h, List.length_cons]
    · omega

/-- A bit of value `v` that has narrowed the interval of `s` to that of `u` ends with `RC_NORMALIZE`. -/
theorem endsNormalized_of_rcNormalize {gs : List ProbGroup} {s u : State} {v : Nat} (hframe : CoderFrame gs s u)
    (hsource : u.source = s.source) (hr : 2 ^ 16 ≤ u.range.toNat) {o : Host.Outcome State Fault Refusal}
    (ho : o = (rcNormalize u).finish fun _ => some v) : EndsNormalized v s u o := by
  subst ho
  refine ⟨fun h => ?_, forall_and.1 fun hlt => failures_of_sourceFails fun k rest h => ?_⟩
  · have hok : rcNormalize u = .ok () (normalized u) := by
      rcases h with hle | hs
      · rw [rcNormalize_of_le hle, normalized_of_le hle]
      · exact rcNormalize_eq hr (hsource ▸ hs)
    rw [hok, Res.finish_ok]
  · have hop : CoderOp gs s (rcNormalize u) := CoderOp.after hframe (rcNormalize_frame gs u)
    exact hop.finish_of_raise (rcNormalize_raises hlt (hsource ▸ h)) _

/-! ### The adaptation law (R136) -/

/-- Settles O28, by the two branches of the law. -/
theorem adaptationLaw : Obligations.AdaptationLaw := by
  unfold Obligations.AdaptationLaw
  exact fun p => ⟨adapt_toNat_false p, adapt_toNat_true p, adapt_bounds⟩

theorem adapt_false (p : Slot) : adapt p false = BitVec.ofNat 11 (p.toNat + (2048 - p.toNat) / 32) := by
  rw [← adapt_toNat_false, BitVec.ofNat_toNat, BitVec.setWidth_eq]

theorem adapt_true (p : Slot) : adapt p true = BitVec.ofNat 11 (p.toNat - p.toNat / 32) := by
  rw [← adapt_toNat_true, BitVec.ofNat_toNat, BitVec.setWidth_eq]

/-! ### RC_BIT (R134) -/

theorem exec_rcBit (g : ProbGroup) (i : Nat) (s : State) : exec (.rcBit g i) s = (rcBit g i s).finish fun bit => some bit.toNat := rfl

theorem afterBit_frame (g : ProbGroup) (i : Int) (bit : Bool) (s : State) : CoderFrame [g] s (afterBit g i bit s) := by
  cases bit
  · exact coder_slot (List.mem_singleton_self g) s i.toNat _ _ s.code
  · exact coder_slot (List.mem_singleton_self g) s i.toNat _ _ _

/-- The bit `RC_BIT` decodes on slot `i`: 0 exactly when `code` is below the bound. -/
def slotBit (g : ProbGroup) (i : Int) (s : State) : Bool := !decide (s.code < rcBound s.range (s.mem.slot (slotKey g i.toNat)))

theorem slotBit_eq_false {g : ProbGroup} {i : Int} {s : State} :
    slotBit g i s = false ↔ s.code.toNat < s.range.toNat / 2048 * (s.mem.slot (slotKey g i.toNat)).toNat := by
  rw [slotBit, Bool.not_eq_false', decide_eq_true_iff, BitVec.lt_def, rcBound_toNat]

theorem slotBit_eq_true {g : ProbGroup} {i : Int} {s : State} :
    slotBit g i s = true ↔ s.range.toNat / 2048 * (s.mem.slot (slotKey g i.toNat)).toNat ≤ s.code.toNat := by
  rw [← Bool.not_eq_false, slotBit_eq_false, not_lt]

/-- A modelled bit is the narrowing, then `RC_NORMALIZE`. -/
theorem rcBit_eq {g : ProbGroup} {i : Int} {s : State} (hi : 0 ≤ i ∧ i < groupSize s g) :
    rcBit g i s = (rcNormalize (afterBit g i (slotBit g i s) s)).map fun _ => slotBit g i s := by
  unfold rcBit takeSlotBit
  rw [slot?_eq hi]
  rfl

theorem rcBit_ends {g : ProbGroup} {i : Nat} {s : State} {bit : Bool} (h : CoderOk s) (hi : i < groupSize s g)
    (hbit : slotBit g i s = bit) : EndsNormalized bit.toNat s (afterBit g i bit s) (exec (.rcBit g i) s) := by
  refine endsNormalized_of_rcNormalize (afterBit_frame g i bit s) (afterBit_source g i bit s) (afterBit_range h) ?_
  rw [exec_rcBit, rcBit_eq ⟨by omega, by omega⟩, hbit]
  cases rcNormalize (afterBit g i bit s) <;> rfl

/-- Settles O29: the bit is decided at the bound, and its branch ends with `RC_NORMALIZE`. -/
theorem rcBitDecodes : Obligations.RcBitDecodes := by
  unfold Obligations.RcBitDecodes
  rintro s g i _ _ h hi rfl rfl
  have hbound := rcBound_toNat s.range (s.mem.slot (slotKey g i))
  obtain ⟨-, hle⟩ := rcBound_bounds h.range (Memory.slot_bounds h.fill h.slots (slotKey g i))
  constructor
  · intro hlt
    refine ⟨afterBit g i false s, ?_, hbound, rcBit_ends h hi (slotBit_eq_false.2 hlt)⟩
    rw [← adapt_false]
    rfl
  · intro hge
    refine ⟨afterBit g i true s, ?_, ?_, ?_, rcBit_ends h hi (slotBit_eq_true.2 hge)⟩
    · rw [← adapt_true]
      rfl
    · rw [← hbound]
      exact sub_toNat (b := rcBound s.range (s.mem.slot (slotKey g i))) (by omega)
    · rw [← hbound] at hge ⊢
      exact sub_toNat hge

/-! ### How many bytes a bit takes (R141) -/

/-- `r`, begun in `s`, does not fault, and has taken at most `n` bytes when it completes. -/
structure CoderTakes {α : Type} (n : Nat) (s : State) (r : Res α) : Prop where
  noFault : ∀ e, r ≠ .fault e
  bytes : ∀ a t, r = .ok a t → s.source.length ≤ t.source.length + n

section
variable {α β : Type} {s : State}

theorem CoderTakes.ok (a : α) : CoderTakes 0 s (.ok a s) := ⟨nofun, by rintro _ _ ⟨⟩; exact le_rfl⟩

theorem CoderTakes.map {n : Nat} {r : Res α} {f : α → β} (h : CoderTakes n s r) : CoderTakes n s (r.map f) := by
  cases r with
  | ok a t => exact ⟨nofun, by rintro _ _ ⟨⟩; exact h.bytes a t rfl⟩
  | raise k t => exact ⟨nofun, nofun⟩
  | fault e => exact absurd rfl (h.noFault e)

theorem CoderTakes.bind {m n : Nat} {r : Res α} {f : α → State → Res β} (h : CoderTakes m s r)
    (hf : ∀ a t, r = .ok a t → CoderTakes n t (f a t)) : CoderTakes (n + m) s (r.bind f) := by
  cases r with
  | ok a t =>
    have hbytes := h.bytes a t rfl
    obtain ⟨hnoFault, hrest⟩ := hf a t rfl
    exact ⟨hnoFault, fun b u hu => by have := hrest b u hu; omega⟩
  | raise k t => exact ⟨nofun, nofun⟩
  | fault e => exact absurd rfl (h.noFault e)

end

theorem rcNormalize_takes {s u : State} (hr : 2 ^ 16 ≤ u.range.toNat) (hsource : u.source = s.source) :
    CoderTakes 1 s (rcNormalize u) := by
  rcases rcNormalize_cases hr with h | ⟨k, rest, -, h⟩ <;> rw [h]
  · exact ⟨nofun, by rintro _ _ ⟨⟩; exact hsource ▸ normalized_source_length u⟩
  · exact ⟨nofun, nofun⟩

theorem rcBit_takes {g : ProbGroup} {i : Int} {s : State} (h : CoderOk s) (hi : 0 ≤ i ∧ i < groupSize s g) :
    CoderTakes 1 s (rcBit g i s) := by
  rw [rcBit_eq hi]
  exact (rcNormalize_takes (afterBit_range h) (afterBit_source _ _ _ s)).map

theorem le_afterDirect_range {s : State} (h : CoderOk s) (bit : Bool) : 2 ^ 16 ≤ (afterDirect bit s).range.toNat := by
  have := h.range
  rw [afterDirect_range, half_toNat]
  omega

theorem directBit_takes {s : State} (h : CoderOk s) : CoderTakes 1 s (directBit s) :=
  CoderTakes.map (rcNormalize_takes (le_afterDirect_range h _) (afterDirect_source _ s))

theorem directBit_keeps (s : State) : Keeps s (directBit s) := (takeDirectBit_keeps _ s).map

theorem rcDirect_takes {s : State} (h : CoderOk s) (n : Nat) : CoderTakes n s (rcDirect n s) := by
  unfold rcDirect
  generalize 0#32 = acc
  induction n generalizing acc s with
  | zero => exact CoderTakes.ok acc
  | succ n ih =>
    exact (directBit_takes h).bind fun bit t ht => ih (((directBit_keeps s).of_ok ht).2 h) _

/-! ### The range invariant (R137, R138) -/

/-- An operation of the range coder run as an instruction, with the bytes it can need. -/
theorem coder_completes {α : Type} {gs : List ProbGroup} {n : Nat} {s : State} {r : Res α} (hruns : CoderRuns n s r)
    (hframe : CoderOp gs s r) (htakes : CoderTakes n s r) (hs : supplies n s.source = true) (val : α → Option Nat) :
    ∃ t, r.finish val = .next t ∧ CoderOk t ∧ CoderFrame gs s t ∧ s.source.length ≤ t.source.length + n := by
  obtain ⟨a, t, rfl, hok, -⟩ := hruns.run 0 (by rwa [Nat.zero_add])
  exact ⟨_, rfl, hok.same rfl rfl, CoderFrame.setResult hframe.post _, htakes.bytes a t rfl⟩

/-- For a slot the group does not have the model stops (`20_memory.md` R60, R64; log 21). -/
theorem rcBit_outside {g : ProbGroup} {i : Int} {s : State} (h : groupSize s g ≤ i) : rcBit g i s = .fault .slotOutsideGroup := by
  unfold rcBit State.slot?
  rw [if_neg (by omega)]

/-- Settles O30: both operations complete, within the bounds and their frames. -/
theorem rangeInvariant : Obligations.RangeInvariant := by
  unfold Obligations.RangeInvariant
  refine ⟨fun s h => ⟨fun g i hi hs => ?_, fun n hs => ?_⟩, fun s g i hi => ?_⟩
  · have hslot : 0 ≤ (i : Int) ∧ (i : Int) < groupSize s g := by omega
    exact coder_completes (rcBit_runs h hslot) (rcBit_frame (List.mem_singleton_self g) _ s) (rcBit_takes h hslot) hs _
  · exact coder_completes (rcDirect_runs h n) (rcDirect_frame [] n s) (rcDirect_takes h n) hs _
  · rw [exec_rcBit, rcBit_outside (by omega), Res.finish_fault]

/-! ### RC_DIRECT (R135) -/

theorem exec_rcDirect (n : Nat) (s : State) : exec (.rcDirect n) s = (rcDirect n s).finish fun r => some r.toNat := rfl

/-- The last turn comes after those before it. -/
theorem directLoop_succ (n : Nat) (acc : Word) (s : State) : directLoop (n + 1) acc s =
    (directLoop n acc s).bind fun r t => (directBit t).map fun bit => (r <<< 1) ||| BitVec.ofNat 32 bit.toNat := by
  induction n generalizing acc s with
  | zero => rfl
  | succ n ih =>
    rw [directLoop, directLoop, Res.bind_assoc]
    congr 1
    funext bit t
    exact ih _ t

theorem afterDirect_frame (bit : Bool) (s : State) : CoderFrame [] s (afterDirect bit s) := by
  cases bit
  · exact coder_registers [] s _ s.code
  · exact coder_registers [] s _ _

/-- The last bit of `RC_DIRECT`, behind the bits of value `r` that led to `t`, is decided at half the range. -/
theorem rcDirect_lastBit_ends {n : Nat} {s t : State} {r : Word} {bit : Bool} (hr : rcDirect n s = .ok r t) (h : CoderOk t)
    (hsmall : r.toNat < 2 ^ 31) (hbit : (!decide (t.code < t.range >>> 1)) = bit) :
    EndsNormalized (2 * r.toNat + bit.toNat) { t with result := some r.toNat }
      (afterDirect bit { t with result := some r.toNat }) (exec (.rcDirect (n + 1)) s) := by
  have hok : CoderOk { t with result := some r.toNat } := h.same rfl rfl
  refine endsNormalized_of_rcNormalize (afterDirect_frame bit _) (afterDirect_source bit _) (le_afterDirect_range hok bit) ?_
  have hlast : directBit { t with result := some r.toNat } =
      (rcNormalize (afterDirect bit { t with result := some r.toNat })).map fun _ => bit := by rw [← hbit]; rfl
  rw [exec_rcDirect, rcDirect, directLoop_succ, show directLoop n 0#32 s = .ok r t from hr, Res.bind_ok,
    ← Res.finish_setResult (some r.toNat), ← Res.setResult_map, ← directBit_setResult, hlast]
  cases rcNormalize (afterDirect bit { t with result := some r.toNat }) with
  | ok a u => simp only [Res.map_ok, Res.finish_ok, shiftBit_toNat hsmall]
  | raise k u => rfl
  | fault e => rfl

/-- Settles O31, by the last turn. -/
theorem rcDirectDecodes : Obligations.RcDirectDecodes := by
  unfold Obligations.RcDirectDecodes
  refine ⟨fun s => rfl, fun s n h hn => ?_⟩
  rcases hr : rcDirect n s with ⟨r, t⟩ | ⟨k, t⟩ | e
  case ok =>
    have hok : CoderOk t := ((rcDirect_keeps n s).of_ok hr).2 h
    obtain ⟨hlt, -⟩ := rcDirect_forced hr (by omega)
    have hsmall : r.toNat < 2 ^ 31 := hlt.trans_le (Nat.pow_le_pow_right (by decide) (by omega))
    have hhalf := half_toNat t.range
    refine ⟨_, by rw [exec_rcDirect, hr, Res.finish_ok], fun hnone => absurd hnone (Option.some_ne_none _), ?_⟩
    rintro _ ⟨⟩
    refine ⟨hlt, fun hc => ?_, fun hc => ?_⟩
    · have hbit : (!decide (t.code < t.range >>> 1)) = false := by simpa [BitVec.lt_def, hhalf] using hc
      exact ⟨_, rfl, hhalf, rcDirect_lastBit_ends hr hok hsmall hbit⟩
    · have hbit : (!decide (t.code < t.range >>> 1)) = true := by simpa [BitVec.lt_def, hhalf] using hc
      refine ⟨_, rfl, hhalf, ?_, rcDirect_lastBit_ends hr hok hsmall hbit⟩
      rw [← hhalf] at hc ⊢
      exact sub_toNat hc
  case raise =>
    have hwhole : rcDirect (n + 1) s = .raise k t := by
      rw [rcDirect, directLoop_succ, show directLoop n 0#32 s = .raise k t from hr, Res.bind_raise]
    exact ⟨_, by rw [exec_rcDirect, hr, Res.finish_raise], fun _ => by rw [exec_rcDirect, hwhole, Res.finish_raise],
      fun v hv => absurd hv.symm (Option.some_ne_none v)⟩
  case fault => exact absurd hr ((rcDirect_takes h n).noFault e)

end Sys2Proof.Machine
end

section
/-! SUPPORT. The bit-tree decoders (`41_bit_tree.md` R150 to R152): a walk by its last turn, and the reversed walk as the walk with its
bits reversed. -/

namespace Sys2Proof.Machine

/-! ### How an operation begins -/

/-- An operation that begins with `r` begins with `r` run as an instruction, when `r` does not fault. -/
theorem beginsWith_bind {α β : Type} {r : Res α} {f : α → State → Res β} {val : α → Nat} {val' : β → Option Nat}
    {next : State → Nat → Prop} (hnoFault : ∀ e, r ≠ .fault e)
    (hnext : ∀ a t, r = .ok a t → next { t with result := some (val a) } (val a)) :
    BeginsWith ((r.bind f).finish val') (r.finish fun a => some (val a)) next := by
  cases r with
  | ok a t =>
    refine ⟨_, Res.finish_ok a t _, fun hnone => absurd hnone (Option.some_ne_none _), ?_⟩
    rintro _ ⟨⟩
    exact hnext a t rfl
  | raise k t => exact ⟨_, Res.finish_raise k t _, fun _ => rfl, fun v hv => absurd hv.symm (Option.some_ne_none v)⟩
  | fault e => exact absurd rfl (hnoFault e)

theorem CoderOp.frame_of_ok {α : Type} {gs : List ProbGroup} {s t : State} {r : Res α} {a : α} (h : CoderOp gs s r)
    (hr : r = .ok a t) : CoderFrame gs s t := by
  subst hr
  exact h.post

/-! ### BT_DECODE (R151) -/

theorem exec_btDecode (g : ProbGroup) (base : Int) (d : Nat) (s : State) :
    exec (.btDecode g base d) s = (btDecode g base d s).finish some := rfl

theorem btDecode_zero (g : ProbGroup) (base : Int) (s : State) : btDecode g base 0 s = .ok 0 s := rfl

/-- The last turn comes after those before it. -/
theorem treeWalk_succ (g : ProbGroup) (base : Int) (d m : Nat) (s : State) : treeWalk g base (d + 1) m s =
    (treeWalk g base d m s).bind fun n t => (rcBit g (base + n) t).map fun bit => 2 * n + bit.toNat := by
  induction d generalizing m s with
  | zero => rfl
  | succ d ih =>
    rw [treeWalk, treeWalk, Res.bind_assoc]
    congr 1
    funext bit t
    exact ih _ t

/-- One more level: `RC_BIT` on the node the bits so far lead to, and its bit enters from the right. -/
theorem btDecode_succ (g : ProbGroup) (base : Int) (d : Nat) (s : State) : btDecode g base (d + 1) s =
    (btDecode g base d s).bind fun v t => (rcBit g (base + 2 ^ d + v) t).map fun bit => 2 * v + bit.toNat := by
  rw [btDecode, btDecode, treeWalk_succ]
  rcases hwalk : treeWalk g base d 1 s with ⟨n, t⟩ | ⟨k, t⟩ | e
  case raise => rfl
  case fault => rfl
  case ok =>
    obtain ⟨v, -, hn, -⟩ := treeWalk_forced hwalk
    rw [Nat.one_mul] at hn
    subst hn
    have hnode : base + ((2 ^ d + v : Nat) : Int) = base + 2 ^ d + v := by push_cast; ring
    have hvalue (bit : Bool) : 2 * (2 ^ d + v) + bit.toNat - 2 ^ (d + 1) = 2 * v + bit.toNat := by omega
    rw [Res.bind_ok, Res.map_ok, Res.bind_ok, hnode, Nat.add_sub_cancel_left]
    cases rcBit g (base + 2 ^ d + v) t with
    | ok bit u => rw [Res.map_ok, Res.map_ok, Res.map_ok, hvalue]
    | raise k u => rfl
    | fault e => rfl

/-- The node that `d` bits lead to is in the group when the next level of the tree is. -/
theorem node_in_group {g : ProbGroup} {base : Int} {d v : Nat} {s : State} (h0 : -1 ≤ base)
    (he : base + 2 ^ (d + 1) ≤ groupSize s g) (hv : v < 2 ^ d) : 0 ≤ base + 2 ^ d + v ∧ base + 2 ^ d + v < groupSize s g := by
  have hpow : (2 : Int) ^ (d + 1) = 2 ^ d + 2 ^ d := by rw [pow_succ, mul_two]
  have hv' : (v : Int) < 2 ^ d := by exact_mod_cast hv
  omega

theorem tree_in_group_of_succ {g : ProbGroup} {base : Int} {d : Nat} {s : State} (he : base + 2 ^ (d + 1) ≤ groupSize s g) :
    base + 2 ^ d ≤ groupSize s g := by
  have hpow : (2 : Int) ^ d ≤ 2 ^ (d + 1) := pow_le_pow_right₀ (by norm_num) d.le_succ
  omega

theorem btDecode_takes {g : ProbGroup} {base : Int} {d : Nat} {s : State} (h : CoderOk s) (h0 : -1 ≤ base)
    (he : base + 2 ^ d ≤ groupSize s g) : CoderTakes d s (btDecode g base d s) := by
  induction d with
  | zero => exact CoderTakes.ok 0
  | succ d ih =>
    rw [btDecode_succ, Nat.add_comm]
    refine (ih (tree_in_group_of_succ he)).bind fun v t hr => CoderTakes.map ?_
    have hsize := groupSize_frame ((btDecode_frame (List.mem_singleton_self g) base d s).frame_of_ok hr) g
    exact rcBit_takes (((btDecode_keeps g base d s).of_ok hr).2 h) (node_in_group h0 (hsize ▸ he) (btDecode_forced hr).1)

/-- `RC_BIT` as an instruction does not read `result`. -/
theorem exec_rcBit_setResult (g : ProbGroup) (i : Nat) (s : State) (v : Option Nat) :
    exec (.rcBit g i) { s with result := v } = (rcBit g i s).finish fun bit => some bit.toNat := by
  rw [exec_rcBit, rcBit_setResult, Res.finish_setResult]

/-- Settles O32, by the last turn. -/
theorem btDecodeWalks : Obligations.BtDecodeWalks := by
  unfold Obligations.BtDecodeWalks
  intro s g base d h h0 he
  have hframe := btDecode_frame (List.mem_singleton_self g) base d s
  refine ⟨by rw [exec_btDecode, btDecode_zero, Res.finish_ok], ?_, fun hs => ?_⟩
  · rw [exec_btDecode, exec_btDecode, btDecode_succ]
    refine beginsWith_bind (btDecode_takes h h0 (tree_in_group_of_succ he)).noFault fun v t hr => ?_
    have hv : v < 2 ^ d := (btDecode_forced hr).1
    have hgroup := node_in_group h0 (groupSize_frame (hframe.frame_of_ok hr) g ▸ he) hv
    have hbit := rcBit_takes (((btDecode_keeps g base d s).of_ok hr).2 h) hgroup
    refine ⟨hv, ?_⟩
    rw [hr, Res.bind_ok, exec_rcBit_setResult, Int.toNat_of_nonneg hgroup.1]
    refine beginsWith_bind hbit.noFault fun bit u hu => ⟨Nat.le_of_lt_succ (Bool.toNat_lt bit), ?_, ?_⟩
    · rw [hu, Res.map_ok, Res.finish_ok]
    · exact ((hframe.frame_of_ok hr).trans ((rcBit_frame (List.mem_singleton_self g) _ t).frame_of_ok hu)).setResult _
  · obtain ⟨v, t, hr, -⟩ := (btDecode_runs h (by omega) he).run 0 (by rwa [Nat.zero_add])
    exact ⟨_, v, by rw [exec_btDecode, hr, Res.finish_ok], rfl, (btDecode_forced hr).1⟩

/-! ### BT_REVERSE (R152) -/

theorem exec_btReverse (g : ProbGroup) (base : Int) (d : Nat) (s : State) :
    exec (.btReverse g base d) s = (btReverse g base d s).finish some := rfl

/-- The bit in front of the `d` low bits becomes the last. -/
theorem reverseBits_succ (d n : Nat) : reverseBits (d + 1) n = n / 2 ^ d % 2 + 2 * reverseBits d n := by
  induction d generalizing n with
  | zero => simp [reverseBits]
  | succ d ih =>
    rw [reverseBits, ih, reverseBits, Nat.div_div_eq_div_mul, ← pow_succ']
    ring

/-- What stands in front of the `d` low bits is not read. -/
theorem reverseBits_two_pow_add (d v : Nat) : reverseBits d (2 ^ d + v) = reverseBits d v := by
  induction d generalizing v with
  | zero => rfl
  | succ d ih =>
    have hmod : (2 ^ (d + 1) + v) % 2 = v % 2 := by omega
    have hdiv : (2 ^ (d + 1) + v) / 2 = 2 ^ d + v / 2 := by omega
    rw [reverseBits, reverseBits, hmod, hdiv, ih]

/-- A bit decoded at place `k` and those that follow it, at the places from `k + 1` on. -/
theorem or_shiftLeft_succ (r n k : Nat) (bit : Bool) :
    r ||| bit.toNat <<< k ||| n <<< (k + 1) = r ||| (bit.toNat + 2 * n) <<< k := by
  have hentered : bit.toNat + 2 * n = bit.toNat ||| n <<< 1 := by
    rw [Nat.or_comm, ← Nat.shiftLeft_add_eq_or_of_lt (Bool.toNat_lt bit), Nat.shiftLeft_eq]
    omega
  rw [hentered, Nat.shiftLeft_or_distrib, ← Nat.shiftLeft_add, Nat.add_comm 1 k, Nat.or_assoc]

/-- The reversed walk is the walk, with the bits that end its node put in the opposite order at the places from `k` on. -/
theorem reverseWalk_eq (g : ProbGroup) (base : Int) (d k m r : Nat) (s : State) :
    reverseWalk g base d k m r s = (treeWalk g base d m s).map fun n => r ||| reverseBits d n <<< k := by
  induction d generalizing k m r s with
  | zero => simp [reverseWalk, treeWalk, reverseBits]
  | succ d ih =>
    rw [reverseWalk, treeWalk, Res.map_eq_bind, Res.bind_assoc]
    congr 1
    funext bit t
    rw [ih]
    rcases hwalk : treeWalk g base d (2 * m + bit.toNat) t with ⟨n, u⟩ | ⟨k, u⟩ | e
    case raise => rfl
    case fault => rfl
    case ok =>
      obtain ⟨v, hv, hn, -⟩ := treeWalk_forced hwalk
      have htop : n / 2 ^ d % 2 = bit.toNat := by
        rw [← Nat.toNat_testBit, hn, testBit_entered m bit hv]
      rw [Res.map_ok, Res.bind_ok, reverseBits_succ, htop, or_shiftLeft_succ]

theorem btReverse_eq (g : ProbGroup) (base : Int) (d : Nat) (s : State) :
    btReverse g base d s = (btDecode g base d s).map (reverseBits d) := by
  rw [btReverse, reverseWalk_eq, btDecode]
  rcases hwalk : treeWalk g base d 1 s with ⟨n, t⟩ | ⟨k, t⟩ | e
  case raise => rfl
  case fault => rfl
  case ok =>
    obtain ⟨v, -, rfl, -⟩ := treeWalk_forced hwalk
    simp only [Res.map_ok, Nat.zero_or, Nat.shiftLeft_zero, Nat.one_mul, reverseBits_two_pow_add, Nat.add_sub_cancel_left]

/-- Settles O33: the reversed walk is the walk with its bits reversed. -/
theorem btReverseMirrors : Obligations.BtReverseMirrors := by
  unfold Obligations.BtReverseMirrors
  intro s g base d h h0 he
  refine ⟨?_, fun hs => ?_⟩
  · rw [exec_btReverse, exec_btDecode, btReverse_eq, Res.map_eq_bind]
    refine beginsWith_bind (btDecode_takes h h0 he).noFault fun v t hr => ⟨(btDecode_forced hr).1, ?_, ?_⟩
    · rw [hr, Res.bind_ok, Res.finish_ok]
    · exact ((btDecode_frame (List.mem_singleton_self g) base d s).frame_of_ok hr).setResult _
  · obtain ⟨v, t, hr, -⟩ := (btReverse_runs h (by omega) he).run 0 (by rwa [Nat.zero_add])
    exact ⟨_, v, by rw [exec_btReverse, hr, Res.finish_ok], rfl, (btReverse_forced hr).1⟩

end Sys2Proof.Machine
end

section
/-! SUPPORT. The length decoder (`42_length_decoder.md` R160, R161): what begins with a tree, the places of a decoder's slots, and
`LEN_DECODE` by its choice bits. -/

namespace Sys2Proof.Machine

/-! ### BT_DECODE does not read `result` -/

theorem treeWalk_setResult (v : Option Nat) (g : ProbGroup) (base : Int) (d m : Nat) (s : State) :
    treeWalk g base d m { s with result := v } = (treeWalk g base d m s).setResult v := by
  induction d generalizing m s with
  | zero => rfl
  | succ d ih => rw [treeWalk, treeWalk, rcBit_setResult, Res.setResult_bind v fun _ t => ih _ t]

theorem exec_btDecode_setResult (g : ProbGroup) (base : Int) (d : Nat) (s : State) (v : Option Nat) :
    exec (.btDecode g base d) { s with result := v } = (btDecode g base d s).finish some := by
  rw [exec_btDecode, btDecode, treeWalk_setResult, Res.setResult_map, Res.finish_setResult, btDecode]

/-! ### The slots of a length decoder (R160) -/

theorem groupSize_choice (x : LenInst) (s : State) : groupSize s x.choice = 2 := by cases x <;> rfl

theorem groupSize_low (x : LenInst) (s : State) : groupSize s x.low = 2 ^ s.pb.toNat * 8 := by cases x <;> rfl

theorem groupSize_mid (x : LenInst) (s : State) : groupSize s x.mid = 2 ^ s.pb.toNat * 8 := by cases x <;> rfl

theorem groupSize_high (x : LenInst) (s : State) : groupSize s x.high = 256 := by cases x <;> rfl

theorem choice_in_group (x : LenInst) (s : State) (bit : Bool) :
    0 ≤ (bit.toNat : Int) ∧ (bit.toNat : Int) < groupSize s x.choice := by
  have := Bool.toNat_lt bit
  rw [groupSize_choice]
  omega

/-- The tree of a position state is in a group that has one of eight slots for each. -/
theorem posStateTree_in_group {g : ProbGroup} {ps : Nat} {s : State} (hsize : groupSize s g = 2 ^ s.pb.toNat * 8)
    (hps : ps < 2 ^ s.pb.toNat) : ((ps * 8 : Nat) : Int) + 2 ^ 3 ≤ groupSize s g := by
  rw [hsize]
  omega

theorem highTree_in_group (x : LenInst) (s : State) : (0 : Int) + 2 ^ 8 ≤ groupSize s x.high := by
  rw [groupSize_high]
  decide

/-- What is a position state stays one while slots adapt. -/
theorem CoderFrame.lt_two_pow_pb {gs : List ProbGroup} {ps : Nat} {s t : State} (h : CoderFrame gs s t)
    (hps : ps < 2 ^ s.pb.toNat) : ps < 2 ^ t.pb.toNat := by
  obtain ⟨-, -, -, -, -, -, -, -, -, hpb, -⟩ := h.fields
  rwa [hpb]

/-! ### LEN_DECODE (R161) -/

theorem exec_lenDecode (x : LenInst) (ps : Nat) (s : State) : exec (.lenDecode x ps) s = (lenDecode x ps s).finish some := rfl

/-- The one unfolding of `LEN_DECODE`, with the place of each tree written as the instruction `BT_DECODE` has it. -/
theorem lenDecode_eq (x : LenInst) (ps : Nat) (s : State) : lenDecode x ps s =
    (rcBit x.choice 0 s).bind fun c0 t =>
      if c0 = false then (btDecode x.low (ps * 8 : Nat) 3 t).map (· + 2)
      else (rcBit x.choice 1 t).bind fun c1 u =>
        if c1 = false then (btDecode x.mid (ps * 8 : Nat) 3 u).map (8 + · + 2)
        else (btDecode x.high 0 8 u).map (16 + · + 2) := by
  rw [Nat.cast_mul]
  rfl

theorem lenDecode_runs {x : LenInst} {ps : Nat} {s : State} (h : CoderOk s) (hps : ps < 2 ^ s.pb.toNat) :
    CoderRuns 10 s (lenDecode x ps s) := by
  rw [lenDecode_eq]
  have hframe (i : Int) (t : State) : CoderOp [x.choice] t (rcBit x.choice i t) := rcBit_frame (List.mem_singleton_self _) i t
  refine (rcBit_runs h (choice_in_group x s false)).bind (l := 9) (hframe 0 s) fun c0 t _ ht hst => ?_
  split
  · exact ((btDecode_runs ht (by omega) (posStateTree_in_group (groupSize_low x t) (hst.lt_two_pow_pb hps))).map).mono (by omega)
  · refine (rcBit_runs ht (choice_in_group x t true)).bind (l := 8) (hframe 1 t) fun c1 u _ hu htu => ?_
    split
    · have hps' := htu.lt_two_pow_pb (hst.lt_two_pow_pb hps)
      exact ((btDecode_runs hu (by omega) (posStateTree_in_group (groupSize_mid x u) hps')).map).mono (by omega)
    · exact (btDecode_runs hu (by omega) (highTree_in_group x u)).map

/-- An operation that ends with a tree, in a state `t` that decoding has led to from `s`: it begins with `BT_DECODE`, and ends with `f` of
what the tree gives. -/
theorem beginsWith_tree {gs : List ProbGroup} {g : ProbGroup} {base : Int} {d : Nat} {s t : State} {f : Nat → Nat} {v : Option Nat}
    (hframe : CoderFrame gs s t) (hg : g ∈ gs) (h : CoderOk t) (h0 : -1 ≤ base) (he : base + 2 ^ d ≤ groupSize t g) :
    BeginsWith (((btDecode g base d t).map f).finish some) (exec (.btDecode g base d) { t with result := v }) fun u r =>
      r < 2 ^ d ∧ ((btDecode g base d t).map f).finish some = .next { u with result := some (f r) } ∧ CoderFrame gs s u := by
  rw [exec_btDecode_setResult, Res.map_eq_bind]
  refine beginsWith_bind (btDecode_takes h h0 he).noFault fun r u hr => ⟨(btDecode_forced hr).1, ?_, ?_⟩
  · rw [hr, Res.bind_ok, Res.finish_ok]
  · exact (hframe.trans ((btDecode_frame hg base d t).frame_of_ok hr)).setResult _

/-- Settles O34, by the choice bits. -/
theorem lenDecodeChooses : Obligations.LenDecodeChooses := by
  unfold Obligations.LenDecodeChooses
  intro s x ps h hps
  have hchoice : x.choice ∈ lenGroups x := by simp [lenGroups]
  have hlow : x.low ∈ lenGroups x := by simp [lenGroups]
  have hmid : x.mid ∈ lenGroups x := by simp [lenGroups]
  have hhigh : x.high ∈ lenGroups x := by simp [lenGroups]
  refine ⟨?_, fun hs => ?_⟩
  · rw [exec_lenDecode, exec_rcBit, lenDecode_eq]
    refine beginsWith_bind (rcBit_takes h (choice_in_group x s false)).noFault fun c0 t h0 => ?_
    have ht : CoderOk t := ((rcBit_keeps _ _ s).of_ok h0).2 h
    have hst : CoderFrame (lenGroups x) s t := (rcBit_frame hchoice _ s).frame_of_ok h0
    refine ⟨Nat.le_of_lt_succ (Bool.toNat_lt c0), fun hc0 => ?_, fun hc0 => ?_⟩
    · obtain rfl : c0 = false := Bool.toNat_eq_zero.1 hc0
      rw [h0, Res.bind_ok, if_pos rfl]
      exact beginsWith_tree hst hlow ht (by omega) (posStateTree_in_group (groupSize_low x t) (hst.lt_two_pow_pb hps))
    · obtain rfl : c0 = true := Bool.toNat_eq_one.1 hc0
      rw [h0, Res.bind_ok, if_neg (by decide), exec_rcBit_setResult]
      refine beginsWith_bind (rcBit_takes ht (choice_in_group x t true)).noFault fun c1 u h1 => ?_
      have hu : CoderOk u := ((rcBit_keeps _ _ t).of_ok h1).2 ht
      have hsu : CoderFrame (lenGroups x) s u := hst.trans ((rcBit_frame hchoice _ t).frame_of_ok h1)
      refine ⟨Nat.le_of_lt_succ (Bool.toNat_lt c1), fun hc1 => ?_, fun hc1 => ?_⟩
      · obtain rfl : c1 = false := Bool.toNat_eq_zero.1 hc1
        rw [h1, Res.bind_ok, if_pos rfl]
        exact beginsWith_tree hsu hmid hu (by omega) (posStateTree_in_group (groupSize_mid x u) (hsu.lt_two_pow_pb hps))
      · obtain rfl : c1 = true := Bool.toNat_eq_one.1 hc1
        rw [h1, Res.bind_ok, if_neg (by decide)]
        exact beginsWith_tree hsu hhigh hu (by omega) (highTree_in_group x u)
  · obtain ⟨v, t, hr, -⟩ := (lenDecode_runs h hps).run 0 (by rwa [Nat.zero_add])
    obtain ⟨hlo, hhi⟩ : 2 ≤ v ∧ v ≤ 273 := by simpa [lenOk] using (lenDecode_forced hr).1
    exact ⟨_, v, by rw [exec_lenDecode, hr, Res.finish_ok], rfl, hlo, hhi⟩

end Sys2Proof.Machine
end

section
/-! SUPPORT. The literal decoder (`43_literal_decoder.md` R170 to R173): the end of the source as the one cause of a truncated stream, the
plain mode as a bit tree, and the matched mode level by level. -/

namespace Sys2Proof.Machine

/-! ### LIT_SELECT (R170) -/

theorem exec_litSelect (s : State) : exec .litSelect s = .next { s with result := some (litSubDecoder s * litSubSize) } := rfl

/-- Settles O36: the sub-decoder is the number the rule names. -/
theorem litSelects : Obligations.LitSelects := by
  unfold Obligations.LitSelects
  intro s h
  rw [exec_litSelect, ← litSubDecoder_eq h]
  exact ⟨litSubDecoder_lt h, rfl⟩

/-! ### Why the range coder fails (`40_range_decoder.md` R131, R142) -/

/-- `r` raises `StreamTruncated` only where the source has run out. -/
structure TruncatesAtEnd {α : Type} (r : Res α) : Prop where
  post : r.Post (fun _ _ => True) fun k t => k = .streamTruncated → t.source = []

section
variable {α β : Type}

theorem TruncatesAtEnd.ok (a : α) (s : State) : TruncatesAtEnd (.ok a s) := ⟨trivial⟩

theorem TruncatesAtEnd.fault (e : Fault) : TruncatesAtEnd (.fault e : Res α) := ⟨trivial⟩

theorem TruncatesAtEnd.bind {r : Res α} {f : α → State → Res β} (h : TruncatesAtEnd r) (hf : ∀ a t, TruncatesAtEnd (f a t)) :
    TruncatesAtEnd (r.bind f) :=
  ⟨h.post.bind fun a t _ => (hf a t).post⟩

theorem TruncatesAtEnd.map {r : Res α} {f : α → β} (h : TruncatesAtEnd r) : TruncatesAtEnd (r.map f) :=
  ⟨Res.Post.map (P := fun _ _ => True) h.post⟩

end

theorem inByte_truncates (s : State) : TruncatesAtEnd (inByte s) := by
  unfold inByte
  split
  · exact ⟨nofun⟩
  · next h => exact ⟨fun _ => h⟩
  · exact TruncatesAtEnd.ok _ _

theorem normalizeLoop_truncates (n : Nat) (s : State) : TruncatesAtEnd (normalizeLoop n s) := by
  induction n generalizing s with
  | zero => exact TruncatesAtEnd.ok () s
  | succ n ih =>
    unfold normalizeLoop
    split
    · exact (inByte_truncates s).bind fun _ _ => ih _
    · exact TruncatesAtEnd.ok () s

theorem takeSlotBit_truncates (g : ProbGroup) (i : Int) (bit : Bool) (s : State) : TruncatesAtEnd (takeSlotBit g i bit s) := by
  unfold takeSlotBit
  split
  · exact TruncatesAtEnd.fault _
  · exact normalizeLoop_truncates _ _

theorem rcBit_truncates (g : ProbGroup) (i : Int) (s : State) : TruncatesAtEnd (rcBit g i s) := by
  unfold rcBit
  split
  · exact TruncatesAtEnd.fault _
  · exact (takeSlotBit_truncates g i _ s).map

theorem treeWalk_truncates (g : ProbGroup) (base : Int) (d m : Nat) (s : State) : TruncatesAtEnd (treeWalk g base d m s) := by
  induction d generalizing m s with
  | zero => exact TruncatesAtEnd.ok m s
  | succ d ih => exact (rcBit_truncates g _ s).bind fun _ t => ih _ t

theorem btDecode_truncates (g : ProbGroup) (base : Int) (d : Nat) (s : State) : TruncatesAtEnd (btDecode g base d s) :=
  (treeWalk_truncates g base d 1 s).map

/-- An operation of the range coder that does not fault and yields a result completes, or fails as the source does. -/
theorem CoderOp.completesOrSourceFails {α : Type} {gs : List ProbGroup} {s : State} {r : Res α} (hframe : CoderOp gs s r)
    (hnoFault : ∀ e, r ≠ .fault e) (htruncates : TruncatesAtEnd r) (val : α → Nat) :
    CompletesOrSourceFails s (r.finish fun a => some (val a)) := by
  cases r with
  | ok a t => exact ⟨_, rfl, .inl rfl⟩
  | raise k t =>
    obtain ⟨hst, hkind⟩ := hframe.post
    have hfailed := hst.ports.failedFrom k
    have hsink : t.sink = s.sink := by rw [hst.rest]
    rcases hkind with rfl | rfl
    · exact ⟨_, rfl, .inr (.inl ⟨hfailed, htruncates.post rfl, hsink⟩)⟩
    · exact ⟨_, rfl, .inr (.inr ⟨hfailed, hsink⟩)⟩
  | fault e => exact absurd rfl (hnoFault e)

/-- How an operation that decodes the eight bits of a literal ends. -/
theorem literal_completes {s : State} {r : Res Byte} (hframe : CoderOp [.lit] s r) (htakes : CoderTakes 8 s r)
    (hruns : CoderRuns 8 s r) (htruncates : TruncatesAtEnd r) :
    CompletesOrSourceFails s (r.finish fun b => some b.toNat) ∧
    (supplies 8 s.source = true →
      ∃ t b, (r.finish fun b => some b.toNat) = .next t ∧ t.result = some b ∧ b < 256 ∧ CoderFrame [.lit] s t) := by
  refine ⟨hframe.completesOrSourceFails htakes.noFault htruncates _, fun hs => ?_⟩
  obtain ⟨b, t, hr, -⟩ := hruns.run 0 (by rwa [Nat.zero_add])
  exact ⟨_, b.toNat, by rw [hr, Res.finish_ok], rfl, b.isLt, (hframe.frame_of_ok hr).setResult _⟩

/-! ### LIT_NORMAL (R171) -/

theorem exec_litNormal (base : Nat) (s : State) :
    exec (.litNormal base) s = (litNormal base s).finish fun b => some b.toNat := rfl

theorem litNormal_eq_btDecode (base : Nat) (s : State) : litNormal base s = (btDecode .lit base 8 s).map (BitVec.ofNat 8) := by
  rw [litNormal, litNormalLoop_eq_treeWalk, btDecode]
  cases treeWalk .lit base 8 1 s <;> simp only [Res.map_ok, Res.map_raise, Res.map_fault, Nat.reducePow]

/-- The byte is the number the tree yields. -/
theorem exec_litNormal_eq_exec_btDecode (base : Nat) (s : State) : exec (.litNormal base) s = exec (.btDecode .lit base 8) s := by
  rw [exec_litNormal, litNormal_eq_btDecode, exec_btDecode]
  rcases hr : btDecode .lit base 8 s with ⟨v, t⟩ | ⟨k, t⟩ | e
  case raise => rfl
  case fault => rfl
  case ok =>
    have hv : v < 2 ^ 8 := (btDecode_forced hr).1
    rw [Res.map_ok, Res.finish_ok, Res.finish_ok, BitVec.toNat_ofNat, Nat.mod_eq_of_lt hv]

/-- Settles O37: the plain mode is the tree of depth 8, whose ends are known. -/
theorem litNormalIsATree : Obligations.LitNormalIsATree := by
  unfold Obligations.LitNormalIsATree
  refine fun s base => ⟨exec_litNormal_eq_exec_btDecode base s, fun h he => ?_⟩
  have htree : (base : Int) + 2 ^ 8 ≤ groupSize s .lit := by omega
  rw [exec_litNormal]
  refine literal_completes (litNormal_frame (List.mem_singleton_self _) base s) ?_ ?_ ?_ <;> rw [litNormal_eq_btDecode]
  · exact (btDecode_takes h (by omega) htree).map
  · exact (btDecode_runs h (by omega) htree).map
  · exact (btDecode_truncates .lit base 8 s).map

/-! ### LIT_MATCHED (R172, R173) -/

/-- Out of the matched mode the match byte is not read. -/
theorem litMatchedLoop_false (base n : Nat) (mb : Byte) (m : Nat) (s : State) :
    litMatchedLoop base n false mb m s = litNormalLoop base n m s := by
  induction n generalizing m s with
  | zero => rfl
  | succ n ih =>
    rw [litMatchedLoop, litNormalLoop]
    congr 1
    funext bit t
    exact ih _ t

/-- One level in either mode. -/
theorem litMatchedLoop_succ (base n : Nat) (matched : Bool) (mb : Byte) (m : Nat) (s : State) :
    litMatchedLoop base (n + 1) matched mb m s =
      (rcBit .lit (base + (if matched then (1 + mb.msb.toNat) * 256 else 0) + m : Nat) s).bind fun bit t =>
        litMatchedLoop base n (matched && bit == mb.msb) (mb <<< 1) (2 * m + bit.toNat) t := by
  cases matched with
  | true => rfl
  | false => simp only [litMatchedLoop, litMatchedLoop_false, Bool.false_and, Bool.false_eq_true, if_false, Nat.add_zero]

/-- The `k` bits of value `v` are the first `k` bits of the match byte. -/
def agreesWith (mb : Byte) (k v : Nat) : Bool := decide (mb.toNat / 2 ^ (8 - k) = v)

/-- The match bit of level `k`. -/
theorem matchBit_toNat (mb : Byte) {k : Nat} (hk : k < 8) : (mb <<< k).msb.toNat = mb.toNat / 2 ^ (7 - k) % 2 := by
  rw [BitVec.msb_shiftLeft, BitVec.getMsbD, decide_eq_true hk, Bool.true_and, BitVec.getLsbD, Nat.toNat_testBit]

/-- One more bit agrees when those before it do and it is the match bit. -/
theorem agreesWith_succ (mb : Byte) {k : Nat} (hk : k < 8) (v : Nat) (bit : Bool) :
    agreesWith mb (k + 1) (2 * v + bit.toNat) = (agreesWith mb k v && bit == (mb <<< k).msb) := by
  have hbit := Bool.toNat_lt bit
  have hmatch := matchBit_toNat mb hk
  have hsame : bit = (mb <<< k).msb ↔ bit.toNat = (mb <<< k).msb.toNat :=
    ⟨congrArg Bool.toNat, fun h => by rw [← Bool.ofNat_toNat bit, h, Bool.ofNat_toNat]⟩
  have hhalf : mb.toNat / 2 ^ (8 - k) = mb.toNat / 2 ^ (7 - k) / 2 := by
    rw [Nat.div_div_eq_div_mul, ← pow_succ, show 7 - k + 1 = 8 - k by omega]
  rw [Bool.eq_iff_iff, Bool.and_eq_true, beq_iff_eq, hsame, hmatch, agreesWith, agreesWith, decide_eq_true_iff,
    decide_eq_true_iff, hhalf, show 8 - (k + 1) = 7 - k by omega]
  omega

/-- The levels of `LIT_MATCHED` from level `k` on, behind the bits of value `v`. -/
def matchedFrom (base : Nat) (mb : Byte) (n k v : Nat) (s : State) : Res Nat :=
  litMatchedLoop base n (agreesWith mb k v) (mb <<< k) (2 ^ k + v) s

/-- Level `k` is `RC_BIT` on its slot (R172). -/
theorem matchedFrom_succ (base : Nat) (mb : Byte) (n : Nat) {k : Nat} (hk : k < 8) (v : Nat) (s : State) :
    matchedFrom base mb (n + 1) k v s = (rcBit .lit (matchedSlot base mb.toNat k v) s).bind fun bit t =>
      matchedFrom base mb n (k + 1) (2 * v + bit.toNat) t := by
  have hnode (bit : Bool) : 2 * (2 ^ k + v) + bit.toNat = 2 ^ (k + 1) + (2 * v + bit.toNat) := by omega
  have hslot : base + (if agreesWith mb k v = true then (1 + (mb <<< k).msb.toNat) * 256 else 0) + (2 ^ k + v) =
      matchedSlot base mb.toNat k v := by
    rw [matchBit_toNat mb hk]
    simp only [agreesWith, decide_eq_true_iff, matchedSlot]
  simp only [matchedFrom, litMatchedLoop_succ, hslot, agreesWith_succ mb hk, hnode, BitVec.shiftLeft_add]

theorem matchedSlot_lt (base mb : Nat) {k v : Nat} (hk : k < 8) (hv : v < 2 ^ k) : matchedSlot base mb k v < base + 0x300 := by
  have hpow : 2 ^ (k + 1) ≤ 2 ^ 8 := Nat.pow_le_pow_right (by decide) hk
  unfold matchedSlot
  split <;> omega

section
variable {base n k v : Nat} {mb : Byte} {s : State}

/-- The slot of level `k` is in the sub-decoder's block. -/
theorem matchedSlot_in_group (he : base + 0x300 ≤ groupSize s .lit) (hk : k < 8) (hv : v < 2 ^ k) :
    0 ≤ (matchedSlot base mb.toNat k v : Int) ∧ (matchedSlot base mb.toNat k v : Int) < groupSize s .lit := by
  have := matchedSlot_lt base mb.toNat hk hv
  omega

theorem bits_entered (hv : v < 2 ^ k) (bit : Bool) : 2 * v + bit.toNat < 2 ^ (k + 1) := by
  have := Bool.toNat_lt bit
  omega

theorem matchedFrom_takes (h : CoderOk s) (he : base + 0x300 ≤ groupSize s .lit) (hk : k + n = 8) (hv : v < 2 ^ k) :
    CoderTakes n s (matchedFrom base mb n k v s) := by
  induction n generalizing k v s with
  | zero => exact CoderTakes.ok _
  | succ n ih =>
    rw [matchedFrom_succ base mb n (by omega)]
    refine (rcBit_takes h (matchedSlot_in_group he (by omega) hv)).bind fun bit t hr => ?_
    have hsize := groupSize_frame ((rcBit_frame (List.mem_singleton_self .lit) _ s).frame_of_ok hr) .lit
    exact ih (((rcBit_keeps _ _ s).of_ok hr).2 h) (he.trans_eq hsize.symm) (by omega) (bits_entered hv bit)

theorem matchedFrom_runs (h : CoderOk s) (he : base + 0x300 ≤ groupSize s .lit) (hk : k + n = 8) (hv : v < 2 ^ k) :
    CoderRuns n s (matchedFrom base mb n k v s) := by
  induction n generalizing k v s with
  | zero => exact CoderRuns.ok h _
  | succ n ih =>
    rw [matchedFrom_succ base mb n (by omega), Nat.add_comm n 1]
    have hframe := rcBit_frame (List.mem_singleton_self .lit) (matchedSlot base mb.toNat k v) s
    refine (rcBit_runs h (matchedSlot_in_group he (by omega) hv)).bind hframe fun bit t _ ht hst => ?_
    exact ih ht (he.trans_eq (groupSize_frame hst .lit).symm) (by omega) (bits_entered hv bit)

end

theorem litMatchedLoop_truncates (base n : Nat) (matched : Bool) (mb : Byte) (m : Nat) (s : State) :
    TruncatesAtEnd (litMatchedLoop base n matched mb m s) := by
  induction n generalizing matched mb m s with
  | zero => exact TruncatesAtEnd.ok m s
  | succ n ih =>
    rw [litMatchedLoop_succ]
    exact (rcBit_truncates .lit _ s).bind fun _ t => ih _ _ _ t

/-- The byte of a literal from the node its levels end in. -/
def leafByte (m : Nat) : Byte := BitVec.ofNat 8 (m - 0x100)

theorem leafByte_toNat {v : Nat} (hv : v < 2 ^ 8) : (leafByte (2 ^ 8 + v)).toNat = v := by
  rw [leafByte, show 2 ^ 8 + v - 0x100 = v by omega, BitVec.toNat_ofNat, Nat.mod_eq_of_lt hv]

theorem litMatched_eq (base : Nat) (mb : Byte) (s : State) : litMatched base mb s = (matchedFrom base mb 8 0 0 s).map leafByte := by
  have hagrees : agreesWith mb 0 0 = true := decide_eq_true (Nat.div_eq_of_lt mb.isLt)
  rw [matchedFrom, hagrees, BitVec.shiftLeft_zero]
  rfl

theorem exec_litMatched (base : Nat) (mb : Byte) (s : State) :
    exec (.litMatched base mb) s = (litMatched base mb s).finish fun b => some b.toNat := rfl

/-- What the levels from `k` on decode, in a state `t` that those before have led to from `s`. -/
theorem matchedFrom_decodesBits {base n k v : Nat} {mb : Byte} {s t : State} {r : Option Nat} {whole : Host.Outcome State Fault Refusal}
    (hst : CoderFrame [.lit] s t) (h : CoderOk t) (he : base + 0x300 ≤ groupSize s .lit) (hk : k + n = 8) (hv : v < 2 ^ k)
    (hwhole : whole = (matchedFrom base mb n k v t).finish fun m => some (leafByte m).toNat) :
    DecodesBits whole .lit (matchedSlot base mb.toNat)
      (fun b u => b < 256 ∧ whole = .next { u with result := some b } ∧ CoderFrame [.lit] s u) n k v { t with result := r } := by
  induction n generalizing k v t r with
  | zero =>
    obtain rfl : k = 8 := hk
    refine ⟨hv, ?_, hst.setResult r⟩
    rw [hwhole, matchedFrom, litMatchedLoop, Res.finish_ok, leafByte_toNat hv]
  | succ n ih =>
    have hk8 : k < 8 := by omega
    rw [matchedFrom_succ base mb n hk8] at hwhole
    rw [DecodesBits, exec_rcBit_setResult]
    conv => arg 1; rw [hwhole]
    have hgroup := matchedSlot_in_group (mb := mb) (he.trans_eq (groupSize_frame hst .lit).symm) hk8 hv
    refine beginsWith_bind (rcBit_takes h hgroup).noFault fun bit u hr => ⟨Nat.le_of_lt_succ (Bool.toNat_lt bit), ?_⟩
    have hsu := hst.trans ((rcBit_frame (List.mem_singleton_self .lit) _ t).frame_of_ok hr)
    refine ih hsu (((rcBit_keeps _ _ t).of_ok hr).2 h) (by omega) (bits_entered hv bit) ?_
    rw [hwhole, hr, Res.bind_ok]

/-- Settles O38, level by level. -/
theorem litMatchedSlots : Obligations.LitMatchedSlots := by
  unfold Obligations.LitMatchedSlots
  intro s base mb h he
  rw [exec_litMatched]
  refine ⟨?_, literal_completes (litMatched_frame (List.mem_singleton_self _) base mb s) ?_ ?_ ?_⟩
  · refine matchedFrom_decodesBits (t := s) (CoderFrame.refl _ s) h he rfl (by decide) ?_
    rw [litMatched_eq]
    cases matchedFrom base mb 8 0 0 s <;> rfl
  · rw [litMatched_eq]
    exact (matchedFrom_takes h he rfl (by decide)).map
  · rw [litMatched_eq]
    exact (matchedFrom_runs h he rfl (by decide)).map
  · exact (litMatchedLoop_truncates base 8 true mb 1 s).map

end Sys2Proof.Machine
end

section
/-! SUPPORT. Decoding a symbol from a sound stream never faults (`44_output_window.md` R192, `70_reset_and_hazards.md` R303): every slot is
in its group, and the match byte of a literal is in the window. -/

namespace Sys2Proof.Machine

section
variable {α β : Type} {s : State}

theorem CoderTakes.mono {m n : Nat} {r : Res α} (h : CoderTakes m s r) (hmn : m ≤ n) : CoderTakes n s r :=
  ⟨h.noFault, fun a t hr => (h.bytes a t hr).trans (by omega)⟩

/-- One operation after another: the second begins with the coder within its bounds, and knows what the first left alone. -/
theorem CoderTakes.bind_of_keeps {m n : Nat} {gs : List ProbGroup} {r : Res α} {f : α → State → Res β} (hok : CoderOk s)
    (h : CoderTakes m s r) (hframe : CoderOp gs s r) (hkeeps : Keeps s r)
    (hf : ∀ a t, r = .ok a t → CoderOk t → CoderFrame gs s t → CoderTakes n t (f a t)) : CoderTakes (n + m) s (r.bind f) :=
  h.bind fun a t hr => hf a t hr ((hkeeps.of_ok hr).2 hok) (hframe.frame_of_ok hr)

end

/-! ### The fields of a symbol -/

theorem btReverse_takes {g : ProbGroup} {base : Int} {d : Nat} {s : State} (h : CoderOk s) (h0 : -1 ≤ base)
    (he : base + 2 ^ d ≤ groupSize s g) : CoderTakes d s (btReverse g base d s) := by
  rw [btReverse_eq]
  exact (btDecode_takes h h0 he).map

theorem lenDecode_takes {x : LenInst} {ps : Nat} {s : State} (h : CoderOk s) (hps : ps < 2 ^ s.pb.toNat) :
    CoderTakes 10 s (lenDecode x ps s) := by
  have hbit (i : Int) (t : State) : CoderOp [x.choice] t (rcBit x.choice i t) := rcBit_frame (List.mem_singleton_self _) i t
  rw [lenDecode_eq]
  refine CoderTakes.bind_of_keeps (n := 9) h (rcBit_takes h (choice_in_group x s false)) (hbit 0 s) (rcBit_keeps _ _ s)
    fun c0 t _ ht hst => ?_
  have hps' := hst.lt_two_pow_pb hps
  split
  · exact ((btDecode_takes ht (by omega) (posStateTree_in_group (groupSize_low x t) hps')).map).mono (by omega)
  refine CoderTakes.bind_of_keeps (n := 8) ht (rcBit_takes ht (choice_in_group x t true)) (hbit 1 t) (rcBit_keeps _ _ t)
    fun c1 u _ hu htu => ?_
  split
  · exact ((btDecode_takes hu (by omega) (posStateTree_in_group (groupSize_mid x u) (htu.lt_two_pow_pb hps'))).map).mono
      (by omega)
  · exact (btDecode_takes hu (by omega) (highTree_in_group x u)).map

/-- The position-slot tree of a length class is in its group (`45_symbols.md` R205). -/
theorem posSlotTree_in_group (c : LenClass) (s : State) :
    -1 ≤ posSlotBase c ∧ posSlotBase c + 2 ^ config.posSlotBits ≤ groupSize s .posSlot := by
  have hc := c.isLt
  simp only [posSlotBase, groupSize, lenClasses, config_posSlotBits]
  push_cast
  omega

theorem alignTree_in_group (s : State) : (0 : Int) + 2 ^ alignBits ≤ groupSize s .align := by simp [groupSize]

theorem distDecode_takes {s : State} (h : CoderOk s) (len : Nat) : CoderTakes 36 s (distDecode len s) := by
  obtain ⟨h0, he⟩ := posSlotTree_in_group (lenClassOf len) s
  refine CoderTakes.bind_of_keeps (m := 6) (n := 30) h (btDecode_takes h h0 he) (btDecode_frame (List.mem_singleton_self _) _ _ s)
    (btDecode_keeps _ _ _ s) fun slot t hslot ht _ => ?_
  have hlt : slot < 64 := (btDecode_forced hslot).1
  have hwidth := directBits_eq slot
  split
  · exact (CoderTakes.ok _).mono (by omega)
  next h4 =>
  split
  · next h14 =>
    obtain ⟨hbase, hend⟩ := posDec_fits slot (by omega) h14
    exact ((btReverse_takes ht (by omega) hend).map).mono (by omega)
  · next h14 =>
    have h14 : 14 ≤ slot := not_lt.1 h14
    refine (CoderTakes.bind_of_keeps (n := 4) ht (rcDirect_takes ht _) (rcDirect_frame [] _ t) (rcDirect_keeps _ t)
      fun hi u _ hu _ => (btReverse_takes hu (by omega) (alignTree_in_group u)).map).mono ?_
    simp only [alignBits]
    omega

/-! ### Sound streams while bits are decoded -/

/-- What the representation of the window speaks of. -/
theorem WinRep.congr {p : Nat} {s t : State} (h : WinRep p s) (hem : emitted t = emitted s := by rfl)
    (hwin : t.mem.win = s.mem.win := by rfl) (hws : t.windowSize = s.windowSize := by rfl)
    (hwc : t.writeCursor = s.writeCursor := by rfl) (hwm : t.watermark = s.watermark := by rfl) : WinRep p t where
  order := hwm ▸ hwc ▸ h.order
  inside := hwc ▸ hws ▸ h.inside
  produced := hem ▸ h.produced
  window d hd hdw := by
    rw [hwin, hws, hwc, hem]
    exact h.window d hd (hws ▸ hdw)
  unflushed := hwc ▸ hwm ▸ h.unflushed

/-- Decoding bits leaves a sound stream sound: it touches neither the window nor what the stream has produced. -/
theorem StreamInv.of_coderFrame {gs : List ProbGroup} {s t : State} (h : StreamInv s) (hf : CoderFrame gs s t)
    (hstep : OperationStep s t) : StreamInv t := by
  obtain ⟨hst, hrep0, -, -, -, hpos, -, -, -, -, -, -, -, hcheck, hws, -, hphase, -, hwc, hwm, -⟩ := hf.fields
  refine WinRep.streamInv ?_ (h.inv.operationStep hstep) (hphase.trans h.decoding) ?_
  · rw [hpos]
    exact h.rep.congr hf.emitted_eq hf.win hws hwc hwm
  · rw [hst, hrep0, hpos, hcheck]
    exact h.rep0

theorem Operation.step_of_ok {α : Type} {s t : State} {r : Res α} {a : α} (h : Operation s r) (hr : r = .ok a t) :
    OperationStep s t := by
  subst hr
  exact h.post

theorem StreamInv.of_rcBit {g : ProbGroup} {i : Int} {bit : Bool} {s t : State} (h : StreamInv s)
    (hr : rcBit g i s = .ok bit t) : StreamInv t :=
  h.of_coderFrame ((rcBit_frame (List.mem_singleton_self g) i s).frame_of_ok hr) ((rcBit_operation g i s).step_of_ok hr)

/-- In a match state the match byte is in the window (R174, R202). -/
theorem StreamInv.literalContext_eq {s : State} (h : StreamInv s) : ∃ mb, literalContext s = .ok mb s := by
  unfold literalContext
  split
  · exact ⟨none, rfl⟩
  · next hmatch =>
    obtain ⟨hpos, hcheck⟩ := h.rep0 (by simpa [isCharState] using hmatch)
    obtain ⟨b, hget, -⟩ := winGet_runs h.rep hpos (hcheck.trans_le h.props.check_le)
    exact ⟨some b, by rw [hget, Res.map_ok]⟩

theorem fetchLit_takes {s : State} (h : StreamInv s) : CoderTakes 8 s (fetchLit s) := by
  have hfits : litSelect s + 0x300 ≤ groupSize s .lit := litSub_fits h.props
  obtain ⟨mb, hctx⟩ := h.literalContext_eq
  rw [fetchLit, hctx, Res.bind_ok]
  cases mb with
  | none =>
    simp only [litNormal_eq_btDecode]
    exact (btDecode_takes h.coder (by omega) (by omega)).map
  | some mb =>
    simp only [litMatched_eq]
    exact (matchedFrom_takes h.coder hfits rfl (by decide)).map

/-- A flag of the automaton's state is on a slot its group has. -/
theorem StreamInv.state_in_group {s : State} (h : StreamInv s) :
    0 ≤ (s.state.toNat : Int) ∧ (s.state.toNat : Int) < (numStates : Nat) := by
  have := h.inv.automaton h.decoding
  exact ⟨by positivity, by exact_mod_cast this⟩

/-- So is a flag of the state and the position state. -/
theorem StreamInv.stateIndex_in_group {s : State} (h : StreamInv s) :
    0 ≤ (stateIndex s : Int) ∧ (stateIndex s : Int) < (numStates * 2 ^ s.pb.toNat : Nat) := by
  have := stateIndex_lt h.props (h.inv.automaton h.decoding)
  exact ⟨by positivity, by exact_mod_cast this⟩

/-- `SYMBOL()` decodes its bits without a fault, and takes at most a byte for each of the 48 decisions there can be (R105, R141). -/
theorem fetchSymbol_takes {s : State} (h : StreamInv s) : CoderTakes 48 s (fetchSymbol s) := by
  have hbit (g : ProbGroup) (i : Int) (t : State) : CoderOp [g] t (rcBit g i t) := rcBit_frame (List.mem_singleton_self g) i t
  have hst := h.state_in_group
  have hix := h.stateIndex_in_group
  have hlen {t : State} (x : LenInst) (ht : CoderOk t) (hpb : t.pb = s.pb) : CoderTakes 10 t (lenDecode x (posState s) t) :=
    lenDecode_takes ht (hpb ▸ posState_lt h.props)
  refine CoderTakes.bind_of_keeps (n := 47) h.coder (rcBit_takes h.coder hix) (hbit _ _ s) (rcBit_keeps _ _ s)
    fun isMatch s1 hr1 ok1 f1 => ?_
  split
  · exact ((fetchLit_takes (h.of_rcBit hr1)).map).mono (by omega)
  refine CoderTakes.bind_of_keeps (n := 46) ok1 (rcBit_takes ok1 hst) (hbit _ _ s1) (rcBit_keeps _ _ s1) fun isRep s2 _ ok2 f2 => ?_
  have hpb2 : s2.pb = s.pb := by rw [f2.rest, f1.rest]
  split
  · exact CoderTakes.bind_of_keeps ok2 (hlen .mlen ok2 hpb2) (lenDecode_frame .mlen (List.Subset.refl _) _ s2)
      (lenDecode_keeps _ _ s2) fun len s3 _ ok3 _ => (distDecode_takes ok3 len).map
  refine CoderTakes.bind_of_keeps (n := 45) ok2 (rcBit_takes ok2 hst) (hbit _ _ s2) (rcBit_keeps _ _ s2) fun isRepG0 s3 _ ok3 f3 => ?_
  have hpb3 : s3.pb = s.pb := by rw [f3.rest]; exact hpb2
  split
  · refine CoderTakes.bind_of_keeps (n := 44) ok3 (rcBit_takes ok3 ?_) (hbit _ _ s3) (rcBit_keeps _ _ s3)
      fun isRep0Long s4 _ ok4 f4 => ?_
    · rw [groupSize, hpb3]
      exact hix
    split
    · exact (CoderTakes.ok _).mono (by omega)
    · exact ((hlen .rlen ok4 (by rw [f4.rest]; exact hpb3)).map).mono (by omega)
  refine CoderTakes.bind_of_keeps (n := 44) ok3 (rcBit_takes ok3 hst) (hbit _ _ s3) (rcBit_keeps _ _ s3) fun isRepG1 s4 _ ok4 f4 => ?_
  have hpb4 : s4.pb = s.pb := by rw [f4.rest]; exact hpb3
  split
  · exact ((hlen .rlen ok4 hpb4).map).mono (by omega)
  refine CoderTakes.bind_of_keeps (n := 43) ok4 (rcBit_takes ok4 hst) (hbit _ _ s4) (rcBit_keeps _ _ s4) fun isRepG2 s5 _ ok5 f5 => ?_
  split <;> exact ((hlen .rlen ok5 (by rw [f5.rest]; exact hpb4)).map).mono (by omega)

end Sys2Proof.Machine
end

section
/-! SUPPORT. A pass of the loop of `DECODE` on a sound stream (`46_control.md` R244 to R250, `44_output_window.md` R188, R192): it leaves a
sound stream with more output, or ends with the whole output in the sink, or takes a failure. -/

namespace Sys2Proof.Machine

/-! ### The output, counted (R188) -/

/-- A written region is unflushed byte for byte. -/
theorem unflushed_eq_map {s : State}
    (hwritten : ∀ a, s.watermark.toNat ≤ a → a < s.writeCursor.toNat → (Cells.find s.mem.win a).isSome = true) :
    unflushed s = (List.range (s.writeCursor.toNat - s.watermark.toNat)).map
      fun j => (Cells.find s.mem.win (s.watermark.toNat + j)).getD 0#8 := by
  rw [unflushed, List.filterMap_eq_map_iff_forall_eq_some]
  intro j hj
  rw [List.mem_range] at hj
  obtain ⟨b, hb⟩ := Option.isSome_iff_exists.1 (hwritten (s.watermark.toNat + j) (by omega) (by omega))
  rw [hb, Option.getD_some]

theorem WinRep.emitted_length {p : Nat} {s : State} (h : WinRep p s) :
    (emitted s).length = s.sink.length + (s.writeCursor.toNat - s.watermark.toNat) := by
  rw [emitted, List.length_append, unflushed_eq_map fun _ h1 h2 => h.written h1 h2, List.length_map, List.length_range]

/-- From `s` to `t` the output has grown at its end, by as many bytes as `position`. -/
structure Grows (s t : State) : Prop where
  output : emitted s <+: emitted t
  counted : (emitted t).length + s.position.toNat = (emitted s).length + t.position.toNat

theorem CopiedFrom.isPrefix {d n : Nat} {out out' : List Byte} (h : CopiedFrom d n out out') : out <+: out' :=
  List.prefix_iff_eq_take.2 h.before.symm

/-! ### The effect of a symbol (`45_symbols.md` R202 to R215) -/

/-- How the effect of a symbol ends that was begun on the sound stream `s`; the flag says whether it is the end marker. -/
inductive EffectEnds (s : State) : Bool → Res Bool → Prop where
  | completes {t : State} (hstream : StreamInv t) (hgrows : Grows s t) : EffectEnds s false (.ok false t)
  | marker {t : State} (hrep : WinRep s.position.toNat t) (hphase : t.phase = .decoding) (hem : emitted t = emitted s) :
      EffectEnds s true (.ok true t)
  | raises (eos : Bool) (k : FailureKind) (t : State) : EffectEnds s eos (.raise k t)

/-- Where a flush is due the sink accepts it, or it is due and the sink fails. -/
theorem sinkAccepts_or_fails (s : State) (due : Prop) :
    (due → sinkAccepts s = true) ∨ due ∧ ∃ rest, s.sinkAnswers = .failure :: rest := by
  by_cases hdue : due
  · rcases h : s.sinkAnswers with _ | ⟨_ | _, rest⟩
    · exact .inl fun _ => by simp [sinkAccepts, h]
    · exact .inl fun _ => by simp [sinkAccepts, h]
    · exact .inr ⟨hdue, rest, rfl⟩
  · exact .inl fun h => absurd h hdue

theorem litEffect_ends {s : State} (h : StreamInv s) (b : Byte) (hroom : s.position.toNat + 273 < 2 ^ 64) :
    EffectEnds s false ((litEffect b s).map fun _ => false) := by
  have hop := litEffect_operation b s
  rcases sinkAccepts_or_fails s (s.writeCursor.toNat + 1 = s.windowSize.toNat) with haccepts | ⟨hend, rest, hfails⟩
  · have hrun := litEffect_runs h.rep (by omega) haccepts (b := b)
    have hposition : (s.position + BitVec.ofNat 64 1).toNat = s.position.toNat + 1 := position_add (by omega)
    have hstep := hop.step_of_ok hrun
    have hem := putState_emitted h.rep b
    rw [hrun, Res.map_ok]
    refine .completes (WinRep.streamInv ?_ (h.inv.operationStep hstep) (hstep.frame.phase.trans h.decoding) fun hmatch => ?_) ⟨?_, ?_⟩
    · rw [hposition]
      exact (putState_rep h.rep b).congr
    · exact absurd (afterLiteral_lt s.state (h.inv.automaton h.decoding)) (Nat.not_lt.2 hmatch)
    · exact hem ▸ List.prefix_append _ _
    · show (emitted (putState b s)).length + s.position.toNat = (emitted s).length + (s.position + BitVec.ofNat 64 1).toNat
      rw [hem, hposition, List.length_append, List.length_singleton]
      omega
  · rw [litEffect_fails h.rep hend hfails]
    exact .raises _ _ _

/-- `COPY` on a sound window completes from a legal distance, or raises. -/
theorem copyTail_ends {s : State} {n : Nat} (h : WinRep s.position.toNat s) (hp : PropertiesOk s) (hn : 1 ≤ n) (hn' : n ≤ 273)
    (hroom : s.position.toNat + 273 < 2 ^ 64) :
    (s.rep0.toNat < s.position.toNat ∧ s.rep0.toNat < s.dictionarySizeCheck.toNat ∧
      ∃ t, copyTail n s = .ok () t ∧ CopyDone n s t) ∨ ∃ k t, copyTail n s = .raise k t := by
  by_cases hlegal : s.rep0.toNat < s.position.toNat ∧ s.rep0.toNat < s.dictionarySizeCheck.toNat
  case neg => exact .inr ⟨_, s, copyTail_corrupt (by omega)⟩
  obtain ⟨hpos, hcheck⟩ := hlegal
  rcases sinkAccepts_or_fails s (s.windowSize.toNat ≤ s.writeCursor.toNat + n) with haccepts | ⟨hwrap, rest, hfails⟩
  · exact .inl ⟨hpos, hcheck, copyTail_runs h hp hpos hcheck hn hn' (by omega) haccepts⟩
  · obtain ⟨t, ht, -⟩ := copyTail_fails h hp hpos hcheck hwrap hfails
    exact .inr ⟨_, t, ht⟩

/-- A copying symbol sets the history and the automaton, and copies. -/
theorem copySymbol_ends {s : State} {n : Nat} (h : StreamInv s) (hn : 1 ≤ n) (hn' : n ≤ 273)
    (hroom : s.position.toNat + 273 < 2 ^ 64) {st : BitVec 4} (hst : st.toNat < 12) (r0 r1 r2 r3 : Word) :
    EffectEnds s false ((copyTail n { s with state := st, rep0 := r0, rep1 := r1, rep2 := r2, rep3 := r3 }).map fun _ => false) := by
  have hop := copyTail_afterRegisters n s r0 r1 r2 r3 fun _ => hst
  rcases copyTail_ends (s := { s with state := st, rep0 := r0, rep1 := r1, rep2 := r2, rep3 := r3 }) (n := n) h.rep.congr
    h.props.congr hn hn' hroom with ⟨hpos, hcheck, t, ht, hdone⟩ | ⟨k, t, ht⟩
  case inr => rw [ht]; exact .raises _ k t
  have hstep := hop.step_of_ok ht
  have hposition : t.position.toNat = s.position.toNat + n := hdone.position
  have hrep0 : t.rep0 = r0 := by rw [hdone.rest]
  have hdict : t.dictionarySizeCheck = s.dictionarySizeCheck := by rw [hdone.rest]
  have hlength : (emitted t).length = (emitted s).length + n := hdone.effect.copied.length
  rw [ht, Res.map_ok]
  refine .completes (WinRep.streamInv ?_ (h.inv.operationStep hstep) (hstep.frame.phase.trans h.decoding) fun _ => ?_)
    ⟨hdone.effect.copied.isPrefix, by omega⟩
  · rw [hposition]
    exact hdone.effect.rep
  · rw [hrep0, hposition, hdict]
    exact ⟨Nat.lt_add_right n hpos, hcheck⟩

theorem bounds_of_lenOk {len : Nat} (h : lenOk len = true) : 1 ≤ len ∧ len ≤ 273 := by
  simp only [lenOk, Bool.and_eq_true, decide_eq_true_eq] at h
  omega

theorem symbolEffect_ends {s : State} {y : Symbol} (h : StreamInv s) (hwf : y.toInstr.wf = true)
    (hroom : s.position.toNat + 273 < 2 ^ 64) : EffectEnds s (endsLoop y) (symbolEffect y s) := by
  have hautomaton := h.inv.automaton h.decoding
  have hrep := (afterRep_range s.state hautomaton).2
  have hcopy {len : Nat} (hlen : lenOk len = true) {st : BitVec 4} (hst : st.toNat < 12) (r0 r1 r2 r3 : Word) :=
    copySymbol_ends h (bounds_of_lenOk hlen).1 (bounds_of_lenOk hlen).2 hroom hst r0 r1 r2 r3
  cases y with
  | lit b => exact litEffect_ends h b hroom
  | matchNew len dist =>
    obtain ⟨hlen, hdist⟩ : lenOk len = true ∧ dist ≠ eosDistance := by simpa [Symbol.toInstr, Instr.wf] using hwf
    rw [symbolEffect, matchEffect_copy hdist]
    exact hcopy hlen (afterMatch_range s.state hautomaton).2 dist s.rep0 s.rep1 s.rep2
  | eos len =>
    rw [symbolEffect, matchEffect_eos]
    exact .marker h.rep.congr h.decoding rfl
  | shortrep =>
    exact copySymbol_ends h le_rfl (by omega) hroom (afterShortRep_range s.state hautomaton).2 s.rep0 s.rep1 s.rep2 s.rep3
  | longrep0 len => exact hcopy hwf hrep s.rep0 s.rep1 s.rep2 s.rep3
  | longrep1 len => exact hcopy hwf hrep s.rep1 s.rep0 s.rep2 s.rep3
  | longrep2 len => exact hcopy hwf hrep s.rep2 s.rep0 s.rep1 s.rep3
  | longrep3 len => exact hcopy hwf hrep s.rep3 s.rep0 s.rep1 s.rep2

/-- The bits decoded before the effect have not changed the output. -/
theorem EffectEnds.of_coderFrame {gs : List ProbGroup} {s u : State} {eos : Bool} {r : Res Bool} (hf : CoderFrame gs s u)
    (h : EffectEnds u eos r) : EffectEnds s eos r := by
  have hem := hf.emitted_eq
  have hpos : u.position = s.position := by rw [hf.rest]
  cases h with
  | completes hstream hgrows => exact .completes hstream ⟨hem ▸ hgrows.output, by rw [← hem, ← hpos]; exact hgrows.counted⟩
  | marker hrep hphase hout => exact .marker (hpos ▸ hrep) hphase (hout.trans hem)
  | raises eos k t => exact .raises eos k t

/-! ### A pass of the loop -/

/-- How a pass ends that was begun on the sound stream `s`. -/
inductive PassEnds (s : State) : Host.Outcome State Fault Refusal → Prop where
  | goesOn {t : State} (hstream : StreamInv t) (hgrows : Grows s t) : PassEnds s (.next t)
  | succeeds {t : State} (hphase : t.phase = .done) (hstatus : t.status = .ok) (hsink : t.sink = emitted s) : PassEnds s (.next t)
  | fails (k : FailureKind) (t : State) : PassEnds s (.next (takeFailure .failed k t))

/-- The final flush hands over what is left of the output, unless the sink fails (R249, R250). -/
theorem finishDecode_ends {p : Nat} {s t : State} (h : WinRep p t) (hem : emitted t = emitted s) : PassEnds s (finishDecode t) := by
  have hwritten := fun a h1 h2 => h.written (a := a) h1 h2
  rcases sinkAccepts_or_fails t (t.watermark.toNat < t.writeCursor.toNat) with haccepts | ⟨hdue, rest, hfails⟩
  · rw [finishDecode, winFlush_eq h.order h.inside.le hwritten haccepts]
    exact .succeeds rfl rfl hem
  · rw [finishDecode, winFlush_fails hfails hdue h.inside.le hwritten]
    exact .fails _ _

/-- The field `result` is no part of a sound stream. -/
theorem StreamInv.setResult {s : State} (h : StreamInv s) (v : Option Nat) : StreamInv { s with result := v } :=
  WinRep.streamInv h.rep.congr (h.inv.operationStep (OperationStep.setResult s v)) h.decoding h.rep0

theorem afterSymbol_ends {s : State} {y : Symbol} {r : Res Bool} (h : EffectEnds s (endsLoop y) r) :
    PassEnds s (afterSymbol y (finishSymbol r)) := by
  generalize hy : endsLoop y = eos at h
  cases h with
  | completes hstream hgrows =>
    rw [finishSymbol, Res.finish_ok, afterSymbol, hy]
    exact .goesOn (hstream.setResult _) ⟨hgrows.output, hgrows.counted⟩
  | marker hrep hphase hem =>
    rw [finishSymbol, Res.finish_ok, afterSymbol, hy]
    simp only [hphase, decide_true, Bool.and_self, if_true]
    exact finishDecode_ends hrep.congr hem
  | raises eos k t =>
    rw [finishSymbol, Res.finish_raise, afterSymbol]
    simp only [takeFailure_phase, reduceCtorEq, decide_false, Bool.and_false]
    exact .fails k t

theorem pass_ends {s : State} (h : StreamInv s) (hroom : s.position.toNat + 273 < 2 ^ 64) : PassEnds s (pass s) := by
  unfold pass
  split
  · exact finishDecode_ends h.rep rfl
  rcases hfetch : fetchSymbol s with ⟨y, u⟩ | ⟨k, u⟩ | e
  case raise => exact .fails k u
  case fault => exact absurd hfetch ((fetchSymbol_takes h).noFault e)
  obtain ⟨mb, hwf, hmb, hpath⟩ := fetchSymbol_decoded hfetch
  have hbits := hpath.takeBits_eq
  have hframe := (takeBits_frame _ (symbolPath_in s mb y) s).frame_of_ok hbits
  have hu := h.of_coderFrame hframe ((takeBits_operation _ s).step_of_ok hbits)
  have hpos : u.position = s.position := by rw [hframe.rest]
  have hexec : exec y.toInstr s = finishSymbol (symbolEffect y u) := by
    rw [exec_toInstr, takeSymbol_eq hmb, hbits, Res.bind_ok]
  show PassEnds s (afterSymbol y (exec y.toInstr s))
  rw [hexec]
  exact afterSymbol_ends ((symbolEffect_ends hu hwf (hpos ▸ hroom)).of_coderFrame hframe)

/-! ### The start of a stream (`46_control.md` R245) -/

/-- Nothing has been produced when a stream starts, so nothing can be read. -/
theorem streamInv_rcInit_startStream {el : DWord} {s t : State} (h : Inv s) (hphase : s.phase = .configured)
    (ht : rcInit (startStream el s) = .ok () t) : StreamInv t := by
  have hinv := inv_rcInit_startStream h hphase ht
  have hframe := (rcInit_frame [] (startStream el s)).frame_of_ok ht
  have hdecoding : t.phase = .decoding := by rw [hframe.rest]; rfl
  have hposition : t.position.toNat = 0 := by rw [hframe.rest]; rfl
  have hcursor : t.writeCursor.toNat = 0 := by rw [hframe.rest]; rfl
  have hstate : t.state.toNat = 0 := by rw [hframe.rest]; rfl
  obtain ⟨hordered, hinside⟩ := hinv.cursors hdecoding
  refine WinRep.streamInv ⟨hordered, hinside, by omega, fun d hd => ?_, by omega⟩ hinv hdecoding fun hmatch => ?_ <;> omega

/-- Settles O22: after `DECODE` the phase is DECODING only where `RC_INIT` has completed. -/
theorem decodeBeginsASoundStream : Obligations.DecodeBeginsASoundStream := by
  unfold Obligations.DecodeBeginsASoundStream
  intro s t el h hphase ht hdecoding
  rw [exec_cmdDecode hphase] at ht
  rcases hinit : rcInit (startStream el s) with ⟨⟨⟩, u⟩ | ⟨k, u⟩ | e <;> rw [hinit] at ht <;> cases ht
  · exact (streamInv_rcInit_startStream h hphase hinit).setResult none
  · cases hdecoding

/-! ### A step of a sound stream -/

/-- With nothing asserted or issued, a step of a running stream is a pass of its loop. -/
theorem step_eq_pass {s : State} (hreset : s.resetInput = false) (hissued : s.issued = []) (hphase : s.phase = .decoding) :
    step s = pass s := by
  simp [step, hreset, hissued, hphase]

/-- Settles O23, by the ends a pass can have. -/
theorem soundStreamsNeverFault : Obligations.SoundStreamsNeverFault := by
  unfold Obligations.SoundStreamsNeverFault
  intro s h hreset hissued hroom
  have hends := pass_ends h hroom
  rw [step_eq_pass hreset hissued h.decoding]
  generalize pass s = o at hends
  cases hends with
  | goesOn hstream _ => exact ⟨_, rfl, .inl ⟨hstream.decoding, hstream⟩⟩
  | succeeds hphase hstatus _ => exact ⟨_, rfl, .inr (.inl ⟨hphase, hstatus⟩)⟩
  | fails k t => exact ⟨_, rfl, .inr (.inr ⟨rfl, Status.noConfusion⟩)⟩

/-- Settles O24: the unflushed bytes are counted by the cursors, and the output grows with `position`. -/
theorem sinkReceivesTheOutput : Obligations.SinkReceivesTheOutput := by
  unfold Obligations.SinkReceivesTheOutput
  intro n s t h hreset hissued hroom hcount ht
  have hlength := h.rep.emitted_length
  have hends := pass_ends h hroom
  rw [← step_eq_pass hreset hissued h.decoding, ht] at hends
  cases hends with
  | goesOn hstream hgrows =>
    have hlength' := hstream.rep.emitted_length
    have hcounted := hgrows.counted
    refine ⟨fun _ => ⟨hgrows.output, List.prefix_append _ _, by omega, by omega⟩, fun hdone => ?_⟩
    rw [hstream.decoding] at hdone
    cases hdone
  | succeeds hphase _ hsink =>
    refine ⟨fun hdecoding => ?_, fun _ => ⟨hsink, by rw [hsink]; omega⟩⟩
    rw [hphase] at hdecoding
    cases hdecoding
  | fails k u => exact ⟨nofun, nofun⟩

end Sys2Proof.Machine
end

section
/-! SUPPORT. The output window's operations as instructions (`44_output_window.md` R181 to R188). -/

namespace Sys2Proof.Machine

theorem exec_winPut (b : Byte) (s : State) : exec (.winPut b) s = (winPut b s).finish fun _ => none := rfl

theorem exec_winCopy (d : Word) (n : Nat) (s : State) : exec (.winCopy d n) s = (winCopy d n s).finish fun _ => none := rfl

theorem exec_winFlush (s : State) : exec .winFlush s = (winFlush s).finish fun _ => none := rfl

/-! ### WIN_FLUSH (R186) -/

theorem unflushed_of_eq {s : State} (h : s.watermark = s.writeCursor) : unflushed s = [] := by
  rw [unflushed, h, Nat.sub_self, List.range_zero, List.filterMap_nil]

/-- Settles O43: the region is handed over, or is empty, or the sink fails. -/
theorem winFlushDelivers : Obligations.WinFlushDelivers := by
  unfold Obligations.WinFlushDelivers
  intro s hordered hinside hwritten
  refine ⟨fun hlt haccepts => ?_, fun hempty => ?_, fun hlt rest hfails => ?_⟩
  · rw [exec_winFlush, winFlush_eq hordered hinside hwritten fun _ => haccepts, if_pos hlt, Res.finish_ok]
    exact ⟨_, rfl, rfl, rfl⟩
  · have hnlt : ¬ s.watermark.toNat < s.writeCursor.toNat := by rw [hempty]; exact lt_irrefl _
    rw [exec_winFlush, winFlush_eq hordered hinside hwritten fun hlt => absurd hlt hnlt, if_neg hnlt, unflushed_of_eq hempty,
      List.append_nil, Res.finish_ok]
    exact ⟨_, rfl, rfl, rfl⟩
  · rw [exec_winFlush, winFlush_fails hfails hlt hinside hwritten, Res.finish_raise]

/-- A flush that completes moves the cursor only from the window's end, to 0. -/
theorem winFlush_writeCursor {s t : State} (h : winFlush s = .ok () t) :
    t.writeCursor = if s.writeCursor = s.windowSize then 0#32 else s.writeCursor := by
  obtain ⟨⟨⟩, u, hwrite, hend⟩ := Res.bind_eq_ok.1 h
  have hu : u.writeCursor = s.writeCursor ∧ u.windowSize = s.windowSize := by
    split at hwrite
    · obtain ⟨bytes, v, hregion, hsink⟩ := Res.bind_eq_ok.1 hwrite
      obtain rfl := winRegion_state hregion
      obtain ⟨hwc, -, hws⟩ := sinkWrite_cursors hsink
      exact ⟨hwc, hws⟩
    · cases hwrite
      exact ⟨rfl, rfl⟩
  obtain ⟨hwc, hws⟩ := hu
  cases hend
  simp only [hwc, hws]

/-! ### WIN_PUT (R182, R187) -/

/-- A written region in front of the cursor represents its own bytes as the end of the output. -/
theorem WinRep.of_written {s : State} (hordered : s.watermark.toNat ≤ s.writeCursor.toNat)
    (hinside : s.writeCursor.toNat < s.windowSize.toNat)
    (hwritten : ∀ a, s.watermark.toNat ≤ a → a < s.writeCursor.toNat → (Cells.find s.mem.win a).isSome = true) :
    WinRep (s.writeCursor.toNat - s.watermark.toNat) s where
  order := hordered
  inside := hinside
  produced := by
    rw [emitted, List.length_append, unflushed_eq_map hwritten, List.length_map, List.length_range]
    omega
  window d hd hdw := by
    obtain ⟨b, hb⟩ := Option.isSome_iff_exists.1 (hwritten (s.writeCursor.toNat - d - 1) (by omega) (by omega))
    have hplace : s.watermark.toNat + (s.writeCursor.toNat - s.watermark.toNat - 1 - d) = s.writeCursor.toNat - d - 1 := by omega
    rw [behind, if_pos (by omega), hb, emitted, List.reverse_append, unflushed_eq_map hwritten,
      List.getElem?_append_left (by simpa using hd), List.getElem?_reverse (by simpa using hd)]
    simp [hplace, hb, show s.writeCursor.toNat - s.watermark.toNat - 1 - d < s.writeCursor.toNat - s.watermark.toNat by omega]
  unflushed := by omega

/-- Before the window's end `WIN_PUT` only stores and advances. -/
theorem winPut_inside {s : State} (h : s.writeCursor.toNat + 1 < s.windowSize.toNat) (b : Byte) :
    winPut b s = .ok () { s with mem := s.mem.setWin s.writeCursor.toNat b, writeCursor := s.writeCursor + 1#32 } := by
  have hinside : s.writeCursor.toNat < s.windowSize.toNat := by omega
  have hne : s.writeCursor + 1#32 ≠ s.windowSize := fun he => by
    have := succ_toNat hinside
    rw [he] at this
    omega
  rw [winPut, if_pos (BitVec.lt_def.2 hinside)]
  exact if_neg hne

/-- Settles O39: before the window's end the byte is stored and nothing else happens; at the end the flush follows, and completes or fails. -/
theorem winPutStores : Obligations.WinPutStores := by
  unfold Obligations.WinPutStores
  intro s b hinside
  have hstored : Cells.find (s.mem.setWin s.writeCursor.toNat b).win s.writeCursor.toNat = some b := by simp
  have hother (a : Nat) (ha : a ≠ s.writeCursor.toNat) :
      Cells.find (s.mem.setWin s.writeCursor.toNat b).win a = Cells.find s.mem.win a := Cells.find_insert_of_ne _ _ ha
  refine ⟨fun hlt => ?_, fun hend hordered hwritten => ⟨fun haccepts => ?_, fun rest hfails => ?_⟩⟩
  · rw [exec_winPut, winPut_inside hlt, Res.finish_ok]
    exact ⟨_, rfl, rfl, succ_toNat hinside, rfl, rfl, hstored, hother⟩
  · rw [exec_winPut, winPut_eq (WinRep.of_written hordered hinside hwritten) b fun _ => haccepts, putState, if_pos hend, Res.finish_ok]
    exact ⟨_, rfl, rfl, rfl, rfl, hstored, hother⟩
  · rw [exec_winPut, winPut_fails (WinRep.of_written hordered hinside hwritten) b hend hfails, Res.finish_raise]
    rfl

/-- A `WIN_PUT` that completes moves the cursor on, from the last element to 0. -/
theorem winPut_writeCursor {b : Byte} {s t : State} (h : winPut b s = .ok () t) : s.writeCursor.toNat < s.windowSize.toNat ∧
    t.writeCursor.toNat = if s.writeCursor.toNat + 1 = s.windowSize.toNat then 0 else s.writeCursor.toNat + 1 := by
  unfold winPut at h
  split at h
  case isFalse => cases h
  next hlt =>
  have hinside := BitVec.lt_def.1 hlt
  have hsucc := succ_toNat hinside
  refine ⟨hinside, ?_⟩
  simp only at h
  split at h
  · next hend =>
    have hwc := winFlush_writeCursor h
    simp only [hend, if_true] at hwc
    rw [hwc, ← hsucc, hend, if_pos rfl]
    rfl
  · next hne =>
    cases h
    rw [if_neg fun he => hne (BitVec.eq_of_toNat_eq (hsucc.trans he))]
    exact hsucc

/-! ### WIN_GET (R181, R183) -/

/-- Settles O40: the index is `behind` the cursor. -/
theorem winGetReads : Obligations.WinGetReads := by
  unfold Obligations.WinGetReads
  intro s d b hinside
  refine ⟨fun hwindow hposition hfind => ?_, fun houtside => ?_⟩
  · have hindex := srcIndex_eq hinside hwindow
    exact (exec_winGet_eq_iff d b s).2 (winGet_eq_ok.2 ⟨(windowReadable_iff s d).2 ⟨hwindow, hposition⟩,
      hindex ▸ behind_lt hinside hwindow, hindex ▸ hfind⟩)
  · rw [exec_winGet, winGet, if_neg ((windowReadable_iff s d).not.2 houtside), Res.finish_fault]

theorem winGet_ok_or_fault (d : Word) (s : State) : (∃ b, winGet d s = .ok b s) ∨ ∃ f, winGet d s = .fault f := by
  unfold winGet winRead
  split_ifs
  · cases Cells.find s.mem.win (srcIndex s d) with
    | some b => exact .inl ⟨b, rfl⟩
    | none => exact .inr ⟨_, rfl⟩
  · exact .inr ⟨_, rfl⟩
  · exact .inr ⟨_, rfl⟩

/-! ### WIN_COPY (R184, R185) -/

/-- Where the cursor moves on, the place a distance names moves on, across the wrap. -/
theorem behind_next {ws wc d : Nat} (hc : wc < ws) (hd : d < ws) : behind ws (if wc + 1 = ws then 0 else wc + 1) d =
    if behind ws wc d + 1 = ws then 0 else behind ws wc d + 1 := by
  unfold behind
  split_ifs <;> omega

theorem WinOp.frame_of_ok {α : Type} {s t : State} {r : Res α} {a : α} (h : WinOp s r) (hr : r = .ok a t) : WinFrame s t := by
  subst hr
  exact h.post.1

/-- The first byte of a copy, and what is left of it. -/
theorem winCopy_succ {s : State} {d : Word} (hd : d.toNat < s.windowSize.toNat) (hp : d.toNat < s.position.toNat) (n : Nat) :
    winCopy d (n + 1) s = (winGet d s).bind fun b t => (winPut b t).bind fun _ u => winCopy d n u := by
  have hreadable := (windowReadable_iff s d).2 ⟨hd, hp⟩
  rw [winCopy, if_pos hreadable, copyLoop, winGet, if_pos hreadable]
  rcases hread : winRead (srcIndex s d) s with ⟨b, t⟩ | ⟨k, t⟩ | f
  case raise => rfl
  case fault => rfl
  obtain rfl := winRead_state hread
  rcases hput : winPut b t with ⟨⟨⟩, u⟩ | ⟨k, u⟩ | f
  case raise => simp only [Res.bind_ok, hput, Res.bind_raise]
  case fault => simp only [Res.bind_ok, hput, Res.bind_fault]
  obtain ⟨hinside, hwc⟩ := winPut_writeCursor hput
  have hframe := (winPut_frame b t).frame_of_ok hput
  have hws : u.windowSize = t.windowSize := by rw [hframe.rest]
  have hpos : u.position = t.position := by rw [hframe.rest]
  have hinside' : u.writeCursor.toNat < u.windowSize.toNat := by
    rw [hwc, hws]
    split <;> omega
  have hnext : srcIndex u d = if srcIndex t d + 1 = u.windowSize.toNat then 0 else srcIndex t d + 1 := by
    rw [srcIndex_eq hinside' (hws ▸ hd), srcIndex_eq hinside hd, hwc, hws, behind_next hinside hd]
  simp only [Res.bind_ok, hput, winCopy]
  rw [if_pos ((windowReadable_iff u d).2 ⟨hws ▸ hd, hpos ▸ hp⟩), hnext]

/-- Settles O41, by the first byte of the copy and the ends it can have. -/
theorem winCopyIsByteSerial : Obligations.WinCopyIsByteSerial := by
  unfold Obligations.WinCopyIsByteSerial
  intro s d hd hp
  have hsucc := winCopy_succ hd hp
  refine ⟨?_, fun n b u hget hput => ?_, fun n b k u hget hput => ?_, fun n b f hget hput => ?_, fun n f hget => ?_,
    winGet_ok_or_fault d s⟩
  · rw [exec_winCopy, winCopy, if_pos ((windowReadable_iff s d).2 ⟨hd, hp⟩), copyLoop, Res.finish_ok]
  · rw [exec_winCopy, exec_winCopy, hsucc, hget, Res.bind_ok, hput, Res.bind_ok]
  · obtain ⟨-, rfl⟩ : WinFrame s u ∧ k = .ioError := by
      have hpost := (winPut_frame b s).post
      rwa [hput] at hpost
    rw [exec_winCopy, hsucc, hget, Res.bind_ok, hput, Res.bind_raise, Res.finish_raise]
    exact ⟨rfl, rfl⟩
  · rw [exec_winCopy, hsucc, hget, Res.bind_ok, hput, Res.bind_fault, Res.finish_fault]
  · rw [exec_winCopy, hsucc, hget, Res.bind_fault, Res.finish_fault]

theorem Memory.slot_congr {m m' : Memory} (hprob : m'.prob = m.prob) (hfill : m'.probFill = m.probFill) (k : Nat) :
    m'.slot k = m.slot k := by
  rw [Memory.slot, Memory.slot, Memory.slotDefault, Memory.slotDefault, hprob, hfill]

/-- A copy is a symbol's frame that adapts no slot. -/
theorem CopyEffect.symbolFrame {p d n : Nat} {s t : State} (h : CopyEffect p d n s t) (hf : WinFrame s t) (v : Option Nat) :
    SymbolFrame [] n s { t with result := v } where
  rest := by rw [hf.rest]
  fill := hf.fill
  slots g i _ := Memory.slot_congr hf.prob hf.fill _
  source := hf.ports.source
  win := h.win
  cursor := h.cursor
  unwrapped := h.unwrapped
  wrapped := h.wrapped

/-- Settles O42: a sound stream's window represents its output, on which a copy runs to its end. -/
theorem copiesArePeriodic : Obligations.CopiesArePeriodic := by
  unfold Obligations.CopiesArePeriodic
  intro s d len h hp hd hlen haccepts
  have hmin := h.props.window_min
  obtain ⟨t, ht, heffect⟩ := winCopy_runs (n := len) h.rep hp hd (by omega) fun _ => haccepts
  have hframe := (winCopy_frame d len s).frame_of_ok ht
  refine ⟨{ t with result := none }, by rw [exec_winCopy, ht, Res.finish_ok], heffect.copied, heffect.symbolFrame hframe none, ?_,
    hframe.prob⟩
  rw [hframe.rest]

end Sys2Proof.Machine
end

section
/-! SUPPORT. The symbols run on a sound stream (`45_symbols.md` R202 to R224): `COPY` and `LIT` with their frames, every copying symbol as
the one copy it makes, and the range check before it. -/

namespace Sys2Proof.Machine

/-! ### The automaton (R221 to R224) -/

/-- Settles O55, state by state. -/
theorem automatonTables : Obligations.AutomatonTables := by
  unfold Obligations.AutomatonTables
  intro s st hst
  have htables : some (afterLiteral st).toNat = [0, 0, 0, 0, 1, 2, 3, 4, 5, 6, 4, 5][st.toNat]? ∧
      some (afterMatch st).toNat = [7, 7, 7, 7, 7, 7, 7, 10, 10, 10, 10, 10][st.toNat]? ∧
      some (afterRep st).toNat = [8, 8, 8, 8, 8, 8, 8, 11, 11, 11, 11, 11][st.toNat]? ∧
      some (afterShortRep st).toNat = [9, 9, 9, 9, 9, 9, 9, 11, 11, 11, 11, 11][st.toNat]? := by
    revert st
    decide
  obtain ⟨hliteral, hmatch, hrep, hshortrep⟩ := htables
  rw [← hliteral, ← hmatch, ← hrep, ← hshortrep]
  exact ⟨rfl, rfl, rfl, rfl⟩

/-! ### Frames of a symbol -/

/-- Bits decoded first and then what adapts no slot are the frame of a symbol. -/
theorem CoderFrame.symbolFrame {gs : List ProbGroup} {n : Nat} {s u t : State} (hf : CoderFrame gs s u) (h : SymbolFrame [] n u t) :
    SymbolFrame gs n s t := by
  obtain ⟨-, -, -, -, -, -, -, -, -, -, -, -, -, -, hws, -, -, -, hwc, hwm, hsink, hans, -⟩ := hf.fields
  have hcursor := h.cursor
  have hunwrapped := h.unwrapped
  have hwrapped := h.wrapped
  have hwin := h.win
  simp only [hws, hwc, hwm, hsink, hans, hf.win] at hcursor hunwrapped hwrapped hwin
  exact {
    rest := h.rest.trans (by rw [hf.rest])
    fill := h.fill.trans hf.fill
    slots := fun g i hg => (h.slots g i List.not_mem_nil).trans (hf.slots g i hg)
    source := h.source.trans hf.source
    win := hwin
    cursor := hcursor
    unwrapped := hunwrapped
    wrapped := hwrapped }

/-- The coder registers are a symbol's to write. -/
theorem SymbolFrame.of_registers {gs : List ProbGroup} {n : Nat} {s t : State} {st : BitVec 4} {r0 r1 r2 r3 : Word} {p : DWord} {b : Byte}
    (h : SymbolFrame gs n { s with state := st, rep0 := r0, rep1 := r1, rep2 := r2, rep3 := r3, position := p, prevByte := b } t) :
    SymbolFrame gs n s t :=
  ⟨h.rest, h.fill, h.slots, h.source, h.win, h.cursor, h.unwrapped, h.wrapped⟩

/-- What a copy does is read from the window, the cursors and the sink. -/
theorem CopyEffect.of_registers {q d n : Nat} {s t : State} (h : CopyEffect q d n s t) (p : DWord) (b : Byte) :
    CopyEffect q d n { s with position := p, prevByte := b } t :=
  ⟨h.rep, h.copied, h.cursor, h.win, h.unwrapped, h.wrapped⟩

theorem CopyDone.symbolFrame {n : Nat} {s t : State} (h : CopyDone n s t) (v : Option Nat) :
    SymbolFrame [] n s { t with result := v } :=
  SymbolFrame.of_registers (st := s.state) (r0 := s.rep0) (r1 := s.rep1) (r2 := s.rep2) (r3 := s.rep3)
    ((h.effect.of_registers t.position t.prevByte).symbolFrame h.frame v)

/-! ### COPY (R209) -/

theorem exec_copy (len : Nat) (s : State) : exec (.copy len) s = (copyTail len s).finish fun _ => none := rfl

/-- Settles O49, by the ends `COPY` can have: a legal distance with an accepting sink or with a failing one, and an illegal distance. -/
theorem copyTail_law : Obligations.CopyTail := by
  unfold Obligations.CopyTail
  intro s len h hlen hlen' hroom
  rw [exec_copy]
  refine ⟨fun hpos hcheck hsink => ?_, fun hpos hcheck hwrap rest hfails => ?_, fun hillegal => ?_⟩
  · obtain ⟨t, ht, hdone⟩ := copyTail_runs h.rep h.props hpos hcheck hlen hlen' (by omega) fun hwrap =>
      hsink.resolve_right (Nat.not_lt.2 hwrap)
    refine ⟨{ t with result := none }, by rw [ht, Res.finish_ok], hdone.effect.copied, hdone.position, hdone.prevByte,
      hdone.symbolFrame none, ?_, hdone.frame.prob⟩
    conv_lhs => rw [hdone.rest]
  · obtain ⟨t, ht, hframe, hsink, hanswers⟩ := copyTail_fails h.rep h.props hpos hcheck hwrap hfails
    rw [ht, Res.finish_raise, hframe.takeFailure hsink hanswers]
  · rw [copyTail_corrupt hillegal, Res.finish_raise]

/-! ### A symbol row on a sound stream -/

/-- On a stream that is ready a row decodes its bits, which leaves the stream sound, and then has its effect. -/
theorem Ready.row_effect {s : State} (h : Ready s) (y : Symbol) :
    ∃ u, CoderFrame (symbolGroups y) s u ∧ StreamInv u ∧ exec y.toInstr s = finishSymbol (symbolEffect y u) := by
  obtain ⟨mb, hmb⟩ := h.stream.literalContext_eq
  obtain ⟨u, hbits, -, hframe⟩ := takeBits_completes h.stream.coder
    (symbolPath_ok h.stream.props (h.stream.inv.automaton h.stream.decoding) mb y) (symbolPath_in s mb y)
    (symbolPath_length s mb y) h.source
  refine ⟨u, hframe, h.stream.of_coderFrame hframe ((takeBits_operation _ s).step_of_ok hbits), ?_⟩
  rw [exec_toInstr, takeSymbol_eq fun _ _ => hmb, hbits, Res.bind_ok]

/-- Decoding bits leaves the sink's answers alone. -/
theorem CoderFrame.sinkAccepts_eq {gs : List ProbGroup} {s u : State} (h : CoderFrame gs s u) : sinkAccepts u = sinkAccepts s := by
  rw [sinkAccepts, sinkAccepts, h.rest]

/-! ### LIT (R202) -/

theorem putState_mem (b : Byte) (s : State) : (putState b s).mem = s.mem.setWin s.writeCursor.toNat b := by
  unfold putState; split <;> rfl

theorem putState_symbolFrame {p : Nat} {s : State} (h : WinRep p s) (b : Byte) : SymbolFrame [] 1 s (putState b s) where
  rest := by unfold putState; split <;> rfl
  fill := by rw [putState_mem, Memory.setWin_probFill]
  slots g i _ := by rw [putState_mem, Memory.setWin_slot]
  source := by unfold putState; split <;> exact List.suffix_refl _
  win a ha := by
    have hne := ha 0 Nat.zero_lt_one
    rw [Nat.add_zero, Nat.mod_eq_of_lt h.inside] at hne
    rw [putState_win, Cells.find_insert_of_ne _ _ hne]
  cursor := by
    have hinside := h.inside
    rw [putState_cursor h]
    split
    · next hend => rw [hend, Nat.mod_self]
    · rw [Nat.mod_eq_of_lt (by omega)]
  unwrapped hlt := by
    rw [putState, if_neg (by omega)]
    exact ⟨rfl, rfl, rfl⟩
  wrapped hle := by
    have hinside := h.inside
    rw [putState, if_pos (by omega)]
    exact ⟨rfl, rfl⟩

/-- The registers a literal writes are a symbol's to write, and so is the result. -/
theorem SymbolFrame.setRegisters {gs : List ProbGroup} {n : Nat} {s t : State} (h : SymbolFrame gs n s t) (st : BitVec 4) (p : DWord)
    (b : Byte) (v : Option Nat) : SymbolFrame gs n s { t with state := st, position := p, prevByte := b, result := v } where
  rest := by conv_lhs => rw [h.rest]
  fill := h.fill
  slots := h.slots
  source := h.source
  win := h.win
  cursor := h.cursor
  unwrapped := h.unwrapped
  wrapped := h.wrapped

theorem afterLiteral_toNat (st : BitVec 4) (h : st.toNat < 12) : (afterLiteral st).toNat =
    if st.toNat < 4 then 0 else if st.toNat < 10 then st.toNat - 3 else st.toNat - 6 := by
  revert h; revert st; decide

theorem putState_reps (b : Byte) (s : State) : (putState b s).rep0 = s.rep0 ∧ (putState b s).rep1 = s.rep1 ∧
    (putState b s).rep2 = s.rep2 ∧ (putState b s).rep3 = s.rep3 := by
  unfold putState; split <;> exact ⟨rfl, rfl, rfl, rfl⟩

/-- Settles O50: the bits are decoded, and then the byte is put. -/
theorem literalEmits : Obligations.LiteralEmits := by
  unfold Obligations.LiteralEmits
  intro s b h
  obtain ⟨u, hframe, hu, hexec⟩ := h.row_effect (.lit b)
  obtain ⟨hstate, hrep0, hrep1, hrep2, hrep3, hpos, -⟩ := hframe.fields
  have hroom : u.position.toNat + 273 < 2 ^ 64 := hpos ▸ h.room
  have hrun := litEffect_runs hu.rep (by omega) (fun _ => hframe.sinkAccepts_eq.trans h.sink) (b := b)
  obtain ⟨hput0, hput1, hput2, hput3⟩ := putState_reps b u
  have hends := litEffect_ends hu b hroom
  rw [hrun, Res.map_ok] at hends
  cases hends with
  | completes hstream _ =>
    refine ⟨{ putState b u with
        prevByte := b, state := afterLiteral u.state, position := u.position + BitVec.ofNat 64 1, result := some 0 },
      by rw [show Instr.lit b = (Symbol.lit b).toInstr from rfl, hexec, symbolEffect, hrun]; rfl, ?_, rfl, ?_, ?_,
      hput0.trans hrep0, hput1.trans hrep1, hput2.trans hrep2, hput3.trans hrep3, rfl,
      hframe.symbolFrame ((putState_symbolFrame hu.rep b).setRegisters _ _ _ _), hstream.setResult _⟩
    · exact (putState_emitted hu.rep b).trans (by rw [hframe.emitted_eq])
    · exact (position_add (by omega)).trans (by rw [hpos])
    · exact (afterLiteral_toNat u.state (hu.inv.automaton hu.decoding)).trans (by rw [hstate])

/-! ### The copy a symbol makes (R203, R211 to R215) -/

/-- A copy: how many bytes, and the automaton's state and the history it is made with, whose front is the distance. -/
structure Copy where
  len : Nat
  state : BitVec 4
  rep0 : Word
  rep1 : Word
  rep2 : Word
  rep3 : Word

/-- The copy a symbol makes in a state, if it copies: a new match pushes its distance onto the history, a rep symbol rotates the history
until its distance is in front. -/
def symbolCopy (s : State) : Symbol → Option Copy
  | .lit _ => none
  | .matchNew len dist => some ⟨len, afterMatch s.state, dist, s.rep0, s.rep1, s.rep2⟩
  | .eos _ => none
  | .shortrep => some ⟨1, afterShortRep s.state, s.rep0, s.rep1, s.rep2, s.rep3⟩
  | .longrep0 len => some ⟨len, afterRep s.state, s.rep0, s.rep1, s.rep2, s.rep3⟩
  | .longrep1 len => some ⟨len, afterRep s.state, s.rep1, s.rep0, s.rep2, s.rep3⟩
  | .longrep2 len => some ⟨len, afterRep s.state, s.rep2, s.rep0, s.rep1, s.rep3⟩
  | .longrep3 len => some ⟨len, afterRep s.state, s.rep3, s.rep0, s.rep1, s.rep2⟩

/-- The state the copy is made in. -/
def Copy.setup (c : Copy) (s : State) : State :=
  { s with state := c.state, rep0 := c.rep0, rep1 := c.rep1, rep2 := c.rep2, rep3 := c.rep3 }

/-- The distance a symbol copies from is that of its copy. -/
theorem copyDistance_eq (s : State) (y : Symbol) : copyDistance s y = (symbolCopy s y).map Copy.rep0 := by cases y <;> rfl

theorem symbolCopy_of_coderFrame {gs : List ProbGroup} {s u : State} (h : CoderFrame gs s u) (y : Symbol) :
    symbolCopy u y = symbolCopy s y := by
  obtain ⟨hstate, hrep0, hrep1, hrep2, hrep3, -⟩ := h.fields
  cases y <;> simp only [symbolCopy, hstate, hrep0, hrep1, hrep2, hrep3]

/-- The symbol `y`, in the state `s`, does nothing but the copy `c`, which is one a symbol can make. -/
structure MakesCopy (s : State) (y : Symbol) (c : Copy) : Prop where
  effect : symbolEffect y s = (copyTail c.len (c.setup s)).map fun _ => false
  len_pos : 1 ≤ c.len
  len_le : c.len ≤ 273
  state : s.state.toNat < 12 → c.state.toNat < 12
  endsLoop : endsLoop y = false

theorem makesCopy {s : State} {y : Symbol} {c : Copy} (hwf : y.toInstr.wf = true) (hc : symbolCopy s y = some c) : MakesCopy s y c := by
  have hrep (h : s.state.toNat < 12) := (afterRep_range s.state h).2
  cases y with
  | lit b => cases hc
  | matchNew len dist =>
    obtain ⟨hlen, hdist⟩ : lenOk len = true ∧ dist ≠ eosDistance := by simpa [Symbol.toInstr, Instr.wf] using hwf
    cases hc
    exact ⟨matchEffect_copy hdist len s, (bounds_of_lenOk hlen).1, (bounds_of_lenOk hlen).2, fun h => (afterMatch_range s.state h).2, rfl⟩
  | eos len => cases hc
  | shortrep => cases hc; exact ⟨rfl, le_rfl, Nat.le_add_left 1 272, fun h => (afterShortRep_range s.state h).2, rfl⟩
  | longrep0 len => cases hc; exact ⟨rfl, (bounds_of_lenOk hwf).1, (bounds_of_lenOk hwf).2, hrep, rfl⟩
  | longrep1 len => cases hc; exact ⟨rfl, (bounds_of_lenOk hwf).1, (bounds_of_lenOk hwf).2, hrep, rfl⟩
  | longrep2 len => cases hc; exact ⟨rfl, (bounds_of_lenOk hwf).1, (bounds_of_lenOk hwf).2, hrep, rfl⟩
  | longrep3 len => cases hc; exact ⟨rfl, (bounds_of_lenOk hwf).1, (bounds_of_lenOk hwf).2, hrep, rfl⟩

section
variable {s : State} {y : Symbol} {c : Copy}

/-- A copy from a legal distance completes on a sound stream with an accepting sink, and leaves the stream sound. -/
theorem MakesCopy.runs (h : MakesCopy s y c) (hs : StreamInv s) (hroom : s.position.toNat + 273 < 2 ^ 64) (hsink : sinkAccepts s = true)
    (hpos : c.rep0.toNat < s.position.toNat) (hcheck : c.rep0.toNat < s.dictionarySizeCheck.toNat) :
    ∃ t, symbolEffect y s = .ok false t ∧ CopyDone c.len (c.setup s) t ∧ StreamInv t := by
  have hlen := h.len_le
  have hends := copySymbol_ends hs h.len_pos hlen hroom (h.state (hs.inv.automaton hs.decoding)) c.rep0 c.rep1 c.rep2 c.rep3
  obtain ⟨t, ht, hdone⟩ := copyTail_runs (s := c.setup s) hs.rep.congr hs.props.congr hpos hcheck h.len_pos hlen
    (show s.position.toNat + c.len < 2 ^ 64 by omega) fun _ => hsink
  rw [show copyTail c.len { s with state := c.state, rep0 := c.rep0, rep1 := c.rep1, rep2 := c.rep2, rep3 := c.rep3 } =
    .ok () t from ht] at hends
  cases hends with
  | completes hstream _ => exact ⟨t, by rw [h.effect, ht, Res.map_ok], hdone, hstream⟩

/-- A copy from an illegal distance is corrupt before anything is appended (R208). -/
theorem MakesCopy.corrupt (h : MakesCopy s y c)
    (hillegal : s.position.toNat ≤ c.rep0.toNat ∨ s.dictionarySizeCheck.toNat ≤ c.rep0.toNat) :
    symbolEffect y s = .raise .corruptStream (c.setup s) := by
  rw [h.effect, copyTail_corrupt hillegal, Res.map_raise]

end

/-- The bits of a symbol decoded, and then a corrupt copy: the failure is taken with the sink as it was. -/
theorem CoderFrame.corrupt {gs : List ProbGroup} {s u : State} (hf : CoderFrame gs s u) (c : Copy) :
    FailedFrom .corruptStream s (takeFailure .failed .corruptStream (c.setup u)) ∧
      (takeFailure .failed .corruptStream (c.setup u)).sink = s.sink := by
  have hports := hf.ports
  have hsink : u.sink = s.sink := by rw [hf.rest]
  exact ⟨Ports.failedFrom (u := c.setup u) ⟨hports.issued, hports.resetInput, hports.freeCount, hports.source, hports.sink⟩ _, hsink⟩

/-- Every copying row on a stream that is ready, from a legal distance. -/
theorem Ready.copySymbol {s : State} {y : Symbol} {c : Copy} (h : Ready s) (hwf : y.toInstr.wf = true) (hc : symbolCopy s y = some c)
    (hpos : c.rep0.toNat < s.position.toNat) (hcheck : c.rep0.toNat < s.dictionarySizeCheck.toNat) :
    ∃ t, exec y.toInstr s = .next t ∧
      CopySymbol (symbolGroups y) c.len c.rep0 c.state c.rep0 c.rep1 c.rep2 c.rep3 s t := by
  obtain ⟨u, hframe, hu, hexec⟩ := h.row_effect y
  obtain ⟨-, -, -, -, -, hposition, -, -, -, -, -, -, -, hdict, -⟩ := hframe.fields
  have hcopy : MakesCopy u y c := makesCopy hwf ((symbolCopy_of_coderFrame hframe y).trans hc)
  obtain ⟨t, ht, hdone, hstream⟩ := hcopy.runs hu (hposition ▸ h.room) (hframe.sinkAccepts_eq.trans h.sink) (hposition ▸ hpos)
    (hdict ▸ hcheck)
  refine ⟨{ t with result := some 0 }, by rw [hexec, ht]; rfl, ?_⟩
  exact {
    reps := by rw [hdone.rest]; exact ⟨rfl, rfl, rfl, rfl⟩
    state := by rw [hdone.rest]; rfl
    position := hdone.position.trans (by rw [← hposition]; rfl)
    output := hframe.emitted_eq ▸ hdone.effect.copied
    prevByte := hdone.prevByte
    result := rfl
    frame := hframe.symbolFrame (SymbolFrame.of_registers (hdone.symbolFrame (some 0)))
    stream := hstream.setResult _ }

/-- A distance that passes the range check is not the end marker's. -/
theorem PropertiesOk.ne_eosDistance {s : State} {d : Word} (h : PropertiesOk s) (hd : d.toNat < s.dictionarySizeCheck.toNat) :
    d ≠ eosDistance := by
  rintro rfl
  have hcheck := h.dictionarySizeCheck
  have hsize := h.dictionarySize
  have hmarker : eosDistance.toNat = 2 ^ 32 - 1 := rfl
  omega

/-- Settles O51: a match makes the copy that pushes its distance. -/
theorem matchCopies : Obligations.MatchCopies := by
  unfold Obligations.MatchCopies
  intro s len dist h hlen hlen' hpos hcheck
  have hdist := h.stream.props.ne_eosDistance hcheck
  have hwf : (Symbol.matchNew len dist).toInstr.wf = true := by simp [Symbol.toInstr, Instr.wf, (lenOk_iff len).2 ⟨hlen, hlen'⟩, hdist]
  rw [← afterMatch_eq s.state (h.stream.inv.automaton h.stream.decoding)]
  exact h.copySymbol hwf rfl hpos hcheck

/-- Settles O53: each rep symbol makes the copy that rotates its distance to the front. -/
theorem repSymbolsCopy : Obligations.RepSymbolsCopy := by
  unfold Obligations.RepSymbolsCopy
  intro s len h hlen hlen'
  have hautomaton := h.stream.inv.automaton h.stream.decoding
  have hwf : lenOk len = true := (lenOk_iff len).2 ⟨hlen, hlen'⟩
  rw [← afterShortRep_eq s.state hautomaton, ← afterRep_eq s.state hautomaton]
  exact ⟨h.copySymbol (y := .shortrep) rfl rfl, h.copySymbol (y := .longrep0 len) hwf rfl, h.copySymbol (y := .longrep1 len) hwf rfl,
    h.copySymbol (y := .longrep2 len) hwf rfl, h.copySymbol (y := .longrep3 len) hwf rfl⟩

/-! ### The range check (R208) -/

theorem exec_rangeCheck (d : Word) (s : State) : exec (.rangeCheck d) s = (rangeCheck d s).finish fun _ => none := rfl

/-- Settles O48: the check by its two ends, and every copying symbol by the copy it makes. -/
theorem rangeCheck_law : Obligations.RangeCheck := by
  unfold Obligations.RangeCheck
  refine ⟨fun s d => ⟨fun ⟨hpos, hcheck⟩ => ?_, fun hillegal => ?_⟩, fun s y d h hwf hd hillegal => ?_⟩
  · rw [exec_rangeCheck, rangeCheck_ok hpos hcheck, Res.finish_ok]
  · rw [exec_rangeCheck, rangeCheck_corrupt hillegal, Res.finish_raise]
  · rw [copyDistance_eq, Option.map_eq_some_iff] at hd
    obtain ⟨c, hc, rfl⟩ := hd
    obtain ⟨u, hframe, -, hexec⟩ := h.row_effect y
    obtain ⟨-, -, -, -, -, hposition, -, -, -, -, -, -, -, hdict, -⟩ := hframe.fields
    have hcopy : MakesCopy u y c := makesCopy hwf ((symbolCopy_of_coderFrame hframe y).trans hc)
    exact ⟨_, by rw [hexec, hcopy.corrupt (by rwa [hposition, hdict])]; rfl, hframe.corrupt c⟩

end Sys2Proof.Machine
end

section
/-! SUPPORT. `DIST_DECODE` by its parts (`45_symbols.md` R204 to R206): the position slot, then the extra bits on `POS_DEC`, or direct bits
and then `ALIGN`. -/

namespace Sys2Proof.Machine

/-! ### RC_DIRECT and BT_REVERSE inside an operation -/

theorem directLoop_setResult (v : Option Nat) (n : Nat) (acc : Word) (s : State) :
    directLoop n acc { s with result := v } = (directLoop n acc s).setResult v := by
  induction n generalizing acc s with
  | zero => rfl
  | succ n ih => rw [directLoop, directLoop, directBit_setResult, Res.setResult_bind v fun _ t => ih _ t]

theorem exec_rcDirect_setResult (n : Nat) (s : State) (v : Option Nat) :
    exec (.rcDirect n) { s with result := v } = (rcDirect n s).finish fun r => some r.toNat := by
  rw [exec_rcDirect, rcDirect, directLoop_setResult, Res.finish_setResult, rcDirect]

theorem exec_btReverse_setResult (g : ProbGroup) (base : Int) (d : Nat) (s : State) (v : Option Nat) :
    exec (.btReverse g base d) { s with result := v } = (btReverse g base d s).finish some := by
  rw [exec_btReverse, btReverse_eq, btReverse_eq, btDecode, treeWalk_setResult, Res.setResult_map, Res.setResult_map,
    Res.finish_setResult, btDecode]

theorem btReverse_truncates (g : ProbGroup) (base : Int) (d : Nat) (s : State) : TruncatesAtEnd (btReverse g base d s) := by
  rw [btReverse_eq]
  exact (btDecode_truncates g base d s).map

theorem directLoop_truncates (n : Nat) (acc : Word) (s : State) : TruncatesAtEnd (directLoop n acc s) := by
  induction n generalizing acc s with
  | zero => exact TruncatesAtEnd.ok acc s
  | succ n ih =>
    have hbit : TruncatesAtEnd (directBit s) := TruncatesAtEnd.map (normalizeLoop_truncates _ _)
    exact hbit.bind fun _ t => ih _ t

/-! ### The extra bits (R206) -/

/-- What `DIST_DECODE` does once the position slot is decoded. -/
def extraDecode (posSlot : Nat) (s : State) : Res Word :=
  if posSlot < 4 then .ok (BitVec.ofNat 32 posSlot) s
  else if posSlot < endPosModelIndex then
    (btReverse .posDec (posDecOffset posSlot) (directBits posSlot) s).map fun r => BitVec.ofNat 32 (distBase posSlot + r)
  else
    (rcDirect (directBits posSlot - alignBits) s).bind fun hi t =>
      (btReverse .align 0 alignBits t).map fun lo => BitVec.ofNat 32 (distBase posSlot + (hi.toNat <<< alignBits) + lo)

theorem distDecode_eq (len : Nat) (s : State) : distDecode len s =
    (btDecode .posSlot (posSlotBase (lenClassOf len)) config.posSlotBits s).bind fun posSlot t => extraDecode posSlot t := rfl

/-- `base` of R102 in the numbers of the rules. -/
theorem distBase_eq_slotBase {p : Nat} (h : 4 ≤ p) : distBase p = slotBase p := distBase_eq h

section
variable {p : Nat} {s : State}

theorem extraDecode_short (h : p < 4) : extraDecode p s = .ok (BitVec.ofNat 32 p) s := if_pos h

/-- The extra bits of a position slot 4 to 13, with the place of their tree written as the instruction `BT_REVERSE` has it. -/
theorem extraDecode_posDec (h4 : 4 ≤ p) (h14 : p < 14) : extraDecode p s =
    (btReverse .posDec ((slotBase p : Int) - p - 1) (p / 2 - 1) s).map fun r => BitVec.ofNat 32 (slotBase p + r) := by
  rw [extraDecode, if_neg (Nat.not_lt.2 h4), if_pos h14, posDecOffset, directBits_eq, distBase_eq_slotBase h4]

/-- The extra bits of a position slot from 14 on. -/
theorem extraDecode_align (h14 : 14 ≤ p) : extraDecode p s = (rcDirect (p / 2 - 5) s).bind fun hi t =>
    (btReverse .align 0 4 t).map fun lo => BitVec.ofNat 32 (slotBase p + hi.toNat * 16 + lo) := by
  have hlow (hi : Nat) : hi <<< alignBits = hi * 16 := Nat.shiftLeft_eq hi 4
  rw [extraDecode, if_neg (by omega), if_neg (Nat.not_lt.2 h14), directBits_eq, distBase_eq_slotBase (by omega),
    show p / 2 - 1 - alignBits = p / 2 - 5 from Nat.sub_sub _ 1 4]
  simp only [hlow]

/-- The tree of the extra bits is in `POS_DEC` (R206, D8). -/
theorem posDecTree_in_group (h4 : 4 ≤ p) (h14 : p < 14) (s : State) :
    -1 ≤ (slotBase p : Int) - p - 1 ∧ (slotBase p : Int) - p - 1 + 2 ^ (p / 2 - 1) ≤ groupSize s .posDec := by
  have hfits := posDec_fits p h4 h14
  rw [posDecOffset, directBits_eq, distBase_eq_slotBase h4] at hfits
  exact ⟨by omega, hfits.2⟩

/-- A position slot with its extra bits is a 32-bit distance. -/
theorem slotBase_add_lt {e : Nat} (h4 : 4 ≤ p) (hp : p < 64) (he : e < 2 ^ (p / 2 - 1)) : slotBase p + e < 2 ^ 32 := by
  rw [← distBase_eq_slotBase h4]
  refine distBase_add_lt hp ?_
  rwa [extraWidth, if_neg (Nat.not_lt.2 h4), directBits_eq]

/-- The direct bits and the last four are the extra bits. -/
theorem highLow_lt {hi lo : Nat} (h14 : 14 ≤ p) (hhi : hi < 2 ^ (p / 2 - 5)) (hlo : lo < 2 ^ 4) : hi * 16 + lo < 2 ^ (p / 2 - 1) := by
  have hsplit : 2 ^ (p / 2 - 1) = 2 ^ (p / 2 - 5) * 16 := by
    rw [show p / 2 - 1 = p / 2 - 5 + 4 by omega, pow_add]
    rfl
  omega

theorem extraDecode_truncates (p : Nat) (s : State) : TruncatesAtEnd (extraDecode p s) := by
  unfold extraDecode
  split
  · exact TruncatesAtEnd.ok _ s
  split
  · exact (btReverse_truncates _ _ _ s).map
  · exact (directLoop_truncates _ _ s).bind fun _ t => (btReverse_truncates _ _ _ t).map

/-- The extra bits complete with a byte for each. -/
theorem extraDecode_runs (h : CoderOk s) (hp : p < 64) : CoderRuns 30 s (extraDecode p s) := by
  rcases Nat.lt_or_ge p 4 with h4 | h4
  · rw [extraDecode_short h4]
    exact (CoderRuns.ok h _).mono (Nat.zero_le _)
  rcases Nat.lt_or_ge p 14 with h14 | h14
  · obtain ⟨hbase, hend⟩ := posDecTree_in_group h4 h14 s
    rw [extraDecode_posDec h4 h14]
    exact ((btReverse_runs h (by omega) hend).map).mono (by omega)
  · rw [extraDecode_align h14]
    refine ((rcDirect_runs h _).bind (l := 4) (rcDirect_frame [] _ s) fun hi t _ ht _ => ?_).mono (by omega)
    exact (btReverse_runs ht (by omega) (alignTree_in_group t)).map

/-- From position slot 4 to 13: `BT_REVERSE` on `POS_DEC`, and its number is added to the base. -/
theorem beginsWith_posDec (h : CoderOk s) (h4 : 4 ≤ p) (h14 : p < 14) (v : Option Nat) :
    BeginsWith ((extraDecode p s).finish fun d => some d.toNat)
      (exec (.btReverse .posDec ((slotBase p : Int) - p - 1) (p / 2 - 1)) { s with result := v }) fun u r =>
        ((extraDecode p s).finish fun d => some d.toNat) = .next { u with result := some (slotBase p + r) } := by
  obtain ⟨hbase, hend⟩ := posDecTree_in_group h4 h14 s
  rw [exec_btReverse_setResult, extraDecode_posDec h4 h14, Res.map_eq_bind]
  refine beginsWith_bind (btReverse_takes h hbase hend).noFault fun r u hr => ?_
  rw [hr, Res.bind_ok, Res.finish_ok, BitVec.toNat_ofNat, Nat.mod_eq_of_lt (slotBase_add_lt h4 (by omega) (btReverse_forced hr).1)]

/-- From position slot 14 on: `RC_DIRECT` for the high part, then `BT_REVERSE` on `ALIGN` for the low four bits. -/
theorem beginsWith_direct (h : CoderOk s) (h14 : 14 ≤ p) (hp : p < 64) (v : Option Nat) :
    BeginsWith ((extraDecode p s).finish fun d => some d.toNat) (exec (.rcDirect (p / 2 - 5)) { s with result := v }) fun u hi =>
      BeginsWith ((extraDecode p s).finish fun d => some d.toNat) (exec (.btReverse .align 0 4) u) fun w lo =>
        ((extraDecode p s).finish fun d => some d.toNat) = .next { w with result := some (slotBase p + hi * 16 + lo) } := by
  rw [exec_rcDirect_setResult, extraDecode_align h14]
  refine beginsWith_bind (rcDirect_takes h _).noFault fun hi u hhi => ?_
  have hu : CoderOk u := ((rcDirect_keeps _ s).of_ok hhi).2 h
  rw [exec_btReverse_setResult, hhi, Res.bind_ok, Res.map_eq_bind]
  refine beginsWith_bind (btReverse_takes hu (by omega) (alignTree_in_group u)).noFault fun lo w hlo => ?_
  have hlt := slotBase_add_lt (by omega) hp (highLow_lt h14 (rcDirect_forced hhi (by omega)).1 (btReverse_forced hlo).1)
  rw [hlo, Res.bind_ok, Res.finish_ok, BitVec.toNat_ofNat, Nat.add_assoc, Nat.mod_eq_of_lt hlt]

end

/-! ### DIST_DECODE (R206) -/

theorem exec_distDecode (len : Nat) (s : State) : exec (.distDecode len) s = (distDecode len s).finish fun d => some d.toNat := rfl

theorem posSlotBase_eq (len : Nat) : ((min (len - 2) 3 * 64 : Nat) : Int) = posSlotBase (lenClassOf len) := by
  rw [← lenClassOf_val, posSlotBase, Nat.cast_mul]
  rfl

theorem distDecode_truncates (len : Nat) (s : State) : TruncatesAtEnd (distDecode len s) :=
  (btDecode_truncates _ _ _ s).bind extraDecode_truncates

theorem distDecode_runs {s : State} (h : CoderOk s) (len : Nat) : CoderRuns 36 s (distDecode len s) := by
  obtain ⟨h0, he⟩ := posSlotTree_in_group (lenClassOf len) s
  rw [distDecode_eq]
  exact (btDecode_runs h (by omega) he).bind (k := 6) (btDecode_frame (List.mem_singleton_self _) _ _ s) fun p t hp ht _ =>
    extraDecode_runs ht (btDecode_forced hp).1

/-- `DIST_DECODE` does what the row of its class and distance does. -/
theorem distDecode_eq_row {len : Nat} {d : Word} {s t : State} (h : distDecode len s = .ok d t) :
    ∃ (i : Instr) (c : LenClass) (bits : List Bool), i.wf = true ∧ distRowValue i = some d.toNat ∧
      c.val = min (len - 2) 3 ∧ encode i = some (.dist c, bits) ∧
      TakesField i (distSlots (min (len - 2) 3) d.toNat) bits d.toNat s ∧ exec i s = .next { t with result := some d.toNat } := by
  obtain ⟨slot, e, hslot, he, hd, hbits⟩ := distDecode_forced h
  have hrow := distField_distRow (lenClassOf len) hslot he
  have hfield := takesField_of_path (hrow.exec s)
  rw [distPath_bits, distPath_slots _ hslot he, lenClassOf_val] at hfield
  rw [hd]
  exact ⟨_, lenClassOf len, distBits slot e, hrow.wf, hrow.value, lenClassOf_val len, hrow.encode, hfield,
    by rw [hrow.exec, takeDist, hbits, Res.finish_ok]⟩

/-- Settles O46: the position slot and its classes, the ends there can be, and the row. -/
theorem distDecodeIsARow : Obligations.DistDecodeIsARow := by
  unfold Obligations.DistDecodeIsARow
  intro s len h
  obtain ⟨h0, he⟩ := posSlotTree_in_group (lenClassOf len) s
  refine ⟨?_, ?_, fun hs => ?_⟩
  · rw [posSlotBase_eq, exec_btDecode, exec_distDecode, distDecode_eq]
    refine beginsWith_bind (btDecode_takes h h0 he).noFault fun p t hp => ?_
    have hlt : p < 64 := (btDecode_forced hp).1
    have ht : CoderOk t := ((btDecode_keeps _ _ _ s).of_ok hp).2 h
    rw [hp, Res.bind_ok]
    refine ⟨hlt, fun h4 => ?_, fun h4 h14 => beginsWith_posDec ht h4 h14 _, fun h14 => beginsWith_direct ht h14 hlt _⟩
    rw [extraDecode_short h4, Res.finish_ok, BitVec.toNat_ofNat, Nat.mod_eq_of_lt (by omega)]
  · exact (distDecode_frame (List.Subset.refl _) len s).completesOrSourceFails (distDecode_takes h len).noFault
      (distDecode_truncates len s) BitVec.toNat
  · obtain ⟨d, t, hr, ht, -⟩ := (distDecode_runs h len).run 0 (by rwa [Nat.zero_add])
    have hframe := (distDecode_frame (List.Subset.refl distGroups) len s).frame_of_ok hr
    exact ⟨{ t with result := some d.toNat }, d.toNat, by rw [exec_distDecode, hr, Res.finish_ok], rfl, d.isLt, ht.same rfl rfl, hframe.setResult _,
      distDecode_eq_row hr⟩

end Sys2Proof.Machine
end

section
/-! SUPPORT. `SYMBOL()` (`45_symbols.md` R200) and the pass of the loop around it: a symbol completes when its bytes are there and its
distance is legal, and the end marker ends the loop. -/

namespace Sys2Proof.Machine

/-! ### The bits of a symbol, with their bytes there -/

/-- A modelled bit and what follows it, with a byte for the bit. -/
theorem CoderRuns.rcBit_bind {α : Type} {k : Nat} {g : ProbGroup} {i : Int} {s : State} {f : Bool → State → Res α} (h : CoderOk s)
    (hi : 0 ≤ i ∧ i < groupSize s g)
    (hf : ∀ bit t, rcBit g i s = .ok bit t → CoderOk t → t.pb = s.pb → CoderRuns k t (f bit t)) :
    CoderRuns (k + 1) s ((rcBit g i s).bind f) := by
  rw [Nat.add_comm]
  exact (rcBit_runs h hi).bind (rcBit_frame (List.mem_singleton_self g) i s) fun bit t hr ht hst => hf bit t hr ht (by rw [hst.rest])

theorem fetchLit_runs {s : State} (h : StreamInv s) : CoderRuns 8 s (fetchLit s) := by
  have hfits : litSelect s + 0x300 ≤ groupSize s .lit := litSub_fits h.props
  obtain ⟨mb, hctx⟩ := h.literalContext_eq
  rw [fetchLit, hctx, Res.bind_ok]
  cases mb with
  | none =>
    simp only [litNormal_eq_btDecode]
    exact (btDecode_runs h.coder (by omega) (by omega)).map
  | some mb =>
    simp only [litMatched_eq]
    exact (matchedFrom_runs h.coder hfits rfl (by decide)).map

/-- With a byte for each of the 48 decisions there can be a symbol is decoded (R105, R141). -/
theorem fetchSymbol_runs {s : State} (h : StreamInv s) : CoderRuns 48 s (fetchSymbol s) := by
  have hst := h.state_in_group
  have hix := h.stateIndex_in_group
  have hlen {t : State} (x : LenInst) (ht : CoderOk t) (hpb : t.pb = s.pb) : CoderRuns 10 t (lenDecode x (posState s) t) :=
    lenDecode_runs ht (hpb ▸ posState_lt h.props)
  refine CoderRuns.rcBit_bind h.coder hix fun isMatch s1 hr1 ok1 hpb1 => ?_
  split
  · exact ((fetchLit_runs (h.of_rcBit hr1)).map).mono (by omega)
  refine CoderRuns.rcBit_bind ok1 hst fun isRep s2 _ ok2 hpb => ?_
  replace hpb2 := hpb.trans hpb1
  split
  · exact (hlen .mlen ok2 hpb2).bind (l := 36) (lenDecode_frame .mlen (List.Subset.refl _) _ s2) fun len s3 _ ok3 _ =>
      (distDecode_runs ok3 len).map
  refine CoderRuns.rcBit_bind ok2 hst fun isRepG0 s3 _ ok3 hpb => ?_
  replace hpb3 := hpb.trans hpb2
  split
  · refine CoderRuns.rcBit_bind ok3 (by rwa [groupSize, hpb3]) fun isRep0Long s4 _ ok4 hpb => ?_
    split
    · exact (CoderRuns.ok ok4 _).mono (Nat.zero_le _)
    · exact ((hlen .rlen ok4 (hpb.trans hpb3)).map).mono (by omega)
  refine CoderRuns.rcBit_bind ok3 hst fun isRepG1 s4 _ ok4 hpb => ?_
  replace hpb4 := hpb.trans hpb3
  split
  · exact ((hlen .rlen ok4 hpb4).map).mono (by omega)
  refine CoderRuns.rcBit_bind (k := 43) ok4 hst fun isRepG2 s5 _ ok5 hpb => ?_
  split <;> exact ((hlen .rlen ok5 (hpb.trans hpb4)).map).mono (by omega)

/-! ### SYMBOL (R200, R208) -/

/-- The effect of a symbol completes on a sound stream with an accepting sink, unless its distance is illegal. -/
theorem symbolEffect_completes {s : State} {y : Symbol} (h : StreamInv s) (hwf : y.toInstr.wf = true)
    (hroom : s.position.toNat + 273 < 2 ^ 64) (hsink : sinkAccepts s = true)
    (hlegal : ∀ d, copyDistance s y = some d → d.toNat < s.position.toNat ∧ d.toNat < s.dictionarySizeCheck.toNat) :
    ∃ t, symbolEffect y s = .ok (endsLoop y) t := by
  cases hc : symbolCopy s y with
  | some c =>
    obtain ⟨hpos, hcheck⟩ := hlegal c.rep0 (by rw [copyDistance_eq, hc, Option.map_some])
    have hcopy := makesCopy hwf hc
    obtain ⟨t, ht, -⟩ := hcopy.runs h hroom hsink hpos hcheck
    exact ⟨t, by rw [ht, hcopy.endsLoop]⟩
  | none =>
    cases y with
    | lit b => exact ⟨_, by rw [symbolEffect, litEffect_runs h.rep (by omega) fun _ => hsink]; rfl⟩
    | eos len => exact ⟨_, matchEffect_eos len s⟩
    | _ => cases hc

/-- The symbol the stream holds is well-formed; decoding its bits leaves the stream sound, and its row then has its effect. -/
theorem fetchSymbol_effect {s u : State} {y : Symbol} (h : StreamInv s) (hfetch : fetchSymbol s = .ok y u) :
    y.toInstr.wf = true ∧ CoderFrame (symbolGroups y) s u ∧ StreamInv u ∧ exec y.toInstr s = finishSymbol (symbolEffect y u) := by
  obtain ⟨mb, hwf, hmb, hpath⟩ := fetchSymbol_decoded hfetch
  have hbits := hpath.takeBits_eq
  have hframe := (takeBits_frame _ (symbolPath_in s mb y) s).frame_of_ok hbits
  refine ⟨hwf, hframe, h.of_coderFrame hframe ((takeBits_operation _ s).step_of_ok hbits), ?_⟩
  rw [exec_toInstr, takeSymbol_eq hmb, hbits, Res.bind_ok]

/-- Settles O12: the bits are decoded, and the effect completes or its range check fails. -/
theorem symbolRuns : Obligations.SymbolRuns := by
  unfold Obligations.SymbolRuns
  intro s h
  obtain ⟨y, u, hfetch, -⟩ := (fetchSymbol_runs h.stream).run 0 h.source
  obtain ⟨hwf, hframe, hu, -⟩ := fetchSymbol_effect h.stream hfetch
  obtain ⟨-, -, -, -, -, hpos, -, -, -, -, -, -, -, hdict, -⟩ := hframe.fields
  have hcopies := symbolCopy_of_coderFrame hframe y
  by_cases hlegal : ∀ d, copyDistance s y = some d → d.toNat < s.position.toNat ∧ d.toNat < s.dictionarySizeCheck.toNat
  · obtain ⟨t, ht⟩ := symbolEffect_completes hu hwf (hpos ▸ h.room) (hframe.sinkAccepts_eq.trans h.sink)
      (by rwa [copyDistance_eq, hcopies, ← copyDistance_eq, hpos, hdict])
    have hphase : t.phase = .decoding := ((symbolEffect_operation y u).step_of_ok ht).frame.phase.trans hu.decoding
    rw [exec_symbol_of_fetch hfetch, ht]
    exact ⟨y, u, _, hfetch, rfl, fun _ => ⟨hphase, rfl⟩, fun d hd hillegal => absurd (hlegal d hd) hillegal⟩
  · obtain ⟨d, hd, hillegal⟩ : ∃ d, copyDistance s y = some d ∧
        ¬(d.toNat < s.position.toNat ∧ d.toNat < s.dictionarySizeCheck.toNat) := by
      simpa only [not_forall, exists_prop] using hlegal
    rw [copyDistance_eq, Option.map_eq_some_iff] at hd
    obtain ⟨c, hc, rfl⟩ := hd
    have heffect := (makesCopy hwf (hcopies.trans hc)).corrupt (by rw [hpos, hdict]; omega)
    rw [exec_symbol_of_fetch hfetch, heffect]
    exact ⟨y, u, _, hfetch, rfl, fun h => absurd h hlegal, fun _ _ _ => hframe.corrupt c⟩

/-! ### A pass of the loop (`46_control.md` R244 to R249) -/

theorem pass_eq_afterSymbol {s u : State} {y : Symbol} (hlength : lengthReached s = false) (hfetch : fetchSymbol s = .ok y u) :
    pass s = afterSymbol y (exec y.toInstr s) := by
  rw [pass, hlength, hfetch]
  rfl

/-- After any symbol but the end marker the loop goes on as the symbol has left it. -/
theorem afterSymbol_goesOn {y : Symbol} (hy : endsLoop y = false) (t : State) : afterSymbol y (.next t) = .next t := by
  rw [afterSymbol, hy]
  rfl

/-- Settles O10: a step is a pass, and the pass runs the symbol. -/
theorem stepRunsTheDecodedSymbol : Obligations.StepRunsTheDecodedSymbol := by
  unfold Obligations.StepRunsTheDecodedSymbol
  intro s u y hreset hissued hphase hlength hfetch
  have hstep : step s = afterSymbol y (exec y.toInstr s) :=
    (step_eq_pass hreset hissued hphase).trans (pass_eq_afterSymbol hlength hfetch)
  exact ⟨hstep, fun hy t ht => by rw [hstep, ht, afterSymbol_goesOn hy]⟩

theorem lengthReached_eq_false {s : State} (h : s.expectedLength.toInt < 0 ∨ (s.position.toNat : Int) < s.expectedLength.toInt) :
    lengthReached s = false := by
  rw [lengthReached, Bool.and_eq_false_iff, decide_eq_false_iff_not, decide_eq_false_iff_not]
  omega

/-- With an accepting sink the final flush hands over what is left, and `DECODE` has succeeded (R249, R250). -/
theorem finishDecode_succeeds {p : Nat} {s : State} (h : WinRep p s) (hsink : sinkAccepts s = true) :
    ∃ t, finishDecode s = .next t ∧ t.phase = .done ∧ t.status = .ok ∧ t.source = s.source ∧ t.sink = emitted s := by
  have hflush := winFlush_eq h.order h.inside.le (fun _ h1 h2 => h.written h1 h2) fun _ => hsink
  rw [finishDecode, hflush]
  exact ⟨_, rfl, rfl, rfl, rfl, rfl⟩

/-- Settles O15: the end marker's effect leaves the output alone, and the final flush delivers it. -/
theorem endMarkerEndsTheLoop : Obligations.EndMarkerEndsTheLoop := by
  unfold Obligations.EndMarkerEndsTheLoop
  intro s u len h hreset hissued hsink hlength hfetch
  obtain ⟨-, hframe, hu, hexec⟩ := fetchSymbol_effect h hfetch
  replace hexec : exec (Symbol.eos len).toInstr s = .next { pushRep eosDistance u with result := some 1 } := by
    rw [hexec, symbolEffect, matchEffect_eos]
    rfl
  have hend : step s = finishDecode { pushRep eosDistance u with result := some 1 } := by
    rw [step_eq_pass hreset hissued h.decoding, pass_eq_afterSymbol (lengthReached_eq_false hlength) hfetch, hexec, afterSymbol]
    exact if_pos (by rw [Bool.and_eq_true, decide_eq_true_eq]; exact ⟨rfl, hu.decoding⟩)
  rw [hend, ← hframe.emitted_eq]
  exact finishDecode_succeeds (p := u.position.toNat) hu.rep.congr (hframe.sinkAccepts_eq.trans hsink)

end Sys2Proof.Machine
end

section
/-! SUPPORT. The host commands (`46_control.md` R240 to R246), what a step runs, and the length test of the loop with its final flush
(R247, R249, R250). -/

namespace Sys2Proof.Machine

/-! ### The commands and their phases (R240, R241) -/

theorem exec_cmdReset {s : State} (h : s.phase ≠ .decoding) : exec .cmdReset s = .next (resetState s) := if_neg h

theorem exec_cmdReset_decoding {s : State} (h : s.phase = .decoding) : exec .cmdReset s = .refused .resetWhileDecoding := if_pos h

theorem exec_cmdSetProperties {s : State} (h : s.phase ≠ .decoding) (bytes : List Byte) :
    exec (.cmdSetProperties bytes) s = .next (setProperties bytes s) := if_neg h

theorem exec_cmdSetProperties_decoding {s : State} (h : s.phase = .decoding) (bytes : List Byte) :
    exec (.cmdSetProperties bytes) s = .refused .setPropertiesWhileDecoding := if_pos h

theorem exec_cmdDecode_refused {s : State} (h : s.phase ≠ .configured) (el : DWord) :
    exec (.cmdDecode el) s = .refused .decodeNotConfigured := if_neg h

/-- What is run to its end is not refused. -/
theorem Res.finish_ne_refused {α : Type} (r : Res α) (val : α → Option Nat) (e : Refusal) : r.finish val ≠ .refused e := by
  cases r <;> exact nofun

/-! ### SET_PROPERTIES (R242, R243) -/

/-- A byte put in front of the `k` bits a word has. -/
theorem or_byte_toNat {x : Word} {k : Nat} (b : Byte) (hk : k + 8 ≤ 32) (hx : x.toNat < 2 ^ k) :
    (x ||| (b.setWidth 32 <<< k)).toNat = x.toNat + b.toNat * 2 ^ k := by
  have hb : (b.setWidth 32).toNat = b.toNat := BitVec.toNat_setWidth_of_le (by decide)
  have hlt : b.toNat * 2 ^ k < 2 ^ 32 := calc
    b.toNat * 2 ^ k < 2 ^ 8 * 2 ^ k := Nat.mul_lt_mul_of_pos_right b.isLt (Nat.two_pow_pos k)
    _ = 2 ^ (k + 8) := by rw [← pow_add, Nat.add_comm]
    _ ≤ 2 ^ 32 := Nat.pow_le_pow_right (by decide) hk
  rw [BitVec.or_comm, shiftLeft_or_toNat _ x (by omega) hx, hb, Nat.mod_eq_of_lt hlt, Nat.add_comm]

/-- The four bytes are the digits of the word in the radix 256 (R93). -/
theorem littleEndian_toNat (b1 b2 b3 b4 : Byte) :
    (littleEndian b1 b2 b3 b4).toNat = b1.toNat + b2.toNat * 256 + b3.toNat * 65536 + b4.toNat * 16777216 := by
  have h1 : (b1.setWidth 32).toNat = b1.toNat := BitVec.toNat_setWidth_of_le (by decide)
  have lt1 := b1.isLt
  have lt2 := b2.isLt
  have lt3 := b3.isLt
  have h2 := or_byte_toNat (k := 8) b2 (by decide) (show (b1.setWidth 32).toNat < 2 ^ 8 by omega)
  have h3 := or_byte_toNat (k := 16) b3 (by decide) (lt_of_eq_of_lt h2 (by omega))
  have h4 := or_byte_toNat (k := 24) b4 (by decide) (lt_of_eq_of_lt h3 (by omega))
  rw [littleEndian]
  omega

/-- The three tests of R242 on five bytes, in numbers: the digits of the first byte, and the size. -/
theorem setProperties_eq (v b1 b2 b3 b4 : Byte) (rest : List Byte) (s : State) :
    setProperties (v :: b1 :: b2 :: b3 :: b4 :: rest) s =
      if v.toNat / 9 / 5 > 4 then takeFailure .unconfigured .formatError s
      else if v.toNat % 9 + v.toNat / 9 % 5 > 12 then takeFailure .unconfigured .formatError s
      else if (littleEndian b1 b2 b3 b4).toNat ≥ 2 ^ 31 ∨ (littleEndian b1 b2 b3 b4).toNat > 2147483647 then
        takeFailure .unconfigured .formatError s
      else { loadProperties (v.toNat % 9) (v.toNat / 9 % 5) (v.toNat / 9 / 5) (littleEndian b1 b2 b3 b4) s with
        phase := .configured, status := .ok } := rfl

section
variable {v b1 b2 b3 b4 : Byte}

theorem littleEndian_lt (h4 : b4.toNat < 128) : (littleEndian b1 b2 b3 b4).toNat < 2 ^ 31 := by
  have lt1 := b1.isLt
  have lt2 := b2.isLt
  have lt3 := b3.isLt
  rw [littleEndian_toNat]
  omega

theorem setProperties_loads (hv : v.toNat < 225) (h4 : b4.toNat < 128) (rest : List Byte) (s : State) :
    setProperties (v :: b1 :: b2 :: b3 :: b4 :: rest) s =
      { loadProperties (v.toNat % 9) (v.toNat / 9 % 5) (v.toNat / 9 / 5) (littleEndian b1 b2 b3 b4) s with
        phase := .configured, status := .ok } := by
  have hds : (littleEndian b1 b2 b3 b4).toNat < 2 ^ 31 := littleEndian_lt h4
  rw [setProperties_eq, if_neg (by omega), if_neg (by omega), if_neg (by omega)]

/-- Where the first byte is no properties byte the first test fails, and where bit 31 of the size is set the last one does. -/
theorem setProperties_rejects (h : 225 ≤ v.toNat ∨ 128 ≤ b4.toNat) (rest : List Byte) (s : State) :
    setProperties (v :: b1 :: b2 :: b3 :: b4 :: rest) s = takeFailure .unconfigured .formatError s := by
  have hds := littleEndian_toNat b1 b2 b3 b4
  rw [setProperties_eq]
  by_cases hpb : v.toNat / 9 / 5 > 4
  · rw [if_pos hpb]
  · rw [if_neg hpb, if_neg (by omega), if_pos (by omega)]

end

/-- On fewer than five bytes there is nothing to test; on five or more one of the tests fails (R243). -/
theorem setProperties_fails {bytes : List Byte}
    (h : bytes.length < 5 ∨ 225 ≤ (bytes.getD 0 0#8).toNat ∨ 128 ≤ (bytes.getD 4 0#8).toNat) (s : State) :
    setProperties bytes s = takeFailure .unconfigured .formatError s := by
  unfold setProperties
  split
  · next rest =>
    have hlength (l : List Byte) : ¬ l.length + 5 < 5 := Nat.not_lt.2 (Nat.le_add_left ..)
    exact setProperties_rejects (h.resolve_left (hlength rest)) rest s
  · rfl

/-- Settles O4: the tests pass for a byte of legal digits and a size below 2^31, and one of them fails otherwise. -/
theorem setPropertiesLoadsOrFails : Obligations.SetProperties := by
  unfold Obligations.SetProperties
  refine fun s => ⟨fun hphase v b1 b2 b3 b4 rest hv h4 => ?_, fun hphase bytes hbad => ?_, exec_cmdSetProperties_decoding⟩
  · have hok := propertiesOk_loadProperties (lc := v.toNat % 9) (lp := v.toNat / 9 % 5) (pb := v.toNat / 9 / 5)
      (ds := littleEndian b1 b2 b3 b4) (by omega) (by omega) (by omega) (littleEndian_lt h4) s .configured .ok
    rw [exec_cmdSetProperties hphase, setProperties_loads hv h4]
    refine ⟨_, rfl, ?_, ?_, ?_, littleEndian_toNat b1 b2 b3 b4, hok.posStateMask, hok.literalPosMask, hok.dictionarySizeCheck, hok.windowSize,
      rfl, rfl, rfl, rfl, rfl, rfl, rfl⟩ <;> exact Nat.mod_eq_of_lt (by omega)
  · rw [exec_cmdSetProperties hphase, setProperties_fails hbad]
    exact ⟨_, rfl, rfl, rfl, rfl, rfl, rfl, rfl, rfl⟩

/-! ### The length test and the final flush (R247, R249, R250) -/

theorem lengthReached_eq_true {s : State} (h0 : 0 ≤ s.expectedLength.toInt)
    (h : s.expectedLength.toInt ≤ (s.position.toNat : Int)) : lengthReached s = true := by
  rw [lengthReached, decide_eq_true h0, decide_eq_true h]
  rfl

/-- Where the length is reached a step of a running stream is the end of `DECODE`. -/
theorem step_eq_finishDecode {s : State} (hreset : s.resetInput = false) (hissued : s.issued = []) (hphase : s.phase = .decoding)
    (h0 : 0 ≤ s.expectedLength.toInt) (h : s.expectedLength.toInt ≤ (s.position.toNat : Int)) : step s = finishDecode s := by
  rw [step_eq_pass hreset hissued hphase, pass, if_pos (lengthReached_eq_true h0 h)]

/-- Settles O13: no symbol is decoded, and the final flush delivers the output. -/
theorem lengthTestEndsTheLoop : Obligations.LengthTestEndsTheLoop := by
  unfold Obligations.LengthTestEndsTheLoop
  intro s h hreset hissued hsink h0 hlength
  rw [step_eq_finishDecode hreset hissued h.decoding h0 hlength]
  exact finishDecode_succeeds h.rep hsink

/-- Settles O14: the symbol of the stream is decoded, and its row, which is what `SYMBOL()` does, runs. -/
theorem lengthTestContinues : Obligations.LengthTestContinues := by
  unfold Obligations.LengthTestContinues
  intro s h hreset hissued hlength
  obtain ⟨y, u, t, hfetch, hsymbol, -⟩ := symbolRuns s h
  obtain ⟨-, -, hrow⟩ := symbolIsItsRow s u y hfetch
  have hexec : exec y.toInstr s = .next t := hrow.symm.trans hsymbol
  refine ⟨y, u, t, hfetch, hexec, ?_⟩
  rw [step_eq_pass hreset hissued h.stream.decoding, pass_eq_afterSymbol (lengthReached_eq_false hlength) hfetch, hexec]

/-- Settles O16: the final flush is due, and raises the sink's failure. -/
theorem finalFlushCanFail : Obligations.FinalFlushCanFail := by
  unfold Obligations.FinalFlushCanFail
  intro s rest h hreset hissued hfails hdue h0 hlength
  have hflush := winFlush_fails hfails hdue h.rep.inside.le fun _ h1 h2 => h.rep.written h1 h2
  rw [step_eq_finishDecode hreset hissued h.decoding h0 hlength, finishDecode, hflush]
  exact ⟨_, rfl, ⟨rfl, List.suffix_refl _, List.prefix_refl _⟩, rfl⟩

/-! ### RESET, and the refusals (R240, R241) -/

/-- Settles O2: the reset state has the ports of the state it resets. -/
theorem resetCommand : Obligations.ResetCommand := by
  unfold Obligations.ResetCommand
  exact fun s hphase => ⟨resetState s, exec_cmdReset hphase, rfl, rfl, rfl, rfl, rfl, rfl, rfl⟩

/-- Settles O3, by what each command does in the phases it is not refused in. -/
theorem commandsRefusedByPhase : Obligations.CommandsRefusedByPhase := by
  unfold Obligations.CommandsRefusedByPhase
  refine fun s => ⟨fun el => ⟨fun hrefused hphase => ?_, fun hphase => exec_cmdDecode_refused hphase el⟩,
    fun bytes => ⟨fun hrefused => ?_, fun hphase => exec_cmdSetProperties_decoding hphase bytes⟩,
    fun hrefused => ?_, exec_cmdReset_decoding⟩
  · rw [exec_cmdDecode hphase] at hrefused
    exact Res.finish_ne_refused _ _ _ hrefused
  · by_contra hphase
    rw [exec_cmdSetProperties hphase] at hrefused
    cases hrefused
  · by_contra hphase
    rw [exec_cmdReset hphase] at hrefused
    cases hrefused

/-! ### DECODE without its five bytes (R246, R132) -/

theorem SourceFails.suffix {l rest : List SourceAnswer} {k : FailureKind} (h : SourceFails l k rest) : rest <:+ l := by
  cases h with
  | exhausted => exact List.suffix_refl _
  | failing => exact List.suffix_cons _ _

/-- `DECODE` takes the failure of its `RC_INIT`; of the stream it has begun only the source is seen. -/
theorem exec_cmdDecode_fails {m : Nat} {s : State} {k : FailureKind} {rest : List SourceAnswer} (hphase : s.phase = .configured)
    (el : DWord) (hm : m < 5) (hs : supplies m s.source = true) (hf : SourceFails (s.source.drop m) k rest) :
    ∃ t, exec (.cmdDecode el) s = .next t ∧ FailedFrom k s t ∧ t.source = rest ∧ t.sink = s.sink := by
  have hinit : (rcInit (startStream el s)).finish (fun _ => none) =
      .next (takeFailure .failed k { startStream el s with source := rest }) := exec_rcInit_fails (s := startStream el s) hm hs hf
  exact ⟨_, (exec_cmdDecode hphase el).trans hinit, ⟨rfl, hf.suffix.trans (List.drop_suffix m _), List.prefix_refl _⟩, rfl, rfl⟩

/-- Settles O7: the first byte that cannot be had is the end of the source, or its failure. -/
theorem decodeShortStream : Obligations.DecodeShortStream := by
  unfold Obligations.DecodeShortStream
  refine fun s el hphase => ⟨fun hlen hs => ?_, fun n rest hn hs hd => ?_⟩
  · exact exec_cmdDecode_fails hphase el hlen hs (by rw [List.drop_length]; exact .exhausted)
  · exact exec_cmdDecode_fails hphase el hn hs (by rw [hd]; exact .failing rest)

/-! ### What a step runs (logs 2, 13, 15, 16) -/

theorem step_eq_exec {s : State} {i : Instr} {rest : List Instr} (hreset : s.resetInput = false) (hissued : s.issued = i :: rest) :
    step s = exec i { s with issued := rest } := by
  simp only [step, hreset, hissued, Bool.false_eq_true, if_false]

theorem withFetchWord_eq_issueFirst {nbits w : Nat} {i : Instr} (h : decodeTableWord nbits w = some i) (s : State) :
    s.withFetchWord nbits w = issueFirst 64 i s := by
  rw [State.withFetchWord, h]

theorem step_idle {s : State} (hreset : s.resetInput = false) (hissued : s.issued = []) (hphase : s.phase ≠ .decoding) :
    step s = .next s := by
  simp only [step, hreset, hissued, hphase, Bool.false_eq_true, if_false]

/-- Settles O9: what is issued first runs, and a table word issues its instruction first. -/
theorem stepRunsWhatIsIssued : Obligations.StepRunsWhatIsIssued := by
  unfold Obligations.StepRunsWhatIsIssued
  refine ⟨fun s i rest => step_eq_exec, fun s nbits w i hdecode => ?_, fun s => step_idle⟩
  rw [withFetchWord_eq_issueFirst hdecode]
  exact step_eq_exec (issueFirst_resetInput 64 i s) (issueFirst_issued 64 i s)

end Sys2Proof.Machine
end

section
/-! SUPPORT. How failures end (`60_exceptions.md`): what raises while the bits of a symbol are decoded (R266, R267), every way a symbol of a
sound stream can end (R262 to R264), and the codes of the status register (R260). -/

namespace Sys2Proof.Machine

/-! ### A failure while bits are decoded (R266, R267) -/

theorem CoderOp.of_raise {α : Type} {gs : List ProbGroup} {s u : State} {r : Res α} {k : FailureKind} (h : CoderOp gs s r)
    (hr : r = .raise k u) : CoderFrame gs s u ∧ sourceFailure k := by
  subst hr
  exact h.post

/-- Reading the window changes and raises nothing, so it can stand among the operations of the range coder. -/
theorem winGet_coderOp (gs : List ProbGroup) (d : Word) (s : State) : CoderOp gs s (winGet d s) := by
  unfold winGet winRead
  split
  · split
    · split
      · exact CoderOp.ok _
      · exact CoderOp.fault _
    · exact CoderOp.fault _
  · exact CoderOp.fault _

theorem literalContext_coderOp (gs : List ProbGroup) (s : State) : CoderOp gs s (literalContext s) := by
  unfold literalContext
  split
  · exact CoderOp.ok none
  · exact (winGet_coderOp gs _ s).map

theorem fetchLit_frame {gs : List ProbGroup} (hl : ProbGroup.lit ∈ gs) (s : State) : CoderOp gs s (fetchLit s) := by
  refine (literalContext_coderOp gs s).bind fun mb t => ?_
  cases mb with
  | none => exact litNormal_frame hl _ t
  | some mb => exact litMatched_frame hl _ mb t

/-- Every group the symbols adapt, which is every group there is. -/
def allGroups : List ProbGroup := litGroups ++ (matchGroups ++ longrepGroups)

theorem mem_allGroups (g : ProbGroup) : g ∈ allGroups := by cases g <;> decide

/-- Decoding the bits of a symbol moves only the range coder, the source and the slots, and raises only the source's failures. -/
theorem fetchSymbol_frame (s : State) : CoderOp allGroups s (fetchSymbol s) := by
  have hbit (g : ProbGroup) (i : Int) (t : State) : CoderOp allGroups t (rcBit g i t) := rcBit_frame (mem_allGroups g) i t
  have hlen (x : LenInst) (t : State) : CoderOp allGroups t (lenDecode x (posState s) t) :=
    lenDecode_frame x (fun g _ => mem_allGroups g) _ t
  refine (hbit _ _ s).bind fun isMatch s1 => ?_
  split
  · exact (fetchLit_frame (mem_allGroups .lit) s1).map
  refine (hbit _ _ s1).bind fun isRep s2 => ?_
  split
  · exact (hlen .mlen s2).bind fun len s3 => (distDecode_frame (fun g _ => mem_allGroups g) len s3).map
  refine (hbit _ _ s2).bind fun isRepG0 s3 => ?_
  split
  · refine (hbit _ _ s3).bind fun isRep0Long s4 => ?_
    split
    · exact CoderOp.ok _
    · exact (hlen .rlen s4).map
  refine (hbit _ _ s3).bind fun isRepG1 s4 => ?_
  split
  · exact (hlen .rlen s4).map
  refine (hbit _ _ s4).bind fun isRepG2 s5 => ?_
  split <;> exact (hlen .rlen s5).map

theorem pass_of_raise {s u : State} {k : FailureKind} (hlength : lengthReached s = false) (hfetch : fetchSymbol s = .raise k u) :
    pass s = .next (takeFailure .failed k u) := by
  rw [pass, hlength, hfetch]
  rfl

/-- Settles O17: only the source's failures can be raised, with the sink as it was; the pass takes the one that is. -/
theorem streamFailureEndsTheLoop : Obligations.StreamFailureEndsTheLoop := by
  unfold Obligations.StreamFailureEndsTheLoop
  intro s u k hreset hissued hphase hlength hfetch
  obtain ⟨hframe, hkind⟩ := (fetchSymbol_frame s).of_raise hfetch
  have hsink : u.sink = s.sink := by rw [hframe.rest]
  rw [step_eq_pass hreset hissued hphase, pass_of_raise hlength hfetch]
  exact ⟨hkind, _, rfl, hframe.ports.failedFrom k, rfl, hsink⟩

/-! ### Given decisions complete, or fail as the source does (R131, R262) -/

theorem takeBit_truncates (d : Decision) (s : State) : TruncatesAtEnd (takeBit d s) := by
  obtain ⟨src, bit⟩ := d
  cases src with
  | slot g i => exact takeSlotBit_truncates g i bit s
  | direct => exact normalizeLoop_truncates _ _

theorem takeBits_truncates (ds : List Decision) (s : State) : TruncatesAtEnd (takeBits ds s) := by
  induction ds generalizing s with
  | nil => exact TruncatesAtEnd.ok () s
  | cons d ds ih => exact (takeBit_truncates d s).bind fun _ t => ih t

theorem takeSlotBit_eq_rcNormalize {g : ProbGroup} {i : Int} {s : State} (hi : 0 ≤ i ∧ i < groupSize s g) (bit : Bool) :
    takeSlotBit g i bit s = rcNormalize (afterBit g i bit s) := by
  rw [takeSlotBit, slot?_eq hi]
  rfl

theorem takeBit_takes {d : Decision} {s : State} (h : CoderOk s) (hd : Decision.inGroup s d) : CoderTakes 1 s (takeBit d s) := by
  obtain ⟨src, bit⟩ := d
  cases src with
  | slot g i =>
    show CoderTakes 1 s (takeSlotBit g i bit s)
    rw [takeSlotBit_eq_rcNormalize (hd g i rfl)]
    exact rcNormalize_takes (afterBit_range h) (afterBit_source g i bit s)
  | direct => exact rcNormalize_takes (le_afterDirect_range h bit) (afterDirect_source bit s)

theorem takeBits_takes {gs : List ProbGroup} {ds : List Decision} {s : State} (h : CoderOk s) (hok : PathOk s ds)
    (hin : PathIn gs ds) : CoderTakes ds.length s (takeBits ds s) := by
  induction ds generalizing s with
  | nil => exact CoderTakes.ok ()
  | cons d ds ih =>
    obtain ⟨hd, hds⟩ := List.forall_mem_cons.1 hok
    obtain ⟨hind, hinds⟩ := List.forall_mem_cons.1 hin
    exact CoderTakes.bind_of_keeps h (takeBit_takes h hd) (takeBit_frame d hind s) (takeBit_keeps d s)
      fun _ t _ ht hf => ih ht (PathOk.frame hds hf) hinds

/-! ### How a symbol can end (R202 to R216, R262 to R264) -/

/-- How the symbol `y`, begun in `s`, can end: it completes with its flag, or raises a failure with the sink as it was, which is
`CorruptStream` only of an illegal distance. -/
inductive SymbolEnds (s : State) (y : Symbol) : Res Bool → Prop where
  | completes (t : State) : SymbolEnds s y (.ok (endsLoop y) t)
  | truncated {t : State} (hsource : t.source = []) (hsink : t.sink = s.sink) : SymbolEnds s y (.raise .streamTruncated t)
  | ioError {t : State} (hsink : t.sink = s.sink) : SymbolEnds s y (.raise .ioError t)
  | corrupt {t : State} {d : Word} (hsink : t.sink = s.sink) (hdist : copyDistance s y = some d)
      (hillegal : s.position.toNat ≤ d.toNat ∨ s.dictionarySizeCheck.toNat ≤ d.toNat) : SymbolEnds s y (.raise .corruptStream t)

section
variable {gs : List ProbGroup} {s u : State} {y : Symbol}

/-- The bits decoded before the effect change neither the sink nor what the distance is checked against. -/
theorem SymbolEnds.of_coderFrame {r : Res Bool} (hf : CoderFrame gs s u) (h : SymbolEnds u y r) : SymbolEnds s y r := by
  obtain ⟨-, -, -, -, -, hposition, -, -, -, -, -, -, -, hdict, -, -, -, -, -, -, hout, -⟩ := hf.fields
  cases h with
  | completes t => exact .completes t
  | truncated hsource hsink => exact .truncated hsource (hsink.trans hout)
  | ioError hsink => exact .ioError (hsink.trans hout)
  | corrupt hsink hdist hillegal =>
    rw [copyDistance_eq, symbolCopy_of_coderFrame hf, ← copyDistance_eq] at hdist
    exact .corrupt (hsink.trans hout) hdist (by rwa [hposition, hdict] at hillegal)

/-- A failure raised while the bits are decoded. -/
theorem SymbolEnds.of_coderOp {α : Type} {r : Res α} {k : FailureKind} (hop : CoderOp gs s r) (htruncates : TruncatesAtEnd r)
    (hr : r = .raise k u) : SymbolEnds s y (.raise k u) := by
  obtain ⟨hframe, hkind⟩ := hop.of_raise hr
  have hsink : u.sink = s.sink := by rw [hframe.rest]
  subst hr
  rcases hkind with rfl | rfl
  · exact .truncated (htruncates.post rfl) hsink
  · exact .ioError hsink

end

theorem litEffect_symbolEnds {s : State} (h : StreamInv s) (b : Byte) (hroom : s.position.toNat + 273 < 2 ^ 64) :
    SymbolEnds s (.lit b) (symbolEffect (.lit b) s) := by
  rw [symbolEffect]
  rcases sinkAccepts_or_fails s (s.writeCursor.toNat + 1 = s.windowSize.toNat) with haccepts | ⟨hend, rest, hfails⟩
  · rw [litEffect_runs h.rep (by omega) haccepts]
    exact .completes _
  · rw [litEffect_fails h.rep hend hfails]
    exact .ioError rfl

/-- A copy is corrupt, or completes, or reaches the end of the window with a failing sink. -/
theorem MakesCopy.symbolEnds {s : State} {y : Symbol} {c : Copy} (h : MakesCopy s y c) (hc : symbolCopy s y = some c)
    (hs : StreamInv s) (hroom : s.position.toNat + 273 < 2 ^ 64) : SymbolEnds s y (symbolEffect y s) := by
  by_cases hlegal : c.rep0.toNat < s.position.toNat ∧ c.rep0.toNat < s.dictionarySizeCheck.toNat
  case neg =>
    have hillegal : s.position.toNat ≤ c.rep0.toNat ∨ s.dictionarySizeCheck.toNat ≤ c.rep0.toNat := by omega
    rw [h.corrupt hillegal]
    exact .corrupt rfl (by rw [copyDistance_eq, hc, Option.map_some]) hillegal
  obtain ⟨hpos, hcheck⟩ := hlegal
  have hlen := h.len_le
  rw [h.effect]
  rcases sinkAccepts_or_fails s (s.windowSize.toNat ≤ s.writeCursor.toNat + c.len) with haccepts | ⟨hwrap, rest, hfails⟩
  · obtain ⟨t, ht, -⟩ := copyTail_runs (s := c.setup s) hs.rep.congr hs.props.congr hpos hcheck h.len_pos hlen
      (show s.position.toNat + c.len < 2 ^ 64 by omega) haccepts
    rw [ht, Res.map_ok, ← h.endsLoop]
    exact .completes t
  · obtain ⟨t, ht, -, hsink, -⟩ := copyTail_fails (s := c.setup s) hs.rep.congr hs.props.congr hpos hcheck hwrap hfails
    rw [ht, Res.map_raise]
    exact .ioError hsink

theorem symbolEffect_symbolEnds {s : State} {y : Symbol} (h : StreamInv s) (hwf : y.toInstr.wf = true)
    (hroom : s.position.toNat + 273 < 2 ^ 64) : SymbolEnds s y (symbolEffect y s) := by
  cases hc : symbolCopy s y with
  | some c => exact (makesCopy hwf hc).symbolEnds hc h hroom
  | none =>
    cases y with
    | lit b => exact litEffect_symbolEnds h b hroom
    | eos len =>
      rw [symbolEffect, matchEffect_eos]
      exact .completes _
    | _ => cases hc

/-- On a sound stream the bits of a symbol are decoded or the source fails, and then its effect ends as it can. -/
theorem takeSymbol_symbolEnds {s : State} {y : Symbol} (h : StreamInv s) (hwf : y.toInstr.wf = true)
    (hroom : s.position.toNat + 273 < 2 ^ 64) : SymbolEnds s y (takeSymbol y s) := by
  obtain ⟨mb, hmb⟩ := h.literalContext_eq
  have hin := symbolPath_in s mb y
  have htakes := takeBits_takes h.coder (symbolPath_ok h.props (h.inv.automaton h.decoding) mb y) hin
  have hop := takeBits_frame _ hin s
  rw [takeSymbol_eq fun _ _ => hmb]
  rcases hbits : takeBits (symbolPath s mb y) s with ⟨⟨⟩, u⟩ | ⟨k, u⟩ | e
  case ok =>
    have hframe := hop.frame_of_ok hbits
    have hu := h.of_coderFrame hframe ((takeBits_operation _ s).step_of_ok hbits)
    have hposition : u.position = s.position := by rw [hframe.rest]
    exact (symbolEffect_symbolEnds hu hwf (hposition ▸ hroom)).of_coderFrame hframe
  case raise => exact .of_coderOp hop (takeBits_truncates _ s) hbits
  case fault => exact absurd hbits (htakes.noFault e)

theorem Operation.ports_of_raise {α : Type} {s t : State} {r : Res α} {k : FailureKind} (h : Operation s r) (hr : r = .raise k t) :
    Ports s t := by
  subst hr
  obtain ⟨hports, -⟩ := h.post
  exact hports

/-- Settles O54: a symbol row is an operation, which keeps the phase or takes its failure, and ends as a symbol can. -/
theorem symbolsCompleteOrFail : Obligations.SymbolsCompleteOrFail := by
  unfold Obligations.SymbolsCompleteOrFail
  intro s y h hwf hroom
  have hop := takeSymbol_operation y s
  have hends := takeSymbol_symbolEnds h hwf hroom
  rw [exec_toInstr]
  generalize takeSymbol y s = r at hop hends
  cases hends with
  | completes t => exact ⟨_, rfl, .inl ⟨(hop.step_of_ok rfl).frame.phase.trans h.decoding, rfl⟩⟩
  | truncated hsource hsink => exact ⟨_, rfl, .inr (.inl ⟨(hop.ports_of_raise rfl).failedFrom _, hsource, hsink⟩)⟩
  | ioError hsink => exact ⟨_, rfl, .inr (.inr (.inl ⟨(hop.ports_of_raise rfl).failedFrom _, hsink⟩))⟩
  | corrupt hsink hdist hillegal =>
    exact ⟨_, rfl, .inr (.inr (.inr ⟨(hop.ports_of_raise rfl).failedFrom _, hsink, _, hdist, hillegal⟩))⟩

/-! ### The codes of the status register (R260) -/

/-- The status a code stands for. -/
def Status.ofCode : Nat → Option Status
  | 0 => some .ok
  | 1 => some (.failure .formatError)
  | 2 => some (.failure .streamTruncated)
  | 3 => some (.failure .corruptStream)
  | 4 => some (.failure .ioError)
  | _ => none

theorem Status.ofCode_code (a : Status) : Status.ofCode a.code = some a := by
  cases a with
  | ok => rfl
  | failure k => cases k <;> rfl

theorem Status.code_injective {a b : Status} (h : a.code = b.code) : a = b :=
  Option.some.inj (by rw [← a.ofCode_code, h, b.ofCode_code])

/-- An operation that raises a failure leaves the failure's code (R265, R266). -/
theorem exists_code_of_raise {α : Type} {r : Res α} {k : FailureKind} {u : State} (hr : r = .raise k u) (val : α → Option Nat) :
    ∃ t, r.finish val = .next t ∧ t.status.code = (Status.failure k).code :=
  ⟨takeFailure .failed k u, by rw [hr, Res.finish_raise], rfl⟩

/-- Settles O60: a code can be read back, and each operation leaves the code of the failure it raises. -/
theorem statusCodes : Obligations.StatusCodes := by
  unfold Obligations.StatusCodes
  refine ⟨⟨rfl, rfl, rfl, rfl, rfl, fun _ _ => Status.code_injective⟩, fun s => ⟨fun hphase => ?_, fun hphase bytes hlength => ?_,
    fun hsource => ?_, fun d hd => ?_, fun hsource => ?_, fun hanswers bytes => ?_⟩⟩
  · exact ⟨_, exec_cmdReset hphase, rfl⟩
  · rw [exec_cmdSetProperties hphase, setProperties_fails (.inl hlength)]
    exact ⟨_, rfl, rfl⟩
  · have hfails : SourceFails s.source .streamTruncated [] := hsource ▸ .exhausted
    rw [exec_inByte]
    exact exists_code_of_raise (inByte_raises hfails) _
  · rw [exec_rangeCheck]
    exact exists_code_of_raise (rangeCheck_corrupt (.inl hd)) _
  · obtain ⟨rest, hrest⟩ := List.head?_eq_some_iff.1 hsource
    have hfails : SourceFails s.source .ioError rest := hrest ▸ .failing rest
    rw [exec_inByte]
    exact exists_code_of_raise (inByte_raises hfails) _
  · obtain ⟨rest, hrest⟩ := List.head?_eq_some_iff.1 hanswers
    rw [exec_sinkWrite]
    exact exists_code_of_raise (sinkWrite_fails hrest bytes) _

end Sys2Proof.Machine
end

section
/-! SUPPORT. Reset (`70_reset_and_hazards.md` R300), and that a stream begins as if nothing had run before it (R302). -/

namespace Sys2Proof.Machine

/-! ### What RC_INIT forgets (R302, R132) -/

/-- A source gives the next `n` bytes, or one of them cannot be had. -/
theorem bytes_or_sourceFails (n : Nat) (l : List SourceAnswer) :
    (∃ (bs : List Byte) (rest : List SourceAnswer), bs.length = n ∧ l = bs.map .byte ++ rest) ∨
    ∃ m < n, supplies m l = true ∧ ∃ k rest, SourceFails (l.drop m) k rest := by
  induction n generalizing l with
  | zero => exact .inl ⟨[], l, rfl, rfl⟩
  | succ n ih =>
    rcases byte_or_sourceFails l with ⟨b, l, rfl⟩ | hfails
    · rcases ih l with ⟨bs, rest, rfl, rfl⟩ | ⟨m, hm, hs, hfails⟩
      · exact .inl ⟨b :: bs, rest, rfl, rfl⟩
      · exact .inr ⟨m + 1, Nat.succ_lt_succ hm, hs, hfails⟩
    · exact .inr ⟨0, n.succ_pos, rfl, hfails⟩

/-- `RC_INIT` does not read `range` and `code`, which it loads, nor `result`: where it completes the five bytes determine them, and where
it fails nothing is left of them (R266). -/
theorem exec_rcInit_forgets (s : State) (r c : Word) (v : Option Nat) :
    exec .rcInit { s with range := r, code := c, result := v } = exec .rcInit s := by
  rcases bytes_or_sourceFails 5 s.source with ⟨bs, rest, hlen, hsource⟩ | ⟨m, hm, hs, k, rest, hfails⟩
  · match bs, hlen with
    | [b0, b1, b2, b3, b4], _ =>
      obtain ⟨d, hinit, hd⟩ := rcInit_bytes hsource
      obtain ⟨d', hinit', hd'⟩ := rcInit_bytes (s := { s with range := r, code := c, result := v }) hsource
      obtain rfl : d' = d := BitVec.eq_of_toNat_eq (hd'.trans hd.symm)
      rw [exec_rcInit, exec_rcInit, hinit, hinit', Res.finish_ok, Res.finish_ok]
  · rw [exec_rcInit_fails hm hs hfails,
      exec_rcInit_fails (s := { s with range := r, code := c, result := v }) hm hs hfails]
    rfl

/-- Settles O8: the initialised streams differ at most in `range`, `code` and `result`, which `RC_INIT` forgets. -/
theorem decodeForgetsThePast : Obligations.DecodeForgetsThePast := by
  unfold Obligations.DecodeForgetsThePast
  intro s s' el hphase hagree
  have hphase' : s'.phase = .configured := by rw [hagree]; exact hphase
  have hstart : startStream el s' =
      { startStream el s with range := s'.range, code := s'.code, result := s'.result } := by
    conv_lhs => rw [hagree]
    rfl
  rw [exec_cmdDecode hphase, exec_cmdDecode hphase', hstart]
  exact exec_rcInit_forgets _ _ _ _

/-! ### Reset (R300) -/

theorem step_of_resetInput {s : State} (h : s.resetInput = true) : step s = .next { resetState s with resetInput := false } :=
  if_pos h

/-- Settles O1: the reset input and the command lead to the reset state, whose ports are those of the state before. -/
theorem resetLeavesPhaseAndStatus : Obligations.ResetLeavesPhaseAndStatus := by
  unfold Obligations.ResetLeavesPhaseAndStatus
  refine ⟨⟨rfl, rfl⟩, fun s hreset => ?_, fun s hphase => ?_⟩
  · exact ⟨_, step_of_resetInput hreset, resetState_phase s, resetState_status s, resetState_sink s, resetState_source s⟩
  · exact ⟨_, exec_cmdReset hphase, resetState_phase s, resetState_status s, resetState_sink s, resetState_source s⟩

end Sys2Proof.Machine
end
